-- ==== Sys2Proof/Word.lean ====
section
/-! DEFINITION. The word types of XDC: bytes of the buffers and raw values (rules R12, R61). -/

namespace Sys2Proof

/-- One byte of a buffer or of a command (rule R61). -/
abbrev Byte := BitVec 8

/-- A raw value: "a floating-point value's bit pattern reinterpreted as an unsigned integer of the same width"
(rule R12). A value of a 32-bit unit stands in the low half, its high half zero. -/
abbrev Raw := BitVec 64

end Sys2Proof
end

