-- ==== Sys2Proof/Config.lean ====
section
/-! DEFINITION. Implementation parameters (rule R10): the units and personalities a machine may be constructed as, the
defaults the spec gives, and the operands State.reset takes for the one CONSTRUCT it stands for. -/

namespace Sys2Proof

/-- `CODEC` (rules R2, R36): the unit a machine is. -/
inductive Codec where
  | gor | chp64 | chp32 | elf64 | elf32
  /-- the bare bit-stream unit (rule R262) -/
  | bs
deriving DecidableEq, Repr

/-- `DIR` (rules R3, R36): the personality of a machine. -/
inductive Dir where
  | enc | dec
deriving DecidableEq, Repr

namespace Config

/-- The default bucket representatives of rule R10, for both widths. -/
def defaultLeadRep : List Nat := [0, 8, 12, 16, 18, 20, 22, 24]

/-- The default of `LOGW` (rule R10): 7 on CHP64 and CHP32; ELF64 and ELF32 have it fixed at 0, and GOR and the bare unit
do not use it (stored as 0, log entry 17). -/
def defaultLogw : Codec → Nat
  | .chp64 | .chp32 => 7
  | .elf64 | .elf32 | .gor | .bs => 0

/-- DESIGN CHOICE (unsafe, log entry 1): the unit State.reset is a machine of. The spec gives CODEC no default. -/
def resetCodec : Codec := .gor

/-- DESIGN CHOICE (unsafe, log entry 1): the personality of State.reset. -/
def resetDir : Dir := .enc

/-- DESIGN CHOICE (unsafe, log entry 1): the capacity of State.reset, the largest legal one (rule R10). -/
def resetCapw : Nat := 134217727

end Config
end Sys2Proof
end

