-- ==== Sys2Proof/Syntax.lean ====
section
/-! DEFINITION. The instructions of XDC: one constructor per row of spec/opcode_table.json. Wire codes carry the fields
of rules R92 to R104, commands the operands of 44_commands.md and 40_bitstream.md. -/

namespace Sys2Proof

/-- Operands of `CONSTRUCT` for `DIR = ENC` (rule R261). The fields are as wide as the command's bytes (log entry 2), so
that every illegal value of rule R10 can be offered and is answered `BadConfig`. -/
structure EncConfig where
  codec  : BitVec 7
  logw   : Byte
  capw   : BitVec 32
  eps    : BitVec 64
  lead64 : List Byte
  lead32 : List Byte
deriving DecidableEq, Repr

/-- Operands of `CONSTRUCT` for `DIR = DEC` (rule R270). -/
structure DecConfig where
  codec  : BitVec 7
  logw   : Byte
  nval   : BitVec 32
  lead64 : List Byte
  lead32 : List Byte
  bytes  : List Byte
deriving DecidableEq, Repr

/-- The rows of the opcode table. -/
inductive Instr where
  -- GOR wire codes (rule R101)
  | gorLit (v : BitVec 64)
  | gorSame
  | gorReuse (payload : BitVec 64)
  | gorNew (lead5 : BitVec 5) (cnt : BitVec 6) (payload : BitVec 64)
  -- CHP64 wire codes (rule R102)
  | chp64Lit (v : BitVec 64)
  | chp64Repeat (slot : BitVec 16)
  | chp64Far (slot : BitVec 16) (b3 : BitVec 3) (cnt : BitVec 6) (payload : BitVec 64)
  | chp64Reuse (payload : BitVec 64)
  | chp64New (b3 : BitVec 3) (payload : BitVec 64)
  -- CHP32 wire codes (rule R102)
  | chp32Lit (v : BitVec 32)
  | chp32Repeat (slot : BitVec 16)
  | chp32Far (slot : BitVec 16) (b3 : BitVec 3) (cnt : BitVec 5) (payload : BitVec 32)
  | chp32Reuse (payload : BitVec 32)
  | chp32New (b3 : BitVec 3) (payload : BitVec 32)
  -- ELF64 erasure codes (rule R103) and XOR-stage records (rule R104)
  | elf64EraseSame
  | elf64Raw
  | elf64EraseNew (bs : BitVec 4)
  | elf64XLit (v : BitVec 64)
  | elf64XRepeat
  | elf64XFar (b3 : BitVec 3) (cnt : BitVec 6) (payload : BitVec 64)
  | elf64XReuse (payload : BitVec 64)
  | elf64XNew (b3 : BitVec 3) (payload : BitVec 64)
  -- ELF32 erasure codes (rule R103) and XOR-stage records (rule R104)
  | elf32EraseSame
  | elf32Raw
  | elf32EraseNew (bs : BitVec 3)
  | elf32XLit (v : BitVec 32)
  | elf32XRepeat
  | elf32XFar (b3 : BitVec 3) (cnt : BitVec 5) (payload : BitVec 32)
  | elf32XReuse (payload : BitVec 32)
  | elf32XNew (b3 : BitVec 3) (payload : BitVec 32)
  -- codec commands (rules R261 to R272)
  | constructEnc (cfg : EncConfig)
  | constructDec (cfg : DecConfig)
  | addValue (v : BitVec 64)
  | close
  | getBytes
  | getSize
  | next
  | decompress
  -- bit-stream unit commands (rules R131 to R145)
  | write (content : BitVec 64) (len : Byte)
  | writeLong (content : BitVec 64) (len : Byte)
  | writeBit (b : Bool)
  | flush
  | getBuffer (byteLen : BitVec 32)
  | load (bytes : List Byte)
  | peek (len : Byte)
  | forward (len : Byte)
  | readInt (len : Byte)
  | readLong (len : Byte)
  | readBit
deriving DecidableEq, Repr

/-- Whether a row is a host command (an 8-bit `CMD`, rule R112) and not a wire code. -/
def Instr.isCommand : Instr → Bool
  | .constructEnc _ | .constructDec _ | .addValue _ | .close | .getBytes | .getSize | .next | .decompress => true
  | .write _ _ | .writeLong _ _ | .writeBit _ | .flush | .getBuffer _ => true
  | .load _ | .peek _ | .forward _ | .readInt _ | .readLong _ | .readBit => true
  | .gorLit _ | .gorSame | .gorReuse _ | .gorNew _ _ _ => false
  | .chp64Lit _ | .chp64Repeat _ | .chp64Far _ _ _ _ | .chp64Reuse _ | .chp64New _ _ => false
  | .chp32Lit _ | .chp32Repeat _ | .chp32Far _ _ _ _ | .chp32Reuse _ | .chp32New _ _ => false
  | .elf64EraseSame | .elf64Raw | .elf64EraseNew _ => false
  | .elf64XLit _ | .elf64XRepeat | .elf64XFar _ _ _ | .elf64XReuse _ | .elf64XNew _ _ => false
  | .elf32EraseSame | .elf32Raw | .elf32EraseNew _ => false
  | .elf32XLit _ | .elf32XRepeat | .elf32XFar _ _ _ | .elf32XReuse _ | .elf32XNew _ _ => false

/-- What a decoder must know of its machine to read the next wire code (rule R100): the unit, the widths' parameters,
the cached window, the place in the block and which ring slots are written. It is plain data taken from the state. -/
structure WireCtx where
  codec  : Codec
  logw   : Nat
  rep    : List Nat
  clead  : Option Nat
  ctrail : Nat
  first  : Bool
  /-- an erasure code has been read and its XOR-stage record has not (ELF only) -/
  mid    : Bool
  slots  : List Nat
deriving DecidableEq, Repr

end Sys2Proof
end

