-- ==== Sys2Proof/Machine/Operands.lean ====
section
/-! DEFINITION. Every operand form of the block: the constants of each unit, bit fields, zero-run counts, bucket
functions, the widths of header fields and payloads, and the floating-point classes of a raw value. -/

namespace Sys2Proof
namespace Machine

/-! ## Constants per unit (rules R10, R11, R181, R221) -/

/-- `N`, the value width (rule R10). A bare bit-stream unit has none; 64 is not read there. -/
def width : Codec → Nat
  | .chp32 | .elf32 => 32
  | .gor | .chp64 | .elf64 | .bs => 64

/-- The codec has a Chimp ring: CHP and ELF machines (rules R24 to R26). -/
def hasRing : Codec → Bool
  | .chp64 | .chp32 | .elf64 | .elf32 => true
  | .gor | .bs => false

/-- The codec is ELF64 or ELF32. -/
def isElf : Codec → Bool
  | .elf64 | .elf32 => true
  | .gor | .chp64 | .chp32 | .bs => false

/-- The numbers 0 to 5 of `CODEC` (rule R36); 6 and above name no unit. -/
def codecOf (c : Nat) : Option Codec :=
  match c with
  | 0 => some .gor
  | 1 => some .chp64
  | 2 => some .chp32
  | 3 => some .elf64
  | 4 => some .elf32
  | 5 => some .bs
  | _ => none

/-- The number of `CODEC` (rule R36). -/
def codecCode : Codec → Nat
  | .gor => 0
  | .chp64 => 1
  | .chp32 => 2
  | .elf64 => 3
  | .elf32 => 4
  | .bs => 5

/-- `T`, the far-match threshold (rules R10, R181). -/
def threshold (n logw : Nat) : Nat := if n = 64 then 6 + logw else 5 + logw

/-- `KEYBITS = T + 1` (rule R11). -/
def keyBits (n logw : Nat) : Nat := threshold n logw + 1

/-- `CNTBITS`, the width of the significant-bit count (rules R11, R93). -/
def cntBits (n : Nat) : Nat := if n = 64 then 6 else 5

/-- `FLAGZERO`, the length of a REPEAT record (rule R11). -/
def flagZero (logw : Nat) : Nat := logw + 2

/-- `FLAGONE`, the length of a FAR header (rules R11, R181). -/
def flagOne (n logw : Nat) : Nat := if n = 64 then logw + 11 else logw + 10

/-- `W`, the ring size (rule R10). -/
def ringSize (logw : Nat) : Nat := 2 ^ logw

/-- `MB`, the mantissa bits of the format (rule R11). -/
def mantBits (n : Nat) : Nat := if n = 64 then 52 else 23

/-- `EB`, the exponent bits of the format (rule R11). -/
def expBits (n : Nat) : Nat := if n = 64 then 11 else 8

/-- `BIAS` of the format (rule R11). -/
def bias (n : Nat) : Nat := if n = 64 then 1023 else 127

/-- `QNAN`, the sentinel (rules R11, R168, R191). -/
def qnan (n : Nat) : Raw := if n = 64 then 0x7FF8000000000000 else 0x7FC00000

/-- `MINERASE` (rules R10, R221). -/
def minErase (n : Nat) : Nat := if n = 64 then 4 else 3

/-- `BSBITS`, the width of the betaStar field (rules R10, R99, R221). -/
def bsBits (n : Nat) : Nat := if n = 64 then 4 else 3

/-- `BMAX = 2^BSBITS - 1` (rule R221). -/
def bMax (n : Nat) : Nat := 2 ^ bsBits n - 1

/-! ## Bit fields (rules R13, R60, R91) -/

/-- The unsigned number a bit string stands for, first bit most significant (rule R91). -/
def natOfBits (bs : List Bool) : Nat := bs.foldl (fun acc b => 2 * acc + b.toNat) 0

/-- The low `len` bits of `v` in stream order, most significant first (rule R60). -/
def bitsOf (len v : Nat) : List Bool := (List.range len).map fun i => v.testBit (len - 1 - i)

/-- The first `n` bits of a bit string as a number, with the rest; none when fewer are left. -/
def takeBits (n : Nat) (bs : List Bool) : Option (Nat × List Bool) :=
  if n ≤ bs.length then some (natOfBits (bs.take n), bs.drop n) else none

/-- The eight bits of a byte in stream order (rule R61). -/
def bitsOfByte (b : Byte) : List Bool := bitsOf 8 b.toNat

/-- `lowbits(v, n)`: the value with every bit at position `n` and above cleared (rule R13). -/
def lowBits (n : Nat) (v : Raw) : Raw := BitVec.ofNat 64 (v.toNat % 2 ^ n)

/-- `n` bytes of a number, most significant first (rule R63). -/
def bytesBE : Nat → Nat → List Byte
  | 0, _ => []
  | n + 1, v => BitVec.ofNat 8 (v >>> (8 * n)) :: bytesBE n v

/-- The number that bytes stand for, most significant first (rule R63). -/
def natOfBytes (bs : List Byte) : Nat := bs.foldl (fun acc b => 256 * acc + b.toNat) 0

/-! ## Zero runs (rule R14) -/

/-- `clz_n(x)`: the zero bits above the highest set bit of an `n`-bit value; `n` at zero (rule R14). -/
def clz (n : Nat) (x : Raw) : Nat := ((List.range n).find? fun i => x.getLsbD (n - 1 - i)).getD n

/-- `ctz_n(x)`: the zero bits below the lowest set bit of an `n`-bit value; `n` at zero (rule R14). -/
def ctz (n : Nat) (x : Raw) : Nat := ((List.range n).find? fun i => x.getLsbD i).getD n

/-! ## Header fields (rules R93 to R99) -/

/-- `LEAD_REP_N[i]`. -/
def leadOf (rep : List Nat) (i : Nat) : Nat := rep.getD i 0

/-- `bucket_N(c)`: the largest `i` in 0..7 with `LEAD_REP_N[i] <= c` (rule R96). -/
def bucket (rep : List Nat) (c : Nat) : Nat :=
  ([7, 6, 5, 4, 3, 2, 1, 0].find? fun i => decide (leadOf rep i ≤ c)).getD 0

/-- `rep_N(c)`: the representative of the bucket of `c` (rule R96). -/
def repOf (rep : List Nat) (c : Nat) : Nat := leadOf rep (bucket rep c)

/-- A table rule R10 allows: 8 strictly increasing entries, the first 0, the last at most 31. -/
def legalLeadRep (rep : List Nat) : Bool :=
  decide (rep.length = 8) && decide (rep.head? = some 0) && decide (rep.Pairwise (· < ·)) && rep.all (· ≤ 31)

/-- Decoding of a count field: 0 stands for `N` (rule R93). -/
def sigOf (n cnt : Nat) : Nat := if cnt = 0 then n else cnt

/-- `key(v) = v[KEYBITS-1:0]` (rule R182). -/
def keyOf (n logw : Nat) (v : Raw) : Nat := v.toNat % 2 ^ keyBits n logw

/-! ## Payload widths (rules R98, R100 to R104)

A record that rule R106 makes illegal has no payload: the rules raise the failure before reading one. -/

/-- GOR REUSE (rules R101, R172). -/
def gorReuseWidth (c : WireCtx) : Nat :=
  match c.clead with
  | none => 0
  | some l => 64 - l - c.ctrail

/-- GOR NEW (rules R101, R173). -/
def gorNewWidth (lead5 cnt : Nat) : Nat :=
  if lead5 + sigOf 64 cnt > 64 then 0 else sigOf 64 cnt

/-- FAR (rules R102, R194). -/
def farWidth (c : WireCtx) (n slot b3 cnt : Nat) : Nat :=
  if leadOf c.rep b3 + sigOf n cnt > n then 0
  else if c.slots.contains slot then sigOf n cnt else 0

/-- CHP REUSE (rules R102, R195). -/
def reuseWidth (c : WireCtx) (n : Nat) : Nat :=
  match c.clead with
  | none => 0
  | some l => n - l

/-- CHP NEW (rules R102, R196). -/
def newWidth (c : WireCtx) (n b3 : Nat) : Nat := n - leadOf c.rep b3

/-! ## Classes of a raw value (rule R16) -/

/-- The exponent field `e`. -/
def expField (n : Nat) (v : Raw) : Nat := v.toNat / 2 ^ mantBits n % 2 ^ expBits n

/-- The mantissa field `m`. -/
def mantField (n : Nat) (v : Raw) : Nat := v.toNat % 2 ^ mantBits n

/-- The sign bit `s`. -/
def signBit (n : Nat) (v : Raw) : Bool := v.getLsbD (n - 1)

/-- `isNaN(v)` (rule R16). -/
def isNaN (n : Nat) (v : Raw) : Bool := expField n v == 2 ^ expBits n - 1 && mantField n v != 0

/-- `isInf(v)` (rule R16). -/
def isInf (n : Nat) (v : Raw) : Bool := expField n v == 2 ^ expBits n - 1 && mantField n v == 0

/-- `isZero(v)`, both zeros (rule R16). -/
def isZero (n : Nat) (v : Raw) : Bool := v.toNat % 2 ^ (n - 1) == 0

/-- The EPS values rules R10 and R261 allow: finite and not negative, -0 included. -/
def legalEps (eps : Raw) : Bool :=
  !(isNaN 64 eps || isInf 64 eps || (signBit 64 eps && !isZero 64 eps))

end Machine
end Sys2Proof
end

