-- ==== Sys2Proof/WellFormed.lean ====
section
/-! DEFINITION. Well-formed instructions: every field has a value the encodings of 30_encoding.md admit at this place of
the stream, every command operand a value its command bytes hold. -/

namespace Sys2Proof

/-- A ring slot number fits LOGW bits (rule R97). -/
def wfSlot (c : WireCtx) (slot : Nat) : Bool := slot < 2 ^ c.logw

/-- A payload fits its width (rule R98). -/
def wfPayload (width payload : Nat) : Bool := payload < 2 ^ width

/-- A record of a CHP unit, and the XOR-stage record of an ELF unit, at its place: LIT first, the others after it
(rule R90); an XOR-stage record follows an erasure code. -/
def wfPlace (c : WireCtx) (codec : Codec) (lit mid : Bool) : Bool :=
  c.codec == codec && c.first == lit && c.mid == mid

/-- An erasure code stands at the start of an ELF record (rule R103). -/
def wfErasure (c : WireCtx) (codec : Codec) : Bool := c.codec == codec && !c.mid

/-- The tables of CONSTRUCT have eight entries (rule R10); the command bytes hold exactly eight. -/
def wfTables (lead64 lead32 : List Byte) : Bool := lead64.length == 8 && lead32.length == 8

/-- A byte sequence whose length the four length bytes hold (log entry 2). -/
def wfBytes (bytes : List Byte) : Bool := bytes.length < 2 ^ 32

/-- Whether an instruction can stand at the place `c` of a stream (wire codes) or in a command (commands). -/
def wellFormed (c : WireCtx) : Instr → Bool
  | .gorLit _ => wfPlace c .gor true false
  | .gorSame => wfPlace c .gor false false
  | .gorReuse p => wfPlace c .gor false false && wfPayload (Machine.gorReuseWidth c) p.toNat
  | .gorNew l n p => wfPlace c .gor false false && wfPayload (Machine.gorNewWidth l.toNat n.toNat) p.toNat
  | .chp64Lit _ => wfPlace c .chp64 true false
  | .chp64Repeat s => wfPlace c .chp64 false false && wfSlot c s.toNat
  | .chp64Far s b n p =>
    wfPlace c .chp64 false false && wfSlot c s.toNat && wfPayload (Machine.farWidth c 64 s.toNat b.toNat n.toNat) p.toNat
  | .chp64Reuse p => wfPlace c .chp64 false false && wfPayload (Machine.reuseWidth c 64) p.toNat
  | .chp64New b p => wfPlace c .chp64 false false && wfPayload (Machine.newWidth c 64 b.toNat) p.toNat
  | .chp32Lit _ => wfPlace c .chp32 true false
  | .chp32Repeat s => wfPlace c .chp32 false false && wfSlot c s.toNat
  | .chp32Far s b n p =>
    wfPlace c .chp32 false false && wfSlot c s.toNat && wfPayload (Machine.farWidth c 32 s.toNat b.toNat n.toNat) p.toNat
  | .chp32Reuse p => wfPlace c .chp32 false false && wfPayload (Machine.reuseWidth c 32) p.toNat
  | .chp32New b p => wfPlace c .chp32 false false && wfPayload (Machine.newWidth c 32 b.toNat) p.toNat
  | .elf64EraseSame => wfErasure c .elf64
  | .elf64Raw => wfErasure c .elf64
  | .elf64EraseNew _ => wfErasure c .elf64
  | .elf64XLit _ => wfPlace c .elf64 true true
  | .elf64XRepeat => wfPlace c .elf64 false true
  | .elf64XFar b n p => wfPlace c .elf64 false true && wfPayload (Machine.farWidth c 64 0 b.toNat n.toNat) p.toNat
  | .elf64XReuse p => wfPlace c .elf64 false true && wfPayload (Machine.reuseWidth c 64) p.toNat
  | .elf64XNew b p => wfPlace c .elf64 false true && wfPayload (Machine.newWidth c 64 b.toNat) p.toNat
  | .elf32EraseSame => wfErasure c .elf32
  | .elf32Raw => wfErasure c .elf32
  | .elf32EraseNew _ => wfErasure c .elf32
  | .elf32XLit _ => wfPlace c .elf32 true true
  | .elf32XRepeat => wfPlace c .elf32 false true
  | .elf32XFar b n p => wfPlace c .elf32 false true && wfPayload (Machine.farWidth c 32 0 b.toNat n.toNat) p.toNat
  | .elf32XReuse p => wfPlace c .elf32 false true && wfPayload (Machine.reuseWidth c 32) p.toNat
  | .elf32XNew b p => wfPlace c .elf32 false true && wfPayload (Machine.newWidth c 32 b.toNat) p.toNat
  | .constructEnc cfg => wfTables cfg.lead64 cfg.lead32
  | .constructDec cfg => wfTables cfg.lead64 cfg.lead32 && wfBytes cfg.bytes
  | .load bytes => wfBytes bytes
  | .addValue _ | .close | .getBytes | .getSize | .next | .decompress => true
  | .write _ _ | .writeLong _ _ | .writeBit _ | .flush | .getBuffer _ => true
  | .peek _ | .forward _ | .readInt _ | .readLong _ | .readBit => true

end Sys2Proof
end

