-- ==== Sys2Proof/Decode.lean ====
section
/-! DEFINITION. The decoder and the encoder: wire codes from stream bits (rules R90 to R106), commands from the bytes of
the command port (rule R112; operand layout: log entry 2). Both decoders are total and refuse by name. -/

namespace Sys2Proof

open Machine

/-! ## Wire codes -/

/-- GOR wire codes after the first value (rules R101, R170). -/
def decodeGor (c : WireCtx) (bs : List Bool) : Option (Instr × List Bool) :=
  match takeBits 1 bs with
  | none => none
  | some (0, r) => some (.gorSame, r)
  | some (_, r) =>
    match takeBits 1 r with
    | none => none
    | some (0, r) => (takeBits (gorReuseWidth c) r).map fun q => (.gorReuse (BitVec.ofNat 64 q.1), q.2)
    | some (_, r) =>
      (takeBits 5 r).bind fun l => (takeBits 6 l.2).bind fun n =>
        (takeBits (gorNewWidth l.1 n.1) n.2).map fun q =>
          (.gorNew (BitVec.ofNat 5 l.1) (BitVec.ofNat 6 n.1) (BitVec.ofNat 64 q.1), q.2)

/-- CHP64 wire codes after the first value (rules R102, R192 to R196). -/
def decodeChp64 (c : WireCtx) (bs : List Bool) : Option (Instr × List Bool) :=
  match takeBits 2 bs with
  | none => none
  | some (0, r) => (takeBits c.logw r).map fun s => (.chp64Repeat (BitVec.ofNat 16 s.1), s.2)
  | some (1, r) =>
    (takeBits c.logw r).bind fun s => (takeBits 3 s.2).bind fun b => (takeBits 6 b.2).bind fun n =>
      (takeBits (farWidth c 64 s.1 b.1 n.1) n.2).map fun q =>
        (.chp64Far (BitVec.ofNat 16 s.1) (BitVec.ofNat 3 b.1) (BitVec.ofNat 6 n.1) (BitVec.ofNat 64 q.1), q.2)
  | some (2, r) => (takeBits (reuseWidth c 64) r).map fun q => (.chp64Reuse (BitVec.ofNat 64 q.1), q.2)
  | some (_, r) =>
    (takeBits 3 r).bind fun b => (takeBits (newWidth c 64 b.1) b.2).map fun q =>
      (.chp64New (BitVec.ofNat 3 b.1) (BitVec.ofNat 64 q.1), q.2)

/-- CHP32 wire codes after the first value (rules R102, R192 to R196, constants of R181). -/
def decodeChp32 (c : WireCtx) (bs : List Bool) : Option (Instr × List Bool) :=
  match takeBits 2 bs with
  | none => none
  | some (0, r) => (takeBits c.logw r).map fun s => (.chp32Repeat (BitVec.ofNat 16 s.1), s.2)
  | some (1, r) =>
    (takeBits c.logw r).bind fun s => (takeBits 3 s.2).bind fun b => (takeBits 5 b.2).bind fun n =>
      (takeBits (farWidth c 32 s.1 b.1 n.1) n.2).map fun q =>
        (.chp32Far (BitVec.ofNat 16 s.1) (BitVec.ofNat 3 b.1) (BitVec.ofNat 5 n.1) (BitVec.ofNat 32 q.1), q.2)
  | some (2, r) => (takeBits (reuseWidth c 32) r).map fun q => (.chp32Reuse (BitVec.ofNat 32 q.1), q.2)
  | some (_, r) =>
    (takeBits 3 r).bind fun b => (takeBits (newWidth c 32 b.1) b.2).map fun q =>
      (.chp32New (BitVec.ofNat 3 b.1) (BitVec.ofNat 32 q.1), q.2)

/-- ELF64 erasure codes (rules R103, R231). -/
def decodeErase64 (bs : List Bool) : Option (Instr × List Bool) :=
  match takeBits 1 bs with
  | none => none
  | some (0, r) => some (.elf64EraseSame, r)
  | some (_, r) =>
    match takeBits 1 r with
    | none => none
    | some (0, r) => some (.elf64Raw, r)
    | some (_, r) => (takeBits 4 r).map fun b => (.elf64EraseNew (BitVec.ofNat 4 b.1), b.2)

/-- ELF32 erasure codes (rules R103, R231). -/
def decodeErase32 (bs : List Bool) : Option (Instr × List Bool) :=
  match takeBits 1 bs with
  | none => none
  | some (0, r) => some (.elf32EraseSame, r)
  | some (_, r) =>
    match takeBits 1 r with
    | none => none
    | some (0, r) => some (.elf32Raw, r)
    | some (_, r) => (takeBits 3 r).map fun b => (.elf32EraseNew (BitVec.ofNat 3 b.1), b.2)

/-- ELF64 XOR-stage records after the first (rule R104: the CHP64 record with LOGW = 0, no slot field). -/
def decodeX64 (c : WireCtx) (bs : List Bool) : Option (Instr × List Bool) :=
  match takeBits 2 bs with
  | none => none
  | some (0, r) => some (.elf64XRepeat, r)
  | some (1, r) =>
    (takeBits 3 r).bind fun b => (takeBits 6 b.2).bind fun n =>
      (takeBits (farWidth c 64 0 b.1 n.1) n.2).map fun q =>
        (.elf64XFar (BitVec.ofNat 3 b.1) (BitVec.ofNat 6 n.1) (BitVec.ofNat 64 q.1), q.2)
  | some (2, r) => (takeBits (reuseWidth c 64) r).map fun q => (.elf64XReuse (BitVec.ofNat 64 q.1), q.2)
  | some (_, r) =>
    (takeBits 3 r).bind fun b => (takeBits (newWidth c 64 b.1) b.2).map fun q =>
      (.elf64XNew (BitVec.ofNat 3 b.1) (BitVec.ofNat 64 q.1), q.2)

/-- ELF32 XOR-stage records after the first (rule R104). -/
def decodeX32 (c : WireCtx) (bs : List Bool) : Option (Instr × List Bool) :=
  match takeBits 2 bs with
  | none => none
  | some (0, r) => some (.elf32XRepeat, r)
  | some (1, r) =>
    (takeBits 3 r).bind fun b => (takeBits 5 b.2).bind fun n =>
      (takeBits (farWidth c 32 0 b.1 n.1) n.2).map fun q =>
        (.elf32XFar (BitVec.ofNat 3 b.1) (BitVec.ofNat 5 n.1) (BitVec.ofNat 32 q.1), q.2)
  | some (2, r) => (takeBits (reuseWidth c 32) r).map fun q => (.elf32XReuse (BitVec.ofNat 32 q.1), q.2)
  | some (_, r) =>
    (takeBits 3 r).bind fun b => (takeBits (newWidth c 32 b.1) b.2).map fun q =>
      (.elf32XNew (BitVec.ofNat 3 b.1) (BitVec.ofNat 32 q.1), q.2)

/-- A literal of 64 bits (rule R92). -/
def decodeLit64 (mk : BitVec 64 → Instr) (bs : List Bool) : Option (Instr × List Bool) :=
  (takeBits 64 bs).map fun v => (mk (BitVec.ofNat 64 v.1), v.2)

/-- A literal of 32 bits (rule R92). -/
def decodeLit32 (mk : BitVec 32 → Instr) (bs : List Bool) : Option (Instr × List Bool) :=
  (takeBits 32 bs).map fun v => (mk (BitVec.ofNat 32 v.1), v.2)

/-- The wire code at the head of a bit string, with the bits after it (rule R100). None where the unit has no wire
codes (the bare bit-stream unit) or where the string ends inside the record. -/
def decodeWire (c : WireCtx) (bs : List Bool) : Option (Instr × List Bool) :=
  match c.codec with
  | .bs => none
  | .gor => if c.first then decodeLit64 .gorLit bs else decodeGor c bs
  | .chp64 => if c.first then decodeLit64 .chp64Lit bs else decodeChp64 c bs
  | .chp32 => if c.first then decodeLit32 .chp32Lit bs else decodeChp32 c bs
  | .elf64 =>
    if c.mid then if c.first then decodeLit64 .elf64XLit bs else decodeX64 c bs
    else decodeErase64 bs
  | .elf32 =>
    if c.mid then if c.first then decodeLit32 .elf32XLit bs else decodeX32 c bs
    else decodeErase32 bs

/-- The bits of a well-formed wire code (rules R101 to R104); nothing for a command. -/
def encodeWire (c : WireCtx) : Instr → List Bool
  | .gorLit v => bitsOf 64 v.toNat
  | .gorSame => [false]
  | .gorReuse p => [true, false] ++ bitsOf (gorReuseWidth c) p.toNat
  | .gorNew l n p =>
    [true, true] ++ bitsOf 5 l.toNat ++ bitsOf 6 n.toNat ++ bitsOf (gorNewWidth l.toNat n.toNat) p.toNat
  | .chp64Lit v => bitsOf 64 v.toNat
  | .chp64Repeat s => [false, false] ++ bitsOf c.logw s.toNat
  | .chp64Far s b n p =>
    [false, true] ++ bitsOf c.logw s.toNat ++ bitsOf 3 b.toNat ++ bitsOf 6 n.toNat
      ++ bitsOf (farWidth c 64 s.toNat b.toNat n.toNat) p.toNat
  | .chp64Reuse p => [true, false] ++ bitsOf (reuseWidth c 64) p.toNat
  | .chp64New b p => [true, true] ++ bitsOf 3 b.toNat ++ bitsOf (newWidth c 64 b.toNat) p.toNat
  | .chp32Lit v => bitsOf 32 v.toNat
  | .chp32Repeat s => [false, false] ++ bitsOf c.logw s.toNat
  | .chp32Far s b n p =>
    [false, true] ++ bitsOf c.logw s.toNat ++ bitsOf 3 b.toNat ++ bitsOf 5 n.toNat
      ++ bitsOf (farWidth c 32 s.toNat b.toNat n.toNat) p.toNat
  | .chp32Reuse p => [true, false] ++ bitsOf (reuseWidth c 32) p.toNat
  | .chp32New b p => [true, true] ++ bitsOf 3 b.toNat ++ bitsOf (newWidth c 32 b.toNat) p.toNat
  | .elf64EraseSame => [false]
  | .elf64Raw => [true, false]
  | .elf64EraseNew b => [true, true] ++ bitsOf 4 b.toNat
  | .elf64XLit v => bitsOf 64 v.toNat
  | .elf64XRepeat => [false, false]
  | .elf64XFar b n p =>
    [false, true] ++ bitsOf 3 b.toNat ++ bitsOf 6 n.toNat ++ bitsOf (farWidth c 64 0 b.toNat n.toNat) p.toNat
  | .elf64XReuse p => [true, false] ++ bitsOf (reuseWidth c 64) p.toNat
  | .elf64XNew b p => [true, true] ++ bitsOf 3 b.toNat ++ bitsOf (newWidth c 64 b.toNat) p.toNat
  | .elf32EraseSame => [false]
  | .elf32Raw => [true, false]
  | .elf32EraseNew b => [true, true] ++ bitsOf 3 b.toNat
  | .elf32XLit v => bitsOf 32 v.toNat
  | .elf32XRepeat => [false, false]
  | .elf32XFar b n p =>
    [false, true] ++ bitsOf 3 b.toNat ++ bitsOf 5 n.toNat ++ bitsOf (farWidth c 32 0 b.toNat n.toNat) p.toNat
  | .elf32XReuse p => [true, false] ++ bitsOf (reuseWidth c 32) p.toNat
  | .elf32XNew b p => [true, true] ++ bitsOf 3 b.toNat ++ bitsOf (newWidth c 32 b.toNat) p.toNat
  | .constructEnc _ | .constructDec _ | .addValue _ | .close | .getBytes | .getSize | .next | .decompress => []
  | .write _ _ | .writeLong _ _ | .writeBit _ | .flush | .getBuffer _ => []
  | .load _ | .peek _ | .forward _ | .readInt _ | .readLong _ | .readBit => []

/-! ## Commands -/

/-- What the head of the command port holds. -/
inductive Decoded where
  /-- a command and the bytes after it -/
  | command (i : Instr) (rest : List Byte)
  /-- a byte that is no `CMD` of rule R112, and the bytes after it -/
  | notCommand (cmd : Byte) (rest : List Byte)
  /-- the bytes end inside a command -/
  | incomplete
deriving DecidableEq, Repr

/-- The first `n` bytes and the rest; none when fewer are there. -/
def takeBytes (n : Nat) (bs : List Byte) : Option (List Byte × List Byte) :=
  if n ≤ bs.length then some (bs.take n, bs.drop n) else none

/-- An unsigned operand of `n` bytes, most significant first, and the rest. -/
def takeNat (n : Nat) (bs : List Byte) : Option (Nat × List Byte) :=
  (takeBytes n bs).map fun q => (natOfBytes q.1, q.2)

/-- A byte sequence behind its four length bytes (operand of CONSTRUCT.DEC and LOAD). -/
def takeSeq (bs : List Byte) : Option (List Byte × List Byte) :=
  (takeNat 4 bs).bind fun n => takeBytes n.1 n.2

/-- Operands of CONSTRUCT after `CMD`: the configuration byte (DIR its top bit, CODEC the other seven), LOGW, then
CAPW and EPS (encoder) or NVAL (decoder), the two tables, and for a decoder the byte sequence. -/
def decodeConstruct (ops : List Byte) : Option (Instr × List Byte) :=
  (takeNat 1 ops).bind fun g => (takeNat 1 g.2).bind fun w =>
    if g.1 < 128 then
      (takeNat 4 w.2).bind fun k => (takeNat 8 k.2).bind fun e =>
        (takeBytes 8 e.2).bind fun t => (takeBytes 8 t.2).map fun u =>
          (.constructEnc
            { codec := BitVec.ofNat 7 g.1, logw := BitVec.ofNat 8 w.1, capw := BitVec.ofNat 32 k.1,
              eps := BitVec.ofNat 64 e.1, lead64 := t.1, lead32 := u.1 }, u.2)
    else
      (takeNat 4 w.2).bind fun k => (takeBytes 8 k.2).bind fun t => (takeBytes 8 t.2).bind fun u =>
        (takeSeq u.2).map fun q =>
          (.constructDec
            { codec := BitVec.ofNat 7 g.1, logw := BitVec.ofNat 8 w.1, nval := BitVec.ofNat 32 k.1,
              lead64 := t.1, lead32 := u.1, bytes := q.1 }, q.2)

/-- A command whose one operand is a length byte. -/
def decodeLen (mk : Byte → Instr) (ops : List Byte) : Option (Instr × List Byte) :=
  (takeNat 1 ops).map fun n => (mk (BitVec.ofNat 8 n.1), n.2)

/-- WRITE and WRITELONG: eight bytes of content and a length byte. -/
def decodeWrite (mk : BitVec 64 → Byte → Instr) (ops : List Byte) : Option (Instr × List Byte) :=
  (takeNat 8 ops).bind fun c => (takeNat 1 c.2).map fun n => (mk (BitVec.ofNat 64 c.1) (BitVec.ofNat 8 n.1), n.2)

/-- The command with number `cmd` and its operands (rule R112); none where the operands are cut short, the outer none
where `cmd` is no command. -/
def decodeCmd (cmd : Nat) (ops : List Byte) : Option (Option (Instr × List Byte)) :=
  match cmd with
  | 0x01 => some (decodeConstruct ops)
  | 0x02 => some ((takeNat 8 ops).map fun v => (.addValue (BitVec.ofNat 64 v.1), v.2))
  | 0x03 => some (some (.close, ops))
  | 0x04 => some (some (.getBytes, ops))
  | 0x05 => some (some (.getSize, ops))
  | 0x06 => some (some (.next, ops))
  | 0x07 => some (some (.decompress, ops))
  | 0x10 => some (decodeWrite .write ops)
  | 0x11 => some (decodeWrite .writeLong ops)
  | 0x12 => some ((takeNat 1 ops).map fun b => (.writeBit (b.1.testBit 0), b.2))
  | 0x13 => some (some (.flush, ops))
  | 0x14 => some ((takeNat 4 ops).map fun n => (.getBuffer (BitVec.ofNat 32 n.1), n.2))
  | 0x18 => some ((takeSeq ops).map fun q => (.load q.1, q.2))
  | 0x19 => some (decodeLen .peek ops)
  | 0x1A => some (decodeLen .forward ops)
  | 0x1B => some (decodeLen .readInt ops)
  | 0x1C => some (decodeLen .readLong ops)
  | 0x1D => some (some (.readBit, ops))
  | _ => none

/-- The command at the head of the command port. -/
def decode (bs : List Byte) : Decoded :=
  match bs with
  | [] => .incomplete
  | cmd :: ops =>
    match decodeCmd cmd.toNat ops with
    | none => .notCommand cmd ops
    | some none => .incomplete
    | some (some (i, rest)) => .command i rest

/-- The command bytes of a command (rule R112 and log entry 2); nothing for a wire code. -/
def encode : Instr → List Byte
  | .constructEnc g =>
    [0x01, BitVec.ofNat 8 g.codec.toNat, g.logw] ++ bytesBE 4 g.capw.toNat ++ bytesBE 8 g.eps.toNat ++ g.lead64 ++ g.lead32
  | .constructDec g =>
    [0x01, BitVec.ofNat 8 (128 + g.codec.toNat), g.logw] ++ bytesBE 4 g.nval.toNat ++ g.lead64 ++ g.lead32
      ++ bytesBE 4 g.bytes.length ++ g.bytes
  | .addValue v => 0x02 :: bytesBE 8 v.toNat
  | .close => [0x03]
  | .getBytes => [0x04]
  | .getSize => [0x05]
  | .next => [0x06]
  | .decompress => [0x07]
  | .write c n => 0x10 :: bytesBE 8 c.toNat ++ [n]
  | .writeLong c n => 0x11 :: bytesBE 8 c.toNat ++ [n]
  | .writeBit b => [0x12, BitVec.ofNat 8 b.toNat]
  | .flush => [0x13]
  | .getBuffer n => 0x14 :: bytesBE 4 n.toNat
  | .load bs => 0x18 :: bytesBE 4 bs.length ++ bs
  | .peek n => [0x19, n]
  | .forward n => [0x1A, n]
  | .readInt n => [0x1B, n]
  | .readLong n => [0x1C, n]
  | .readBit => [0x1D]
  | .gorLit _ | .gorSame | .gorReuse _ | .gorNew _ _ _ => []
  | .chp64Lit _ | .chp64Repeat _ | .chp64Far _ _ _ _ | .chp64Reuse _ | .chp64New _ _ => []
  | .chp32Lit _ | .chp32Repeat _ | .chp32Far _ _ _ _ | .chp32Reuse _ | .chp32New _ _ => []
  | .elf64EraseSame | .elf64Raw | .elf64EraseNew _ => []
  | .elf64XLit _ | .elf64XRepeat | .elf64XFar _ _ _ | .elf64XReuse _ | .elf64XNew _ _ => []
  | .elf32EraseSame | .elf32Raw | .elf32EraseNew _ => []
  | .elf32XLit _ | .elf32XRepeat | .elf32XFar _ _ _ | .elf32XReuse _ | .elf32XNew _ _ => []

/-! ## Words of the opcode table (log entry 3) -/

/-- The bytes of a table word: bits 7..0 first. -/
def bytesOfWord (nbits w : Nat) : List Byte :=
  (List.range ((nbits + 7) / 8)).map fun k => BitVec.ofNat 8 (w >>> (8 * k))

/-- A table word as command bytes, zero operand bytes behind it. -/
def commandBytes (nbits w : Nat) : List Byte := bytesOfWord nbits w ++ List.replicate 32 0

/-- The place of a stream at which a table word without a command is read: the first record of a block of `codec`, or
a GOR record after the first value. -/
def tableCtx (codec : Codec) (first : Bool) : WireCtx :=
  { codec := codec, logw := Config.defaultLogw codec, rep := Config.defaultLeadRep, clead := none, ctrail := 0,
    first := first, mid := false, slots := [] }

/-- The place at which a table word of `nbits` bits is read as a wire code: 64-bit and 32-bit words are the literals of
GOR and CHP32, the word 0 is GOR.SAME; every other word is a command word (log entry 3). -/
def tablePlace (nbits w : Nat) : Option WireCtx :=
  if nbits = 64 then some (tableCtx .gor true)
  else if nbits = 32 then some (tableCtx .chp32 true)
  else if w = 0 then some (tableCtx .gor false)
  else none

/-- The instruction the decoder reads from a word of the opcode table. -/
def decodeTableWord (nbits w : Nat) : Option Instr :=
  match tablePlace nbits w with
  | some c => (decodeWire c (bitsOf nbits w)).map Prod.fst
  | none =>
    match decode (commandBytes nbits w) with
    | .command i _ => some i
    | .notCommand _ _ => none
    | .incomplete => none

end Sys2Proof
end

