-- ==== Sys2Proof/Machine/State.lean ====
section
/-! DEFINITION. The state of one machine as 10_state.md and rule R321 list it, the failures of 60_exceptions.md, the
responses of 44_commands.md, and the state right after CONSTRUCT, which is reset (rule R320). -/

namespace Sys2Proof
namespace Machine

/-- `PHASE` (rules R34, R35). -/
inductive Phase where
  /-- encoder accepting values -/
  | opened
  /-- encoder finalised, output readable -/
  | closed
  /-- decoder with values to come -/
  | ready
  /-- decoder at the end of its block -/
  | done
  /-- a failure other than UsageError has been raised (rule R300) -/
  | fault
deriving DecidableEq, Repr

/-- The failures of rule R291. -/
inductive FailCode where
  | capacityExceeded | corruptStream | usageError | domainError
deriving DecidableEq, Repr

/-- The sub-causes of rule R292. -/
inductive SubCause where
  | wbuf
  | reuseNoWindow | badWindow | slotUnwritten | eraseNoBetaStar | recoverDomain | pastEnd
  | writeAfterFlush | badLength | secondFlush | notFlushed | reload | badConfig
  | addAfterClose | secondClose | notClosed | wrongDirection | faulted | badCommand
  | nanOrInf
deriving DecidableEq, Repr

/-- The result part of a response `OK(result)` (rules R131 to R145, R260 to R272). -/
inductive Result where
  /-- `OK()` -/
  | unit
  /-- a number: a length written, a size, bits read -/
  | num (n : Nat)
  /-- a byte sequence (GETBUFFER, GETBYTES) -/
  | bytes (bs : List Byte)
  /-- `VALUE(v)` (NEXT) -/
  | value (v : Raw)
  /-- `END` (NEXT) -/
  | endOfBlock
  /-- the values of a block (DECOMPRESS) -/
  | values (vs : List Raw)
deriving DecidableEq, Repr

/-- A response (rule R260). -/
inductive Response where
  | ok (r : Result)
  | fail (code : FailCode) (sub : SubCause)
deriving DecidableEq, Repr

/-- Why a step can stop the model. Neither is a failure of the block (those are next states, rule R300): both stand for
states that no run reaches. -/
inductive Fault where
  /-- Raised by an engine step that would read `PREV` or a ring slot while it is unwritten, which rule R22 says no step
  does. Safe: the model stops where it may not invent a number (93_implementation_defined.md U9). -/
  | unwrittenRead
  /-- Raised by DECOMPRESS when its bound on the number of NEXT runs out, which rule R272 says cannot be. Safe. -/
  | decompressBound
deriving DecidableEq, Repr

/-- Why the model can refuse an instruction. -/
inductive Refusal where
  /-- Raised by `exec` for an instruction without a meaning yet. Safe. No arm raises it. -/
  | notModelled (mnemonic : String)
deriving DecidableEq, Repr

/-- A sparse array: (index, entry) pairs, indices strictly rising. -/
abbrev Table (α : Type) := List (Nat × α)

/-- A buffer as bytes: (address, byte) pairs, addresses strictly rising, no byte 0 listed (log entry 12). -/
abbrev Memory := List Host.Cell

/-- One machine (rule R20), with the command port in front of it. -/
structure State where
  -- the model's own fields (log entries 2, 3, 15)
  /-- command bytes issued by the host and not accepted yet -/
  port : List Byte
  /-- the response of the last command -/
  resp : Option Response
  /-- with no command pending, step runs the wire code at RPOS -/
  wire : Bool
  /-- an ELF record whose erasure code has been executed and whose XOR-stage record has not: was the value erased -/
  pend : Option Bool
  -- parameters (rules R10, R36)
  codec : Codec
  dir : Dir
  logw : Nat
  capw : Nat
  eps : Raw
  nval : Nat
  leadRep64 : List Nat
  leadRep32 : List Nat
  -- status (rules R30, R34, R35)
  phase : Phase
  err : Option FailCode
  errsub : Option SubCause
  size : Nat
  count : Nat
  -- predictor registers (rules R23 to R26)
  first : Bool
  /-- unwritten until the first value is committed (rule R22) -/
  prev : Option Raw
  clead : Option Nat
  ctrail : Nat
  index : Nat
  cur : Nat
  lastbs : Option Nat
  /-- an unlisted slot is unwritten (rules R22, R37) -/
  ring : Table Raw
  /-- an unlisted entry is 0 (rule R38) -/
  idx : Table Nat
  -- bit-stream writer (rules R28, R32, R43, R130)
  wbuf : Memory
  wpos : Nat
  flushed : Bool
  -- bit-stream reader (rules R29, R33, R44)
  rbuf : Memory
  len : Nat
  rpos : Nat
  pastEnd : Bool
  loaded : Bool
deriving DecidableEq, Repr

/-- Reset (rules R320, R321): the state after a CONSTRUCT, here of the machine `Config` names (log entry 1). -/
def State.reset : State where
  port := []
  resp := none
  wire := false
  pend := none
  codec := Config.resetCodec
  dir := Config.resetDir
  logw := Config.defaultLogw Config.resetCodec
  capw := Config.resetCapw
  eps := 0
  nval := 0
  leadRep64 := Config.defaultLeadRep
  leadRep32 := Config.defaultLeadRep
  phase := .opened
  err := none
  errsub := none
  size := 0
  count := 0
  first := true
  prev := none
  clead := none
  ctrail := 0
  index := 0
  cur := 0
  lastbs := none
  ring := []
  idx := []
  wbuf := []
  wpos := 0
  flushed := false
  rbuf := []
  len := 0
  rpos := 0
  pastEnd := false
  loaded := false

end Machine
end Sys2Proof
end

