-- ==== Sys2Proof/Machine/Memory.lean ====
section
/-! DEFINITION. Sparse arrays and buffers: reading, writing, and the one canonical form (log entry 12). -/

namespace Sys2Proof
namespace Machine

/-! ## Sparse arrays -/

/-- The entry at an index. -/
def tableFind {α : Type} (t : Table α) (k : Nat) : Option α :=
  match t with
  | [] => none
  | (j, v) :: r => if j = k then some v else tableFind r k

/-- Set an entry, indices kept rising. -/
def tableInsert {α : Type} (t : Table α) (k : Nat) (v : α) : Table α :=
  match t with
  | [] => [(k, v)]
  | (j, w) :: r => if k < j then (k, v) :: (j, w) :: r else if k = j then (k, v) :: r else (j, w) :: tableInsert r k v

/-- Remove an entry. -/
def tableErase {α : Type} (t : Table α) (k : Nat) : Table α :=
  match t with
  | [] => []
  | (j, w) :: r => if j = k then r else (j, w) :: tableErase r k

/-- Indices strictly rising. -/
abbrev tableSorted {α : Type} (t : Table α) : Prop := t.Pairwise fun a b => a.1 < b.1

/-! ## The hash index (rule R38): an unlisted entry is 0 -/

/-- `IDX[k]`. -/
def idxRead (t : Table Nat) (k : Nat) : Nat := (tableFind t k).getD 0

/-- `IDX[k] <- v`. -/
def idxWrite (t : Table Nat) (k v : Nat) : Table Nat := if v = 0 then tableErase t k else tableInsert t k v

/-! ## Buffers -/

/-- What an unlisted address of a buffer reads as. RBUF: the "all-zero tail" (rule R44). WBUF: a bit not written yet;
no command reads one (rules R43, R135; log entry 12). -/
def memDefault : Byte := 0

/-- The byte at an address. -/
def memRead (m : Memory) (a : Nat) : Byte := (tableFind m a).getD memDefault

/-- Set the byte at an address; the canonical form is kept. -/
def memWrite (m : Memory) (a : Nat) (b : Byte) : Memory := if b = memDefault then tableErase m a else tableInsert m a b

/-- The canonical form: addresses strictly rising, no entry equal to what an unlisted address reads as. -/
abbrev memWf (m : Memory) : Prop := tableSorted m ∧ ∀ c ∈ m, c.2 ≠ memDefault

/-- Bytes handed in by the host, at addresses `a`, `a + 1`, … (rules R66, R140). -/
def memOfBytes (a : Nat) (bs : List Byte) : Memory :=
  match bs with
  | [] => []
  | b :: r => if b = memDefault then memOfBytes (a + 1) r else (a, b) :: memOfBytes (a + 1) r

/-- Bytes `a .. a+n-1` of a buffer (rule R62). -/
def memBytes (m : Memory) (a n : Nat) : List Byte := (List.range n).map fun i => memRead m (a + i)

/-- Stream bit `p` of a buffer: bit `7 - p mod 8` of byte `p div 8` (rule R61). -/
def memBit (m : Memory) (p : Nat) : Bool := (memRead m (p / 8)).getLsbD (7 - p % 8)

/-- A byte with the bit at position `k` set to `b`. -/
def byteSetBit (x : Byte) (k : Nat) (b : Bool) : Byte :=
  (x &&& ~~~((1 : Byte) <<< k)) ||| (if b then (1 : Byte) <<< k else 0)

/-- Set stream bit `p` of a buffer (rule R61). -/
def memSetBit (m : Memory) (p : Nat) (b : Bool) : Memory :=
  memWrite m (p / 8) (byteSetBit (memRead m (p / 8)) (7 - p % 8) b)

/-- Append a bit string at stream position `p` (rule R60). -/
def memSetBits (m : Memory) (p : Nat) (bs : List Bool) : Memory :=
  match bs with
  | [] => m
  | b :: r => memSetBits (memSetBit m p b) (p + 1) r

end Machine
end Sys2Proof
end

