-- ==== Sys2Proof/Machine/Flags.lean ====
section
/-! DEFINITION. Flags and legality: PAST_END, the phase table of rule R262, the failure numbers of rule R291. There are
no arithmetic condition codes (rule R31). -/

namespace Sys2Proof
namespace Machine

/-- The number of a failure (rule R291). -/
def failNumber : FailCode → Nat
  | .capacityExceeded => 1
  | .corruptStream => 2
  | .usageError => 3
  | .domainError => 4

/-- Whether a failure enters FAULT (rule R291). -/
def entersFault : FailCode → Bool
  | .usageError => false
  | .capacityExceeded | .corruptStream | .domainError => true

/-- `LENBITS = 8 * LEN` (rule R33). -/
def State.lenBits (s : State) : Nat := 8 * s.len

/-- `PAST_END` after the cursor has moved to `rpos`: sticky, set when the cursor is beyond LENBITS (rules R33, R142). -/
def pastEndAt (s : State) (rpos : Nat) : Bool := s.pastEnd || decide (s.lenBits < rpos)

/-- ADDVALUE and CLOSE by phase (rule R262): none where legal, else the sub-cause; `closed` is the answer in CLOSED. -/
def admitEncoder (closed : SubCause) (s : State) : Option SubCause :=
  if s.phase = .fault then some .faulted
  else if s.codec = .bs then some .badCommand
  else if s.dir = .dec then some .wrongDirection
  else if s.phase = .closed then some closed
  else none

/-- GETBYTES by phase (rule R262). -/
def admitGetBytes (s : State) : Option SubCause :=
  if s.phase = .fault then some .faulted
  else if s.codec = .bs then some .badCommand
  else if s.dir = .dec then some .wrongDirection
  else if s.phase = .closed then none
  else some .notClosed

/-- GETSIZE by phase (rule R262). -/
def admitGetSize (s : State) : Option SubCause :=
  if s.phase = .fault then some .faulted
  else if s.codec = .bs then some .badCommand
  else if s.dir = .dec then some .wrongDirection
  else none

/-- NEXT and DECOMPRESS by phase (rule R262). -/
def admitDecoder (s : State) : Option SubCause :=
  if s.phase = .fault then some .faulted
  else if s.codec = .bs then some .badCommand
  else if s.dir = .enc then some .wrongDirection
  else none

/-- The unit operations of 40_bitstream.md: legal on a bare machine of the operation's direction (rule R262). -/
def admitUnit (d : Dir) (s : State) : Option SubCause :=
  if s.codec ≠ .bs then some .badCommand
  else if s.phase = .fault then some .faulted
  else if s.dir ≠ d then some .wrongDirection
  else none

end Machine
end Sys2Proof
end

