-- ==== Sys2Proof/Machine/Ops.lean ====
section
/-! DEFINITION. The named operations over buffers and registers that every meaning is made of: raising a failure, the
bit-stream writer and reader of 40_bitstream.md, and the fetch of a wire code. -/

namespace Sys2Proof
namespace Machine

/-! ## Effects of an engine step -/

/-- What a part of a command does: it goes on with a result, it raises a failure (rule R15: "ends the command; nothing
after it executes"), or it would read an unwritten register. -/
inductive Eff (α : Type) where
  | ok (a : α) (s : State)
  | raise (code : FailCode) (sub : SubCause) (s : State)
  | stuck (f : Fault)

/-- Sequencing: the second part runs only where the first went on. -/
def Eff.bind {α β : Type} (e : Eff α) (k : α → State → Eff β) : Eff β :=
  match e with
  | .ok a s => k a s
  | .raise c sub s => .raise c sub s
  | .stuck f => .stuck f

/-! ## Responses and failure entry -/

/-- The response `OK(r)` (rule R260). -/
def State.answer (s : State) (r : Result) : State := { s with resp := some (.ok r) }

/-- The response `FAIL(UsageError, sub)`: nothing but the response changes (rules R260, R295). -/
def State.usage (s : State) (sub : SubCause) : State := { s with resp := some (.fail .usageError sub) }

/-- Failure entry (rule R300), the one way a failure is taken: for codes 1, 2 and 4 ERR, ERRSUB and PHASE are written
and the response is FAIL (the model's `pend`, a temporary of the aborted command, is dropped); a UsageError only
responds (rule R295). There is no return from a failure (rule R302). -/
def State.failEntry (s : State) (code : FailCode) (sub : SubCause) : State :=
  if entersFault code then
    { s with err := some code, errsub := some sub, phase := .fault, resp := some (.fail code sub), pend := none }
  else s.usage sub

/-- A command's outcome from its effect: `respond` gives the result and the state it leaves. -/
def Eff.outcome {α : Type} (e : Eff α) (respond : α → State → State) : Host.Outcome State Fault Refusal :=
  match e with
  | .ok a s => .next (respond a s)
  | .raise c sub s => .next (s.failEntry c sub)
  | .stuck f => .fault f

/-- A command guarded by its row of the phase table (rule R262). -/
def guarded (adm : Option SubCause) (s : State) (k : State → Host.Outcome State Fault Refusal) :
    Host.Outcome State Fault Refusal :=
  match adm with
  | some sub => .next (s.usage sub)
  | none => k s

/-! ## The bit-stream writer (rules R130 to R135) -/

/-- Append a bit string to the stream `S` (rule R130). -/
def State.append (s : State) (bs : List Bool) : State :=
  { s with wbuf := memSetBits s.wbuf s.wpos bs, wpos := s.wpos + bs.length }

/-- The stream `S` written so far, `WPOS` bits (rule R130). -/
def State.stream (s : State) : List Bool := (List.range s.wpos).map (memBit s.wbuf)

/-- `WRITE(content, len)` (rule R131). -/
def bswWrite (content : Raw) (len : Nat) (s : State) : Eff Nat :=
  if s.flushed then .raise .usageError .writeAfterFlush s
  else if 32 < len then .raise .usageError .badLength s
  else if 32 * s.capw < s.wpos + len then .raise .capacityExceeded .wbuf s
  else .ok len (s.append (bitsOf len content.toNat))

/-- `WRITELONG(content, len)` (rule R132), its UsageErrors in the order rule R298 gives (log entry 18). -/
def bswWriteLong (content : Raw) (len : Nat) (s : State) : Eff Nat :=
  if s.flushed then .raise .usageError .writeAfterFlush s
  else if 64 < len then .raise .usageError .badLength s
  else if len ≤ 32 then bswWrite content len s
  else if 32 * s.capw < s.wpos + len then .raise .capacityExceeded .wbuf s
  else
    (bswWrite (content >>> 32) (len - 32) s).bind fun _ s =>
      (bswWrite (lowBits 32 content) 32 s).bind fun _ s => .ok len s

/-- The padding `FLUSH` appends: zeros up to the next multiple of 32 (rules R64, R134). -/
def padding (wpos : Nat) : List Bool := List.replicate ((32 - wpos % 32) % 32) false

/-- `FLUSH()` (rule R134). -/
def bswFlush (s : State) : Eff Unit :=
  if s.flushed then .raise .usageError .secondFlush s
  else
    .ok () { s with
      wbuf := memSetBits s.wbuf s.wpos (padding s.wpos), wpos := s.wpos + (padding s.wpos).length, flushed := true }

/-- `GETBUFFER(byteLen)` (rule R135). -/
def bswGetBuffer (byteLen : Nat) (s : State) : Eff (List Byte) :=
  if !s.flushed then .raise .usageError .notFlushed s
  else if s.wpos < 8 * byteLen then .raise .usageError .badLength s
  else .ok (memBytes s.wbuf 0 byteLen) s

/-- An engine's write: `SIZE <- SIZE + WRITE(content, len)` (rule R30). -/
def emit (content : Raw) (len : Nat) (s : State) : Eff Unit :=
  (bswWrite content len s).bind fun n s => .ok () { s with size := s.size + n }

/-- An engine's long write: `SIZE <- SIZE + WRITELONG(content, len)` (rule R30). -/
def emitLong (content : Raw) (len : Nat) (s : State) : Eff Unit :=
  (bswWriteLong content len s).bind fun n s => .ok () { s with size := s.size + n }

/-- WBUF as words (rules R43, R60, R130): word `k` exists once the stream has passed it or after FLUSH. -/
def State.wbufWord (s : State) (k : Nat) : Option (BitVec 32) :=
  if 32 * (k + 1) ≤ s.wpos then some (BitVec.ofNat 32 (natOfBytes (memBytes s.wbuf (4 * k) 4))) else none

/-- `NWORDS`, FCS's cursor of the writer (rules R28, R40). -/
def State.nwords (s : State) : Nat := s.wpos / 32

/-- `ACCN`, the pending bits of the writer (rules R28, R40). -/
def State.accn (s : State) : Nat := s.wpos % 32

/-- `ACC`, the pending bits left-aligned in 64 (rule R40). -/
def State.acc (s : State) : BitVec 64 :=
  BitVec.ofNat 64 (natOfBits (s.stream.drop (32 * s.nwords)) <<< (64 - s.accn))

/-! ## The bit-stream reader (rules R140 to R145) -/

/-- Stream bit `p` of the reader: the loaded bit, 0 beyond LENBITS (rules R44, R61, R141). -/
def State.readerBit (s : State) (p : Nat) : Bool := if p < s.lenBits then memBit s.rbuf p else false

/-- The next `n` stream bits, not consumed (rule R141). -/
def State.ahead (s : State) (n : Nat) : List Bool := (List.range n).map fun i => s.readerBit (s.rpos + i)

/-- The cursor moved by `n` bits, with the flag (rule R142). -/
def State.advance (s : State) (n : Nat) : State :=
  { s with rpos := s.rpos + n, pastEnd := pastEndAt s (s.rpos + n) }

/-- The effect of `LOAD(bytes)` on the registers (rule R140). -/
def State.loadBytes (s : State) (bs : List Byte) : State :=
  { s with rbuf := memOfBytes 0 bs, len := bs.length, rpos := 0, pastEnd := false, loaded := true }

/-- The byte count LOAD and CONSTRUCT.DEC stay below (rules R140, R270). -/
def maxLoad : Nat := 536870912

/-- `LOAD(bytes)` (rule R140; a sequence of 2^29 bytes or more: DESIGN CHOICE, log entry 9). -/
def bsrLoad (bs : List Byte) (s : State) : Eff Unit :=
  if s.loaded then .raise .usageError .reload s
  else if maxLoad ≤ bs.length then .raise .usageError .badLength s
  else .ok () (s.loadBytes bs)

/-- `PEEK(len)` (rule R141). -/
def bsrPeek (len : Nat) (s : State) : Eff Nat :=
  if 32 < len then .raise .usageError .badLength s else .ok (natOfBits (s.ahead len)) s

/-- `FORWARD(len)` (rule R142). -/
def bsrForward (len : Nat) (s : State) : Eff Unit :=
  if 32 < len then .raise .usageError .badLength s else .ok () (s.advance len)

/-- `READINT(len)`: PEEK, then FORWARD (rule R143). -/
def bsrReadInt (len : Nat) (s : State) : Eff Nat :=
  (bsrPeek len s).bind fun v s => (bsrForward len s).bind fun _ s => .ok v s

/-- `READLONG(len)` (rule R144). -/
def bsrReadLong (len : Nat) (s : State) : Eff Nat :=
  if 64 < len then .raise .usageError .badLength s
  else if len ≤ 32 then bsrReadInt len s
  else (bsrReadInt (len - 32) s).bind fun hi s => (bsrReadInt 32 s).bind fun lo s => .ok (hi * 2 ^ 32 + lo) s

/-! ## Registers of the codec engines -/

/-- `N` of this machine. -/
def State.n (s : State) : Nat := width s.codec

/-- `W` of this machine. -/
def State.w (s : State) : Nat := ringSize s.logw

/-- `LEAD_REP_N` of this machine (rules R10, R181). -/
def State.leadRep (s : State) : List Nat := if s.n = 64 then s.leadRep64 else s.leadRep32

/-- A ring slot, none while it is unwritten (rules R22, R37). -/
def State.ringAt (s : State) (slot : Nat) : Option Raw := tableFind s.ring slot

/-- What the decoder needs to read the next wire code (rule R100). -/
def State.wireCtx (s : State) : WireCtx where
  codec := s.codec
  logw := s.logw
  rep := s.leadRep
  clead := s.clead
  ctrail := s.ctrail
  first := s.first
  mid := s.pend.isSome
  slots := s.ring.map Prod.fst

/-! ## Decoder engine: fetch, guard and end of a record -/

/-- Stream bits enough for the longest record, `LOGW + 75` bits (rule R105). -/
def lookahead (s : State) : Nat := 96 + s.logw

/-- Fetch the wire code at RPOS: read it and move the cursor past it (rules R29, R100). None on a machine without wire
codes. -/
def fetchWire (s : State) : Option (Instr × State) :=
  (decodeWire s.wireCtx (s.ahead (lookahead s))).map fun q => (q.1, s.advance (lookahead s - q.2.length))

/-- A wire code on a machine: it is executed by the decoder engine of its own unit at its own place in the stream.
Elsewhere it is answered like a NEXT that the phase table refuses, and like a command that does not exist where the
unit or the place is another's (DESIGN CHOICE, log entry 4). After the end of the block it is answered END, as NEXT is
(rule R271). -/
def onDecoder (codec : Codec) (place : State → Bool) (s : State) (k : State → Host.Outcome State Fault Refusal) :
    Host.Outcome State Fault Refusal :=
  guarded (admitDecoder s) s fun s =>
    if s.phase = .done then .next (s.answer .endOfBlock)
    else if s.codec = codec ∧ place s = true then k s
    else .next (s.usage .badCommand)

/-- The place of a LIT record of GOR and CHP: the first of the block (rule R90). -/
def atFirst (s : State) : Bool := s.first

/-- The place of every other record of GOR and CHP (rule R90). -/
def atLater (s : State) : Bool := !s.first

/-- The place of an erasure code: the start of an ELF record (rule R103). -/
def atErasure (s : State) : Bool := s.pend.isNone

/-- The place of X_LIT: behind an erasure code, first record of the block (rule R104). -/
def atXFirst (s : State) : Bool := s.pend.isSome && s.first

/-- The place of every other XOR-stage record (rule R104). -/
def atXLater (s : State) : Bool := s.pend.isSome && !s.first

/-- The end of a GOR or CHP record (rules R271, R277): PAST_END fails it; END closes the block; a value is counted and
delivered. -/
def finishRecord (r : Option Raw) (s : State) : State :=
  if s.pastEnd then s.failEntry .corruptStream .pastEnd
  else
    match r with
    | none => { s with phase := .done }.answer .endOfBlock
    | some v => { s with count := s.count + 1 }.answer (.value v)

/-- The end of an ELF record: rule R231 counts the value before the test of rule R271. -/
def finishElf (v : Raw) (s : State) : State :=
  if s.pastEnd then { s with count := s.count + 1 }.failEntry .corruptStream .pastEnd
  else { s with count := s.count + 1 }.answer (.value v)

end Machine
end Sys2Proof
end

