-- ==== Sys2Proof/Machine/BitStream.lean ====
section
/-! DEFINITION. The meanings of the bit-stream unit commands (40_bitstream.md), legal on a bare machine only (rule R262). -/

namespace Sys2Proof
namespace Machine

/-- `WRITE` (rule R131). -/
def execWrite (content : BitVec 64) (len : Byte) (s : State) : Host.Outcome State Fault Refusal :=
  guarded (admitUnit .enc s) s fun s => (bswWrite content len.toNat s).outcome fun n s => s.answer (.num n)

/-- `WRITELONG` (rule R132). -/
def execWriteLong (content : BitVec 64) (len : Byte) (s : State) : Host.Outcome State Fault Refusal :=
  guarded (admitUnit .enc s) s fun s => (bswWriteLong content len.toNat s).outcome fun n s => s.answer (.num n)

/-- `WRITEBIT`: exactly `WRITE(b, 1)` (rule R133). -/
def execWriteBit (b : Bool) (s : State) : Host.Outcome State Fault Refusal :=
  guarded (admitUnit .enc s) s fun s => (bswWrite (BitVec.ofNat 64 b.toNat) 1 s).outcome fun n s => s.answer (.num n)

/-- `FLUSH` (rule R134). -/
def execFlush (s : State) : Host.Outcome State Fault Refusal :=
  guarded (admitUnit .enc s) s fun s => (bswFlush s).outcome fun _ s => s.answer .unit

/-- `GETBUFFER` (rule R135). -/
def execGetBuffer (byteLen : BitVec 32) (s : State) : Host.Outcome State Fault Refusal :=
  guarded (admitUnit .enc s) s fun s => (bswGetBuffer byteLen.toNat s).outcome fun bs s => s.answer (.bytes bs)

/-- `LOAD` (rule R140). -/
def execLoad (bytes : List Byte) (s : State) : Host.Outcome State Fault Refusal :=
  guarded (admitUnit .dec s) s fun s => (bsrLoad bytes s).outcome fun _ s => s.answer .unit

/-- `PEEK` (rule R141). -/
def execPeek (len : Byte) (s : State) : Host.Outcome State Fault Refusal :=
  guarded (admitUnit .dec s) s fun s => (bsrPeek len.toNat s).outcome fun v s => s.answer (.num v)

/-- `FORWARD` (rule R142). -/
def execForward (len : Byte) (s : State) : Host.Outcome State Fault Refusal :=
  guarded (admitUnit .dec s) s fun s => (bsrForward len.toNat s).outcome fun _ s => s.answer .unit

/-- `READINT` (rule R143). -/
def execReadInt (len : Byte) (s : State) : Host.Outcome State Fault Refusal :=
  guarded (admitUnit .dec s) s fun s => (bsrReadInt len.toNat s).outcome fun v s => s.answer (.num v)

/-- `READLONG` (rule R144). -/
def execReadLong (len : Byte) (s : State) : Host.Outcome State Fault Refusal :=
  guarded (admitUnit .dec s) s fun s => (bsrReadLong len.toNat s).outcome fun v s => s.answer (.num v)

/-- `READBIT`: exactly `READINT(1)` (rule R145). -/
def execReadBit (s : State) : Host.Outcome State Fault Refusal :=
  guarded (admitUnit .dec s) s fun s => (bsrReadInt 1 s).outcome fun v s => s.answer (.num v)

end Machine
end Sys2Proof
end

