-- ==== Sys2Proof/Machine/Chimp.lean ====
section
/-! DEFINITION. CHP64 and CHP32, the Chimp codecs (42_chimp.md): the encoder engine, the record steps that the ELF XOR
stage shares (rule R222), and the meanings of the CHP wire codes. -/

namespace Sys2Proof
namespace Machine

/-! ## Encoder (rules R183 to R191) -/

/-- A field of up to N bits: WRITELONG beyond 32 bits, else WRITE (rules R187 to R189). -/
def emitField (content : Raw) (len : Nat) (s : State) : Eff Unit :=
  if 32 < len then emitLong content len s else emit content len s

/-- The first value, code LIT (rule R183). -/
def chpEncodeLit (v : Raw) (s : State) : Eff Unit :=
  (emitField v s.n s).bind fun _ s =>
    .ok () { s with
      ring := tableInsert s.ring 0 v, index := 0, idx := idxWrite s.idx (keyOf s.n s.logw v) 0, first := false }

/-- What candidate selection answers (rule R185). -/
structure Choice where
  far : Bool
  slot : Nat
  x : Raw
  trail : Nat
deriving DecidableEq, Repr

/-- The immediately previous value as reference (rule R185). -/
def choosePrevious (v : Raw) (s : State) : Option Choice :=
  (s.ringAt (s.index % s.w)).map fun r => { far := false, slot := s.index % s.w, x := v ^^^ r, trail := 0 }

/-- Candidate selection (rule R185); none where it would read an unwritten slot. -/
def choose (v : Raw) (s : State) : Option Choice :=
  if s.index - idxRead s.idx (keyOf s.n s.logw v) < s.w then
    (s.ringAt (idxRead s.idx (keyOf s.n s.logw v) % s.w)).bind fun r =>
      if threshold s.n s.logw < ctz s.n (v ^^^ r) then
        some { far := true, slot := idxRead s.idx (keyOf s.n s.logw v) % s.w, x := v ^^^ r, trail := ctz s.n (v ^^^ r) }
      else choosePrevious v s
  else choosePrevious v s

/-- Code REPEAT (rule R186). -/
def chpEncodeRepeat (slot : Nat) (s : State) : Eff Unit :=
  (emit (BitVec.ofNat 64 slot) (flagZero s.logw) s).bind fun _ s => .ok () { s with clead := none }

/-- The FAR header as one number (rule R187). -/
def farHeader (n logw slot b sig : Nat) : Nat :=
  (ringSize logw + slot) * 2 ^ (3 + cntBits n) + b * 2 ^ cntBits n + sig

/-- The significant bits of a FAR record (rule R187). -/
def farSig (x : Raw) (trail : Nat) (s : State) : Nat := s.n - repOf s.leadRep (clz s.n x) - trail

/-- Code FAR (rule R187). -/
def chpEncodeFar (slot : Nat) (x : Raw) (trail : Nat) (s : State) : Eff Unit :=
  (emit (BitVec.ofNat 64 (farHeader s.n s.logw slot (bucket s.leadRep (clz s.n x)) (farSig x trail s)))
      (flagOne s.n s.logw) s).bind fun _ s =>
    (emitField (x >>> trail) (farSig x trail s) s).bind fun _ s => .ok () { s with clead := none }

/-- Code REUSE (rule R188). -/
def chpEncodeReuse (x : Raw) (lead : Nat) (s : State) : Eff Unit :=
  (emit 2 2 s).bind fun _ s => emitField x (s.n - lead) s

/-- Code NEW (rule R189). -/
def chpEncodeNew (x : Raw) (lead b : Nat) (s : State) : Eff Unit :=
  (emit (BitVec.ofNat 64 (24 + b)) 5 { s with clead := some lead }).bind fun _ s => emitField x (s.n - lead) s

/-- The record of a later value, from the candidate chosen (rule R184). -/
def chpEncodeChoice (c : Choice) (s : State) : Eff Unit :=
  if c.x = 0 then chpEncodeRepeat c.slot s
  else if c.far then chpEncodeFar c.slot c.x c.trail s
  else if s.clead = some (repOf s.leadRep (clz s.n c.x)) then chpEncodeReuse c.x (repOf s.leadRep (clz s.n c.x)) s
  else chpEncodeNew c.x (repOf s.leadRep (clz s.n c.x)) (bucket s.leadRep (clz s.n c.x)) s

/-- Insert (rule R190). -/
def chpInsert (v : Raw) (s : State) : State :=
  { s with
    ring := tableInsert s.ring ((s.index + 1) % s.w) v
    index := s.index + 1
    idx := idxWrite s.idx (keyOf s.n s.logw v) (s.index + 1) }

/-- `CHP.ENCODE(v)` (rules R183, R184). -/
def chpEncode (v : Raw) (s : State) : Eff Unit :=
  if s.first then chpEncodeLit v s
  else
    match choose v s with
    | none => .stuck .unwrittenRead
    | some c => (chpEncodeChoice c s).bind fun _ s => .ok () (chpInsert v s)

/-! ## Record steps of the decoder (rules R192 to R196), `n` the value width -/

/-- Decode REPEAT (rule R193). -/
def stepRepeat (slot : Nat) (s : State) : Eff Raw :=
  match s.ringAt slot with
  | none => .raise .corruptStream .slotUnwritten s
  | some r => .ok r { s with clead := none }

/-- Decode FAR (rule R194). -/
def stepFar (n slot b3 cnt : Nat) (payload : Raw) (s : State) : Eff Raw :=
  if n < leadOf s.leadRep b3 + sigOf n cnt then .raise .corruptStream .badWindow s
  else
    match s.ringAt slot with
    | none => .raise .corruptStream .slotUnwritten s
    | some r =>
      .ok (r ^^^ lowBits n (payload <<< (n - leadOf s.leadRep b3 - sigOf n cnt))) { s with clead := none }

/-- A record that XORs with the previous value. -/
def stepXor (x : Raw) (s : State) : Eff Raw :=
  match s.prev with
  | none => .stuck .unwrittenRead
  | some p => .ok (p ^^^ x) s

/-- Decode REUSE (rule R195). -/
def stepReuse (payload : Raw) (s : State) : Eff Raw :=
  match s.clead with
  | none => .raise .corruptStream .reuseNoWindow s
  | some _ => stepXor payload s

/-- Decode NEW (rule R196). -/
def stepNew (b3 : Nat) (payload : Raw) (s : State) : Eff Raw :=
  stepXor payload { s with clead := some (leadOf s.leadRep b3) }

/-- Commit of the first value of the block (rules R192, R197). -/
def commitFirst (v : Raw) (s : State) : State :=
  { s with ring := tableInsert s.ring 0 v, cur := 0, prev := some v }

/-- Commit of a later value (rule R197). -/
def commitLater (v : Raw) (s : State) : State :=
  { s with ring := tableInsert s.ring ((s.cur + 1) % s.w) v, cur := (s.cur + 1) % s.w, prev := some v }

/-! ## Meanings of the CHP wire codes -/

/-- The literal of a CHP unit (rules R192, R197). -/
def chpLit (v : Raw) (s : State) : State :=
  if isNaN s.n v then finishRecord none { s with first := false }
  else finishRecord (some v) (commitFirst v { s with first := false })

/-- A later value of a CHP unit: the end test and commit (rule R197), then the end of the record (rule R271). -/
def chpLater (v : Raw) (s : State) : State :=
  if isNaN s.n v then finishRecord none s else finishRecord (some v) (commitLater v s)

/-- `CHP64.LIT` (rules R183, R192). -/
def execChp64Lit (v : BitVec 64) (s : State) : Host.Outcome State Fault Refusal :=
  onDecoder .chp64 atFirst s fun s => .next (chpLit v s)

/-- `CHP64.REPEAT` (rules R186, R193). -/
def execChp64Repeat (slot : BitVec 16) (s : State) : Host.Outcome State Fault Refusal :=
  onDecoder .chp64 atLater s fun s => (stepRepeat slot.toNat s).outcome chpLater

/-- `CHP64.FAR` (rules R187, R194). -/
def execChp64Far (slot : BitVec 16) (b3 : BitVec 3) (cnt : BitVec 6) (payload : BitVec 64) (s : State) :
    Host.Outcome State Fault Refusal :=
  onDecoder .chp64 atLater s fun s => (stepFar 64 slot.toNat b3.toNat cnt.toNat payload s).outcome chpLater

/-- `CHP64.REUSE` (rules R188, R195). -/
def execChp64Reuse (payload : BitVec 64) (s : State) : Host.Outcome State Fault Refusal :=
  onDecoder .chp64 atLater s fun s => (stepReuse payload s).outcome chpLater

/-- `CHP64.NEW` (rules R189, R196). -/
def execChp64New (b3 : BitVec 3) (payload : BitVec 64) (s : State) : Host.Outcome State Fault Refusal :=
  onDecoder .chp64 atLater s fun s => (stepNew b3.toNat payload s).outcome chpLater

/-- `CHP32.LIT` (rules R183, R192). -/
def execChp32Lit (v : BitVec 32) (s : State) : Host.Outcome State Fault Refusal :=
  onDecoder .chp32 atFirst s fun s => .next (chpLit (v.setWidth 64) s)

/-- `CHP32.REPEAT` (rules R186, R193). -/
def execChp32Repeat (slot : BitVec 16) (s : State) : Host.Outcome State Fault Refusal :=
  onDecoder .chp32 atLater s fun s => (stepRepeat slot.toNat s).outcome chpLater

/-- `CHP32.FAR` (rules R187, R194, constants of R181). -/
def execChp32Far (slot : BitVec 16) (b3 : BitVec 3) (cnt : BitVec 5) (payload : BitVec 32) (s : State) :
    Host.Outcome State Fault Refusal :=
  onDecoder .chp32 atLater s fun s =>
    (stepFar 32 slot.toNat b3.toNat cnt.toNat (payload.setWidth 64) s).outcome chpLater

/-- `CHP32.REUSE` (rules R188, R195). -/
def execChp32Reuse (payload : BitVec 32) (s : State) : Host.Outcome State Fault Refusal :=
  onDecoder .chp32 atLater s fun s => (stepReuse (payload.setWidth 64) s).outcome chpLater

/-- `CHP32.NEW` (rules R189, R196). -/
def execChp32New (b3 : BitVec 3) (payload : BitVec 32) (s : State) : Host.Outcome State Fault Refusal :=
  onDecoder .chp32 atLater s fun s => (stepNew b3.toNat (payload.setWidth 64) s).outcome chpLater

end Machine
end Sys2Proof
end

