-- ==== Sys2Proof/Machine/Decimal.lean ====
section
/-! DEFINITION. The exact arithmetic of the ELF erasure stage (rules R16, R17, R223 to R225) on fractions of naturals. -/

namespace Sys2Proof
namespace Machine

/-- A non-negative rational `num / den`; `den` is positive in every use. -/
structure Frac where
  num : Nat
  den : Nat
deriving DecidableEq, Repr

/-- `|val(v)|` of a finite raw value of width `n` (rule R16). -/
def magnitude (n : Nat) (v : Raw) : Frac :=
  if expField n v = 0 then { num := mantField n v, den := 2 ^ (bias n + mantBits n - 1) }
  else if expField n v < bias n + mantBits n then
    { num := 2 ^ mantBits n + mantField n v, den := 2 ^ (bias n + mantBits n - expField n v) }
  else { num := (2 ^ mantBits n + mantField n v) * 2 ^ (expField n v - (bias n + mantBits n)), den := 1 }

/-- The least integer not below `num / den` (rule R17). -/
def ceilDiv (num den : Nat) : Nat := (num + den - 1) / den

/-- The largest `k ≤ fuel` with `den * 10^k ≤ num`, where `den ≤ num`. -/
def countUp (fuel num den : Nat) : Nat :=
  match fuel with
  | 0 => 0
  | f + 1 => if den * 10 ≤ num then countUp f num (den * 10) + 1 else 0

/-- The least `j` with `den ≤ num * 10^j`, at most `fuel`. -/
def countDown (fuel num den : Nat) : Nat :=
  match fuel with
  | 0 => 0
  | f + 1 => if den ≤ num then 0 else countDown f (num * 10) den + 1

/-- `floorlog10(a)`: the integer `k` with `10^k <= a < 10^(k+1)`, for `a > 0` (rule R17). -/
def floorLog10 (a : Frac) : Int :=
  if a.den ≤ a.num then (countUp (a.num.log2 + 1) a.num a.den : Nat)
  else -(countDown (a.den.log2 + 1) a.num a.den : Nat)

/-- `a * 10^k` for an integer `k`. -/
def scale10 (a : Frac) (k : Int) : Frac :=
  { num := a.num * 10 ^ k.toNat, den := a.den * 10 ^ (-k).toNat }

/-- The least multiple of `10^(-alpha)` not below `a`: `ceil(a * 10^alpha) / 10^alpha` (rule R224). -/
def roundUp10 (a : Frac) (alpha : Int) : Frac :=
  scale10 { num := ceilDiv (scale10 a alpha).num (scale10 a alpha).den, den := 1 } (-alpha)

/-- The largest `E` with `2^E ≤ num / den`, for a fraction not below 1. -/
def log2Above (a : Frac) : Nat := (a.num / a.den).log2

/-- The least `j` with `den ≤ num * 2^j`, for a fraction below 1: its binary exponent is `-j`. -/
def log2Below (a : Frac) : Nat := (ceilDiv a.den a.num - 1).log2 + 1

/-- `floor(log2(a))` of a positive fraction. -/
def floorLog2 (a : Frac) : Int :=
  if a.den ≤ a.num then (log2Above a : Nat) else -(log2Below a : Nat)

/-- The nearest natural to `num / den`, ties to even (rule R17). -/
def roundEven (num den : Nat) : Nat :=
  if 2 * (num % den) < den then num / den
  else if den < 2 * (num % den) then num / den + 1
  else num / den + num / den % 2

/-- The exponent of the unit in the last place at which `RN_N` rounds `a`: the binary exponent, not below that of the
subnormals, less the mantissa bits (rule R17). -/
def roundExp (n : Nat) (a : Frac) : Int := max (floorLog2 a) (1 - (bias n : Int))

/-- The significand of `RN_N(a)` in units of `2^(E - MB)`, possibly carried to `2^(MB+1)` (rule R17). -/
def roundSig (n : Nat) (a : Frac) (e : Int) : Nat :=
  roundEven (a.num * 2 ^ ((mantBits n : Int) - e).toNat) (a.den * 2 ^ (e - (mantBits n : Int)).toNat)

/-- `RN_N(q)` (rule R17): nearest, ties to even, subnormals included, infinity beyond the largest finite number. The
significand's top bit, where it is set, adds one to the exponent field, and a carry adds one more. -/
def roundNearest (n : Nat) (q : Frac) : Raw :=
  if q.num = 0 then 0
  else
    BitVec.ofNat 64
      (min (((roundExp n q + (bias n : Int) - 1).toNat) * 2 ^ mantBits n + roundSig n q (roundExp n q))
        ((2 ^ expBits n - 1) * 2 ^ mantBits n))

/-- `F(alpha)`: 0 if `alpha <= 0`, else the least `f` with `2^f >= 10^alpha` (rule R223). -/
def fracBits (alpha : Int) : Nat := if alpha ≤ 0 then 0 else (10 ^ alpha.toNat - 1).log2 + 1

/-- `|a - b| <= e` on fractions. -/
def within (a b e : Frac) : Bool :=
  decide ((a.num * b.den - b.num * a.den + (b.num * a.den - a.num * b.den)) * e.den ≤ e.num * (a.den * b.den))

/-- The raw value with the sign bit of `v` and the magnitude bits of `t` (rule R224). -/
def withSign (n : Nat) (v t : Raw) : Raw :=
  if signBit n v then t ||| BitVec.ofNat 64 (2 ^ (n - 1)) else t

/-- `Recover_N(v', b)` (rule R224); none is `fail`. -/
def recover (n : Nat) (v : Raw) (b : Nat) : Option Raw :=
  if isZero n v || isNaN n v || isInf n v then none
  else if b = 0 then
    some (withSign n v (roundNearest n (scale10 { num := 1, den := 1 } (floorLog10 (magnitude n v) + 1))))
  else
    some (withSign n v (roundNearest n (roundUp10 (magnitude n v) ((b : Int) - floorLog10 (magnitude n v) - 1))))

/-- `alpha` of a trial: `max(b, 1) - sp - 1` (rule R225). -/
def trialAlpha (n : Nat) (v : Raw) (b : Nat) : Int := (max b 1 : Nat) - floorLog10 (magnitude n v) - 1

/-- `erase` of a trial, the low mantissa bits to clear: `min(MB - g, MB)` with `g = F(alpha) + e - BIAS` (rule R225). -/
def trialErase (n : Nat) (v : Raw) (b : Nat) : Int :=
  min ((mantBits n : Int) - ((fracBits (trialAlpha n v b) : Int) + (expField n v : Int) - (bias n : Int))) (mantBits n)

/-- The value with its low `k` bits cleared. -/
def clearLow (k : Nat) (v : Raw) : Raw := v ^^^ lowBits k v

/-- `Trial_N(v, b)` (rule R225); none is `fail`. -/
def trial (n : Nat) (eps v : Raw) (b : Nat) : Option Raw :=
  if trialErase n v b ≤ (minErase n : Int) then none
  else if lowBits (trialErase n v b).toNat v = 0 then none
  else
    match recover n (clearLow (trialErase n v b).toNat v) b with
    | none => none
    | some r =>
      if isInf n r then none
      else if within (magnitude n r) (magnitude n v) (magnitude 64 eps) then
        some (clearLow (trialErase n v b).toNat v)
      else none

/-- The search for betaStar among `b, b+1, …` (rule R228): the least that succeeds, with the erased value. -/
def searchFrom (n : Nat) (eps v : Raw) (b fuel : Nat) : Option (Nat × Raw) :=
  match fuel with
  | 0 => none
  | f + 1 =>
    match trial n eps v b with
    | some v' => some (b, v')
    | none => searchFrom n eps v (b + 1) f

/-- The search of rule R228: none for both zeros and where no betaStar passes. -/
def search (n : Nat) (eps v : Raw) : Option (Nat × Raw) :=
  if isZero n v then none else searchFrom n eps v 0 (bMax n + 1)

end Machine
end Sys2Proof
end

