-- ==== Sys2Proof/Machine/Elf.lean ====
section
/-! DEFINITION. ELF64 and ELF32, the erasure codecs (43_elf.md): the encoder engine, and the meanings of the erasure
codes and of the XOR-stage records. -/

namespace Sys2Proof
namespace Machine

/-! ## Encoder (rules R226 to R230) -/

/-- The erasure code for the betaStar found, none for RAW (rule R229). -/
def elfEncodeErasure (found : Option Nat) (s : State) : Eff Unit :=
  match found with
  | none => emit 2 2 s
  | some b =>
    if s.lastbs = some b then emit 0 1 s
    else
      (emit (BitVec.ofNat 64 (3 * 2 ^ bsBits s.n + b)) (2 + bsBits s.n) s).bind fun _ s =>
        .ok () { s with lastbs := some b }

/-- The two stages for a finite value (rules R228 to R230). -/
def elfEncodeFinite (v : Raw) (s : State) : Eff Unit :=
  match search s.n s.eps v with
  | none => (elfEncodeErasure none s).bind fun _ s => chpEncode v s
  | some (b, v') => (elfEncodeErasure (some b) s).bind fun _ s => chpEncode v' s

/-- `ELF.ENCODE(v)` (rule R226), the domain check first (rule R227). -/
def elfEncode (v : Raw) (s : State) : Eff Unit :=
  if isNaN s.n v || isInf s.n v then .raise .domainError .nanOrInf s else elfEncodeFinite v s

/-! ## Decoder (rule R231) -/

/-- ERASE_SAME: legal once a betaStar has been signalled. -/
def elfEraseSame (s : State) : State :=
  match s.lastbs with
  | none => s.failEntry .corruptStream .eraseNoBetaStar
  | some _ => { s with pend := some true }

/-- RAW: the value is not erased. -/
def elfRaw (s : State) : State := { s with pend := some false }

/-- ERASE_NEW: a new betaStar. -/
def elfEraseNew (bs : Nat) (s : State) : State := { s with lastbs := some bs, pend := some true }

/-- The value delivered for the XOR-stage value `v`: `v` itself, or its restoration where it was erased. -/
def elfDeliver (erased : Option Bool) (v : Raw) (s : State) : State :=
  if erased = some true then
    match s.lastbs.bind (recover s.n v) with
    | none => s.failEntry .corruptStream .recoverDomain
    | some r => finishElf r s
  else finishElf v s

/-- The first XOR-stage record: no NaN test, every value is committed (rules R197, R231). -/
def elfLit (v : Raw) (s : State) : State :=
  elfDeliver s.pend v (commitFirst v { s with first := false, pend := none })

/-- A later XOR-stage record (rules R197, R231). -/
def elfLater (v : Raw) (s : State) : State := elfDeliver s.pend v (commitLater v { s with pend := none })

/-! ## Meanings of the ELF wire codes -/

/-- `ELF64.ERASE_SAME` (rules R229, R231). -/
def execElf64EraseSame (s : State) : Host.Outcome State Fault Refusal :=
  onDecoder .elf64 atErasure s fun s => .next (elfEraseSame s)

/-- `ELF64.RAW` (rules R229, R231). -/
def execElf64Raw (s : State) : Host.Outcome State Fault Refusal :=
  onDecoder .elf64 atErasure s fun s => .next (elfRaw s)

/-- `ELF64.ERASE_NEW` (rules R229, R231). -/
def execElf64EraseNew (bs : BitVec 4) (s : State) : Host.Outcome State Fault Refusal :=
  onDecoder .elf64 atErasure s fun s => .next (elfEraseNew bs.toNat s)

/-- `ELF64.X_LIT` (rules R230, R231). -/
def execElf64XLit (v : BitVec 64) (s : State) : Host.Outcome State Fault Refusal :=
  onDecoder .elf64 atXFirst s fun s => .next (elfLit v s)

/-- `ELF64.X_REPEAT` (rules R230, R231, R193). -/
def execElf64XRepeat (s : State) : Host.Outcome State Fault Refusal :=
  onDecoder .elf64 atXLater s fun s => (stepRepeat 0 s).outcome elfLater

/-- `ELF64.X_FAR` (rules R230, R231, R194). -/
def execElf64XFar (b3 : BitVec 3) (cnt : BitVec 6) (payload : BitVec 64) (s : State) :
    Host.Outcome State Fault Refusal :=
  onDecoder .elf64 atXLater s fun s => (stepFar 64 0 b3.toNat cnt.toNat payload s).outcome elfLater

/-- `ELF64.X_REUSE` (rules R230, R231, R195). -/
def execElf64XReuse (payload : BitVec 64) (s : State) : Host.Outcome State Fault Refusal :=
  onDecoder .elf64 atXLater s fun s => (stepReuse payload s).outcome elfLater

/-- `ELF64.X_NEW` (rules R230, R231, R196). -/
def execElf64XNew (b3 : BitVec 3) (payload : BitVec 64) (s : State) : Host.Outcome State Fault Refusal :=
  onDecoder .elf64 atXLater s fun s => (stepNew b3.toNat payload s).outcome elfLater

/-- `ELF32.ERASE_SAME` (rules R229, R231). -/
def execElf32EraseSame (s : State) : Host.Outcome State Fault Refusal :=
  onDecoder .elf32 atErasure s fun s => .next (elfEraseSame s)

/-- `ELF32.RAW` (rules R229, R231). -/
def execElf32Raw (s : State) : Host.Outcome State Fault Refusal :=
  onDecoder .elf32 atErasure s fun s => .next (elfRaw s)

/-- `ELF32.ERASE_NEW` (rules R229, R231). -/
def execElf32EraseNew (bs : BitVec 3) (s : State) : Host.Outcome State Fault Refusal :=
  onDecoder .elf32 atErasure s fun s => .next (elfEraseNew bs.toNat s)

/-- `ELF32.X_LIT` (rules R230, R231). -/
def execElf32XLit (v : BitVec 32) (s : State) : Host.Outcome State Fault Refusal :=
  onDecoder .elf32 atXFirst s fun s => .next (elfLit (v.setWidth 64) s)

/-- `ELF32.X_REPEAT` (rules R230, R231, R193). -/
def execElf32XRepeat (s : State) : Host.Outcome State Fault Refusal :=
  onDecoder .elf32 atXLater s fun s => (stepRepeat 0 s).outcome elfLater

/-- `ELF32.X_FAR` (rules R230, R231, R194, constants of R181). -/
def execElf32XFar (b3 : BitVec 3) (cnt : BitVec 5) (payload : BitVec 32) (s : State) :
    Host.Outcome State Fault Refusal :=
  onDecoder .elf32 atXLater s fun s =>
    (stepFar 32 0 b3.toNat cnt.toNat (payload.setWidth 64) s).outcome elfLater

/-- `ELF32.X_REUSE` (rules R230, R231, R195). -/
def execElf32XReuse (payload : BitVec 32) (s : State) : Host.Outcome State Fault Refusal :=
  onDecoder .elf32 atXLater s fun s => (stepReuse (payload.setWidth 64) s).outcome elfLater

/-- `ELF32.X_NEW` (rules R230, R231, R196). -/
def execElf32XNew (b3 : BitVec 3) (payload : BitVec 32) (s : State) : Host.Outcome State Fault Refusal :=
  onDecoder .elf32 atXLater s fun s => (stepNew b3.toNat (payload.setWidth 64) s).outcome elfLater

end Machine
end Sys2Proof
end

