-- ==== Sys2Proof/Machine/Gorilla.lean ====
section
/-! DEFINITION. GOR, the Gorilla codec (41_gorilla.md): the encoder engine and the meanings of its wire codes. -/

namespace Sys2Proof
namespace Machine

/-! ## Encoder (rules R160 to R169) -/

/-- The first value, code LIT (rule R162). -/
def gorEncodeLit (v : Raw) (s : State) : Eff Unit :=
  (emitLong v 64 s).bind fun _ s => .ok () { s with first := false }

/-- Code SAME (rule R163). -/
def gorEncodeSame (s : State) : Eff Unit := emit 0 1 s

/-- Code REUSE of the window `(cl, ct)` for the XOR `x` (rule R165). -/
def gorEncodeReuse (x : Raw) (cl ct : Nat) (s : State) : Eff Unit :=
  (emit 1 1 s).bind fun _ s => (emit 0 1 s).bind fun _ s => emitLong (x >>> ct) (64 - cl - ct) s

/-- Code NEW for the XOR `x` with `lead` and `trail` (rule R166). -/
def gorEncodeNew (x : Raw) (lead trail : Nat) (s : State) : Eff Unit :=
  (emit 1 1 s).bind fun _ s => (emit 1 1 s).bind fun _ s =>
    (emit (BitVec.ofNat 64 lead) 5 s).bind fun _ s =>
      (emit (BitVec.ofNat 64 ((64 - lead - trail) % 64)) 6 s).bind fun _ s =>
        (emitLong (x >>> trail) (64 - lead - trail) s).bind fun _ s =>
          .ok () { s with clead := some lead, ctrail := trail }

/-- The leading-zero count GOR works with, clamped to 31 (rule R164). -/
def gorLead (x : Raw) : Nat := min (clz 64 x) 31

/-- Whether the XOR `x` fits the cached window (rules R160, R165); false while there is none. -/
def gorFits (x : Raw) (s : State) : Bool :=
  match s.clead with
  | none => false
  | some cl => decide (cl ≤ gorLead x) && decide (s.ctrail ≤ ctz 64 x)

/-- The record of a later value, from its XOR with the previous one (rule R160). -/
def gorEncodeXor (x : Raw) (s : State) : Eff Unit :=
  if x = 0 then gorEncodeSame s
  else if gorFits x s then gorEncodeReuse x (s.clead.getD 0) s.ctrail s
  else gorEncodeNew x (gorLead x) (ctz 64 x) s

/-- `GOR.ENCODE(v)` (rules R160, R167). The input is not tested for NaN (rule R169). -/
def gorEncode (v : Raw) (s : State) : Eff Unit :=
  (if s.first then gorEncodeLit v s
   else
    match s.prev with
    | none => .stuck .unwrittenRead
    | some p => gorEncodeXor (p ^^^ v) s).bind fun _ s => .ok () { s with prev := some v }

/-! ## Decoder (rules R170 to R174) -/

/-- The end test and commit (rule R174), then the end of the record (rule R271). -/
def gorCommit (v : Raw) (s : State) : State :=
  if isNaN 64 v then finishRecord none s else finishRecord (some v) { s with prev := some v }

/-- A record that XORs with the previous value. -/
def gorXor (x : Raw) (s : State) : Host.Outcome State Fault Refusal :=
  match s.prev with
  | none => .fault .unwrittenRead
  | some p => .next (gorCommit (p ^^^ x) s)

/-- `GOR.LIT` (rules R162, R170). -/
def execGorLit (v : BitVec 64) (s : State) : Host.Outcome State Fault Refusal :=
  onDecoder .gor atFirst s fun s => .next (gorCommit v { s with first := false })

/-- `GOR.SAME` (rules R163, R171). -/
def execGorSame (s : State) : Host.Outcome State Fault Refusal :=
  onDecoder .gor atLater s fun s => gorXor 0 s

/-- `GOR.REUSE` (rules R165, R172). -/
def execGorReuse (payload : BitVec 64) (s : State) : Host.Outcome State Fault Refusal :=
  onDecoder .gor atLater s fun s =>
    match s.clead with
    | none => .next (s.failEntry .corruptStream .reuseNoWindow)
    | some _ => gorXor (payload <<< s.ctrail) s

/-- `GOR.NEW` (rules R166, R173). -/
def execGorNew (lead5 : BitVec 5) (cnt : BitVec 6) (payload : BitVec 64) (s : State) : Host.Outcome State Fault Refusal :=
  onDecoder .gor atLater s fun s =>
    if 64 < lead5.toNat + sigOf 64 cnt.toNat then .next (s.failEntry .corruptStream .badWindow)
    else
      gorXor (payload <<< (64 - lead5.toNat - sigOf 64 cnt.toNat))
        { s with clead := some lead5.toNat, ctrail := 64 - lead5.toNat - sigOf 64 cnt.toNat }

end Machine
end Sys2Proof
end

