-- ==== Sys2Proof/Machine/Lifecycle.lean ====
section
/-! DEFINITION. The codec commands (44_commands.md): CONSTRUCT, ADDVALUE, CLOSE, GETBYTES, GETSIZE, NEXT, DECOMPRESS. -/

namespace Sys2Proof
namespace Machine

/-! ## CONSTRUCT (rules R261, R270, R320, R321) -/

/-- A machine with every register at its reset value (rule R321). The command port and the step mode are the model's
and stay. A parameter the machine does not have is stored as 0 (log entry 17). -/
def State.construct (s : State) (codec : Codec) (dir : Dir) (logw capw : Nat) (eps : Raw) (nval : Nat)
    (lead64 lead32 : List Nat) : State where
  port := s.port
  resp := s.resp
  wire := s.wire
  pend := none
  codec := codec
  dir := dir
  logw := if codec = .chp64 ∨ codec = .chp32 then logw else 0
  capw := if dir = .enc then capw else 0
  eps := if isElf codec = true ∧ dir = .enc then eps else 0
  nval := if isElf codec = true ∧ dir = .dec then nval else 0
  leadRep64 := lead64
  leadRep32 := lead32
  phase := if dir = .enc then .opened else .ready
  err := none
  errsub := none
  size := 0
  count := 0
  first := true
  prev := none
  clead := none
  ctrail := 0
  index := 0
  cur := 0
  lastbs := none
  ring := []
  idx := []
  wbuf := []
  wpos := 0
  flushed := false
  rbuf := []
  len := 0
  rpos := 0
  pastEnd := false
  loaded := false

/-- A table operand as numbers. -/
def tableOf (t : List Byte) : List Nat := t.map BitVec.toNat

/-- `CAPW <= 2^27 - 1` (rules R10, R261). -/
def legalCapw (k : Nat) : Bool := k ≤ 134217727

/-- `LOGW <= 16` on CHP64 and CHP32 (rules R10, R261). -/
def legalLogw (codec : Codec) (k : Nat) : Bool := !(codec == .chp64 || codec == .chp32) || k ≤ 16

/-- The LEAD_REP table of the unit is one rule R10 allows (DEDUCED from rules R10 and R36, log entry 8). -/
def legalTables (codec : Codec) (lead64 lead32 : List Byte) : Bool :=
  !hasRing codec || legalLeadRep (tableOf (if width codec = 64 then lead64 else lead32))

/-- A table of numbers as an operand. -/
def tableOperand (t : List Nat) : List Byte := t.map (BitVec.ofNat 8)

/-- The encoder operands of a host that supplies what has no default and leaves the rest to rule R10's defaults. -/
def defaultEnc (codec : Codec) (capw : BitVec 32) (eps : BitVec 64) : EncConfig where
  codec := BitVec.ofNat 7 (codecCode codec)
  logw := BitVec.ofNat 8 (Config.defaultLogw codec)
  capw := capw
  eps := eps
  lead64 := tableOperand Config.defaultLeadRep
  lead32 := tableOperand Config.defaultLeadRep

/-- The decoder operands of a host that supplies what has no default and leaves the rest to rule R10's defaults. -/
def defaultDec (codec : Codec) (nval : BitVec 32) (bytes : List Byte) : DecConfig where
  codec := BitVec.ofNat 7 (codecCode codec)
  logw := BitVec.ofNat 8 (Config.defaultLogw codec)
  nval := nval
  lead64 := tableOperand Config.defaultLeadRep
  lead32 := tableOperand Config.defaultLeadRep
  bytes := bytes

/-- The tests of rule R261 on an encoder's operands. -/
def legalEnc (codec : Codec) (g : EncConfig) : Bool :=
  legalLogw codec g.logw.toNat && legalCapw g.capw.toNat && (!isElf codec || legalEps g.eps)
    && legalTables codec g.lead64 g.lead32

/-- The tests of rule R270 on a decoder's operands. -/
def legalDec (codec : Codec) (g : DecConfig) : Bool :=
  legalLogw codec g.logw.toNat && decide (g.bytes.length < maxLoad) && legalTables codec g.lead64 g.lead32

/-- `CONSTRUCT` for DIR = ENC (rule R261): the machine it creates takes the place of the state's machine. -/
def execConstructEnc (cfg : EncConfig) (s : State) : Host.Outcome State Fault Refusal :=
  match codecOf cfg.codec.toNat with
  | none => .next (s.usage .badConfig)
  | some codec =>
    if legalEnc codec cfg then
      .next ((s.construct codec .enc cfg.logw.toNat cfg.capw.toNat cfg.eps 0 (tableOf cfg.lead64) (tableOf cfg.lead32)).answer .unit)
    else .next (s.usage .badConfig)

/-- `CONSTRUCT` for DIR = DEC (rule R270): a codec decoder is loaded, a bare reader is not. -/
def execConstructDec (cfg : DecConfig) (s : State) : Host.Outcome State Fault Refusal :=
  match codecOf cfg.codec.toNat with
  | none => .next (s.usage .badConfig)
  | some codec =>
    if legalDec codec cfg then
      if codec = .bs then
        .next ((s.construct codec .dec 0 0 0 0 (tableOf cfg.lead64) (tableOf cfg.lead32)).answer .unit)
      else
        .next (((s.construct codec .dec cfg.logw.toNat 0 0 cfg.nval.toNat (tableOf cfg.lead64) (tableOf cfg.lead32)).loadBytes
          cfg.bytes).answer .unit)
    else .next (s.usage .badConfig)

/-! ## Encoder commands -/

/-- The engine step behind ADDVALUE (rule R263). A bare machine has none; it is never reached there (rule R262). -/
def encodeValue (v : Raw) (s : State) : Eff Unit :=
  match s.codec with
  | .gor => gorEncode v s
  | .chp64 => chpEncode v s
  | .chp32 => chpEncode v s
  | .elf64 => elfEncode v s
  | .elf32 => elfEncode v s
  | .bs => .raise .usageError .badCommand s

/-- `ADDVALUE(v)` (rule R263); a 32-bit unit takes the low 32 bits of the operand (log entry 10). -/
def execAddValue (v : BitVec 64) (s : State) : Host.Outcome State Fault Refusal :=
  guarded (admitEncoder .addAfterClose s) s fun s => (encodeValue (lowBits s.n v) s).outcome fun _ s => s.answer .unit

/-- The sentinel of GOR and CHP (rules R168, R191); ELF and the bare unit have none (rule R232). -/
def encodeSentinel (s : State) : Eff Unit :=
  match s.codec with
  | .gor => gorEncode (qnan 64) s
  | .chp64 => chpEncode (qnan 64) s
  | .chp32 => chpEncode (qnan 32) s
  | .elf64 => .ok () s
  | .elf32 => .ok () s
  | .bs => .ok () s

/-- `CLOSE()` (rule R264). -/
def execClose (s : State) : Host.Outcome State Fault Refusal :=
  guarded (admitEncoder .secondClose s) s fun s =>
    ((encodeSentinel s).bind fun _ s => bswFlush s).outcome fun _ s => { s with phase := .closed }.answer .unit

/-- The bytes GETBYTES returns (rules R65, R265). -/
def outputLength (s : State) : Nat :=
  if isElf s.codec then 4 * ((s.size + 31) / 32) else (s.size + 7) / 8

/-- `GETBYTES()` (rule R265). -/
def execGetBytes (s : State) : Host.Outcome State Fault Refusal :=
  guarded (admitGetBytes s) s fun s => (bswGetBuffer (outputLength s) s).outcome fun bs s => s.answer (.bytes bs)

/-- `GETSIZE()` (rule R266). -/
def execGetSize (s : State) : Host.Outcome State Fault Refusal :=
  guarded (admitGetSize s) s fun s => .next (s.answer (.num s.size))

/-! ## Decoder commands -/

/-- Run a wire code the decoder has fetched: its own meaning. A command is never fetched from a stream. -/
def runWire (i : Instr) (s : State) : Host.Outcome State Fault Refusal :=
  match i with
  | .gorLit v => execGorLit v s
  | .gorSame => execGorSame s
  | .gorReuse p => execGorReuse p s
  | .gorNew l n p => execGorNew l n p s
  | .chp64Lit v => execChp64Lit v s
  | .chp64Repeat t => execChp64Repeat t s
  | .chp64Far t b n p => execChp64Far t b n p s
  | .chp64Reuse p => execChp64Reuse p s
  | .chp64New b p => execChp64New b p s
  | .chp32Lit v => execChp32Lit v s
  | .chp32Repeat t => execChp32Repeat t s
  | .chp32Far t b n p => execChp32Far t b n p s
  | .chp32Reuse p => execChp32Reuse p s
  | .chp32New b p => execChp32New b p s
  | .elf64EraseSame => execElf64EraseSame s
  | .elf64Raw => execElf64Raw s
  | .elf64EraseNew b => execElf64EraseNew b s
  | .elf64XLit v => execElf64XLit v s
  | .elf64XRepeat => execElf64XRepeat s
  | .elf64XFar b n p => execElf64XFar b n p s
  | .elf64XReuse p => execElf64XReuse p s
  | .elf64XNew b p => execElf64XNew b p s
  | .elf32EraseSame => execElf32EraseSame s
  | .elf32Raw => execElf32Raw s
  | .elf32EraseNew b => execElf32EraseNew b s
  | .elf32XLit v => execElf32XLit v s
  | .elf32XRepeat => execElf32XRepeat s
  | .elf32XFar b n p => execElf32XFar b n p s
  | .elf32XReuse p => execElf32XReuse p s
  | .elf32XNew b p => execElf32XNew b p s
  | .constructEnc _ | .constructDec _ | .addValue _ | .close | .getBytes | .getSize | .next | .decompress =>
    .next (s.usage .badCommand)
  | .write _ _ | .writeLong _ _ | .writeBit _ | .flush | .getBuffer _ => .next (s.usage .badCommand)
  | .load _ | .peek _ | .forward _ | .readInt _ | .readLong _ | .readBit => .next (s.usage .badCommand)

/-- The tests of rule R271 before a record is decoded, none where the record is to be decoded: the end of the block has
been reached, or is reached by the count of values (ELF), or the cursor is past the end of the stream. -/
def beforeRecord (s : State) : Option State :=
  if s.phase = .done then some (s.answer .endOfBlock)
  else if isElf s.codec = true ∧ s.count = s.nval then some ({ s with phase := .done }.answer .endOfBlock)
  else if s.pastEnd then some (s.failEntry .corruptStream .pastEnd)
  else none

/-- One wire code of the stream, fetched and run (rules R100, R271). -/
def runNextCode (s : State) : Host.Outcome State Fault Refusal :=
  match fetchWire s with
  | none => .next (s.usage .badCommand)
  | some (i, s) => runWire i s

/-- One record of the stream: one wire code, and after an ELF erasure code the XOR-stage record (rules R90, R231). -/
def runRecord (s : State) : Host.Outcome State Fault Refusal :=
  match runNextCode s with
  | .next t => if t.pend.isSome then runNextCode t else .next t
  | .fault f => .fault f
  | .refused r => .refused r

/-- The step behind NEXT (rule R271). A record begun by single wire codes is completed (log entry 3). -/
def nextValue (s : State) : Host.Outcome State Fault Refusal :=
  guarded (admitDecoder s) s fun s =>
    if s.pend.isSome then runNextCode s
    else
      match beforeRecord s with
      | some t => .next t
      | none => runRecord s

/-- `NEXT()` (rule R271). -/
def execNext (s : State) : Host.Outcome State Fault Refusal := nextValue s

/-- The loop of DECOMPRESS (rule R272): NEXT until it returns END or fails; `acc` the values delivered so far. -/
def decompressLoop (fuel : Nat) (acc : List Raw) (s : State) : Host.Outcome State Fault Refusal :=
  match fuel with
  | 0 => .fault .decompressBound
  | f + 1 =>
    match nextValue s with
    | .next t =>
      match t.resp with
      | some (.ok (.value v)) => decompressLoop f (acc ++ [v]) t
      | some (.ok .endOfBlock) => .next (t.answer (.values acc))
      | some (.ok .unit) | some (.ok (.num _)) | some (.ok (.bytes _)) | some (.ok (.values _)) => .next t
      | some (.fail _ _) => .next t
      | none => .next t
    | .fault r => .fault r
    | .refused r => .refused r

/-- `DECOMPRESS()` (rule R272); "at most `LENBITS + 1` iterations", one more is allowed here. -/
def execDecompress (s : State) : Host.Outcome State Fault Refusal := decompressLoop (s.lenBits + 2) [] s

end Machine
end Sys2Proof
end

