-- ==== Sys2Proof/Machine/Dispatch.lean ====
section
/-! DEFINITION. One arm per row of spec/opcode_table.json. -/

namespace Sys2Proof
namespace Machine

def exec (i : Instr) (s : State) : Host.Outcome State Fault Refusal :=
  match i with
  | .gorLit v => Sys2Proof.Machine.execGorLit v s
  | .gorSame => Sys2Proof.Machine.execGorSame s
  | .gorReuse payload => Sys2Proof.Machine.execGorReuse payload s
  | .gorNew lead5 cnt payload => Sys2Proof.Machine.execGorNew lead5 cnt payload s
  | .chp64Lit v => Sys2Proof.Machine.execChp64Lit v s
  | .chp64Repeat slot => Sys2Proof.Machine.execChp64Repeat slot s
  | .chp64Far slot b3 cnt payload => Sys2Proof.Machine.execChp64Far slot b3 cnt payload s
  | .chp64Reuse payload => Sys2Proof.Machine.execChp64Reuse payload s
  | .chp64New b3 payload => Sys2Proof.Machine.execChp64New b3 payload s
  | .chp32Lit v => Sys2Proof.Machine.execChp32Lit v s
  | .chp32Repeat slot => Sys2Proof.Machine.execChp32Repeat slot s
  | .chp32Far slot b3 cnt payload => Sys2Proof.Machine.execChp32Far slot b3 cnt payload s
  | .chp32Reuse payload => Sys2Proof.Machine.execChp32Reuse payload s
  | .chp32New b3 payload => Sys2Proof.Machine.execChp32New b3 payload s
  | .elf64EraseSame => Sys2Proof.Machine.execElf64EraseSame s
  | .elf64Raw => Sys2Proof.Machine.execElf64Raw s
  | .elf64EraseNew bs => Sys2Proof.Machine.execElf64EraseNew bs s
  | .elf64XLit v => Sys2Proof.Machine.execElf64XLit v s
  | .elf64XRepeat => Sys2Proof.Machine.execElf64XRepeat s
  | .elf64XFar b3 cnt payload => Sys2Proof.Machine.execElf64XFar b3 cnt payload s
  | .elf64XReuse payload => Sys2Proof.Machine.execElf64XReuse payload s
  | .elf64XNew b3 payload => Sys2Proof.Machine.execElf64XNew b3 payload s
  | .elf32EraseSame => Sys2Proof.Machine.execElf32EraseSame s
  | .elf32Raw => Sys2Proof.Machine.execElf32Raw s
  | .elf32EraseNew bs => Sys2Proof.Machine.execElf32EraseNew bs s
  | .elf32XLit v => Sys2Proof.Machine.execElf32XLit v s
  | .elf32XRepeat => Sys2Proof.Machine.execElf32XRepeat s
  | .elf32XFar b3 cnt payload => Sys2Proof.Machine.execElf32XFar b3 cnt payload s
  | .elf32XReuse payload => Sys2Proof.Machine.execElf32XReuse payload s
  | .elf32XNew b3 payload => Sys2Proof.Machine.execElf32XNew b3 payload s
  | .constructEnc cfg => Sys2Proof.Machine.execConstructEnc cfg s
  | .constructDec cfg => Sys2Proof.Machine.execConstructDec cfg s
  | .addValue v => Sys2Proof.Machine.execAddValue v s
  | .close => Sys2Proof.Machine.execClose s
  | .getBytes => Sys2Proof.Machine.execGetBytes s
  | .getSize => Sys2Proof.Machine.execGetSize s
  | .next => Sys2Proof.Machine.execNext s
  | .decompress => Sys2Proof.Machine.execDecompress s
  | .write content len => Sys2Proof.Machine.execWrite content len s
  | .writeLong content len => Sys2Proof.Machine.execWriteLong content len s
  | .writeBit b => Sys2Proof.Machine.execWriteBit b s
  | .flush => Sys2Proof.Machine.execFlush s
  | .getBuffer byteLen => Sys2Proof.Machine.execGetBuffer byteLen s
  | .load bytes => Sys2Proof.Machine.execLoad bytes s
  | .peek len => Sys2Proof.Machine.execPeek len s
  | .forward len => Sys2Proof.Machine.execForward len s
  | .readInt len => Sys2Proof.Machine.execReadInt len s
  | .readLong len => Sys2Proof.Machine.execReadLong len s
  | .readBit => Sys2Proof.Machine.execReadBit s

end Machine
end Sys2Proof
end

