-- ==== Sys2Proof/Machine/Fetch.lean ====
section
/-! DEFINITION. Fetching: one wire code of a decoder's stream as a step of its own, and a decoder placed before given
stream bits (log entry 3). -/

namespace Sys2Proof
namespace Machine

/-- One wire code of a decoder as a step of its own (log entry 3): at the start of a record the tests of rule R271
first, then the fetch at RPOS and the code's meaning. -/
def stepWire (s : State) : Host.Outcome State Fault Refusal :=
  guarded (admitDecoder s) s fun s =>
    match (if s.pend.isSome then none else beforeRecord s) with
    | some t => .next t
    | none =>
      match fetchWire s with
      | none => .next (s.usage .badCommand)
      | some (i, t) => exec i t

/-- A decoder about to read the bits `bs` at RPOS, at the first record of a block of `codec` or, for `first = false`, as
after a first value 0 (64 zero bits, already delivered): all that step needs to run the wire code next (log entry 3). -/
def State.atWire (s : State) (codec : Codec) (first : Bool) (bs : List Bool) : State :=
  { (s.construct codec .dec (Config.defaultLogw codec) 0 0 0 Config.defaultLeadRep Config.defaultLeadRep) with
    port := [], wire := true
    rbuf := memSetBits [] (if first then 0 else 64) bs
    len := 24, loaded := true
    rpos := if first then 0 else 64
    first := first
    prev := if first then none else some 0
    count := if first then 0 else 1 }

end Machine
end Sys2Proof
end

