-- ==== Sys2Proof/Machine/Step.lean ====
section
/-! DEFINITION. One step: the next command of the port, else, where the outside asks for it, the next wire code. -/

namespace Sys2Proof
namespace Machine

/-- One step. A byte that is no command is answered BadCommand and dropped (rule R112). With no complete command
pending the machine waits for its host: nothing changes (rule R70), unless `wire` asks for a wire code. -/
def step (s : State) : Host.Outcome State Fault Refusal :=
  match decode s.port with
  | .command i rest => exec i { s with port := rest }
  | .notCommand _ rest => .next ({ s with port := rest }.usage .badCommand)
  | .incomplete => if s.wire = true ∧ s.port = [] then stepWire s else .next s

/-- `s` with a word of the opcode table where step takes its next instruction (log entry 3). -/
def State.withFetchWord (s : State) (nbits w : Nat) : State :=
  match tablePlace nbits w with
  | some c => s.atWire c.codec c.first (bitsOf nbits w)
  | none => { s with port := commandBytes nbits w }

end Machine
end Sys2Proof
end

