-- ==== Sys2Proof/Safety.lean ====
section
/-! DEFINITION. What claims speak of: machines in their phases, the invariant of every reachable state, runs of
commands, and the exact value of a raw number. -/

namespace Sys2Proof
namespace Machine

/-! ## Machines in their phases (rules R34, R35, R262) -/

/-- An encoder of `codec` that accepts values. -/
def State.encoding (s : State) (codec : Codec) : Prop := s.codec = codec ∧ s.dir = .enc ∧ s.phase = .opened

/-- A decoder of `codec` with values to come. -/
def State.decoding (s : State) (codec : Codec) : Prop := s.codec = codec ∧ s.dir = .dec ∧ s.phase = .ready

/-- A bare unit of direction `d` that has not failed. -/
def State.bare (s : State) (d : Dir) : Prop := s.codec = .bs ∧ s.dir = d ∧ s.phase ≠ .fault

/-- A record's bits appended by an encoder's engine and counted in SIZE (rule R30). -/
def State.put (s : State) (bs : List Bool) : State :=
  { s with wbuf := memSetBits s.wbuf s.wpos bs, wpos := s.wpos + bs.length, size := s.size + bs.length }

/-- A state at the end of a failed command (rule R300). -/
def State.failedWith (s : State) (code : FailCode) (sub : SubCause) : Prop :=
  s.phase = .fault ∧ s.err = some code ∧ s.errsub = some sub ∧ s.resp = some (.fail code sub)

/-- Failure entry in the order of rule R300. The command is over, so no record is pending. -/
def State.fails (s : State) (code : FailCode) (sub : SubCause) : State :=
  { s with err := some code, errsub := some sub, phase := .fault, pend := none, resp := some (.fail code sub) }

/-- A command refused: only its response (rule R295). -/
def State.refuses (s : State) (sub : SubCause) : State := { s with resp := some (.fail .usageError sub) }

/-! ## What the records of a stream do, in the words of the rules -/

/-- `OK(END)` and the phase of rule R271. -/
def State.ends (s : State) : State := { s with phase := .done, resp := some (.ok .endOfBlock) }

/-- `OK(VALUE(v))`, counted (rule R271). -/
def State.delivers (s : State) (v : Raw) : State := { s with count := s.count + 1, resp := some (.ok (.value v)) }

/-- A decoder's commit of the first value of a CHP or ELF block (rule R197). -/
def State.holdsFirst (s : State) (v : Raw) : State :=
  { s with first := false, ring := tableInsert s.ring 0 v, cur := 0, prev := some v }

/-- A decoder's commit of a later value of a CHP or ELF block (rule R197). -/
def State.holdsLater (s : State) (v : Raw) : State :=
  { s with
    ring := tableInsert s.ring ((s.cur + 1) % 2 ^ s.logw) v, cur := (s.cur + 1) % 2 ^ s.logw, prev := some v }

/-- The end test of rule R197 on the first value of a CHP block, and the answer of rule R271. -/
def State.commitsFirst (s : State) (v : Raw) : State :=
  if isNaN s.n v then { s with first := false }.ends else (s.holdsFirst v).delivers v

/-- The end test of rule R197 on a later value of a CHP block, and the answer of rule R271. -/
def State.commitsLater (s : State) (v : Raw) : State :=
  if isNaN s.n v then s.ends else (s.holdsLater v).delivers v

/-- The end of an ELF record (rule R231): the value `v` of the XOR stage delivered, or restored first where the erasure
code said so. -/
def State.restores (s : State) (erased : Bool) (v : Raw) : State :=
  if erased then
    match s.lastbs with
    | none => s.fails .corruptStream .recoverDomain
    | some b =>
      match recover s.n v b with
      | none => s.fails .corruptStream .recoverDomain
      | some r => s.delivers r
  else s.delivers v

/-- Candidate selection of rule R185 for the value `v`: whether the far match is taken, the slot, and the XOR. -/
def State.selects (s : State) (v : Raw) (far : Bool) (slot : Nat) (x : Raw) : Prop :=
  (far = true ∧ s.index - idxRead s.idx (keyOf s.n s.logw v) < 2 ^ s.logw
    ∧ slot = idxRead s.idx (keyOf s.n s.logw v) % 2 ^ s.logw
    ∧ (∃ r, s.ringAt slot = some r ∧ x = v ^^^ r) ∧ threshold s.n s.logw < ctz s.n x)
  ∨ (far = false ∧ slot = s.index % 2 ^ s.logw ∧ (∃ r, s.ringAt slot = some r ∧ x = v ^^^ r)
    ∧ (s.index - idxRead s.idx (keyOf s.n s.logw v) < 2 ^ s.logw →
        ∃ r, s.ringAt (idxRead s.idx (keyOf s.n s.logw v) % 2 ^ s.logw) = some r
          ∧ ctz s.n (v ^^^ r) ≤ threshold s.n s.logw))

/-- The bits of a later CHP record as rule R102 lays them out, and the CLEAD after it (rules R186 to R189). -/
def State.chpRecord (s : State) (far : Bool) (slot : Nat) (x : Raw) : List Bool × Option Nat :=
  if x = 0 then ([false, false] ++ bitsOf s.logw slot, none)
  else if far then
    ([false, true] ++ bitsOf s.logw slot ++ bitsOf 3 (bucket s.leadRep (clz s.n x))
      ++ bitsOf (cntBits s.n) (s.n - repOf s.leadRep (clz s.n x) - ctz s.n x)
      ++ bitsOf (s.n - repOf s.leadRep (clz s.n x) - ctz s.n x) (x.toNat / 2 ^ ctz s.n x), none)
  else if s.clead = some (repOf s.leadRep (clz s.n x)) then
    ([true, false] ++ bitsOf (s.n - repOf s.leadRep (clz s.n x)) x.toNat, s.clead)
  else
    ([true, true] ++ bitsOf 3 (bucket s.leadRep (clz s.n x)) ++ bitsOf (s.n - repOf s.leadRep (clz s.n x)) x.toNat,
      some (repOf s.leadRep (clz s.n x)))

/-- The erasure code's bits, LASTBS after it and the value for the XOR stage (rules R103, R228, R229). -/
def State.erasure (s : State) (v : Raw) : List Bool × Option Nat × Raw :=
  match search s.n s.eps v with
  | none => ([true, false], s.lastbs, v)
  | some (b, v') =>
    if s.lastbs = some b then ([false], s.lastbs, v') else ([true, true] ++ bitsOf (bsBits s.n) b, some b, v')

/-! ## The invariant -/

/-- Buffers and sparse arrays in their one canonical form; no byte stands beyond the bits written or loaded. -/
def invBuffers (s : State) : Prop :=
  memWf s.wbuf ∧ memWf s.rbuf ∧ tableSorted s.ring ∧ tableSorted s.idx ∧ (∀ e ∈ s.idx, e.2 ≠ 0)
    ∧ (∀ c ∈ s.wbuf, 8 * c.1 < s.wpos) ∧ (∀ c ∈ s.rbuf, c.1 < s.len)

/-- Legal parameters (rules R10, R36). -/
def invParams (s : State) : Prop :=
  s.logw ≤ 16 ∧ (s.codec ≠ .chp64 → s.codec ≠ .chp32 → s.logw = 0) ∧ s.capw ≤ 134217727 ∧ legalEps s.eps = true
    ∧ s.nval < 2 ^ 32 ∧ (hasRing s.codec = true → legalLeadRep s.leadRep = true)

/-- Phases of each personality, and ERR and ERRSUB (rules R34, R35, R291 to R296). -/
def invStatus (s : State) : Prop :=
  (s.dir = .enc → s.phase ≠ .ready ∧ s.phase ≠ .done) ∧ (s.dir = .dec → s.phase ≠ .opened ∧ s.phase ≠ .closed)
    ∧ (s.codec = .bs → s.phase ≠ .closed ∧ s.phase ≠ .done)
    ∧ (s.phase = .fault ↔ s.err ≠ none) ∧ (s.err = none ↔ s.errsub = none)
    ∧ s.err ≠ some .usageError
    ∧ (s.err = some .capacityExceeded → s.dir = .enc)
    ∧ (s.err = some .corruptStream → s.dir = .dec ∧ s.codec ≠ .bs)
    ∧ (s.err = some .domainError → s.dir = .enc ∧ isElf s.codec = true)

/-- The writer: capacity, size accounting, padding (rules R28, R30, R130, R134). -/
def invWriter (s : State) : Prop :=
  s.wpos ≤ 32 * s.capw ∧ (s.flushed = true → s.wpos % 32 = 0)
    ∧ (s.codec ≠ .bs → s.phase = .opened → s.flushed = false ∧ s.size = s.wpos)
    ∧ (s.codec ≠ .bs → s.phase = .closed → s.flushed = true ∧ s.wpos = 32 * ((s.size + 31) / 32))
    ∧ (s.codec = .bs → s.size = 0)
    ∧ (s.dir = .dec → s.capw = 0 ∧ s.size = 0 ∧ s.flushed = false)

/-- The reader: what is loaded, and PAST_END (rules R33, R140, R142). -/
def invReader (s : State) : Prop :=
  s.len < maxLoad ∧ (s.pastEnd = true ↔ s.lenBits < s.rpos) ∧ (s.loaded = false → s.len = 0)
    ∧ (s.dir = .enc → s.loaded = false ∧ s.rpos = 0) ∧ (s.dir = .dec → s.codec ≠ .bs → s.loaded = true)

/-- Ranges of the predictor registers (rules R23 to R26, R37, R38). -/
def invRanges (s : State) : Prop :=
  (∀ p, s.prev = some p → p.toNat < 2 ^ s.n) ∧ (∀ e ∈ s.ring, e.1 < s.w ∧ e.2.toNat < 2 ^ s.n) ∧ s.cur < s.w
    ∧ (∀ e ∈ s.idx, e.1 < 2 ^ keyBits s.n s.logw ∧ e.2 ≤ s.index)
    ∧ (s.codec = .gor → ∀ l, s.clead = some l → l ≤ 31 ∧ l + s.ctrail ≤ 63)
    ∧ (hasRing s.codec = true → ∀ l, s.clead = some l → l ∈ s.leadRep)
    ∧ (∀ b, s.lastbs = some b → b ≤ bMax s.n)

/-- A codec decoder with values to come holds what its next record may read (rules R22, R25, R231). -/
def invDecoder (s : State) : Prop :=
  s.dir = .dec → s.phase = .ready → s.codec ≠ .bs →
    (s.first = true → s.clead = none ∧ s.ring = [] ∧ s.count = 0)
    ∧ (s.first = false → s.prev ≠ none)
    ∧ (hasRing s.codec = true → s.first = false → s.ringAt s.cur = s.prev)
    ∧ (s.pend ≠ none → isElf s.codec = true) ∧ (s.pend = some true → s.lastbs ≠ none)

/-- A codec encoder that accepts values holds what its next record may read (rules R22, R24, R37, R38, R185): the slots
of the values so far are written, and the last value is the last insertion with its key. -/
def invEncoder (s : State) : Prop :=
  s.dir = .enc → s.phase = .opened → s.codec ≠ .bs →
    s.pend = none
    ∧ (s.first = true → s.clead = none ∧ s.ring = [] ∧ s.idx = [] ∧ s.index = 0 ∧ s.size = 0)
    ∧ (s.codec = .gor → s.first = false → s.prev ≠ none)
    ∧ (hasRing s.codec = true → s.first = false →
        (∀ slot, slot < s.w → slot ≤ s.index → s.ringAt slot ≠ none)
        ∧ ∃ r, s.ringAt (s.index % s.w) = some r ∧ idxRead s.idx (keyOf s.n s.logw r) = s.index)

/-- Only a decoder with values to come stands inside a record. -/
def invPending (s : State) : Prop := s.pend ≠ none → s.dir = .dec ∧ s.phase = .ready

/-- What every reachable state of the machine satisfies. -/
def Inv (s : State) : Prop :=
  invBuffers s ∧ invParams s ∧ invStatus s ∧ invWriter s ∧ invReader s ∧ invRanges s ∧ invDecoder s ∧ invEncoder s ∧ invPending s

/-! ## Runs -/

/-- The direction of a unit operation of 40_bitstream.md, the writer's or the reader's; none for every other
instruction. -/
def unitDir : Instr → Option Dir
  | .write _ _ | .writeLong _ _ | .writeBit _ | .flush | .getBuffer _ => some .enc
  | .load _ | .peek _ | .forward _ | .readInt _ | .readLong _ | .readBit => some .dec
  | .constructEnc _ | .constructDec _ | .addValue _ | .close | .getBytes | .getSize | .next | .decompress => none
  | .gorLit _ | .gorSame | .gorReuse _ | .gorNew _ _ _ => none
  | .chp64Lit _ | .chp64Repeat _ | .chp64Far _ _ _ _ | .chp64Reuse _ | .chp64New _ _ => none
  | .chp32Lit _ | .chp32Repeat _ | .chp32Far _ _ _ _ | .chp32Reuse _ | .chp32New _ _ => none
  | .elf64EraseSame | .elf64Raw | .elf64EraseNew _ => none
  | .elf64XLit _ | .elf64XRepeat | .elf64XFar _ _ _ | .elf64XReuse _ | .elf64XNew _ _ => none
  | .elf32EraseSame | .elf32Raw | .elf32EraseNew _ => none
  | .elf32XLit _ | .elf32XRepeat | .elf32XFar _ _ _ | .elf32XReuse _ | .elf32XNew _ _ => none

/-- The codec commands that take no operand (rule R262); ADDVALUE takes one. -/
def codecCommands : List Instr := [.close, .getBytes, .getSize, .next, .decompress]

/-- Issue commands one after another, as their host does (rule R260); the responses, oldest first, and the last state.
None where a step stops the model. -/
def runCommands (is : List Instr) (s : State) : Option (List (Option Response) × State) :=
  match is with
  | [] => some ([], s)
  | i :: r =>
    match exec i s with
    | .next t => (runCommands r t).map fun q => (t.resp :: q.1, q.2)
    | .fault _ => none
    | .refused _ => none

/-- Steps with the command port as it stands; none where a step stops the model. -/
def runSteps (n : Nat) (s : State) : Option State :=
  match n with
  | 0 => some s
  | k + 1 =>
    match step s with
    | .next t => runSteps k t
    | .fault _ => none
    | .refused _ => none

/-- The commands of one block: CONSTRUCT, an ADDVALUE for each value, CLOSE, GETBYTES. -/
def blockCommands (g : EncConfig) (vs : List Raw) : List Instr :=
  .constructEnc g :: vs.map Instr.addValue ++ [.close, .getBytes]

/-- The bytes an encoder constructed with `g` gives for the block `vs`, where every command answers OK. -/
def encodeBlock (g : EncConfig) (vs : List Raw) (s : State) : Option (List Byte) :=
  match runCommands (blockCommands g vs) s with
  | none => none
  | some q =>
    match q.2.resp with
    | some (.ok (.bytes bs)) => if q.1.dropLast.all (· == some (.ok .unit)) then some bs else none
    | _ => none

/-- The response of DECOMPRESS on a decoder constructed with `g`. -/
def decodeBlock (g : DecConfig) (s : State) : Option Response :=
  match runCommands [.constructDec g, .decompress] s with
  | none => none
  | some q => q.2.resp

/-- The command that writes a field of `f.2` bits: WRITE or, beyond 32 bits, WRITELONG (rule R147). -/
def writeField (f : BitVec 64 × Byte) : Instr := if f.2.toNat ≤ 32 then .write f.1 f.2 else .writeLong f.1 f.2

/-- The command that reads a field of `n` bits: READINT or, beyond 32 bits, READLONG (rule R147). -/
def readField (n : Byte) : Instr := if n.toNat ≤ 32 then .readInt n else .readLong n

/-- The numbers that successive reads of the given lengths take from a bit string, first bit most significant. -/
def readings (ns : List Nat) (bits : List Bool) : List Nat :=
  match ns with
  | [] => []
  | n :: r => natOfBits (bits.take n) :: readings r (bits.drop n)

/-! ## Exact values (rule R16) -/

/-- `val(v)` of a finite raw value of width `n`, in the words of rule R16. -/
def rawVal (n : Nat) (v : Raw) : ℚ :=
  (if signBit n v then -1 else 1)
    * (if expField n v = 0 then 2 ^ (1 - (bias n : Int) - (mantBits n : Int)) * (mantField n v : ℚ)
       else 2 ^ ((expField n v : Int) - (bias n : Int) - (mantBits n : Int)) * (2 ^ mantBits n + (mantField n v : ℚ)))

/-- `num / den` as a rational. -/
def Frac.val (a : Frac) : ℚ := a.num / a.den

/-- `Trial_N(v, b)` succeeds with `v'`, in the words of rule R225: `erase` low bits cleared, more than MINERASE and not
all clear before, and the restoration finite and within `EPS` of `v`. -/
def trialAccepts (n : Nat) (eps v : Raw) (b : Nat) (v' : Raw) : Prop :=
  ∃ (sp : Int) (erase : Nat) (r : Raw),
    (10 : ℚ) ^ sp ≤ |rawVal n v| ∧ |rawVal n v| < (10 : ℚ) ^ (sp + 1)
      ∧ (erase : Int) =
          min ((mantBits n : Int) - ((fracBits ((max b 1 : Nat) - sp - 1) : Int) + (expField n v : Int) - (bias n : Int)))
            (mantBits n : Int)
      ∧ minErase n < erase ∧ v.toNat % 2 ^ erase ≠ 0 ∧ v'.toNat = v.toNat - v.toNat % 2 ^ erase
      ∧ recover n v' b = some r ∧ isInf n r = false ∧ |rawVal n r - rawVal n v| ≤ rawVal 64 eps

end Machine
end Sys2Proof
end

