-- ==== Sys2Proof/Certificates/Slice0/Obligations.lean ====
section
/-! DEFINITION. The statements about the XDC model, in the order of the spec's files. -/

open Sys2Proof Sys2Proof.Machine

/-! ## Encoding (30_encoding.md) -/

/-- Rules R91 to R104: decoding the bits of a well-formed wire code, at its place `c` of the stream and with anything
behind it, gives the wire code back, every field at every value its width admits. -/
def Obligations.WireCodesRoundTrip : Prop :=
  ∀ (c : WireCtx) (i : Instr) (rest : List Bool), wellFormed c i = true → i.isCommand = false →
    decodeWire c (encodeWire c i ++ rest) = some (i, rest)

/-- Decoding the bytes of a well-formed command gives it back. The operand bytes are the model's own layout (log entry
2); the command numbers are rule R112's. -/
def Obligations.CommandsRoundTrip : Prop :=
  ∀ (c : WireCtx) (i : Instr) (rest : List Byte), wellFormed c i = true → i.isCommand = true →
    decode (encode i ++ rest) = .command i rest

/-- Whatever bits the stream and whatever bytes the port hold, what the decoders read from them is a well-formed
instruction whose own encoding stands there: each bit string has one reading. The operand bytes of a command are the
model's own layout (log entry 2); of WRITEBIT's operand byte only the lowest bit is read. -/
def Obligations.DecodedInstructionsAreWellFormed : Prop :=
  (∀ (c : WireCtx) (bits rest : List Bool) (i : Instr), c.logw ≤ 16 → (c.mid = true → isElf c.codec = true) →
    decodeWire c bits = some (i, rest) →
      wellFormed c i = true ∧ i.isCommand = false ∧ bits = encodeWire c i ++ rest) ∧
  ∀ (c : WireCtx) (bytes rest : List Byte) (i : Instr), decode bytes = .command i rest →
    wellFormed c i = true ∧ i.isCommand = true ∧
      ((∀ b, i ≠ .writeBit b) → bytes = encode i ++ rest) ∧
      ∀ b, i = .writeBit b → ∃ x : Byte, b = x.getLsbD 0 ∧ bytes = 0x12 :: x :: rest

/-- Rule R106: every bit string begins a wire code. With the longest record's bits at hand the decoder of a codec
never lacks a reading. -/
def Obligations.EveryBitStringDecodes : Prop :=
  ∀ (c : WireCtx) (bits : List Bool), c.codec ≠ .bs → c.logw + 77 ≤ bits.length → ∃ q, decodeWire c bits = some q

/-- The lengths of rules R100 and R105: a record has at least one bit and at most the longest of its unit. -/
def Obligations.WireCodeLengths : Prop :=
  ∀ (c : WireCtx) (i : Instr), wellFormed c i = true → i.isCommand = false →
    1 ≤ (encodeWire c i).length ∧
      (c.codec = .gor → (encodeWire c i).length ≤ 77) ∧
      (c.codec = .chp64 → (encodeWire c i).length ≤ c.logw + 75) ∧
      (c.codec = .chp32 → (encodeWire c i).length ≤ c.logw + 42) ∧
      (c.codec = .elf64 → (encodeWire c i).length ≤ if c.mid then 75 else 6) ∧
      (c.codec = .elf32 → (encodeWire c i).length ≤ if c.mid then 42 else 5)

/-- Rule R112: the number of each command, and a byte that is no command's number is answered
`UsageError(BadCommand)`, changing no state. That the one byte is taken off the port, and that it is answered so in every
phase, FAULT included, is the model's choice (log entry 14). -/
def Obligations.CommandNumbers : Prop :=
  (∀ g, (encode (.constructEnc g)).head? = some 0x01) ∧ (∀ g, (encode (.constructDec g)).head? = some 0x01) ∧
  (∀ v, (encode (.addValue v)).head? = some 0x02) ∧ (encode .close).head? = some 0x03 ∧
  (encode .getBytes).head? = some 0x04 ∧ (encode .getSize).head? = some 0x05 ∧
  (encode .next).head? = some 0x06 ∧ (encode .decompress).head? = some 0x07 ∧
  (∀ c n, (encode (.write c n)).head? = some 0x10) ∧ (∀ c n, (encode (.writeLong c n)).head? = some 0x11) ∧
  (∀ b, (encode (.writeBit b)).head? = some 0x12) ∧ (encode .flush).head? = some 0x13 ∧
  (∀ n, (encode (.getBuffer n)).head? = some 0x14) ∧ (∀ bs, (encode (.load bs)).head? = some 0x18) ∧
  (∀ n, (encode (.peek n)).head? = some 0x19) ∧ (∀ n, (encode (.forward n)).head? = some 0x1A) ∧
  (∀ n, (encode (.readInt n)).head? = some 0x1B) ∧ (∀ n, (encode (.readLong n)).head? = some 0x1C) ∧
  (encode .readBit).head? = some 0x1D ∧
  ∀ (s : State) (cmd : Byte) (rest : List Byte),
    cmd ∉ ([0x01, 0x02, 0x03, 0x04, 0x05, 0x06, 0x07, 0x10, 0x11, 0x12, 0x13, 0x14, 0x18, 0x19, 0x1A, 0x1B, 0x1C, 0x1D]
      : List Byte) →
    step { s with port := cmd :: rest } =
      .next { s with port := rest, resp := some (.fail .usageError .badCommand) }

/-- A sanity statement: words written out from the spec's encodings decode to what they stand for (the examples of rules
R166, R165, R187, R189, R230 and the command numbers of rule R112). The operand bytes of the two commands are the model's
own layout (log entry 2). -/
def Obligations.SampleWordsDecode : Prop :=
  (decodeWire { codec := .gor, logw := 0, rep := Config.defaultLeadRep, clead := none, ctrail := 0, first := false,
                mid := false, slots := [] }
      [true, true, false, false, false, false, true, false, false, true, false, true, true, true, true, true, true, true,
        true, true, true, true, true, true] = some (.gorNew 1 11 0x7FF, [])) ∧
  (decodeWire { codec := .gor, logw := 0, rep := Config.defaultLeadRep, clead := some 12, ctrail := 41, first := false,
                mid := false, slots := [] }
      [true, false, true, false, false, false, false, false, false, false, false, false, true] =
    some (.gorReuse 0x401, [])) ∧
  (decodeWire { codec := .chp64, logw := 7, rep := Config.defaultLeadRep, clead := none, ctrail := 0, first := false,
                mid := false, slots := [10] }
      [false, true, false, false, false, true, false, true, false, true, true, true, false, true, true, false, false,
        false, false, false, false, false, false, false, false, false, false, false, false, false, false, false, false,
        false, true, true, true, true, true, true, true, true] = some (.chp64Far 10 7 24 0xFF, [])) ∧
  (decodeWire { codec := .elf64, logw := 0, rep := Config.defaultLeadRep, clead := none, ctrail := 0, first := false,
                mid := false, slots := [0] }
      [true, true, false, false, false, true, false, false] = some (.elf64EraseNew 1, [false, false])) ∧
  (decodeWire { codec := .elf64, logw := 0, rep := Config.defaultLeadRep, clead := none, ctrail := 0, first := false,
                mid := true, slots := [0] } [false, false] = some (.elf64XRepeat, [])) ∧
  (decode [0x02, 0x3F, 0xF0, 0, 0, 0, 0, 0, 0] = .command (.addValue 0x3FF0000000000000) []) ∧
  (decode [0x1B, 5, 0x03] = .command (.readInt 5) [0x03])

/-! ## Steps (log entries 2, 3) -/

/-- The command port: a complete command at its head is taken off and executed; while none is complete and no wire code
is asked for, nothing changes (rules R70 and R260: a command runs to completion before the next). -/
def Obligations.StepTakesTheNextCommand : Prop :=
  (∀ (s : State) (i : Instr) (rest : List Byte), decode s.port = .command i rest → step s = exec i { s with port := rest }) ∧
  (∀ s : State, decode s.port = .incomplete → s.wire = false ∨ s.port ≠ [] → step s = .next s)

/-- A record begins where NEXT would decode one: inside an ELF record, or with PAST_END clear and, for ELF, fewer than
NVAL values delivered (rule R271). -/
def Obligations.StepRunsTheWireCode : Prop :=
  ∀ (s : State) (i : Instr) (rest : List Bool), s.port = [] → s.wire = true →
    s.dir = .dec → s.phase = .ready → s.codec ≠ .bs →
    (s.pend = none → s.pastEnd = false ∧ (isElf s.codec = true → s.count ≠ s.nval)) →
    wellFormed s.wireCtx i = true → i.isCommand = false → s.ahead (lookahead s) = encodeWire s.wireCtx i ++ rest →
    step s = exec i (s.advance (encodeWire s.wireCtx i).length)

/-- NEXT decodes one record (rules R90, R271): on GOR and CHP it executes the one wire code at RPOS, the cursor moved
past it; on ELF an erasure code and then the XOR-stage record behind it, or the erasure code alone where that fails. -/
def Obligations.NextRunsOneRecord : Prop :=
  ∀ (s : State) (i : Instr) (rest : List Bool), s.dir = .dec → s.phase = .ready → s.codec ≠ .bs → s.pend = none →
    s.pastEnd = false → (isElf s.codec = true → s.count ≠ s.nval) →
    wellFormed s.wireCtx i = true → i.isCommand = false → s.ahead (lookahead s) = encodeWire s.wireCtx i ++ rest →
    (isElf s.codec = false → exec .next s = exec i (s.advance (encodeWire s.wireCtx i).length)) ∧
    (isElf s.codec = true → ∀ t : State, exec i (s.advance (encodeWire s.wireCtx i).length) = .next t → t.pend = none →
      exec .next s = .next t) ∧
    (isElf s.codec = true → ∀ (t : State) (x : Instr) (rest' : List Bool),
      exec i (s.advance (encodeWire s.wireCtx i).length) = .next t → t.pend ≠ none →
      wellFormed t.wireCtx x = true → x.isCommand = false → t.ahead (lookahead t) = encodeWire t.wireCtx x ++ rest' →
      exec .next s = exec x (t.advance (encodeWire t.wireCtx x).length))

/-! ## CONSTRUCT (rules R261, R270, R320, R321) -/

/-- CONSTRUCT for DIR = ENC with legal operands: every register at the value of rule R321, whatever machine stood there
before. A parameter the unit does not have is 0 (the model's choice, log entry 17); the command port and the step mode
are the model's own and stay. -/
def Obligations.ConstructEncoderResets : Prop :=
  ∀ (g : EncConfig) (codec : Codec) (s : State), g.codec.toNat = codecCode codec →
    (codec = .chp64 ∨ codec = .chp32 → g.logw.toNat ≤ 16) → g.capw.toNat ≤ 2 ^ 27 - 1 →
    (isElf codec = true → isNaN 64 g.eps = false ∧ isInf 64 g.eps = false ∧
      (signBit 64 g.eps = true → isZero 64 g.eps = true)) →
    (hasRing codec = true → legalLeadRep ((if width codec = 64 then g.lead64 else g.lead32).map BitVec.toNat) = true) →
    exec (.constructEnc g) s = .next
      { port := s.port, resp := some (.ok .unit), wire := s.wire, pend := none
        codec := codec, dir := .enc
        logw := if codec = .chp64 ∨ codec = .chp32 then g.logw.toNat else 0
        capw := g.capw.toNat, eps := if isElf codec = true then g.eps else 0, nval := 0
        leadRep64 := g.lead64.map BitVec.toNat, leadRep32 := g.lead32.map BitVec.toNat
        phase := .opened, err := none, errsub := none, size := 0, count := 0
        first := true, prev := none, clead := none, ctrail := 0, index := 0, cur := 0, lastbs := none
        ring := [], idx := [], wbuf := [], wpos := 0, flushed := false
        rbuf := [], len := 0, rpos := 0, pastEnd := false, loaded := false }

/-- CONSTRUCT for DIR = DEC with legal operands: every register at the value of rule R321; a codec decoder has its bytes
loaded (rules R140, R270), a bare reader starts unloaded and reads as an empty stream (rule R33). A parameter the
machine does not have is 0, and a bare reader ignores the bytes offered (the model's choices, log entry 17). -/
def Obligations.ConstructDecoderResets : Prop :=
  ∀ (g : DecConfig) (codec : Codec) (s : State), g.codec.toNat = codecCode codec →
    (codec = .chp64 ∨ codec = .chp32 → g.logw.toNat ≤ 16) → g.bytes.length < 2 ^ 29 →
    (hasRing codec = true → legalLeadRep ((if width codec = 64 then g.lead64 else g.lead32).map BitVec.toNat) = true) →
    ∃ m, exec (.constructDec g) s = .next
      { port := s.port, resp := some (.ok .unit), wire := s.wire, pend := none
        codec := codec, dir := .dec
        logw := if codec = .chp64 ∨ codec = .chp32 then g.logw.toNat else 0
        capw := 0, eps := 0, nval := if isElf codec = true then g.nval.toNat else 0
        leadRep64 := g.lead64.map BitVec.toNat, leadRep32 := g.lead32.map BitVec.toNat
        phase := .ready, err := none, errsub := none, size := 0, count := 0
        first := true, prev := none, clead := none, ctrail := 0, index := 0, cur := 0, lastbs := none
        ring := [], idx := [], wbuf := [], wpos := 0, flushed := false
        rbuf := m, len := if codec = .bs then 0 else g.bytes.length
        rpos := 0, pastEnd := false, loaded := decide (codec ≠ .bs) } ∧
      ∀ a, memRead m a = if codec = .bs then 0 else g.bytes.getD a 0

/-- An illegal operand is answered `UsageError(BadConfig)` and creates nothing: every condition of rules R261 and R270,
and an illegal LEAD_REP table of the unit (the model's reading of rules R10 and R36, log entry 8). -/
def Obligations.ConstructRefusesBadConfig : Prop :=
  (∀ (g : EncConfig) (s : State),
    5 < g.codec.toNat ∨
    (∃ codec, g.codec.toNat = codecCode codec ∧
      (((codec = .chp64 ∨ codec = .chp32) ∧ 16 < g.logw.toNat) ∨ 2 ^ 27 - 1 < g.capw.toNat ∨
        (isElf codec = true ∧ (isNaN 64 g.eps = true ∨ isInf 64 g.eps = true ∨
          (signBit 64 g.eps = true ∧ isZero 64 g.eps = false))) ∨
        (hasRing codec = true ∧
          legalLeadRep ((if width codec = 64 then g.lead64 else g.lead32).map BitVec.toNat) = false))) →
    exec (.constructEnc g) s = .next { s with resp := some (.fail .usageError .badConfig) }) ∧
  (∀ (g : DecConfig) (s : State),
    5 < g.codec.toNat ∨
    (∃ codec, g.codec.toNat = codecCode codec ∧
      (((codec = .chp64 ∨ codec = .chp32) ∧ 16 < g.logw.toNat) ∨ 2 ^ 29 ≤ g.bytes.length ∨
        (hasRing codec = true ∧
          legalLeadRep ((if width codec = 64 then g.lead64 else g.lead32).map BitVec.toNat) = false))) →
    exec (.constructDec g) s = .next { s with resp := some (.fail .usageError .badConfig) })

/-! ## The bit-stream writer (rules R131 to R135) -/

/-- Rule R131, WRITE on a bare writer: the tests in their order, then the bits `content[len-1] .. content[0]` behind the
stream, WPOS moved by `len`, nothing else changed. -/
def Obligations.WriteAppendsItsField : Prop :=
  ∀ (s : State) (content : BitVec 64) (len : Byte), memWf s.wbuf → s.bare .enc →
    (encode (.write content len)).head? = some 0x10 ∧
    (s.flushed = true →
      exec (.write content len) s = .next { s with resp := some (.fail .usageError .writeAfterFlush) }) ∧
    (s.flushed = false → 32 < len.toNat →
      exec (.write content len) s = .next { s with resp := some (.fail .usageError .badLength) }) ∧
    (s.flushed = false → len.toNat ≤ 32 → 32 * s.capw < s.wpos + len.toNat →
      exec (.write content len) s = .next { s with
        err := some .capacityExceeded, errsub := some .wbuf, phase := .fault, pend := none
        resp := some (.fail .capacityExceeded .wbuf) }) ∧
    (s.flushed = false → len.toNat ≤ 32 → s.wpos + len.toNat ≤ 32 * s.capw →
      ∃ m, exec (.write content len) s =
          .next { s with wbuf := m, wpos := s.wpos + len.toNat, resp := some (.ok (.num len.toNat)) } ∧
        ({ s with wbuf := m, wpos := s.wpos + len.toNat } : State).stream =
          s.stream ++ (List.range len.toNat).map fun i => content.getLsbD (len.toNat - 1 - i))

/-- Rule R132, WRITELONG on a bare writer: as WRITE with up to 64 bits. After FLUSH a length
beyond 64 too is WriteAfterFlush, the order of rule R298 against the first line of rule R132's pseudocode (log entry
18). -/
def Obligations.WriteLongAppendsItsField : Prop :=
  ∀ (s : State) (content : BitVec 64) (len : Byte), memWf s.wbuf → s.bare .enc →
    (encode (.writeLong content len)).head? = some 0x11 ∧
    (s.flushed = true →
      exec (.writeLong content len) s = .next { s with resp := some (.fail .usageError .writeAfterFlush) }) ∧
    (s.flushed = false → 64 < len.toNat →
      exec (.writeLong content len) s = .next { s with resp := some (.fail .usageError .badLength) }) ∧
    (len.toNat ≤ 64 → s.flushed = false → 32 * s.capw < s.wpos + len.toNat →
      exec (.writeLong content len) s = .next { s with
        err := some .capacityExceeded, errsub := some .wbuf, phase := .fault, pend := none
        resp := some (.fail .capacityExceeded .wbuf) }) ∧
    (len.toNat ≤ 64 → s.flushed = false → s.wpos + len.toNat ≤ 32 * s.capw →
      ∃ m, exec (.writeLong content len) s =
          .next { s with wbuf := m, wpos := s.wpos + len.toNat, resp := some (.ok (.num len.toNat)) } ∧
        ({ s with wbuf := m, wpos := s.wpos + len.toNat } : State).stream =
          s.stream ++ (List.range len.toNat).map fun i => content.getLsbD (len.toNat - 1 - i))

/-- Rule R133, WRITEBIT on a bare writer: exactly `WRITE(b, 1)`, which returns 1. -/
def Obligations.WriteBitAppendsOneBit : Prop :=
  ∀ (s : State) (b : Bool), (encode (.writeBit b)).head? = some 0x12 ∧ exec (.writeBit b) s = exec (.write (if b then 1 else 0) 1) s ∧
    (memWf s.wbuf → s.bare .enc → s.flushed = false → s.wpos + 1 ≤ 32 * s.capw →
      ∃ m, exec (.writeBit b) s = .next { s with wbuf := m, wpos := s.wpos + 1, resp := some (.ok (.num 1)) } ∧
        ({ s with wbuf := m, wpos := s.wpos + 1 } : State).stream = s.stream ++ [b])

/-- Rule R134, FLUSH on a bare writer: zero bits up to the next multiple of 32, once. -/
def Obligations.FlushPads : Prop :=
  ∀ s : State, memWf s.wbuf → s.bare .enc →
    encode .flush = [0x13] ∧
    (s.flushed = true → exec .flush s = .next { s with resp := some (.fail .usageError .secondFlush) }) ∧
    (s.flushed = false →
      ∃ m, exec .flush s = .next { s with
          wbuf := m, wpos := 32 * ((s.wpos + 31) / 32), flushed := true, resp := some (.ok .unit) } ∧
        ({ s with wbuf := m, wpos := 32 * ((s.wpos + 31) / 32) } : State).stream =
          s.stream ++ List.replicate (32 * ((s.wpos + 31) / 32) - s.wpos) false)

/-- Rule R135, GETBUFFER on a bare writer: the first `byteLen` bytes of the flushed stream, bit `8j` the most significant
of byte `j`; nothing but the response changes. -/
def Obligations.GetBufferReturnsTheFirstBytes : Prop :=
  ∀ (s : State) (byteLen : BitVec 32), s.bare .enc →
    (encode (.getBuffer byteLen)).head? = some 0x14 ∧
    (s.flushed = false →
      exec (.getBuffer byteLen) s = .next { s with resp := some (.fail .usageError .notFlushed) }) ∧
    (s.flushed = true → s.wpos < 8 * byteLen.toNat →
      exec (.getBuffer byteLen) s = .next { s with resp := some (.fail .usageError .badLength) }) ∧
    (s.flushed = true → 8 * byteLen.toNat ≤ s.wpos →
      ∃ bs, exec (.getBuffer byteLen) s = .next { s with resp := some (.ok (.bytes bs)) } ∧
        bs.length = byteLen.toNat ∧ bs.flatMap bitsOfByte = s.stream.take (8 * byteLen.toNat))

/-! ## The bit-stream reader (rules R140 to R145) -/

/-- Rule R140, LOAD on a bare reader: the bytes become the stream, bit `8j` the most significant of byte `j`, zeros
behind it; the cursor and PAST_END are cleared; a second LOAD is refused. -/
def Obligations.LoadFillsTheReader : Prop :=
  ∀ (s : State) (bytes : List Byte), s.bare .dec →
    (s.loaded = true → exec (.load bytes) s = .next { s with resp := some (.fail .usageError .reload) }) ∧
    (s.loaded = false → bytes.length < 2 ^ 29 →
      ∃ m, exec (.load bytes) s = .next { s with
          rbuf := m, len := bytes.length, rpos := 0, pastEnd := false, loaded := true, resp := some (.ok .unit) } ∧
        ∀ p, ({ s with rbuf := m, len := bytes.length } : State).readerBit p = (bytes.flatMap bitsOfByte).getD p false)

/-- Rule R141, PEEK on a bare reader: the next `len` bits as a number, first bit most significant; only the response
changes. -/
def Obligations.PeekReturnsTheNextBits : Prop :=
  ∀ (s : State) (len : Byte), s.bare .dec →
    (encode (.peek len)).head? = some 0x19 ∧
    (32 < len.toNat → exec (.peek len) s = .next { s with resp := some (.fail .usageError .badLength) }) ∧
    (len.toNat ≤ 32 → exec (.peek len) s = .next { s with
      resp := some (.ok (.num (∑ i ∈ Finset.range len.toNat,
        (if s.rpos + i < s.lenBits ∧ (memRead s.rbuf ((s.rpos + i) / 8)).getLsbD (7 - (s.rpos + i) % 8) = true then 1
          else 0) * 2 ^ (len.toNat - 1 - i)))) })

/-- Rule R142, FORWARD on a bare reader: the cursor moves, and PAST_END is set once it is beyond LENBITS. -/
def Obligations.ForwardMovesTheCursor : Prop :=
  ∀ (s : State) (len : Byte), s.bare .dec →
    (encode (.forward len)).head? = some 0x1A ∧
    (32 < len.toNat → exec (.forward len) s = .next { s with resp := some (.fail .usageError .badLength) }) ∧
    (len.toNat ≤ 32 → exec (.forward len) s = .next { s with
      rpos := s.rpos + len.toNat, pastEnd := s.pastEnd || decide (8 * s.len < s.rpos + len.toNat)
      resp := some (.ok .unit) })

/-- Rules R143, R144 and R145 on a bare reader: READINT and READLONG return the field PEEK would show and move the cursor
past it; READLONG reads up to 64 bits; READBIT is READINT(1). -/
def Obligations.ReadsReturnTheField : Prop :=
  ∀ (s : State) (len : Byte), s.bare .dec →
    (encode (.readInt len)).head? = some 0x1B ∧ (encode (.readLong len)).head? = some 0x1C ∧ encode .readBit = [0x1D] ∧
    (32 < len.toNat → exec (.readInt len) s = .next { s with resp := some (.fail .usageError .badLength) }) ∧
    (len.toNat ≤ 32 → exec (.readInt len) s = .next { s with
      rpos := s.rpos + len.toNat, pastEnd := s.pastEnd || decide (8 * s.len < s.rpos + len.toNat)
      resp := some (.ok (.num (∑ i ∈ Finset.range len.toNat,
        (s.readerBit (s.rpos + i)).toNat * 2 ^ (len.toNat - 1 - i)))) }) ∧
    (64 < len.toNat → exec (.readLong len) s = .next { s with resp := some (.fail .usageError .badLength) }) ∧
    (len.toNat ≤ 64 → exec (.readLong len) s = .next { s with
      rpos := s.rpos + len.toNat, pastEnd := s.pastEnd || decide (8 * s.len < s.rpos + len.toNat)
      resp := some (.ok (.num (∑ i ∈ Finset.range len.toNat,
        (s.readerBit (s.rpos + i)).toNat * 2 ^ (len.toNat - 1 - i)))) }) ∧
    exec .readBit s = exec (.readInt 1) s ∧
    exec .readBit s = .next { s with
      rpos := s.rpos + 1, pastEnd := s.pastEnd || decide (8 * s.len < s.rpos + 1)
      resp := some (.ok (.num (s.readerBit s.rpos).toNat)) }

/-- Rule R147, read after write: the fields written to a fresh bare writer, flushed, fetched with any `byteLen` that
covers them and loaded into a fresh bare reader, read back in order as their low bits, PAST_END stays 0; and reads of
any other lengths with the same total return the regrouped bits. -/
def Obligations.WrittenFieldsReadBack : Prop :=
  ∀ (fields : List (BitVec 64 × Byte)) (gw : EncConfig) (gr : DecConfig) (byteLen : BitVec 32) (s s' : State),
    (∀ f ∈ fields, f.2.toNat ≤ 64) → gw.codec.toNat = 5 → gr.codec.toNat = 5 → gw.capw.toNat ≤ 2 ^ 27 - 1 →
    gr.bytes.length < 2 ^ 29 →
    (fields.map fun f => f.2.toNat).sum ≤ 32 * gw.capw.toNat →
    (fields.map fun f => f.2.toNat).sum ≤ 8 * byteLen.toNat →
    8 * byteLen.toNat ≤ 32 * (((fields.map fun f => f.2.toNat).sum + 31) / 32) →
    ∃ (bs : List Byte) (ws rs : List (Option Response)) (w r : State),
      runCommands (.constructEnc gw :: fields.map writeField ++ [.flush, .getBuffer byteLen]) s = some (ws, w) ∧
      w.resp = some (.ok (.bytes bs)) ∧
      runCommands (.constructDec gr :: .load bs :: fields.map fun f => readField f.2) s' = some (rs, r) ∧
      rs.drop 2 = fields.map (fun f => some (.ok (.num (f.1.toNat % 2 ^ f.2.toNat)))) ∧ r.pastEnd = false ∧
      ∀ ns : List Byte, (∀ n ∈ ns, n.toNat ≤ 64) → (ns.map BitVec.toNat).sum = (fields.map fun f => f.2.toNat).sum →
        ∃ (rs' : List (Option Response)) (r' : State),
          runCommands (.constructDec gr :: .load bs :: ns.map readField) s' = some (rs', r') ∧
          rs'.drop 2 = (readings (ns.map BitVec.toNat) (fields.flatMap fun f => bitsOf f.2.toNat f.1.toNat)).map
            (fun k => some (.ok (.num k))) ∧ r'.pastEnd = false

/-- Rules R60 and R61: a word of WBUF the stream has passed holds stream bit `p` at bit `31 - p mod 32`. -/
def Obligations.WordsHoldTheStream : Prop :=
  ∀ (s : State) (k : Nat), 32 * (k + 1) ≤ s.wpos →
    ∃ w, s.wbufWord k = some w ∧ ∀ i, i < 32 → s.stream[32 * k + i]? = some (w.getLsbD (31 - i))

/-! ## GOR (41_gorilla.md) -/

/-- The GOR wire codes on a decoder that has not run past its stream (rules R101, R170 to R174): the value is PREV XOR
the record's XOR, committed and delivered, or END where it is a NaN; NEW also caches its window. -/
def Obligations.GorDecodes : Prop :=
  ∀ s : State, s.decoding .gor → s.pastEnd = false →
    (s.first = true → ∀ v : BitVec 64, exec (.gorLit v) s = .next
      (if isNaN 64 v = true then { s with first := false }.ends
       else { s with first := false, prev := some v }.delivers v)) ∧
    (s.first = false → ∀ q, s.prev = some q →
      exec .gorSame s = .next (if isNaN 64 q = true then s.ends else s.delivers q) ∧
      (∀ l, s.clead = some l → ∀ p : BitVec 64, exec (.gorReuse p) s = .next
        (if isNaN 64 (q ^^^ p <<< s.ctrail) = true then s.ends
         else { s with prev := some (q ^^^ p <<< s.ctrail) }.delivers (q ^^^ p <<< s.ctrail))) ∧
      (∀ (l : BitVec 5) (cnt : BitVec 6) (p : BitVec 64) (sig trail : Nat),
        sig = (if cnt = 0 then 64 else cnt.toNat) → l.toNat + sig + trail = 64 →
        exec (.gorNew l cnt p) s = .next
          (if isNaN 64 (q ^^^ p <<< trail) = true then { s with clead := some l.toNat, ctrail := trail }.ends
           else { s with clead := some l.toNat, ctrail := trail, prev := some (q ^^^ p <<< trail) }.delivers
            (q ^^^ p <<< trail))))

/-- The illegal GOR records of rule R106: REUSE without a window, NEW with `lead5 + sig > 64`. -/
def Obligations.GorRefusesCorruptRecords : Prop :=
  ∀ s : State, s.decoding .gor → s.first = false →
    (s.clead = none → ∀ p, exec (.gorReuse p) s = .next (s.fails .corruptStream .reuseNoWindow)) ∧
    (∀ (l : BitVec 5) (cnt : BitVec 6) (p : BitVec 64), 64 < l.toNat + (if cnt = 0 then 64 else cnt.toNat) →
      exec (.gorNew l cnt p) s = .next (s.fails .corruptStream .badWindow))

/-- ADDVALUE on a GOR encoder with room (rules R160 to R167): the record's bits, and PREV and the window after it. -/
def Obligations.GorEncodes : Prop :=
  ∀ (s : State) (v : BitVec 64), s.encoding .gor → s.flushed = false →
    (s.first = true → s.wpos + 64 ≤ 32 * s.capw → exec (.addValue v) s = .next
      { s.put (bitsOf 64 v.toNat) with first := false, prev := some v, resp := some (.ok .unit) }) ∧
    (s.first = false → ∀ q x, s.prev = some q → x = q ^^^ v →
      (x = 0 → s.wpos + 1 ≤ 32 * s.capw →
        exec (.addValue v) s = .next { s.put [false] with prev := some v, resp := some (.ok .unit) }) ∧
      (x ≠ 0 → ∀ lead trail, lead = min (clz 64 x) 31 → trail = ctz 64 x →
        (∀ l, s.clead = some l → l ≤ lead → s.ctrail ≤ trail → s.wpos + 2 + (64 - l - s.ctrail) ≤ 32 * s.capw →
          exec (.addValue v) s = .next
            { s.put ([true, false] ++ bitsOf (64 - l - s.ctrail) (x.toNat / 2 ^ s.ctrail)) with
              prev := some v, resp := some (.ok .unit) }) ∧
        ((∀ l, s.clead = some l → lead < l ∨ trail < s.ctrail) → s.wpos + 13 + (64 - lead - trail) ≤ 32 * s.capw →
          exec (.addValue v) s = .next
            { s.put ([true, true] ++ bitsOf 5 lead ++ bitsOf 6 ((64 - lead - trail) % 64)
                ++ bitsOf (64 - lead - trail) (x.toNat / 2 ^ trail)) with
              clead := some lead, ctrail := trail, prev := some v, resp := some (.ok .unit) })))

/-- Rule R175: the round trip of GOR, for every block without NaN and a writer as large as rule R261 advises, whatever
machines stood in the states before. -/
def Obligations.GorRoundTrip : Prop :=
  ∀ (vs : List Raw) (g : EncConfig) (d : DecConfig) (s s' : State),
    g.codec.toNat = 0 → d.codec.toNat = 0 → g.capw.toNat ≤ 2 ^ 27 - 1 → 64 + 77 * vs.length ≤ 32 * g.capw.toNat →
    (∀ v ∈ vs, isNaN 64 v = false) →
    ∃ bs, encodeBlock g vs s = some bs ∧ decodeBlock { d with bytes := bs } s' = some (.ok (.values vs))

/-! ## CHP64 and CHP32 (42_chimp.md) -/

/-- The CHP64 wire codes on a decoder that has not run past its stream (rules R102, R192 to R197). -/
def Obligations.Chp64Decodes : Prop :=
  ∀ s : State, s.decoding .chp64 → s.pastEnd = false →
    (s.first = true → ∀ v : BitVec 64, exec (.chp64Lit v) s = .next (s.commitsFirst v)) ∧
    (s.first = false →
      (∀ (slot : BitVec 16) (r : Raw), s.ringAt slot.toNat = some r →
        exec (.chp64Repeat slot) s = .next ({ s with clead := none }.commitsLater r)) ∧
      (∀ (slot : BitVec 16) (b3 : BitVec 3) (cnt : BitVec 6) (p : BitVec 64) (r : Raw) (sig trail : Nat),
        sig = (if cnt = 0 then 64 else cnt.toNat) → leadOf s.leadRep64 b3.toNat + sig + trail = 64 →
        s.ringAt slot.toNat = some r →
        exec (.chp64Far slot b3 cnt p) s = .next ({ s with clead := none }.commitsLater (r ^^^ p <<< trail))) ∧
      (∀ (p : BitVec 64) (l : Nat) (q : Raw), s.clead = some l → s.prev = some q →
        exec (.chp64Reuse p) s = .next (s.commitsLater (q ^^^ p))) ∧
      (∀ (b3 : BitVec 3) (p : BitVec 64) (q : Raw), s.prev = some q →
        exec (.chp64New b3 p) s =
          .next ({ s with clead := some (leadOf s.leadRep64 b3.toNat) }.commitsLater (q ^^^ p))))

/-- The CHP32 wire codes on a decoder that has not run past its stream (rules R102, R181, R192 to R197). -/
def Obligations.Chp32Decodes : Prop :=
  ∀ s : State, s.decoding .chp32 → s.pastEnd = false →
    (s.first = true → ∀ v : BitVec 32, exec (.chp32Lit v) s = .next (s.commitsFirst (v.setWidth 64))) ∧
    (s.first = false →
      (∀ (slot : BitVec 16) (r : Raw), s.ringAt slot.toNat = some r →
        exec (.chp32Repeat slot) s = .next ({ s with clead := none }.commitsLater r)) ∧
      (∀ (slot : BitVec 16) (b3 : BitVec 3) (cnt : BitVec 5) (p : BitVec 32) (r : Raw) (sig trail : Nat),
        sig = (if cnt = 0 then 32 else cnt.toNat) → leadOf s.leadRep32 b3.toNat + sig + trail = 32 →
        s.ringAt slot.toNat = some r →
        exec (.chp32Far slot b3 cnt p) s =
          .next ({ s with clead := none }.commitsLater (r ^^^ (p <<< trail).setWidth 64))) ∧
      (∀ (p : BitVec 32) (l : Nat) (q : Raw), s.clead = some l → s.prev = some q →
        exec (.chp32Reuse p) s = .next (s.commitsLater (q ^^^ p.setWidth 64))) ∧
      (∀ (b3 : BitVec 3) (p : BitVec 32) (q : Raw), s.prev = some q →
        exec (.chp32New b3 p) s =
          .next ({ s with clead := some (leadOf s.leadRep32 b3.toNat) }.commitsLater (q ^^^ p.setWidth 64))))

/-- The illegal CHP records of rule R106, in the order rules R193 to R195 test them. -/
def Obligations.ChpRefusesCorruptRecords : Prop :=
  (∀ s : State, s.decoding .chp64 → s.first = false →
    (∀ slot : BitVec 16, s.ringAt slot.toNat = none →
      exec (.chp64Repeat slot) s = .next (s.fails .corruptStream .slotUnwritten)) ∧
    (∀ (slot : BitVec 16) (b3 : BitVec 3) (cnt : BitVec 6) (p : BitVec 64) (n : Nat),
      n = leadOf s.leadRep64 b3.toNat + (if cnt = 0 then 64 else cnt.toNat) →
      (64 < n → exec (.chp64Far slot b3 cnt p) s = .next (s.fails .corruptStream .badWindow)) ∧
      (n ≤ 64 → s.ringAt slot.toNat = none →
        exec (.chp64Far slot b3 cnt p) s = .next (s.fails .corruptStream .slotUnwritten))) ∧
    (s.clead = none → ∀ p, exec (.chp64Reuse p) s = .next (s.fails .corruptStream .reuseNoWindow))) ∧
  (∀ s : State, s.decoding .chp32 → s.first = false →
    (∀ slot : BitVec 16, s.ringAt slot.toNat = none →
      exec (.chp32Repeat slot) s = .next (s.fails .corruptStream .slotUnwritten)) ∧
    (∀ (slot : BitVec 16) (b3 : BitVec 3) (cnt : BitVec 5) (p : BitVec 32) (n : Nat),
      n = leadOf s.leadRep32 b3.toNat + (if cnt = 0 then 32 else cnt.toNat) →
      (32 < n → exec (.chp32Far slot b3 cnt p) s = .next (s.fails .corruptStream .badWindow)) ∧
      (n ≤ 32 → s.ringAt slot.toNat = none →
        exec (.chp32Far slot b3 cnt p) s = .next (s.fails .corruptStream .slotUnwritten))) ∧
    (s.clead = none → ∀ p, exec (.chp32Reuse p) s = .next (s.fails .corruptStream .reuseNoWindow)))

/-- ADDVALUE on a CHP encoder with room (rules R183 to R190): the record of the candidate selected, and the registers
after it. -/
def Obligations.ChpEncodes : Prop :=
  ∀ (s : State) (v : Raw), s.encoding .chp64 ∨ s.encoding .chp32 → s.flushed = false → s.logw ≤ 16 →
    v.toNat < 2 ^ s.n →
    (s.first = true → s.wpos + s.n ≤ 32 * s.capw → exec (.addValue v) s = .next
      { s.put (bitsOf s.n v.toNat) with
        ring := tableInsert s.ring 0 v, index := 0, idx := idxWrite s.idx (keyOf s.n s.logw v) 0
        first := false, resp := some (.ok .unit) }) ∧
    (s.first = false → ∀ far slot x, s.selects v far slot x →
      s.wpos + (s.chpRecord far slot x).1.length ≤ 32 * s.capw → exec (.addValue v) s = .next
      { s.put (s.chpRecord far slot x).1 with
        clead := (s.chpRecord far slot x).2
        ring := tableInsert s.ring ((s.index + 1) % 2 ^ s.logw) v, index := s.index + 1
        idx := idxWrite s.idx (keyOf s.n s.logw v) (s.index + 1), resp := some (.ok .unit) })

/-- Candidate selection in reachable states: there is exactly one candidate, a far match is never 2^LOGW or more
insertions behind (rule R185(c)), and the fall-back XOR is not 0 and has at most `T` trailing zeros (R185(e)). -/
def Obligations.CandidateSelectionIsSound : Prop :=
  ∀ (s : State) (v : Raw), Inv s → s.dir = .enc → s.phase = .opened → hasRing s.codec = true → s.first = false →
    v.toNat < 2 ^ s.n →
    (∃! c : Bool × Nat × Raw, s.selects v c.1 c.2.1 c.2.2) ∧
    ∀ far slot x, s.selects v far slot x →
      slot < 2 ^ s.logw ∧ (far = true → s.index < idxRead s.idx (keyOf s.n s.logw v) + 2 ^ s.logw) ∧
      (far = false → x ≠ 0 ∧ ctz s.n x ≤ threshold s.n s.logw)

/-- Rule R199: with `LOGW = 0` the candidate is always the previous value, in slot 0, and it is a far match exactly
where its XOR has more than `T` trailing zeros; `T`, FLAGZERO and FLAGONE are the constants given there. -/
def Obligations.SinglePreviousValueChimp : Prop :=
  ∀ (s : State) (v : Raw), Inv s → s.dir = .enc → s.phase = .opened → hasRing s.codec = true → s.first = false →
    v.toNat < 2 ^ s.n → s.logw = 0 →
    (∃ q, s.ringAt 0 = some q ∧ ∀ far slot x, s.selects v far slot x ↔
      slot = 0 ∧ x = v ^^^ q ∧ far = decide (threshold s.n 0 < ctz s.n x)) ∧
    threshold s.n 0 = (if s.n = 64 then 6 else 5) ∧ flagZero 0 = 2 ∧ flagOne s.n 0 = (if s.n = 64 then 11 else 10)

/-- Rule R198: the round trip of CHP64 and CHP32, for every block without NaN, every ring size and every legal
LEAD_REP table, with a writer as large as rule R261 advises. -/
def Obligations.ChpRoundTrip : Prop :=
  ∀ (codec : Codec) (vs : List Raw) (g : EncConfig) (d : DecConfig) (s s' : State),
    codec = .chp64 ∨ codec = .chp32 → g.codec.toNat = codecCode codec → d.codec = g.codec → d.logw = g.logw →
    d.lead64 = g.lead64 → d.lead32 = g.lead32 → g.logw.toNat ≤ 16 →
    legalLeadRep ((if width codec = 64 then g.lead64 else g.lead32).map BitVec.toNat) = true →
    g.capw.toNat ≤ 2 ^ 27 - 1 → width codec + (width codec + 5) * vs.length ≤ 32 * g.capw.toNat →
    (∀ v ∈ vs, v.toNat < 2 ^ width codec ∧ isNaN (width codec) v = false) →
    ∃ bs, encodeBlock g vs s = some bs ∧ decodeBlock { d with bytes := bs } s' = some (.ok (.values vs))

/-! ## ELF64 and ELF32 (43_elf.md) -/

/-- The erasure codes at the start of an ELF record (rules R103, R231); the record's value is the XOR stage's. -/
def Obligations.ElfErasureCodes : Prop :=
  ∀ s : State, s.pend = none →
    (s.decoding .elf64 →
      (∀ b, s.lastbs = some b → exec .elf64EraseSame s = .next { s with pend := some true }) ∧
      (s.lastbs = none → exec .elf64EraseSame s = .next (s.fails .corruptStream .eraseNoBetaStar)) ∧
      exec .elf64Raw s = .next { s with pend := some false } ∧
      ∀ b, exec (.elf64EraseNew b) s = .next { s with lastbs := some b.toNat, pend := some true }) ∧
    (s.decoding .elf32 →
      (∀ b, s.lastbs = some b → exec .elf32EraseSame s = .next { s with pend := some true }) ∧
      (s.lastbs = none → exec .elf32EraseSame s = .next (s.fails .corruptStream .eraseNoBetaStar)) ∧
      exec .elf32Raw s = .next { s with pend := some false } ∧
      ∀ b, exec (.elf32EraseNew b) s = .next { s with lastbs := some b.toNat, pend := some true })

/-- The ELF64 XOR-stage records behind an erasure code (rules R104, R231): the CHP64 record, every value committed, then
delivered or restored. -/
def Obligations.Elf64Decodes : Prop :=
  ∀ (s : State) (e : Bool), s.decoding .elf64 → s.pastEnd = false → s.pend = some e →
    (s.first = true → ∀ v : BitVec 64,
      exec (.elf64XLit v) s = .next (({ s with pend := none }.holdsFirst v).restores e v)) ∧
    (s.first = false →
      (∀ r, s.ringAt 0 = some r →
        exec .elf64XRepeat s = .next (({ s with pend := none, clead := none }.holdsLater r).restores e r) ∧
        ∀ (b3 : BitVec 3) (cnt : BitVec 6) (p : BitVec 64) (sig trail : Nat),
          sig = (if cnt = 0 then 64 else cnt.toNat) → leadOf s.leadRep64 b3.toNat + sig + trail = 64 →
          exec (.elf64XFar b3 cnt p) s = .next
            (({ s with pend := none, clead := none }.holdsLater (r ^^^ p <<< trail)).restores e (r ^^^ p <<< trail))) ∧
      (∀ q, s.prev = some q →
        (∀ (p : BitVec 64) (l : Nat), s.clead = some l →
          exec (.elf64XReuse p) s = .next (({ s with pend := none }.holdsLater (q ^^^ p)).restores e (q ^^^ p))) ∧
        ∀ (b3 : BitVec 3) (p : BitVec 64), exec (.elf64XNew b3 p) s = .next
          (({ s with pend := none, clead := some (leadOf s.leadRep64 b3.toNat) }.holdsLater (q ^^^ p)).restores e
            (q ^^^ p))))

/-- The ELF32 XOR-stage records behind an erasure code (rules R104, R181, R231). -/
def Obligations.Elf32Decodes : Prop :=
  ∀ (s : State) (e : Bool), s.decoding .elf32 → s.pastEnd = false → s.pend = some e →
    (s.first = true → ∀ v : BitVec 32, exec (.elf32XLit v) s = .next
      (({ s with pend := none }.holdsFirst (v.setWidth 64)).restores e (v.setWidth 64))) ∧
    (s.first = false →
      (∀ r, s.ringAt 0 = some r →
        exec .elf32XRepeat s = .next (({ s with pend := none, clead := none }.holdsLater r).restores e r) ∧
        ∀ (b3 : BitVec 3) (cnt : BitVec 5) (p : BitVec 32) (sig trail : Nat),
          sig = (if cnt = 0 then 32 else cnt.toNat) → leadOf s.leadRep32 b3.toNat + sig + trail = 32 →
          exec (.elf32XFar b3 cnt p) s = .next
            (({ s with pend := none, clead := none }.holdsLater (r ^^^ (p <<< trail).setWidth 64)).restores e
              (r ^^^ (p <<< trail).setWidth 64))) ∧
      (∀ q, s.prev = some q →
        (∀ (p : BitVec 32) (l : Nat), s.clead = some l → exec (.elf32XReuse p) s = .next
          (({ s with pend := none }.holdsLater (q ^^^ p.setWidth 64)).restores e (q ^^^ p.setWidth 64))) ∧
        ∀ (b3 : BitVec 3) (p : BitVec 32), exec (.elf32XNew b3 p) s = .next
          (({ s with pend := none, clead := some (leadOf s.leadRep32 b3.toNat) }.holdsLater
            (q ^^^ p.setWidth 64)).restores e (q ^^^ p.setWidth 64))))

/-- The illegal XOR-stage records of an ELF unit (rule R106): REUSE without a window, FAR with `lead + sig > N`. -/
def Obligations.ElfRefusesCorruptRecords : Prop :=
  ∀ s : State, s.pend ≠ none → s.first = false →
    (s.decoding .elf64 →
      (s.clead = none → ∀ p, exec (.elf64XReuse p) s = .next (s.fails .corruptStream .reuseNoWindow)) ∧
      ∀ (b3 : BitVec 3) (cnt : BitVec 6) (p : BitVec 64),
        64 < leadOf s.leadRep64 b3.toNat + (if cnt = 0 then 64 else cnt.toNat) →
        exec (.elf64XFar b3 cnt p) s = .next (s.fails .corruptStream .badWindow)) ∧
    (s.decoding .elf32 →
      (s.clead = none → ∀ p, exec (.elf32XReuse p) s = .next (s.fails .corruptStream .reuseNoWindow)) ∧
      ∀ (b3 : BitVec 3) (cnt : BitVec 5) (p : BitVec 32),
        32 < leadOf s.leadRep32 b3.toNat + (if cnt = 0 then 32 else cnt.toNat) →
        exec (.elf32XFar b3 cnt p) s = .next (s.fails .corruptStream .badWindow))

/-- ADDVALUE on an ELF encoder (rules R226 to R230): a NaN or an infinity is a DomainError and writes nothing; else,
with room, the erasure code and the XOR-stage record of the value the search found. -/
def Obligations.ElfEncodes : Prop :=
  ∀ (s : State) (v : Raw), s.encoding .elf64 ∨ s.encoding .elf32 → v.toNat < 2 ^ s.n →
    (isNaN s.n v = true ∨ isInf s.n v = true → exec (.addValue v) s = .next (s.fails .domainError .nanOrInf)) ∧
    (isNaN s.n v = false → isInf s.n v = false → s.flushed = false → s.logw = 0 →
      ∀ bits bs v', s.erasure v = (bits, bs, v') →
        (s.first = true → s.wpos + bits.length + s.n ≤ 32 * s.capw → exec (.addValue v) s = .next
          { s.put (bits ++ bitsOf s.n v'.toNat) with
            lastbs := bs, ring := tableInsert s.ring 0 v', index := 0, idx := idxWrite s.idx (keyOf s.n 0 v') 0
            first := false, resp := some (.ok .unit) }) ∧
        (s.first = false → ∀ far slot x, s.selects v' far slot x →
          s.wpos + bits.length + (s.chpRecord far slot x).1.length ≤ 32 * s.capw → exec (.addValue v) s = .next
          { s.put (bits ++ (s.chpRecord far slot x).1) with
            lastbs := bs, clead := (s.chpRecord far slot x).2, ring := tableInsert s.ring 0 v', index := s.index + 1
            idx := idxWrite s.idx (keyOf s.n 0 v') (s.index + 1), resp := some (.ok .unit) }))

/-- Rules R16, R17 and R223 on exact numbers: the magnitude is the value, `floorlog10` is the exponent of ten, and `F` is
the least exponent of two. -/
def Obligations.ExactDecimals : Prop :=
  (∀ (n : Nat) (v : Raw), n = 64 ∨ n = 32 → isNaN n v = false → isInf n v = false →
    (magnitude n v).val = |rawVal n v| ∧ 0 < (magnitude n v).den) ∧
  (∀ a : Frac, 0 < a.num → 0 < a.den →
    (10 : ℚ) ^ floorLog10 a ≤ a.val ∧ a.val < (10 : ℚ) ^ (floorLog10 a + 1)) ∧
  ∀ alpha : Int, (alpha ≤ 0 → fracBits alpha = 0) ∧
    (0 < alpha → 10 ^ alpha.toNat ≤ 2 ^ fracBits alpha ∧ ∀ f, 10 ^ alpha.toNat ≤ 2 ^ f → fracBits alpha ≤ f)

/-- Rule R17: `RN_N(q)` is the nearest number of the format, the even significand on a tie, and infinity from
`(2 - 2^(-MB-1)) * 2^(2^EB - 2 - BIAS)` on. -/
def Obligations.RoundNearestIsNearest : Prop :=
  ∀ (n : Nat) (q : Frac), n = 64 ∨ n = 32 → 0 < q.den →
    (roundNearest n q).toNat < 2 ^ (n - 1) ∧ isNaN n (roundNearest n q) = false ∧
    (isInf n (roundNearest n q) = true ↔
      (2 - (2 : ℚ) ^ (-(mantBits n : Int) - 1)) * 2 ^ (2 ^ expBits n - 2 - bias n) ≤ q.val) ∧
    (isInf n (roundNearest n q) = false → ∀ w : Raw, w.toNat < 2 ^ (n - 1) → isNaN n w = false → isInf n w = false →
      |rawVal n (roundNearest n q) - q.val| ≤ |rawVal n w - q.val| ∧
      (|rawVal n (roundNearest n q) - q.val| = |rawVal n w - q.val| → w ≠ roundNearest n q →
        (roundNearest n q).toNat % 2 = 0))

/-- Rule R224: `Recover` fails on zeros, NaN and infinities only; else it keeps the sign and rounds to nearest the least
power of ten above `|v'|` (`b = 0`) or the least multiple of `10^(-alpha)` not below it. -/
def Obligations.RecoverRoundsUp : Prop :=
  ∀ (n : Nat) (v : Raw) (b : Nat), n = 64 ∨ n = 32 → v.toNat < 2 ^ n →
    (recover n v b = none ↔ isZero n v = true ∨ isNaN n v = true ∨ isInf n v = true) ∧
    ∀ r, recover n v b = some r →
      ∃ (sp : Int) (q : Frac), (10 : ℚ) ^ sp ≤ |rawVal n v| ∧ |rawVal n v| < (10 : ℚ) ^ (sp + 1) ∧ 0 < q.den ∧
        (b = 0 → q.val = (10 : ℚ) ^ (sp + 1)) ∧
        (b ≠ 0 → |rawVal n v| ≤ q.val ∧ (∃ k : Int, q.val = k * (10 : ℚ) ^ (-((b : Int) - sp - 1))) ∧
          ∀ k : Int, |rawVal n v| ≤ k * (10 : ℚ) ^ (-((b : Int) - sp - 1)) →
            q.val ≤ k * (10 : ℚ) ^ (-((b : Int) - sp - 1))) ∧
        r.toNat = (if signBit n v = true then 2 ^ (n - 1) else 0) + (roundNearest n q).toNat

/-- Rules R225 and R228: the search answers the least betaStar up to BMAX whose trial succeeds, with the erased value;
it answers none exactly for the two zeros and where no trial succeeds. -/
def Obligations.ElfSearchIsLeast : Prop :=
  ∀ (n : Nat) (eps v : Raw), n = 64 ∨ n = 32 → v.toNat < 2 ^ n → isNaN n v = false → isInf n v = false →
    legalEps eps = true →
    (∀ b v', search n eps v = some (b, v') ↔
      isZero n v = false ∧ b ≤ bMax n ∧ trialAccepts n eps v b v' ∧ ∀ c, c < b → ∀ w, ¬ trialAccepts n eps v c w) ∧
    (search n eps v = none ↔ isZero n v = true ∨ ∀ b w, b ≤ bMax n → ¬ trialAccepts n eps v b w)

/-- Rule R236: every value an ELF decoder delivers lies within `EPS` of the value the encoder was given, and equals it
bit for bit where the search found nothing (the value was sent RAW). -/
def Obligations.ElfErrorBound : Prop :=
  ∀ (codec : Codec) (vs : List Raw) (g : EncConfig) (d : DecConfig) (s s' : State),
    codec = .elf64 ∨ codec = .elf32 → g.codec.toNat = codecCode codec → d.codec = g.codec →
    d.lead64 = g.lead64 → d.lead32 = g.lead32 → legalEps g.eps = true → d.nval.toNat = vs.length →
    legalLeadRep ((if width codec = 64 then g.lead64 else g.lead32).map BitVec.toNat) = true →
    g.capw.toNat ≤ 2 ^ 27 - 1 → (bsBits (width codec) + width codec + 7) * vs.length ≤ 32 * g.capw.toNat →
    (∀ v ∈ vs, v.toNat < 2 ^ width codec ∧ isNaN (width codec) v = false ∧ isInf (width codec) v = false) →
    ∃ bs ws, encodeBlock g vs s = some bs ∧ decodeBlock { d with bytes := bs } s' = some (.ok (.values ws)) ∧
      List.Forall₂ (fun v w => |rawVal (width codec) w - rawVal (width codec) v| ≤ rawVal 64 g.eps ∧
        (search (width codec) g.eps v = none → w = v)) vs ws

/-! ## Bit counts and buckets (00_scope.md, 30_encoding.md) -/

/-- Rules R14 and R96: `clz` and `ctz` count the zero bits above and below, and are the width at 0; for a legal table
`bucket` is the largest index whose representative is not above the count, and `rep` is idempotent. -/
def Obligations.BitCountsAndBuckets : Prop :=
  (∀ (n : Nat) (x : Raw), n ≤ 64 → x.toNat < 2 ^ n →
    (x = 0 → clz n x = n ∧ ctz n x = n) ∧
    (x ≠ 0 → clz n x < n ∧ x.toNat < 2 ^ (n - clz n x) ∧ 2 ^ (n - clz n x) ≤ 2 * x.toNat ∧
      2 ^ ctz n x ∣ x.toNat ∧ ¬ 2 ^ (ctz n x + 1) ∣ x.toNat)) ∧
  ∀ (rep : List Nat) (c : Nat), legalLeadRep rep = true →
    bucket rep c ≤ 7 ∧ leadOf rep (bucket rep c) ≤ c ∧ (∀ i, i ≤ 7 → leadOf rep i ≤ c → i ≤ bucket rep c) ∧
      repOf rep c ≤ c ∧ repOf rep (repOf rep c) = repOf rep c

/-! ## Commands (44_commands.md) -/

/-- The phase table of rule R262: where a command is not legal, it is answered `UsageError` with the sub-cause shown and
nothing else changes. Encoder OPEN, Encoder CLOSED, Decoder READY and DONE, FAULT, and bare machines. -/
def Obligations.PhaseTable : Prop :=
  ∀ s : State,
    (s.codec ≠ .bs → s.dir = .enc → s.phase = .opened →
      exec .getBytes s = .next (s.refuses .notClosed) ∧
      ∀ i, i = .next ∨ i = .decompress → exec i s = .next (s.refuses .wrongDirection)) ∧
    (s.codec ≠ .bs → s.dir = .enc → s.phase = .closed →
      (∀ v, exec (.addValue v) s = .next (s.refuses .addAfterClose)) ∧
      exec .close s = .next (s.refuses .secondClose) ∧
      ∀ i, i = .next ∨ i = .decompress → exec i s = .next (s.refuses .wrongDirection)) ∧
    (s.codec ≠ .bs → s.dir = .dec → s.phase = .ready ∨ s.phase = .done →
      (∀ v, exec (.addValue v) s = .next (s.refuses .wrongDirection)) ∧
      ∀ i, i = .close ∨ i = .getBytes ∨ i = .getSize → exec i s = .next (s.refuses .wrongDirection)) ∧
    (s.phase = .fault →
      (∀ i, i ∈ codecCommands → exec i s = .next (s.refuses .faulted)) ∧
      (∀ v, exec (.addValue v) s = .next (s.refuses .faulted)) ∧
      (s.codec = .bs → ∀ i d, unitDir i = some d → exec i s = .next (s.refuses .faulted))) ∧
    (s.codec ≠ .bs → ∀ i d, unitDir i = some d → exec i s = .next (s.refuses .badCommand)) ∧
    (s.codec = .bs → s.phase ≠ .fault →
      (∀ i, i ∈ codecCommands → exec i s = .next (s.refuses .badCommand)) ∧
      (∀ v, exec (.addValue v) s = .next (s.refuses .badCommand)) ∧
      ∀ i d, unitDir i = some d → s.dir ≠ d → exec i s = .next (s.refuses .wrongDirection))

/-- Rules R260 and R295: a command answered with a UsageError changes nothing but the response. -/
def Obligations.UsageErrorsChangeNothing : Prop :=
  ∀ (i : Instr) (s t : State) (sub : SubCause), Inv s → i.isCommand = true → exec i s = .next t →
    t.resp = some (.fail .usageError sub) → t = s.refuses sub

/-- Rules R260, R300 and R303: a command that enters FAULT leaves ERR, ERRSUB and the response of its failure, which is
not a UsageError; any other failure response is a UsageError; a machine in FAULT keeps ERR and ERRSUB. -/
def Obligations.FailureEntry : Prop :=
  ∀ (i : Instr) (s t : State), Inv s → i.isCommand = true → exec i s = .next t →
    (s.phase ≠ .fault → t.phase = .fault → ∃ code sub, code ≠ .usageError ∧ t.failedWith code sub) ∧
    (∀ code sub, t.resp = some (.fail code sub) → code ≠ .usageError → s.phase ≠ .fault ∧ t.failedWith code sub) ∧
    (s.phase = .fault → (∀ g, i ≠ .constructEnc g) → (∀ g, i ≠ .constructDec g) →
      ∃ sub, t = s.refuses sub ∧ (sub = .faulted ∨ sub = .badCommand))

/-- Rules R131, R132 and R293 on an encoder: ADDVALUE and CLOSE raise CapacityExceeded exactly where the bits they would
write with a larger buffer do not fit, and nothing is then written beyond the capacity. -/
def Obligations.CapacityDecidesAlone : Prop :=
  ∀ (i : Instr) (s t : State) (c : Nat), (∃ v, i = .addValue v) ∨ i = .close → s.wpos ≤ 32 * s.capw →
    exec i { s with capw := c } = .next t → t.resp = some (.ok .unit) →
    (t.wpos ≤ 32 * s.capw → exec i s = .next { t with capw := s.capw }) ∧
    (32 * s.capw < t.wpos → ∃ u, exec i s = .next u ∧ u.failedWith .capacityExceeded .wbuf ∧ u.wpos ≤ 32 * s.capw)

/-- Rule R264: CLOSE on an ELF encoder pads and closes; on a GOR or CHP encoder it first encodes QNAN as an ADDVALUE
would, then pads and closes. -/
def Obligations.CloseSealsTheBlock : Prop :=
  ∀ s : State, Inv s → s.codec ≠ .bs → s.dir = .enc → s.phase = .opened →
    (isElf s.codec = true → ∃ m, exec .close s = .next { s with
        wbuf := m, wpos := 32 * ((s.wpos + 31) / 32), flushed := true, phase := .closed, resp := some (.ok .unit) } ∧
      ({ s with wbuf := m, wpos := 32 * ((s.wpos + 31) / 32) } : State).stream =
        s.stream ++ List.replicate (32 * ((s.wpos + 31) / 32) - s.wpos) false) ∧
    (isElf s.codec = false → s.wpos + 77 ≤ 32 * s.capw →
      ∃ t m, exec (.addValue (if s.n = 64 then 0x7FF8000000000000 else 0x7FC00000)) s = .next t ∧
        t.resp = some (.ok .unit) ∧ exec .close s = .next { t with
          wbuf := m, wpos := 32 * ((t.wpos + 31) / 32), flushed := true, phase := .closed } ∧
        ({ t with wbuf := m, wpos := 32 * ((t.wpos + 31) / 32) } : State).stream =
          t.stream ++ List.replicate (32 * ((t.wpos + 31) / 32) - t.wpos) false)

/-- Rules R265 and R266: on a closed encoder GETBYTES returns the first `ceil(SIZE/8)` bytes of the stream (ELF:
`4 * ceil(SIZE/32)`), and GETSIZE returns SIZE, in OPEN too; only the response changes. -/
def Obligations.ReadingTheOutput : Prop :=
  ∀ s : State, Inv s → s.codec ≠ .bs → s.dir = .enc →
    encode .getBytes = [0x04] ∧ encode .getSize = [0x05] ∧
    (s.phase = .opened → exec .getBytes s = .next (s.refuses .notClosed)) ∧
    (s.phase = .opened ∨ s.phase = .closed →
      exec .getSize s = .next { s with resp := some (.ok (.num s.size)) }) ∧
    (s.phase = .closed → ∀ l, l = (if isElf s.codec = true then 4 * ((s.size + 31) / 32) else (s.size + 7) / 8) →
      ∃ bs, exec .getBytes s = .next { s with resp := some (.ok (.bytes bs)) } ∧
        bs.length = l ∧ bs.flatMap bitsOfByte = s.stream.take (8 * l))

/-- Rules R271 and R277 around the record: END after DONE and at NVAL values, both without reading; a decoder past the
end of its stream fails before a record, and one that the record took past it delivers nothing. -/
def Obligations.NextAroundARecord : Prop :=
  ∀ s : State, s.codec ≠ .bs → s.dir = .dec → s.pend = none →
    (s.phase = .done → exec .next s = .next { s with resp := some (.ok .endOfBlock) }) ∧
    (s.phase = .ready → isElf s.codec = true → s.count = s.nval → exec .next s = .next s.ends) ∧
    (s.phase = .ready → (isElf s.codec = true → s.count ≠ s.nval) → s.pastEnd = true →
      exec .next s = .next (s.fails .corruptStream .pastEnd)) ∧
    (Inv s → s.phase = .ready → s.pastEnd = false → ∀ t, exec .next s = .next t → t.pastEnd = true →
      ∃ sub, t.failedWith .corruptStream sub)

/-- Rules R170 and R192, first value: NEXT on a fresh GOR or CHP decoder reads N bits and delivers them. -/
def Obligations.NextReadsTheLiteral : Prop :=
  ∀ (s : State) (v : Raw), s.dir = .dec → s.phase = .ready → s.codec ≠ .bs → isElf s.codec = false → s.pend = none →
    s.first = true → s.pastEnd = false → s.rpos + s.n ≤ 8 * s.len →
    v.toNat = (∑ i ∈ Finset.range s.n, (s.readerBit (s.rpos + i)).toNat * 2 ^ (s.n - 1 - i)) →
    exec .next s = .next
      (if s.codec = .gor then
        if isNaN 64 v = true then { s with rpos := s.rpos + 64, first := false }.ends
        else { s with rpos := s.rpos + 64, first := false, prev := some v }.delivers v
      else { s with rpos := s.rpos + s.n }.commitsFirst v)

/-- Rule R272: DECOMPRESS repeats NEXT until END or a failure, and always ends; the values delivered in order, or the
failure and no values. -/
def Obligations.DecompressRepeatsNext : Prop :=
  ∀ s : State, Inv s → s.codec ≠ .bs → s.dir = .dec → s.phase ≠ .fault →
    (s.phase = .done → exec .decompress s = .next { s with resp := some (.ok (.values [])) }) ∧
    (∃ u, exec .decompress s = .next u ∧
      ((∃ vs, u.resp = some (.ok (.values vs)) ∧ u.phase = .done) ∨ ∃ sub, u.failedWith .corruptStream sub)) ∧
    ∃ t, exec .next s = .next t ∧
      ((t.resp = some (.ok .endOfBlock) ∧ exec .decompress s = .next { t with resp := some (.ok (.values [])) }) ∨
       (t.resp ≠ some (.ok .endOfBlock) ∧ t.phase = .fault ∧ exec .decompress s = .next t) ∨
       ∃ v u, t.resp = some (.ok (.value v)) ∧ exec .decompress t = .next u ∧
        (∀ vs, u.resp = some (.ok (.values vs)) →
          exec .decompress s = .next { u with resp := some (.ok (.values (v :: vs))) }) ∧
        (u.phase = .fault → exec .decompress s = .next u))

/-! ## Whole-machine rules (10_state.md, 20_memory.md) -/

/-- Rules R20, R31 and R72: no instruction but CONSTRUCT changes a parameter; an encoder's instructions leave the reader
and the decoder's registers, a decoder's leave the writer and the encoder's registers; only LOAD changes RBUF and LEN. -/
def Obligations.PersonalitiesStayApart : Prop :=
  ∀ (i : Instr) (s t : State), (∀ g, i ≠ .constructEnc g) → (∀ g, i ≠ .constructDec g) → exec i s = .next t →
    (t.codec = s.codec ∧ t.dir = s.dir ∧ t.logw = s.logw ∧ t.capw = s.capw ∧ t.eps = s.eps ∧ t.nval = s.nval ∧
      t.leadRep64 = s.leadRep64 ∧ t.leadRep32 = s.leadRep32 ∧ t.port = s.port ∧ t.wire = s.wire) ∧
    (s.dir = .enc → t.rbuf = s.rbuf ∧ t.len = s.len ∧ t.rpos = s.rpos ∧ t.pastEnd = s.pastEnd ∧ t.loaded = s.loaded ∧
      t.count = s.count ∧ t.cur = s.cur) ∧
    (s.dir = .dec → t.wbuf = s.wbuf ∧ t.wpos = s.wpos ∧ t.flushed = s.flushed ∧ t.size = s.size ∧ t.index = s.index ∧
      t.idx = s.idx) ∧
    ((∀ bs, i ≠ .load bs) → t.rbuf = s.rbuf ∧ t.len = s.len ∧ t.loaded = s.loaded)

/-- Rules R28, R29, R32 and R33: the cursors and the counts never go back, the flags FLUSHED, LOADED and PAST_END are
never cleared, and what is written of the stream stays. LOAD, which places the cursor, is the one exception. -/
def Obligations.CursorsOnlyMoveForward : Prop :=
  ∀ (i : Instr) (s t : State), Inv s → (∀ g, i ≠ .constructEnc g) → (∀ g, i ≠ .constructDec g) →
    (∀ bs, i ≠ .load bs) → exec i s = .next t →
    s.wpos ≤ t.wpos ∧ s.rpos ≤ t.rpos ∧ s.size ≤ t.size ∧ s.count ≤ t.count ∧ s.index ≤ t.index ∧
      (s.flushed = true → t.flushed = true) ∧ (s.loaded = true → t.loaded = true) ∧ (s.pastEnd = true → t.pastEnd = true) ∧
      t.stream.take s.wpos = s.stream

/-- The invariant of `Safety.lean` holds right after reset. -/
def Obligations.ResetSatisfiesTheInvariant : Prop := Inv State.reset

/-- Every step keeps the invariant: buffers in their canonical form, parameters legal, phases and failures consistent,
`SIZE = WPOS` in OPEN (rule R30), PAST_END exactly where the cursor is past LENBITS (rule R33), register ranges (rules
R23 to R26), slots the next record may read written (rules R22, R185(b)). -/
def Obligations.StepKeepsTheInvariant : Prop :=
  ∀ s t : State, Inv s → step s = .next t → Inv t

/-- No reachable state stops the machine: from every state with the invariant a step, and every instruction, gives a
next state (70_reset_and_hazards.md: "every command sequence has exactly one outcome under the rules"). -/
def Obligations.StepNeverStops : Prop :=
  ∀ s : State, Inv s → (∃ t, step s = .next t) ∧ ∀ i : Instr, ∃ t, exec i s = .next t
end

