-- ==== Sys2Proof/Laws/Bits.lean ====
section
/-! SUPPORT. Bit fields: what was written with a width reads back with it (rules R63, R91). -/

namespace Sys2Proof
namespace Machine

theorem natOfBits_from (bs : List Bool) (a : Nat) :
    bs.foldl (fun acc b => 2 * acc + b.toNat) a = a * 2 ^ bs.length + natOfBits bs := by
  induction bs generalizing a with
  | nil => simp [natOfBits]
  | cons b r ih =>
    simp only [natOfBits, List.foldl_cons, List.length_cons]
    rw [ih, ih (2 * 0 + b.toNat)]
    ring

@[simp] theorem natOfBits_nil : natOfBits [] = 0 := rfl

@[simp] theorem natOfBits_cons (b : Bool) (r : List Bool) : natOfBits (b :: r) = b.toNat * 2 ^ r.length + natOfBits r := by
  have := natOfBits_from r (2 * 0 + b.toNat)
  simpa [natOfBits] using this

theorem natOfBits_append (a b : List Bool) : natOfBits (a ++ b) = natOfBits a * 2 ^ b.length + natOfBits b := by
  induction a with
  | nil => simp
  | cons x r ih => simp only [List.cons_append, natOfBits_cons, List.length_append, ih, pow_add]; ring

theorem natOfBits_lt (bs : List Bool) : natOfBits bs < 2 ^ bs.length := by
  induction bs with
  | nil => simp
  | cons b r ih => cases b <;> simp [pow_succ] <;> omega

@[simp] theorem bitsOf_length (n v : Nat) : (bitsOf n v).length = n := by simp [bitsOf]

@[simp] theorem bitsOf_zero (v : Nat) : bitsOf 0 v = [] := rfl

theorem bitsOf_succ (n v : Nat) : bitsOf (n + 1) v = v.testBit n :: bitsOf n v := by
  simp only [bitsOf, List.range_succ_eq_map, List.map_cons, List.map_map]
  congr 1
  apply List.map_congr_left
  intro i _
  simp only [Function.comp]
  congr 1
  omega

theorem mod_two_pow_bit (n v : Nat) : v % 2 ^ (n + 1) = (v.testBit n).toNat * 2 ^ n + v % 2 ^ n := by
  rw [pow_succ, Nat.mod_mul, Nat.testBit_eq_decide_div_mod_eq]
  rcases Nat.mod_two_eq_zero_or_one (v / 2 ^ n) with h | h <;> simp [h]
  omega

/-- A field reads back as its low bits (rule R131: bits above the width are ignored). -/
@[simp] theorem natOfBits_bitsOf (n v : Nat) : natOfBits (bitsOf n v) = v % 2 ^ n := by
  induction n with
  | zero => simp [Nat.mod_one]
  | succ n ih => rw [bitsOf_succ, natOfBits_cons, ih, bitsOf_length, mod_two_pow_bit]

theorem bitsOf_mod (n v : Nat) : bitsOf n (v % 2 ^ n) = bitsOf n v := by
  simp only [bitsOf]
  apply List.map_congr_left
  intro i hi
  have := List.mem_range.mp hi
  simp [Nat.testBit_mod_two_pow]
  omega

/-- A field is its high part, then its low part (rules R63, R132). -/
theorem bitsOf_split (a b v : Nat) : bitsOf (a + b) v = bitsOf a (v >>> b) ++ bitsOf b v := by
  induction a with
  | zero => simp
  | succ a ih =>
    rw [show a + 1 + b = a + b + 1 by omega, bitsOf_succ, bitsOf_succ, ih, Nat.testBit_shiftRight, Nat.add_comm b a]
    rfl

/-- A bit string is the field of its own number. -/
theorem bitsOf_natOfBits (bs : List Bool) : bitsOf bs.length (natOfBits bs) = bs := by
  induction bs with
  | nil => rfl
  | cons b r ih =>
    have hlt := natOfBits_lt r
    rw [List.length_cons, bitsOf_succ, natOfBits_cons]
    congr 1
    · cases b <;> simp [Nat.testBit_lt_two_pow hlt, Nat.testBit_two_pow_add_eq]
    · rw [← bitsOf_mod, Nat.add_comm, Nat.add_mul_mod_self_right, bitsOf_mod, ih]

/-- Two fields side by side are one field (rule R63). -/
theorem bitsOf_append (a b c d : Nat) : bitsOf a c ++ bitsOf b d = bitsOf (a + b) (c % 2 ^ a * 2 ^ b + d % 2 ^ b) := by
  have h := bitsOf_natOfBits (bitsOf a c ++ bitsOf b d)
  rw [natOfBits_append, natOfBits_bitsOf, natOfBits_bitsOf, List.length_append, bitsOf_length, bitsOf_length] at h
  exact h.symm

/-- Reading a field that was written (rule R91). -/
theorem takeBits_bitsOf (n v : Nat) (rest : List Bool) :
    takeBits n (bitsOf n v ++ rest) = some (v % 2 ^ n, rest) := by
  have h : n ≤ (bitsOf n v ++ rest).length := by simp
  have h1 : (bitsOf n v ++ rest).take n = bitsOf n v := by simp
  have h2 : (bitsOf n v ++ rest).drop n = rest := by simp
  rw [takeBits, if_pos h, h1, h2, natOfBits_bitsOf]

theorem takeBits_bitsOf_lt (n v : Nat) (rest : List Bool) (h : v < 2 ^ n) :
    takeBits n (bitsOf n v ++ rest) = some (v, rest) := by rw [takeBits_bitsOf, Nat.mod_eq_of_lt h]

/-- Reading a field that fills its register. -/
@[simp] theorem takeBits_field {w : Nat} (b : BitVec w) (rest : List Bool) :
    takeBits w (bitsOf w b.toNat ++ rest) = some (b.toNat, rest) := takeBits_bitsOf_lt w b.toNat rest b.isLt

/-- What a field read says of the string it read from. -/
theorem takeBits_some {n : Nat} {bs : List Bool} {q : Nat × List Bool} (h : takeBits n bs = some q) :
    bs = bitsOf n q.1 ++ q.2 ∧ q.1 < 2 ^ n := by
  unfold takeBits at h
  split at h
  · rename_i hn
    cases h
    have hl : (bs.take n).length = n := by simp [hn]
    refine ⟨?_, ?_⟩
    · have := bitsOf_natOfBits (bs.take n)
      rw [hl] at this
      simp [this]
    · have := natOfBits_lt (bs.take n)
      rwa [hl] at this
  · cases h

@[simp] theorem takeBits_isSome (n : Nat) (bs : List Bool) : (takeBits n bs).isSome = decide (n ≤ bs.length) := by
  unfold takeBits; split <;> simp_all

@[simp] theorem takeBits_one_true (r : List Bool) : takeBits 1 (true :: r) = some (1, r) := by simp [takeBits]
@[simp] theorem takeBits_one_false (r : List Bool) : takeBits 1 (false :: r) = some (0, r) := by simp [takeBits]

@[simp] theorem takeBits_two (a b : Bool) (r : List Bool) :
    takeBits 2 (a :: b :: r) = some (2 * a.toNat + b.toNat, r) := by
  simp [takeBits]; ring

/-! ## Bytes -/

theorem natOfBytes_from (bs : List Byte) (a : Nat) :
    bs.foldl (fun acc b => 256 * acc + b.toNat) a = a * 256 ^ bs.length + natOfBytes bs := by
  induction bs generalizing a with
  | nil => simp [natOfBytes]
  | cons b r ih =>
    simp only [natOfBytes, List.foldl_cons, List.length_cons]
    rw [ih, ih (256 * 0 + b.toNat)]
    ring

@[simp] theorem natOfBytes_cons (b : Byte) (r : List Byte) :
    natOfBytes (b :: r) = b.toNat * 256 ^ r.length + natOfBytes r := by
  have := natOfBytes_from r (256 * 0 + b.toNat)
  simpa [natOfBytes] using this

@[simp] theorem bytesBE_length (n v : Nat) : (bytesBE n v).length = n := by
  induction n with
  | zero => rfl
  | succ n ih => simp [bytesBE, ih]

@[simp] theorem natOfBytes_bytesBE (n v : Nat) : natOfBytes (bytesBE n v) = v % 256 ^ n := by
  induction n with
  | zero => simp [bytesBE, natOfBytes, Nat.mod_one]
  | succ n ih =>
    have h : v % (256 ^ n * 256) = v % 256 ^ n + 256 ^ n * (v / 256 ^ n % 256) := Nat.mod_mul
    rw [bytesBE, natOfBytes_cons, ih, bytesBE_length, BitVec.toNat_ofNat, Nat.shiftRight_eq_div_pow, pow_succ 256 n, h,
      show (2 : Nat) ^ (8 * n) = 256 ^ n by rw [pow_mul]; norm_num, show (2 : Nat) ^ 8 = 256 by norm_num]
    rw [Nat.add_comm, Nat.mul_comm]

@[simp] theorem takeBytes_append (bs rest : List Byte) : takeBytes bs.length (bs ++ rest) = some (bs, rest) := by
  simp [takeBytes]

theorem takeBytes_append' (n : Nat) (bs rest : List Byte) (h : bs.length = n) :
    takeBytes n (bs ++ rest) = some (bs, rest) := by subst h; simp

/-- Reading a number operand that was encoded. -/
theorem takeNat_bytesBE (n v : Nat) (rest : List Byte) : takeNat n (bytesBE n v ++ rest) = some (v % 256 ^ n, rest) := by
  rw [takeNat, takeBytes_append' n _ _ (bytesBE_length n v)]; simp

@[simp] theorem takeNat_one (b : Byte) (rest : List Byte) : takeNat 1 (b :: rest) = some (b.toNat, rest) := by
  simp [takeNat, takeBytes, natOfBytes]

/-- Reading a byte sequence behind its length. -/
theorem takeSeq_encode (bs rest : List Byte) (h : bs.length < 2 ^ 32) :
    takeSeq (bytesBE 4 bs.length ++ (bs ++ rest)) = some (bs, rest) := by
  rw [takeSeq, takeNat_bytesBE, Nat.mod_eq_of_lt (by norm_num at h ⊢; omega)]
  simp

end Machine
end Sys2Proof
end

