-- ==== Sys2Proof/Laws/Fields.lean ====
section
/-! SUPPORT. Zero runs, buckets and payloads: what rules R14, R93 and R96 say of them. -/

namespace Sys2Proof
namespace Machine

/-! ## Zero runs (rule R14) -/

theorem find_range_getD {n : Nat} {p : Nat → Bool} {k : Nat} (h : ((List.range n).find? p).getD n = k) :
    k ≤ n ∧ (∀ j, j < k → p j = false) ∧ (k < n → p k = true) := by
  cases hf : (List.range n).find? p with
  | none =>
    rw [hf] at h
    simp only [Option.getD_none] at h
    subst h
    have := List.find?_eq_none.mp hf
    refine ⟨Nat.le_refl _, fun j hj => ?_, fun h => absurd h (Nat.lt_irrefl _)⟩
    simpa using this j (List.mem_range.mpr hj)
  | some i =>
    rw [hf] at h
    simp only [Option.getD_some] at h
    subst h
    obtain ⟨h1, h2, h3⟩ := List.find?_range_eq_some.mp hf
    have h4 := List.mem_range.mp h2
    refine ⟨Nat.le_of_lt h4, fun j hj => ?_, fun _ => h1⟩
    simpa using h3 j hj

theorem clz_le (n : Nat) (x : Raw) : clz n x ≤ n := (find_range_getD rfl).1

theorem ctz_le (n : Nat) (x : Raw) : ctz n x ≤ n := (find_range_getD rfl).1

/-- The bits above the highest set bit are zero. -/
theorem clz_zeros (n : Nat) (x : Raw) (i : Nat) (h : i < n) (hi : n - clz n x ≤ i) : x.getLsbD i = false := by
  have := (find_range_getD (n := n) (p := fun i => x.getLsbD (n - 1 - i)) rfl).2.1 (n - 1 - i) (by
    have := clz_le n x; unfold clz at *; omega)
  simpa [show n - 1 - (n - 1 - i) = i by omega] using this

/-- The bit below the leading zeros is set. -/
theorem clz_top (n : Nat) (x : Raw) (h : clz n x < n) : x.getLsbD (n - 1 - clz n x) = true :=
  (find_range_getD (n := n) (p := fun i => x.getLsbD (n - 1 - i)) rfl).2.2 h

/-- The bits below the lowest set bit are zero. -/
theorem ctz_zeros (n : Nat) (x : Raw) (i : Nat) (hi : i < ctz n x) : x.getLsbD i = false :=
  (find_range_getD (n := n) (p := fun i => x.getLsbD i) rfl).2.1 i hi

/-- The bit above the trailing zeros is set. -/
theorem ctz_top (n : Nat) (x : Raw) (h : ctz n x < n) : x.getLsbD (ctz n x) = true :=
  (find_range_getD (n := n) (p := fun i => x.getLsbD i) rfl).2.2 h

theorem toNat_lt_of_zeros (x : Raw) (k : Nat) (h : ∀ i, k ≤ i → x.getLsbD i = false) : x.toNat < 2 ^ k :=
  Nat.lt_pow_two_of_testBit _ fun i hi => by simpa [BitVec.getLsbD] using h i hi

theorem getLsbD_of_lt (x : Raw) (k i : Nat) (h : x.toNat < 2 ^ k) (hi : k ≤ i) : x.getLsbD i = false := by
  simp only [BitVec.getLsbD]
  exact Nat.testBit_lt_two_pow (Nat.lt_of_lt_of_le h (Nat.pow_le_pow_right (by decide) hi))

/-- A value of `n` bits fits the bits its leading zeros leave. -/
theorem toNat_lt_clz (n : Nat) (x : Raw) (h : x.toNat < 2 ^ n) : x.toNat < 2 ^ (n - clz n x) := by
  apply toNat_lt_of_zeros
  intro i hi
  by_cases hn : i < n
  · exact clz_zeros n x i hn hi
  · exact getLsbD_of_lt x n i h (by omega)

/-- A value that is not zero has a set bit between its zero runs (rule R164: `clz + ctz <= N - 1`). -/
theorem clz_add_ctz_lt (n : Nat) (x : Raw) (h : x.toNat < 2 ^ n) (h0 : x ≠ 0) : clz n x + ctz n x < n := by
  have h1 : clz n x < n := by
    rcases Nat.lt_or_ge (clz n x) n with h1 | h1
    · exact h1
    · have := toNat_lt_clz n x h
      rw [Nat.sub_eq_zero_of_le h1] at this
      exact absurd (BitVec.eq_of_toNat_eq (by simpa using this)) h0
  rcases Nat.lt_or_ge (clz n x + ctz n x) n with h2 | h2
  · exact h2
  · have := clz_top n x h1
    rw [ctz_zeros n x _ (by omega)] at this
    cases this

/-- Shifting the trailing zeros out and in again loses nothing. -/
theorem shiftRight_shiftLeft (x : Raw) (t : Nat) (h : ∀ i, i < t → x.getLsbD i = false) : (x >>> t) <<< t = x := by
  apply BitVec.eq_of_getLsbD_eq
  intro i hi
  simp only [BitVec.getLsbD_shiftLeft, BitVec.getLsbD_ushiftRight, hi, decide_true, Bool.true_and]
  by_cases hit : i < t
  · simp [hit, h i hit]
  · simp [hit, show t + (i - t) = i by omega]

/-- A value shifted right by `t` fits `k` bits where the value fits `k + t`. -/
theorem ushiftRight_lt (x : Raw) (t k : Nat) (h : x.toNat < 2 ^ (k + t)) : (x >>> t).toNat < 2 ^ k := by
  rw [BitVec.toNat_ushiftRight, Nat.shiftRight_eq_div_pow, Nat.div_lt_iff_lt_mul (by positivity), ← pow_add]
  exact h

theorem lt_of_lt_pow {x a b : Nat} (h : x < 2 ^ a) (hab : a ≤ b) : x < 2 ^ b :=
  Nat.lt_of_lt_of_le h (Nat.pow_le_pow_right (by decide) hab)

theorem xor_lt (x y : Raw) (k : Nat) (hx : x.toNat < 2 ^ k) (hy : y.toNat < 2 ^ k) : (x ^^^ y).toNat < 2 ^ k := by
  rw [BitVec.toNat_xor]; exact Nat.xor_lt_two_pow hx hy

theorem xor_xor_self (x y : Raw) : x ^^^ (x ^^^ y) = y := by
  rw [← BitVec.xor_assoc]; simp

/-! ## Buckets (rule R96) -/

theorem leadOf_mem {rep : List Nat} (h : legalLeadRep rep = true) {b : Nat} (hb : b < 8) : leadOf rep b ∈ rep := by
  simp only [legalLeadRep, Bool.and_eq_true, decide_eq_true_eq] at h
  have hl : b < rep.length := by rw [h.1.1.1]; exact hb
  rw [leadOf, List.getD_eq_getElem?_getD, List.getElem?_eq_getElem hl]
  exact List.getElem_mem hl

theorem leadOf_le {rep : List Nat} (h : legalLeadRep rep = true) (b : Nat) : leadOf rep b ≤ 31 := by
  have h' := h
  simp only [legalLeadRep, Bool.and_eq_true, decide_eq_true_eq, List.all_eq_true] at h'
  by_cases hb : b < 8
  · simpa using h'.2 _ (leadOf_mem h hb)
  · rw [leadOf, List.getD_eq_default _ _ (by rw [h'.1.1.1]; omega)]; omega

theorem bucket_lt (rep : List Nat) (c : Nat) : bucket rep c < 8 := by
  unfold bucket
  cases hf : List.find? (fun i => decide (leadOf rep i ≤ c)) [7, 6, 5, 4, 3, 2, 1, 0] with
  | none => simp
  | some i =>
    have := List.mem_of_find?_eq_some hf
    simp only [Option.getD_some]
    revert this; simp; omega

theorem leadOf_zero {rep : List Nat} (h : legalLeadRep rep = true) : leadOf rep 0 = 0 := by
  simp only [legalLeadRep, Bool.and_eq_true, decide_eq_true_eq] at h
  have := h.1.1.2
  cases rep with
  | nil => cases this
  | cons a r => simp at this; simp [leadOf, this]

/-- `rep_N(c) <= c` (rule R96). -/
theorem repOf_le {rep : List Nat} (h : legalLeadRep rep = true) (c : Nat) : repOf rep c ≤ c := by
  unfold repOf bucket
  cases hf : List.find? (fun i => decide (leadOf rep i ≤ c)) [7, 6, 5, 4, 3, 2, 1, 0] with
  | none => simp [leadOf_zero h]
  | some i => simpa using List.find?_some hf

theorem repOf_mem {rep : List Nat} (h : legalLeadRep rep = true) (c : Nat) : repOf rep c ∈ rep := leadOf_mem h (bucket_lt rep c)

theorem repOf_le_31 {rep : List Nat} (h : legalLeadRep rep = true) (c : Nat) : repOf rep c ≤ 31 := leadOf_le h _

/-! ## Counts and widths -/

theorem sigOf_pos (n cnt : Nat) (h : 0 < n) : 0 < sigOf n cnt := by unfold sigOf; split <;> omega

theorem width_eq (c : Codec) : width c = 64 ∨ width c = 32 := by cases c <;> simp [width]

theorem cntBits_pow (c : Codec) : 2 ^ cntBits (width c) = width c := by cases c <;> rfl

end Machine
end Sys2Proof
end

