-- ==== Sys2Proof/Laws/Memory.lean ====
section
/-! SUPPORT. Sparse arrays and buffers: read after write, untouched places, and the canonical form, which every memory
operation keeps. -/

namespace Sys2Proof
namespace Machine

/-! ## Sparse arrays -/

@[simp] theorem tableFind_nil {α : Type} (k : Nat) : tableFind ([] : Table α) k = none := rfl

theorem tableFind_insert {α : Type} (t : Table α) (k : Nat) (v : α) (j : Nat) :
    tableFind (tableInsert t k v) j = if k = j then some v else tableFind t j := by
  induction t with
  | nil => simp [tableInsert, tableFind]
  | cons e r ih =>
    obtain ⟨a, w⟩ := e
    unfold tableInsert
    split
    · simp [tableFind]
    · split
      · subst_vars; simp [tableFind]; split <;> rfl
      · simp only [tableFind, ih]; split <;> split <;> simp_all

/-- In a table with rising indices, an index below the first is not listed. -/
theorem tableFind_eq_none {α : Type} (t : Table α) (k : Nat) (h : ∀ e ∈ t, k < e.1) : tableFind t k = none := by
  induction t with
  | nil => rfl
  | cons e r ih =>
    obtain ⟨a, w⟩ := e
    have h1 := h (a, w) (by simp)
    have h2 : ∀ e ∈ r, k < e.1 := fun e he => h e (by simp [he])
    simp only [tableFind, ih h2]
    simp at h1
    split <;> simp_all

theorem tableFind_mem {α : Type} {t : Table α} {k : Nat} {v : α} (h : tableFind t k = some v) : (k, v) ∈ t := by
  induction t with
  | nil => cases h
  | cons e r ih =>
    obtain ⟨a, w⟩ := e
    simp only [tableFind] at h
    split at h
    · cases h; subst_vars; simp
    · simp [ih h]

theorem tableFind_erase {α : Type} (t : Table α) (k j : Nat) (h : tableSorted t) :
    tableFind (tableErase t k) j = if k = j then none else tableFind t j := by
  induction t with
  | nil => simp [tableErase]
  | cons e r ih =>
    obtain ⟨a, w⟩ := e
    have hr := List.pairwise_cons.mp h
    unfold tableErase
    split
    · rename_i hak
      subst hak
      simp only [tableFind]
      split
      · subst_vars; exact tableFind_eq_none r _ hr.1
      · rfl
    · simp only [tableFind, ih hr.2]; split <;> split <;> simp_all

theorem mem_tableInsert {α : Type} {t : Table α} {k : Nat} {v : α} {e : Nat × α} (h : e ∈ tableInsert t k v) :
    e = (k, v) ∨ e ∈ t := by
  induction t with
  | nil => simpa [tableInsert] using h
  | cons f r ih =>
    obtain ⟨a, w⟩ := f
    unfold tableInsert at h
    split at h
    · simpa using h
    · split at h
      · simp only [List.mem_cons] at h ⊢; tauto
      · simp only [List.mem_cons] at h ⊢; rcases h with h | h
        · tauto
        · rcases ih h with h | h <;> tauto

theorem mem_tableErase {α : Type} {t : Table α} {k : Nat} {e : Nat × α} (h : e ∈ tableErase t k) : e ∈ t := by
  induction t with
  | nil => simp [tableErase] at h
  | cons f r ih =>
    obtain ⟨a, w⟩ := f
    unfold tableErase at h
    split at h
    · simp [h]
    · simp only [List.mem_cons] at h ⊢; rcases h with h | h <;> tauto

theorem tableInsert_sorted {α : Type} (t : Table α) (k : Nat) (v : α) (h : tableSorted t) :
    tableSorted (tableInsert t k v) := by
  induction t with
  | nil => simp [tableInsert]
  | cons f r ih =>
    obtain ⟨a, w⟩ := f
    have hr := List.pairwise_cons.mp h
    unfold tableInsert
    split
    · refine List.pairwise_cons.mpr ⟨?_, h⟩
      intro e he
      simp only [List.mem_cons] at he
      rcases he with rfl | he
      · assumption
      · have := hr.1 e he; simp only at this ⊢; omega
    · split
      · subst_vars; exact List.pairwise_cons.mpr ⟨hr.1, hr.2⟩
      · refine List.pairwise_cons.mpr ⟨?_, ih hr.2⟩
        intro e he
        rcases mem_tableInsert he with rfl | he
        · simp only; omega
        · exact hr.1 e he

theorem tableErase_sorted {α : Type} (t : Table α) (k : Nat) (h : tableSorted t) : tableSorted (tableErase t k) := by
  induction t with
  | nil => simp [tableErase]
  | cons f r ih =>
    obtain ⟨a, w⟩ := f
    have hr := List.pairwise_cons.mp h
    unfold tableErase
    split
    · exact hr.2
    · exact List.pairwise_cons.mpr ⟨fun e he => hr.1 e (mem_tableErase he), ih hr.2⟩

/-- Two tables in order with the same entries are the same table. -/
theorem table_ext {α : Type} {s t : Table α} (hs : tableSorted s) (ht : tableSorted t)
    (h : ∀ k, tableFind s k = tableFind t k) : s = t := by
  induction s generalizing t with
  | nil =>
    cases t with
    | nil => rfl
    | cons e r => have := h e.1; simp [tableFind] at this
  | cons e r ih =>
    cases t with
    | nil => have := h e.1; simp [tableFind] at this
    | cons f q =>
      have he := List.pairwise_cons.mp hs
      have hf := List.pairwise_cons.mp ht
      have hab : e.1 = f.1 := by
        rcases Nat.lt_trichotomy e.1 f.1 with hlt | heq | hlt
        · have h1 := h e.1
          rw [tableFind_eq_none (f :: q) e.1 (by
            intro g hg; rcases List.mem_cons.mp hg with rfl | hg
            · exact hlt
            · exact Nat.lt_trans hlt (hf.1 g hg))] at h1
          simp [tableFind] at h1
        · exact heq
        · have h1 := h f.1
          rw [tableFind_eq_none (e :: r) f.1 (by
            intro g hg; rcases List.mem_cons.mp hg with rfl | hg
            · exact hlt
            · exact Nat.lt_trans hlt (he.1 g hg))] at h1
          simp [tableFind] at h1
      have hv : e.2 = f.2 := by have h1 := h e.1; simpa [tableFind, hab] using h1
      have hef : e = f := Prod.ext hab hv
      subst hef
      congr 1
      refine ih he.2 hf.2 fun k => ?_
      by_cases hk : e.1 = k
      · rw [tableFind_eq_none r k (hk ▸ he.1), tableFind_eq_none q k (hk ▸ hf.1)]
      · have h1 := h k; simpa [tableFind, hk] using h1

/-! ## The hash index -/

theorem idxRead_idxWrite (t : Table Nat) (k v j : Nat) (h : tableSorted t) :
    idxRead (idxWrite t k v) j = if k = j then v else idxRead t j := by
  unfold idxRead idxWrite
  split
  · rw [tableFind_erase t k j h]; split <;> simp_all
  · rw [tableFind_insert]; split <;> simp_all

theorem idxWrite_sorted (t : Table Nat) (k v : Nat) (h : tableSorted t) : tableSorted (idxWrite t k v) := by
  unfold idxWrite; split
  · exact tableErase_sorted t k h
  · exact tableInsert_sorted t k v h

theorem idxWrite_ne_zero (t : Table Nat) (k v : Nat) (h : ∀ e ∈ t, e.2 ≠ 0) : ∀ e ∈ idxWrite t k v, e.2 ≠ 0 := by
  unfold idxWrite
  intro e he
  split at he
  · exact h e (mem_tableErase he)
  · rcases mem_tableInsert he with rfl | he
    · assumption
    · exact h e he

/-! ## Buffers -/

@[simp] theorem memRead_nil (a : Nat) : memRead [] a = 0 := rfl

/-- Read after write, and every other place untouched. -/
theorem memRead_memWrite (m : Memory) (a : Nat) (b : Byte) (j : Nat) (h : memWf m) :
    memRead (memWrite m a b) j = if a = j then b else memRead m j := by
  unfold memRead memWrite
  split
  · rw [tableFind_erase m a j h.1]; split <;> simp_all
  · rw [tableFind_insert]; split <;> simp_all

theorem memWf_nil : memWf [] := ⟨List.Pairwise.nil, by simp⟩

theorem memWrite_wf (m : Memory) (a : Nat) (b : Byte) (h : memWf m) : memWf (memWrite m a b) := by
  unfold memWrite
  split
  · exact ⟨tableErase_sorted m a h.1, fun c hc => h.2 c (mem_tableErase hc)⟩
  · refine ⟨tableInsert_sorted m a b h.1, fun c hc => ?_⟩
    rcases mem_tableInsert hc with rfl | hc
    · assumption
    · exact h.2 c hc

theorem memSetBit_wf (m : Memory) (p : Nat) (b : Bool) (h : memWf m) : memWf (memSetBit m p b) := memWrite_wf m _ _ h

theorem memSetBits_wf (bs : List Bool) (m : Memory) (p : Nat) (h : memWf m) : memWf (memSetBits m p bs) := by
  induction bs generalizing m p with
  | nil => exact h
  | cons b r ih => exact ih _ _ (memSetBit_wf m p b h)

theorem memOfBytes_ge (bs : List Byte) (a : Nat) : ∀ c ∈ memOfBytes a bs, a ≤ c.1 := by
  induction bs generalizing a with
  | nil => simp [memOfBytes]
  | cons b r ih =>
    unfold memOfBytes
    intro c hc
    split at hc
    · have := ih (a + 1) c hc; omega
    · rcases List.mem_cons.mp hc with rfl | hc
      · exact Nat.le_refl _
      · have := ih (a + 1) c hc; omega

theorem memOfBytes_wf (bs : List Byte) (a : Nat) : memWf (memOfBytes a bs) := by
  induction bs generalizing a with
  | nil => exact memWf_nil
  | cons b r ih =>
    unfold memOfBytes
    split
    · exact ih (a + 1)
    · refine ⟨List.pairwise_cons.mpr ⟨fun e he => ?_, (ih (a + 1)).1⟩, fun c hc => ?_⟩
      · have := memOfBytes_ge r (a + 1) e he; simp only; omega
      · rcases List.mem_cons.mp hc with rfl | hc
        · assumption
        · exact (ih (a + 1)).2 c hc

/-- The bytes handed in read back at their places; every other address reads 0. -/
theorem memRead_memOfBytes (bs : List Byte) (a j : Nat) :
    memRead (memOfBytes a bs) j = if a ≤ j then bs.getD (j - a) 0 else 0 := by
  induction bs generalizing a with
  | nil => simp [memOfBytes]
  | cons b r ih =>
    have hstep : memRead (memOfBytes a (b :: r)) j = if a = j then b else memRead (memOfBytes (a + 1) r) j := by
      by_cases hb : b = memDefault
      · rw [memOfBytes, if_pos hb]
        split
        · rw [ih, if_neg (by omega), hb]; rfl
        · rfl
      · rw [memOfBytes, if_neg hb]
        simp only [memRead, tableFind]; split <;> rfl
    rw [hstep, ih]
    by_cases h1 : a = j
    · subst h1; simp
    · rw [if_neg h1]
      by_cases h2 : a + 1 ≤ j
      · rw [if_pos h2, if_pos (by omega), show j - a = (j - (a + 1)) + 1 by omega]; simp
      · rw [if_neg h2, if_neg (by omega)]

theorem byteSetBit_get (x : Byte) (k : Fin 8) (b : Bool) (j : Fin 8) :
    (byteSetBit x k b).getLsbD j = if k = j then b else x.getLsbD j := by
  revert x b
  fin_cases k <;> fin_cases j <;> intro x b <;> cases b <;> simp [byteSetBit]

/-- Stream bit `q` after stream bit `p` has been set (rule R61). -/
theorem memBit_memSetBit (m : Memory) (p : Nat) (b : Bool) (q : Nat) (h : memWf m) :
    memBit (memSetBit m p b) q = if p = q then b else memBit m q := by
  unfold memBit memSetBit
  rw [memRead_memWrite m _ _ _ h]
  split
  · rename_i hpq
    have := byteSetBit_get (memRead m (p / 8)) ⟨7 - p % 8, by omega⟩ b ⟨7 - q % 8, by omega⟩
    simp only [Fin.mk.injEq] at this
    rw [this, hpq]
    by_cases hh : p = q
    · subst hh; simp
    · rw [if_neg hh, if_neg (by omega)]
  · rw [if_neg (by omega)]

/-- Stream bit `q` after a bit string has been appended at `p` (rule R60). -/
theorem memBit_memSetBits (bs : List Bool) (m : Memory) (p q : Nat) (h : memWf m) :
    memBit (memSetBits m p bs) q = if p ≤ q ∧ q < p + bs.length then bs.getD (q - p) false else memBit m q := by
  induction bs generalizing m p with
  | nil => rw [memSetBits, if_neg (by simp)]
  | cons b r ih =>
    rw [memSetBits, ih _ _ (memSetBit_wf m p b h), memBit_memSetBit m p b q h]
    simp only [List.length_cons]
    by_cases h1 : p = q
    · subst h1; simp
    · by_cases h2 : p + 1 ≤ q ∧ q < p + 1 + r.length
      · rw [if_pos h2, if_pos (by omega), show q - p = (q - (p + 1)) + 1 by omega]; simp
      · rw [if_neg h2, if_neg h1, if_neg (by omega)]

end Machine
end Sys2Proof
end

