-- ==== Sys2Proof/Laws/State.lean ====
section
/-! SUPPORT. One lemma per field of State per named update of it, each true by unfolding the update, so that no later
proof unfolds a record update. -/

namespace Sys2Proof
namespace Machine

/-! ### `answer` -/

@[simp] theorem State.answer_port (s : State) (r : Result) : (s.answer r).port = s.port := rfl
@[simp] theorem State.answer_resp (s : State) (r : Result) : (s.answer r).resp = some (.ok r) := rfl
@[simp] theorem State.answer_wire (s : State) (r : Result) : (s.answer r).wire = s.wire := rfl
@[simp] theorem State.answer_pend (s : State) (r : Result) : (s.answer r).pend = s.pend := rfl
@[simp] theorem State.answer_codec (s : State) (r : Result) : (s.answer r).codec = s.codec := rfl
@[simp] theorem State.answer_dir (s : State) (r : Result) : (s.answer r).dir = s.dir := rfl
@[simp] theorem State.answer_logw (s : State) (r : Result) : (s.answer r).logw = s.logw := rfl
@[simp] theorem State.answer_capw (s : State) (r : Result) : (s.answer r).capw = s.capw := rfl
@[simp] theorem State.answer_eps (s : State) (r : Result) : (s.answer r).eps = s.eps := rfl
@[simp] theorem State.answer_nval (s : State) (r : Result) : (s.answer r).nval = s.nval := rfl
@[simp] theorem State.answer_leadRep64 (s : State) (r : Result) : (s.answer r).leadRep64 = s.leadRep64 := rfl
@[simp] theorem State.answer_leadRep32 (s : State) (r : Result) : (s.answer r).leadRep32 = s.leadRep32 := rfl
@[simp] theorem State.answer_phase (s : State) (r : Result) : (s.answer r).phase = s.phase := rfl
@[simp] theorem State.answer_err (s : State) (r : Result) : (s.answer r).err = s.err := rfl
@[simp] theorem State.answer_errsub (s : State) (r : Result) : (s.answer r).errsub = s.errsub := rfl
@[simp] theorem State.answer_size (s : State) (r : Result) : (s.answer r).size = s.size := rfl
@[simp] theorem State.answer_count (s : State) (r : Result) : (s.answer r).count = s.count := rfl
@[simp] theorem State.answer_first (s : State) (r : Result) : (s.answer r).first = s.first := rfl
@[simp] theorem State.answer_prev (s : State) (r : Result) : (s.answer r).prev = s.prev := rfl
@[simp] theorem State.answer_clead (s : State) (r : Result) : (s.answer r).clead = s.clead := rfl
@[simp] theorem State.answer_ctrail (s : State) (r : Result) : (s.answer r).ctrail = s.ctrail := rfl
@[simp] theorem State.answer_index (s : State) (r : Result) : (s.answer r).index = s.index := rfl
@[simp] theorem State.answer_cur (s : State) (r : Result) : (s.answer r).cur = s.cur := rfl
@[simp] theorem State.answer_lastbs (s : State) (r : Result) : (s.answer r).lastbs = s.lastbs := rfl
@[simp] theorem State.answer_ring (s : State) (r : Result) : (s.answer r).ring = s.ring := rfl
@[simp] theorem State.answer_idx (s : State) (r : Result) : (s.answer r).idx = s.idx := rfl
@[simp] theorem State.answer_wbuf (s : State) (r : Result) : (s.answer r).wbuf = s.wbuf := rfl
@[simp] theorem State.answer_wpos (s : State) (r : Result) : (s.answer r).wpos = s.wpos := rfl
@[simp] theorem State.answer_flushed (s : State) (r : Result) : (s.answer r).flushed = s.flushed := rfl
@[simp] theorem State.answer_rbuf (s : State) (r : Result) : (s.answer r).rbuf = s.rbuf := rfl
@[simp] theorem State.answer_len (s : State) (r : Result) : (s.answer r).len = s.len := rfl
@[simp] theorem State.answer_rpos (s : State) (r : Result) : (s.answer r).rpos = s.rpos := rfl
@[simp] theorem State.answer_pastEnd (s : State) (r : Result) : (s.answer r).pastEnd = s.pastEnd := rfl
@[simp] theorem State.answer_loaded (s : State) (r : Result) : (s.answer r).loaded = s.loaded := rfl

/-! ### `usage` -/

@[simp] theorem State.usage_port (s : State) (sub : SubCause) : (s.usage sub).port = s.port := rfl
@[simp] theorem State.usage_resp (s : State) (sub : SubCause) : (s.usage sub).resp = some (.fail .usageError sub) := rfl
@[simp] theorem State.usage_wire (s : State) (sub : SubCause) : (s.usage sub).wire = s.wire := rfl
@[simp] theorem State.usage_pend (s : State) (sub : SubCause) : (s.usage sub).pend = s.pend := rfl
@[simp] theorem State.usage_codec (s : State) (sub : SubCause) : (s.usage sub).codec = s.codec := rfl
@[simp] theorem State.usage_dir (s : State) (sub : SubCause) : (s.usage sub).dir = s.dir := rfl
@[simp] theorem State.usage_logw (s : State) (sub : SubCause) : (s.usage sub).logw = s.logw := rfl
@[simp] theorem State.usage_capw (s : State) (sub : SubCause) : (s.usage sub).capw = s.capw := rfl
@[simp] theorem State.usage_eps (s : State) (sub : SubCause) : (s.usage sub).eps = s.eps := rfl
@[simp] theorem State.usage_nval (s : State) (sub : SubCause) : (s.usage sub).nval = s.nval := rfl
@[simp] theorem State.usage_leadRep64 (s : State) (sub : SubCause) : (s.usage sub).leadRep64 = s.leadRep64 := rfl
@[simp] theorem State.usage_leadRep32 (s : State) (sub : SubCause) : (s.usage sub).leadRep32 = s.leadRep32 := rfl
@[simp] theorem State.usage_phase (s : State) (sub : SubCause) : (s.usage sub).phase = s.phase := rfl
@[simp] theorem State.usage_err (s : State) (sub : SubCause) : (s.usage sub).err = s.err := rfl
@[simp] theorem State.usage_errsub (s : State) (sub : SubCause) : (s.usage sub).errsub = s.errsub := rfl
@[simp] theorem State.usage_size (s : State) (sub : SubCause) : (s.usage sub).size = s.size := rfl
@[simp] theorem State.usage_count (s : State) (sub : SubCause) : (s.usage sub).count = s.count := rfl
@[simp] theorem State.usage_first (s : State) (sub : SubCause) : (s.usage sub).first = s.first := rfl
@[simp] theorem State.usage_prev (s : State) (sub : SubCause) : (s.usage sub).prev = s.prev := rfl
@[simp] theorem State.usage_clead (s : State) (sub : SubCause) : (s.usage sub).clead = s.clead := rfl
@[simp] theorem State.usage_ctrail (s : State) (sub : SubCause) : (s.usage sub).ctrail = s.ctrail := rfl
@[simp] theorem State.usage_index (s : State) (sub : SubCause) : (s.usage sub).index = s.index := rfl
@[simp] theorem State.usage_cur (s : State) (sub : SubCause) : (s.usage sub).cur = s.cur := rfl
@[simp] theorem State.usage_lastbs (s : State) (sub : SubCause) : (s.usage sub).lastbs = s.lastbs := rfl
@[simp] theorem State.usage_ring (s : State) (sub : SubCause) : (s.usage sub).ring = s.ring := rfl
@[simp] theorem State.usage_idx (s : State) (sub : SubCause) : (s.usage sub).idx = s.idx := rfl
@[simp] theorem State.usage_wbuf (s : State) (sub : SubCause) : (s.usage sub).wbuf = s.wbuf := rfl
@[simp] theorem State.usage_wpos (s : State) (sub : SubCause) : (s.usage sub).wpos = s.wpos := rfl
@[simp] theorem State.usage_flushed (s : State) (sub : SubCause) : (s.usage sub).flushed = s.flushed := rfl
@[simp] theorem State.usage_rbuf (s : State) (sub : SubCause) : (s.usage sub).rbuf = s.rbuf := rfl
@[simp] theorem State.usage_len (s : State) (sub : SubCause) : (s.usage sub).len = s.len := rfl
@[simp] theorem State.usage_rpos (s : State) (sub : SubCause) : (s.usage sub).rpos = s.rpos := rfl
@[simp] theorem State.usage_pastEnd (s : State) (sub : SubCause) : (s.usage sub).pastEnd = s.pastEnd := rfl
@[simp] theorem State.usage_loaded (s : State) (sub : SubCause) : (s.usage sub).loaded = s.loaded := rfl

/-! ### `failEntry` -/

@[simp] theorem State.failEntry_port (s : State) (c : FailCode) (sub : SubCause) : (s.failEntry c sub).port = s.port := by cases c <;> rfl
@[simp] theorem State.failEntry_resp (s : State) (c : FailCode) (sub : SubCause) : (s.failEntry c sub).resp = some (.fail c sub) := by cases c <;> rfl
@[simp] theorem State.failEntry_wire (s : State) (c : FailCode) (sub : SubCause) : (s.failEntry c sub).wire = s.wire := by cases c <;> rfl
@[simp] theorem State.failEntry_pend (s : State) (c : FailCode) (sub : SubCause) : (s.failEntry c sub).pend = if entersFault c = true then none else s.pend := by cases c <;> rfl
@[simp] theorem State.failEntry_codec (s : State) (c : FailCode) (sub : SubCause) : (s.failEntry c sub).codec = s.codec := by cases c <;> rfl
@[simp] theorem State.failEntry_dir (s : State) (c : FailCode) (sub : SubCause) : (s.failEntry c sub).dir = s.dir := by cases c <;> rfl
@[simp] theorem State.failEntry_logw (s : State) (c : FailCode) (sub : SubCause) : (s.failEntry c sub).logw = s.logw := by cases c <;> rfl
@[simp] theorem State.failEntry_capw (s : State) (c : FailCode) (sub : SubCause) : (s.failEntry c sub).capw = s.capw := by cases c <;> rfl
@[simp] theorem State.failEntry_eps (s : State) (c : FailCode) (sub : SubCause) : (s.failEntry c sub).eps = s.eps := by cases c <;> rfl
@[simp] theorem State.failEntry_nval (s : State) (c : FailCode) (sub : SubCause) : (s.failEntry c sub).nval = s.nval := by cases c <;> rfl
@[simp] theorem State.failEntry_leadRep64 (s : State) (c : FailCode) (sub : SubCause) : (s.failEntry c sub).leadRep64 = s.leadRep64 := by cases c <;> rfl
@[simp] theorem State.failEntry_leadRep32 (s : State) (c : FailCode) (sub : SubCause) : (s.failEntry c sub).leadRep32 = s.leadRep32 := by cases c <;> rfl
@[simp] theorem State.failEntry_phase (s : State) (c : FailCode) (sub : SubCause) : (s.failEntry c sub).phase = if entersFault c = true then .fault else s.phase := by cases c <;> rfl
@[simp] theorem State.failEntry_err (s : State) (c : FailCode) (sub : SubCause) : (s.failEntry c sub).err = if entersFault c = true then some c else s.err := by cases c <;> rfl
@[simp] theorem State.failEntry_errsub (s : State) (c : FailCode) (sub : SubCause) : (s.failEntry c sub).errsub = if entersFault c = true then some sub else s.errsub := by cases c <;> rfl
@[simp] theorem State.failEntry_size (s : State) (c : FailCode) (sub : SubCause) : (s.failEntry c sub).size = s.size := by cases c <;> rfl
@[simp] theorem State.failEntry_count (s : State) (c : FailCode) (sub : SubCause) : (s.failEntry c sub).count = s.count := by cases c <;> rfl
@[simp] theorem State.failEntry_first (s : State) (c : FailCode) (sub : SubCause) : (s.failEntry c sub).first = s.first := by cases c <;> rfl
@[simp] theorem State.failEntry_prev (s : State) (c : FailCode) (sub : SubCause) : (s.failEntry c sub).prev = s.prev := by cases c <;> rfl
@[simp] theorem State.failEntry_clead (s : State) (c : FailCode) (sub : SubCause) : (s.failEntry c sub).clead = s.clead := by cases c <;> rfl
@[simp] theorem State.failEntry_ctrail (s : State) (c : FailCode) (sub : SubCause) : (s.failEntry c sub).ctrail = s.ctrail := by cases c <;> rfl
@[simp] theorem State.failEntry_index (s : State) (c : FailCode) (sub : SubCause) : (s.failEntry c sub).index = s.index := by cases c <;> rfl
@[simp] theorem State.failEntry_cur (s : State) (c : FailCode) (sub : SubCause) : (s.failEntry c sub).cur = s.cur := by cases c <;> rfl
@[simp] theorem State.failEntry_lastbs (s : State) (c : FailCode) (sub : SubCause) : (s.failEntry c sub).lastbs = s.lastbs := by cases c <;> rfl
@[simp] theorem State.failEntry_ring (s : State) (c : FailCode) (sub : SubCause) : (s.failEntry c sub).ring = s.ring := by cases c <;> rfl
@[simp] theorem State.failEntry_idx (s : State) (c : FailCode) (sub : SubCause) : (s.failEntry c sub).idx = s.idx := by cases c <;> rfl
@[simp] theorem State.failEntry_wbuf (s : State) (c : FailCode) (sub : SubCause) : (s.failEntry c sub).wbuf = s.wbuf := by cases c <;> rfl
@[simp] theorem State.failEntry_wpos (s : State) (c : FailCode) (sub : SubCause) : (s.failEntry c sub).wpos = s.wpos := by cases c <;> rfl
@[simp] theorem State.failEntry_flushed (s : State) (c : FailCode) (sub : SubCause) : (s.failEntry c sub).flushed = s.flushed := by cases c <;> rfl
@[simp] theorem State.failEntry_rbuf (s : State) (c : FailCode) (sub : SubCause) : (s.failEntry c sub).rbuf = s.rbuf := by cases c <;> rfl
@[simp] theorem State.failEntry_len (s : State) (c : FailCode) (sub : SubCause) : (s.failEntry c sub).len = s.len := by cases c <;> rfl
@[simp] theorem State.failEntry_rpos (s : State) (c : FailCode) (sub : SubCause) : (s.failEntry c sub).rpos = s.rpos := by cases c <;> rfl
@[simp] theorem State.failEntry_pastEnd (s : State) (c : FailCode) (sub : SubCause) : (s.failEntry c sub).pastEnd = s.pastEnd := by cases c <;> rfl
@[simp] theorem State.failEntry_loaded (s : State) (c : FailCode) (sub : SubCause) : (s.failEntry c sub).loaded = s.loaded := by cases c <;> rfl

/-! ### `append` -/

@[simp] theorem State.append_port (s : State) (bs : List Bool) : (s.append bs).port = s.port := rfl
@[simp] theorem State.append_resp (s : State) (bs : List Bool) : (s.append bs).resp = s.resp := rfl
@[simp] theorem State.append_wire (s : State) (bs : List Bool) : (s.append bs).wire = s.wire := rfl
@[simp] theorem State.append_pend (s : State) (bs : List Bool) : (s.append bs).pend = s.pend := rfl
@[simp] theorem State.append_codec (s : State) (bs : List Bool) : (s.append bs).codec = s.codec := rfl
@[simp] theorem State.append_dir (s : State) (bs : List Bool) : (s.append bs).dir = s.dir := rfl
@[simp] theorem State.append_logw (s : State) (bs : List Bool) : (s.append bs).logw = s.logw := rfl
@[simp] theorem State.append_capw (s : State) (bs : List Bool) : (s.append bs).capw = s.capw := rfl
@[simp] theorem State.append_eps (s : State) (bs : List Bool) : (s.append bs).eps = s.eps := rfl
@[simp] theorem State.append_nval (s : State) (bs : List Bool) : (s.append bs).nval = s.nval := rfl
@[simp] theorem State.append_leadRep64 (s : State) (bs : List Bool) : (s.append bs).leadRep64 = s.leadRep64 := rfl
@[simp] theorem State.append_leadRep32 (s : State) (bs : List Bool) : (s.append bs).leadRep32 = s.leadRep32 := rfl
@[simp] theorem State.append_phase (s : State) (bs : List Bool) : (s.append bs).phase = s.phase := rfl
@[simp] theorem State.append_err (s : State) (bs : List Bool) : (s.append bs).err = s.err := rfl
@[simp] theorem State.append_errsub (s : State) (bs : List Bool) : (s.append bs).errsub = s.errsub := rfl
@[simp] theorem State.append_size (s : State) (bs : List Bool) : (s.append bs).size = s.size := rfl
@[simp] theorem State.append_count (s : State) (bs : List Bool) : (s.append bs).count = s.count := rfl
@[simp] theorem State.append_first (s : State) (bs : List Bool) : (s.append bs).first = s.first := rfl
@[simp] theorem State.append_prev (s : State) (bs : List Bool) : (s.append bs).prev = s.prev := rfl
@[simp] theorem State.append_clead (s : State) (bs : List Bool) : (s.append bs).clead = s.clead := rfl
@[simp] theorem State.append_ctrail (s : State) (bs : List Bool) : (s.append bs).ctrail = s.ctrail := rfl
@[simp] theorem State.append_index (s : State) (bs : List Bool) : (s.append bs).index = s.index := rfl
@[simp] theorem State.append_cur (s : State) (bs : List Bool) : (s.append bs).cur = s.cur := rfl
@[simp] theorem State.append_lastbs (s : State) (bs : List Bool) : (s.append bs).lastbs = s.lastbs := rfl
@[simp] theorem State.append_ring (s : State) (bs : List Bool) : (s.append bs).ring = s.ring := rfl
@[simp] theorem State.append_idx (s : State) (bs : List Bool) : (s.append bs).idx = s.idx := rfl
@[simp] theorem State.append_wbuf (s : State) (bs : List Bool) : (s.append bs).wbuf = memSetBits s.wbuf s.wpos bs := rfl
@[simp] theorem State.append_wpos (s : State) (bs : List Bool) : (s.append bs).wpos = s.wpos + bs.length := rfl
@[simp] theorem State.append_flushed (s : State) (bs : List Bool) : (s.append bs).flushed = s.flushed := rfl
@[simp] theorem State.append_rbuf (s : State) (bs : List Bool) : (s.append bs).rbuf = s.rbuf := rfl
@[simp] theorem State.append_len (s : State) (bs : List Bool) : (s.append bs).len = s.len := rfl
@[simp] theorem State.append_rpos (s : State) (bs : List Bool) : (s.append bs).rpos = s.rpos := rfl
@[simp] theorem State.append_pastEnd (s : State) (bs : List Bool) : (s.append bs).pastEnd = s.pastEnd := rfl
@[simp] theorem State.append_loaded (s : State) (bs : List Bool) : (s.append bs).loaded = s.loaded := rfl

/-! ### `advance` -/

@[simp] theorem State.advance_port (s : State) (n : Nat) : (s.advance n).port = s.port := rfl
@[simp] theorem State.advance_resp (s : State) (n : Nat) : (s.advance n).resp = s.resp := rfl
@[simp] theorem State.advance_wire (s : State) (n : Nat) : (s.advance n).wire = s.wire := rfl
@[simp] theorem State.advance_pend (s : State) (n : Nat) : (s.advance n).pend = s.pend := rfl
@[simp] theorem State.advance_codec (s : State) (n : Nat) : (s.advance n).codec = s.codec := rfl
@[simp] theorem State.advance_dir (s : State) (n : Nat) : (s.advance n).dir = s.dir := rfl
@[simp] theorem State.advance_logw (s : State) (n : Nat) : (s.advance n).logw = s.logw := rfl
@[simp] theorem State.advance_capw (s : State) (n : Nat) : (s.advance n).capw = s.capw := rfl
@[simp] theorem State.advance_eps (s : State) (n : Nat) : (s.advance n).eps = s.eps := rfl
@[simp] theorem State.advance_nval (s : State) (n : Nat) : (s.advance n).nval = s.nval := rfl
@[simp] theorem State.advance_leadRep64 (s : State) (n : Nat) : (s.advance n).leadRep64 = s.leadRep64 := rfl
@[simp] theorem State.advance_leadRep32 (s : State) (n : Nat) : (s.advance n).leadRep32 = s.leadRep32 := rfl
@[simp] theorem State.advance_phase (s : State) (n : Nat) : (s.advance n).phase = s.phase := rfl
@[simp] theorem State.advance_err (s : State) (n : Nat) : (s.advance n).err = s.err := rfl
@[simp] theorem State.advance_errsub (s : State) (n : Nat) : (s.advance n).errsub = s.errsub := rfl
@[simp] theorem State.advance_size (s : State) (n : Nat) : (s.advance n).size = s.size := rfl
@[simp] theorem State.advance_count (s : State) (n : Nat) : (s.advance n).count = s.count := rfl
@[simp] theorem State.advance_first (s : State) (n : Nat) : (s.advance n).first = s.first := rfl
@[simp] theorem State.advance_prev (s : State) (n : Nat) : (s.advance n).prev = s.prev := rfl
@[simp] theorem State.advance_clead (s : State) (n : Nat) : (s.advance n).clead = s.clead := rfl
@[simp] theorem State.advance_ctrail (s : State) (n : Nat) : (s.advance n).ctrail = s.ctrail := rfl
@[simp] theorem State.advance_index (s : State) (n : Nat) : (s.advance n).index = s.index := rfl
@[simp] theorem State.advance_cur (s : State) (n : Nat) : (s.advance n).cur = s.cur := rfl
@[simp] theorem State.advance_lastbs (s : State) (n : Nat) : (s.advance n).lastbs = s.lastbs := rfl
@[simp] theorem State.advance_ring (s : State) (n : Nat) : (s.advance n).ring = s.ring := rfl
@[simp] theorem State.advance_idx (s : State) (n : Nat) : (s.advance n).idx = s.idx := rfl
@[simp] theorem State.advance_wbuf (s : State) (n : Nat) : (s.advance n).wbuf = s.wbuf := rfl
@[simp] theorem State.advance_wpos (s : State) (n : Nat) : (s.advance n).wpos = s.wpos := rfl
@[simp] theorem State.advance_flushed (s : State) (n : Nat) : (s.advance n).flushed = s.flushed := rfl
@[simp] theorem State.advance_rbuf (s : State) (n : Nat) : (s.advance n).rbuf = s.rbuf := rfl
@[simp] theorem State.advance_len (s : State) (n : Nat) : (s.advance n).len = s.len := rfl
@[simp] theorem State.advance_rpos (s : State) (n : Nat) : (s.advance n).rpos = s.rpos + n := rfl
@[simp] theorem State.advance_pastEnd (s : State) (n : Nat) : (s.advance n).pastEnd = pastEndAt s (s.rpos + n) := rfl
@[simp] theorem State.advance_loaded (s : State) (n : Nat) : (s.advance n).loaded = s.loaded := rfl

/-! ### `loadBytes` -/

@[simp] theorem State.loadBytes_port (s : State) (bs : List Byte) : (s.loadBytes bs).port = s.port := rfl
@[simp] theorem State.loadBytes_resp (s : State) (bs : List Byte) : (s.loadBytes bs).resp = s.resp := rfl
@[simp] theorem State.loadBytes_wire (s : State) (bs : List Byte) : (s.loadBytes bs).wire = s.wire := rfl
@[simp] theorem State.loadBytes_pend (s : State) (bs : List Byte) : (s.loadBytes bs).pend = s.pend := rfl
@[simp] theorem State.loadBytes_codec (s : State) (bs : List Byte) : (s.loadBytes bs).codec = s.codec := rfl
@[simp] theorem State.loadBytes_dir (s : State) (bs : List Byte) : (s.loadBytes bs).dir = s.dir := rfl
@[simp] theorem State.loadBytes_logw (s : State) (bs : List Byte) : (s.loadBytes bs).logw = s.logw := rfl
@[simp] theorem State.loadBytes_capw (s : State) (bs : List Byte) : (s.loadBytes bs).capw = s.capw := rfl
@[simp] theorem State.loadBytes_eps (s : State) (bs : List Byte) : (s.loadBytes bs).eps = s.eps := rfl
@[simp] theorem State.loadBytes_nval (s : State) (bs : List Byte) : (s.loadBytes bs).nval = s.nval := rfl
@[simp] theorem State.loadBytes_leadRep64 (s : State) (bs : List Byte) : (s.loadBytes bs).leadRep64 = s.leadRep64 := rfl
@[simp] theorem State.loadBytes_leadRep32 (s : State) (bs : List Byte) : (s.loadBytes bs).leadRep32 = s.leadRep32 := rfl
@[simp] theorem State.loadBytes_phase (s : State) (bs : List Byte) : (s.loadBytes bs).phase = s.phase := rfl
@[simp] theorem State.loadBytes_err (s : State) (bs : List Byte) : (s.loadBytes bs).err = s.err := rfl
@[simp] theorem State.loadBytes_errsub (s : State) (bs : List Byte) : (s.loadBytes bs).errsub = s.errsub := rfl
@[simp] theorem State.loadBytes_size (s : State) (bs : List Byte) : (s.loadBytes bs).size = s.size := rfl
@[simp] theorem State.loadBytes_count (s : State) (bs : List Byte) : (s.loadBytes bs).count = s.count := rfl
@[simp] theorem State.loadBytes_first (s : State) (bs : List Byte) : (s.loadBytes bs).first = s.first := rfl
@[simp] theorem State.loadBytes_prev (s : State) (bs : List Byte) : (s.loadBytes bs).prev = s.prev := rfl
@[simp] theorem State.loadBytes_clead (s : State) (bs : List Byte) : (s.loadBytes bs).clead = s.clead := rfl
@[simp] theorem State.loadBytes_ctrail (s : State) (bs : List Byte) : (s.loadBytes bs).ctrail = s.ctrail := rfl
@[simp] theorem State.loadBytes_index (s : State) (bs : List Byte) : (s.loadBytes bs).index = s.index := rfl
@[simp] theorem State.loadBytes_cur (s : State) (bs : List Byte) : (s.loadBytes bs).cur = s.cur := rfl
@[simp] theorem State.loadBytes_lastbs (s : State) (bs : List Byte) : (s.loadBytes bs).lastbs = s.lastbs := rfl
@[simp] theorem State.loadBytes_ring (s : State) (bs : List Byte) : (s.loadBytes bs).ring = s.ring := rfl
@[simp] theorem State.loadBytes_idx (s : State) (bs : List Byte) : (s.loadBytes bs).idx = s.idx := rfl
@[simp] theorem State.loadBytes_wbuf (s : State) (bs : List Byte) : (s.loadBytes bs).wbuf = s.wbuf := rfl
@[simp] theorem State.loadBytes_wpos (s : State) (bs : List Byte) : (s.loadBytes bs).wpos = s.wpos := rfl
@[simp] theorem State.loadBytes_flushed (s : State) (bs : List Byte) : (s.loadBytes bs).flushed = s.flushed := rfl
@[simp] theorem State.loadBytes_rbuf (s : State) (bs : List Byte) : (s.loadBytes bs).rbuf = memOfBytes 0 bs := rfl
@[simp] theorem State.loadBytes_len (s : State) (bs : List Byte) : (s.loadBytes bs).len = bs.length := rfl
@[simp] theorem State.loadBytes_rpos (s : State) (bs : List Byte) : (s.loadBytes bs).rpos = 0 := rfl
@[simp] theorem State.loadBytes_pastEnd (s : State) (bs : List Byte) : (s.loadBytes bs).pastEnd = false := rfl
@[simp] theorem State.loadBytes_loaded (s : State) (bs : List Byte) : (s.loadBytes bs).loaded = true := rfl

/-! ### `put` -/

@[simp] theorem State.put_port (s : State) (bs : List Bool) : (s.put bs).port = s.port := rfl
@[simp] theorem State.put_resp (s : State) (bs : List Bool) : (s.put bs).resp = s.resp := rfl
@[simp] theorem State.put_wire (s : State) (bs : List Bool) : (s.put bs).wire = s.wire := rfl
@[simp] theorem State.put_pend (s : State) (bs : List Bool) : (s.put bs).pend = s.pend := rfl
@[simp] theorem State.put_codec (s : State) (bs : List Bool) : (s.put bs).codec = s.codec := rfl
@[simp] theorem State.put_dir (s : State) (bs : List Bool) : (s.put bs).dir = s.dir := rfl
@[simp] theorem State.put_logw (s : State) (bs : List Bool) : (s.put bs).logw = s.logw := rfl
@[simp] theorem State.put_capw (s : State) (bs : List Bool) : (s.put bs).capw = s.capw := rfl
@[simp] theorem State.put_eps (s : State) (bs : List Bool) : (s.put bs).eps = s.eps := rfl
@[simp] theorem State.put_nval (s : State) (bs : List Bool) : (s.put bs).nval = s.nval := rfl
@[simp] theorem State.put_leadRep64 (s : State) (bs : List Bool) : (s.put bs).leadRep64 = s.leadRep64 := rfl
@[simp] theorem State.put_leadRep32 (s : State) (bs : List Bool) : (s.put bs).leadRep32 = s.leadRep32 := rfl
@[simp] theorem State.put_phase (s : State) (bs : List Bool) : (s.put bs).phase = s.phase := rfl
@[simp] theorem State.put_err (s : State) (bs : List Bool) : (s.put bs).err = s.err := rfl
@[simp] theorem State.put_errsub (s : State) (bs : List Bool) : (s.put bs).errsub = s.errsub := rfl
@[simp] theorem State.put_size (s : State) (bs : List Bool) : (s.put bs).size = s.size + bs.length := rfl
@[simp] theorem State.put_count (s : State) (bs : List Bool) : (s.put bs).count = s.count := rfl
@[simp] theorem State.put_first (s : State) (bs : List Bool) : (s.put bs).first = s.first := rfl
@[simp] theorem State.put_prev (s : State) (bs : List Bool) : (s.put bs).prev = s.prev := rfl
@[simp] theorem State.put_clead (s : State) (bs : List Bool) : (s.put bs).clead = s.clead := rfl
@[simp] theorem State.put_ctrail (s : State) (bs : List Bool) : (s.put bs).ctrail = s.ctrail := rfl
@[simp] theorem State.put_index (s : State) (bs : List Bool) : (s.put bs).index = s.index := rfl
@[simp] theorem State.put_cur (s : State) (bs : List Bool) : (s.put bs).cur = s.cur := rfl
@[simp] theorem State.put_lastbs (s : State) (bs : List Bool) : (s.put bs).lastbs = s.lastbs := rfl
@[simp] theorem State.put_ring (s : State) (bs : List Bool) : (s.put bs).ring = s.ring := rfl
@[simp] theorem State.put_idx (s : State) (bs : List Bool) : (s.put bs).idx = s.idx := rfl
@[simp] theorem State.put_wbuf (s : State) (bs : List Bool) : (s.put bs).wbuf = memSetBits s.wbuf s.wpos bs := rfl
@[simp] theorem State.put_wpos (s : State) (bs : List Bool) : (s.put bs).wpos = s.wpos + bs.length := rfl
@[simp] theorem State.put_flushed (s : State) (bs : List Bool) : (s.put bs).flushed = s.flushed := rfl
@[simp] theorem State.put_rbuf (s : State) (bs : List Bool) : (s.put bs).rbuf = s.rbuf := rfl
@[simp] theorem State.put_len (s : State) (bs : List Bool) : (s.put bs).len = s.len := rfl
@[simp] theorem State.put_rpos (s : State) (bs : List Bool) : (s.put bs).rpos = s.rpos := rfl
@[simp] theorem State.put_pastEnd (s : State) (bs : List Bool) : (s.put bs).pastEnd = s.pastEnd := rfl
@[simp] theorem State.put_loaded (s : State) (bs : List Bool) : (s.put bs).loaded = s.loaded := rfl

/-! ### `commitFirst` -/

@[simp] theorem State.commitFirst_port (s : State) (v : Raw) : (commitFirst v s).port = s.port := rfl
@[simp] theorem State.commitFirst_resp (s : State) (v : Raw) : (commitFirst v s).resp = s.resp := rfl
@[simp] theorem State.commitFirst_wire (s : State) (v : Raw) : (commitFirst v s).wire = s.wire := rfl
@[simp] theorem State.commitFirst_pend (s : State) (v : Raw) : (commitFirst v s).pend = s.pend := rfl
@[simp] theorem State.commitFirst_codec (s : State) (v : Raw) : (commitFirst v s).codec = s.codec := rfl
@[simp] theorem State.commitFirst_dir (s : State) (v : Raw) : (commitFirst v s).dir = s.dir := rfl
@[simp] theorem State.commitFirst_logw (s : State) (v : Raw) : (commitFirst v s).logw = s.logw := rfl
@[simp] theorem State.commitFirst_capw (s : State) (v : Raw) : (commitFirst v s).capw = s.capw := rfl
@[simp] theorem State.commitFirst_eps (s : State) (v : Raw) : (commitFirst v s).eps = s.eps := rfl
@[simp] theorem State.commitFirst_nval (s : State) (v : Raw) : (commitFirst v s).nval = s.nval := rfl
@[simp] theorem State.commitFirst_leadRep64 (s : State) (v : Raw) : (commitFirst v s).leadRep64 = s.leadRep64 := rfl
@[simp] theorem State.commitFirst_leadRep32 (s : State) (v : Raw) : (commitFirst v s).leadRep32 = s.leadRep32 := rfl
@[simp] theorem State.commitFirst_phase (s : State) (v : Raw) : (commitFirst v s).phase = s.phase := rfl
@[simp] theorem State.commitFirst_err (s : State) (v : Raw) : (commitFirst v s).err = s.err := rfl
@[simp] theorem State.commitFirst_errsub (s : State) (v : Raw) : (commitFirst v s).errsub = s.errsub := rfl
@[simp] theorem State.commitFirst_size (s : State) (v : Raw) : (commitFirst v s).size = s.size := rfl
@[simp] theorem State.commitFirst_count (s : State) (v : Raw) : (commitFirst v s).count = s.count := rfl
@[simp] theorem State.commitFirst_first (s : State) (v : Raw) : (commitFirst v s).first = s.first := rfl
@[simp] theorem State.commitFirst_prev (s : State) (v : Raw) : (commitFirst v s).prev = some v := rfl
@[simp] theorem State.commitFirst_clead (s : State) (v : Raw) : (commitFirst v s).clead = s.clead := rfl
@[simp] theorem State.commitFirst_ctrail (s : State) (v : Raw) : (commitFirst v s).ctrail = s.ctrail := rfl
@[simp] theorem State.commitFirst_index (s : State) (v : Raw) : (commitFirst v s).index = s.index := rfl
@[simp] theorem State.commitFirst_cur (s : State) (v : Raw) : (commitFirst v s).cur = 0 := rfl
@[simp] theorem State.commitFirst_lastbs (s : State) (v : Raw) : (commitFirst v s).lastbs = s.lastbs := rfl
@[simp] theorem State.commitFirst_ring (s : State) (v : Raw) : (commitFirst v s).ring = tableInsert s.ring 0 v := rfl
@[simp] theorem State.commitFirst_idx (s : State) (v : Raw) : (commitFirst v s).idx = s.idx := rfl
@[simp] theorem State.commitFirst_wbuf (s : State) (v : Raw) : (commitFirst v s).wbuf = s.wbuf := rfl
@[simp] theorem State.commitFirst_wpos (s : State) (v : Raw) : (commitFirst v s).wpos = s.wpos := rfl
@[simp] theorem State.commitFirst_flushed (s : State) (v : Raw) : (commitFirst v s).flushed = s.flushed := rfl
@[simp] theorem State.commitFirst_rbuf (s : State) (v : Raw) : (commitFirst v s).rbuf = s.rbuf := rfl
@[simp] theorem State.commitFirst_len (s : State) (v : Raw) : (commitFirst v s).len = s.len := rfl
@[simp] theorem State.commitFirst_rpos (s : State) (v : Raw) : (commitFirst v s).rpos = s.rpos := rfl
@[simp] theorem State.commitFirst_pastEnd (s : State) (v : Raw) : (commitFirst v s).pastEnd = s.pastEnd := rfl
@[simp] theorem State.commitFirst_loaded (s : State) (v : Raw) : (commitFirst v s).loaded = s.loaded := rfl

/-! ### `commitLater` -/

@[simp] theorem State.commitLater_port (s : State) (v : Raw) : (commitLater v s).port = s.port := rfl
@[simp] theorem State.commitLater_resp (s : State) (v : Raw) : (commitLater v s).resp = s.resp := rfl
@[simp] theorem State.commitLater_wire (s : State) (v : Raw) : (commitLater v s).wire = s.wire := rfl
@[simp] theorem State.commitLater_pend (s : State) (v : Raw) : (commitLater v s).pend = s.pend := rfl
@[simp] theorem State.commitLater_codec (s : State) (v : Raw) : (commitLater v s).codec = s.codec := rfl
@[simp] theorem State.commitLater_dir (s : State) (v : Raw) : (commitLater v s).dir = s.dir := rfl
@[simp] theorem State.commitLater_logw (s : State) (v : Raw) : (commitLater v s).logw = s.logw := rfl
@[simp] theorem State.commitLater_capw (s : State) (v : Raw) : (commitLater v s).capw = s.capw := rfl
@[simp] theorem State.commitLater_eps (s : State) (v : Raw) : (commitLater v s).eps = s.eps := rfl
@[simp] theorem State.commitLater_nval (s : State) (v : Raw) : (commitLater v s).nval = s.nval := rfl
@[simp] theorem State.commitLater_leadRep64 (s : State) (v : Raw) : (commitLater v s).leadRep64 = s.leadRep64 := rfl
@[simp] theorem State.commitLater_leadRep32 (s : State) (v : Raw) : (commitLater v s).leadRep32 = s.leadRep32 := rfl
@[simp] theorem State.commitLater_phase (s : State) (v : Raw) : (commitLater v s).phase = s.phase := rfl
@[simp] theorem State.commitLater_err (s : State) (v : Raw) : (commitLater v s).err = s.err := rfl
@[simp] theorem State.commitLater_errsub (s : State) (v : Raw) : (commitLater v s).errsub = s.errsub := rfl
@[simp] theorem State.commitLater_size (s : State) (v : Raw) : (commitLater v s).size = s.size := rfl
@[simp] theorem State.commitLater_count (s : State) (v : Raw) : (commitLater v s).count = s.count := rfl
@[simp] theorem State.commitLater_first (s : State) (v : Raw) : (commitLater v s).first = s.first := rfl
@[simp] theorem State.commitLater_prev (s : State) (v : Raw) : (commitLater v s).prev = some v := rfl
@[simp] theorem State.commitLater_clead (s : State) (v : Raw) : (commitLater v s).clead = s.clead := rfl
@[simp] theorem State.commitLater_ctrail (s : State) (v : Raw) : (commitLater v s).ctrail = s.ctrail := rfl
@[simp] theorem State.commitLater_index (s : State) (v : Raw) : (commitLater v s).index = s.index := rfl
@[simp] theorem State.commitLater_cur (s : State) (v : Raw) : (commitLater v s).cur = (s.cur + 1) % s.w := rfl
@[simp] theorem State.commitLater_lastbs (s : State) (v : Raw) : (commitLater v s).lastbs = s.lastbs := rfl
@[simp] theorem State.commitLater_ring (s : State) (v : Raw) : (commitLater v s).ring = tableInsert s.ring ((s.cur + 1) % s.w) v := rfl
@[simp] theorem State.commitLater_idx (s : State) (v : Raw) : (commitLater v s).idx = s.idx := rfl
@[simp] theorem State.commitLater_wbuf (s : State) (v : Raw) : (commitLater v s).wbuf = s.wbuf := rfl
@[simp] theorem State.commitLater_wpos (s : State) (v : Raw) : (commitLater v s).wpos = s.wpos := rfl
@[simp] theorem State.commitLater_flushed (s : State) (v : Raw) : (commitLater v s).flushed = s.flushed := rfl
@[simp] theorem State.commitLater_rbuf (s : State) (v : Raw) : (commitLater v s).rbuf = s.rbuf := rfl
@[simp] theorem State.commitLater_len (s : State) (v : Raw) : (commitLater v s).len = s.len := rfl
@[simp] theorem State.commitLater_rpos (s : State) (v : Raw) : (commitLater v s).rpos = s.rpos := rfl
@[simp] theorem State.commitLater_pastEnd (s : State) (v : Raw) : (commitLater v s).pastEnd = s.pastEnd := rfl
@[simp] theorem State.commitLater_loaded (s : State) (v : Raw) : (commitLater v s).loaded = s.loaded := rfl

/-! ### `chpInsert` -/

@[simp] theorem State.chpInsert_port (s : State) (v : Raw) : (chpInsert v s).port = s.port := rfl
@[simp] theorem State.chpInsert_resp (s : State) (v : Raw) : (chpInsert v s).resp = s.resp := rfl
@[simp] theorem State.chpInsert_wire (s : State) (v : Raw) : (chpInsert v s).wire = s.wire := rfl
@[simp] theorem State.chpInsert_pend (s : State) (v : Raw) : (chpInsert v s).pend = s.pend := rfl
@[simp] theorem State.chpInsert_codec (s : State) (v : Raw) : (chpInsert v s).codec = s.codec := rfl
@[simp] theorem State.chpInsert_dir (s : State) (v : Raw) : (chpInsert v s).dir = s.dir := rfl
@[simp] theorem State.chpInsert_logw (s : State) (v : Raw) : (chpInsert v s).logw = s.logw := rfl
@[simp] theorem State.chpInsert_capw (s : State) (v : Raw) : (chpInsert v s).capw = s.capw := rfl
@[simp] theorem State.chpInsert_eps (s : State) (v : Raw) : (chpInsert v s).eps = s.eps := rfl
@[simp] theorem State.chpInsert_nval (s : State) (v : Raw) : (chpInsert v s).nval = s.nval := rfl
@[simp] theorem State.chpInsert_leadRep64 (s : State) (v : Raw) : (chpInsert v s).leadRep64 = s.leadRep64 := rfl
@[simp] theorem State.chpInsert_leadRep32 (s : State) (v : Raw) : (chpInsert v s).leadRep32 = s.leadRep32 := rfl
@[simp] theorem State.chpInsert_phase (s : State) (v : Raw) : (chpInsert v s).phase = s.phase := rfl
@[simp] theorem State.chpInsert_err (s : State) (v : Raw) : (chpInsert v s).err = s.err := rfl
@[simp] theorem State.chpInsert_errsub (s : State) (v : Raw) : (chpInsert v s).errsub = s.errsub := rfl
@[simp] theorem State.chpInsert_size (s : State) (v : Raw) : (chpInsert v s).size = s.size := rfl
@[simp] theorem State.chpInsert_count (s : State) (v : Raw) : (chpInsert v s).count = s.count := rfl
@[simp] theorem State.chpInsert_first (s : State) (v : Raw) : (chpInsert v s).first = s.first := rfl
@[simp] theorem State.chpInsert_prev (s : State) (v : Raw) : (chpInsert v s).prev = s.prev := rfl
@[simp] theorem State.chpInsert_clead (s : State) (v : Raw) : (chpInsert v s).clead = s.clead := rfl
@[simp] theorem State.chpInsert_ctrail (s : State) (v : Raw) : (chpInsert v s).ctrail = s.ctrail := rfl
@[simp] theorem State.chpInsert_index (s : State) (v : Raw) : (chpInsert v s).index = s.index + 1 := rfl
@[simp] theorem State.chpInsert_cur (s : State) (v : Raw) : (chpInsert v s).cur = s.cur := rfl
@[simp] theorem State.chpInsert_lastbs (s : State) (v : Raw) : (chpInsert v s).lastbs = s.lastbs := rfl
@[simp] theorem State.chpInsert_ring (s : State) (v : Raw) : (chpInsert v s).ring = tableInsert s.ring ((s.index + 1) % s.w) v := rfl
@[simp] theorem State.chpInsert_idx (s : State) (v : Raw) : (chpInsert v s).idx = idxWrite s.idx (keyOf s.n s.logw v) (s.index + 1) := rfl
@[simp] theorem State.chpInsert_wbuf (s : State) (v : Raw) : (chpInsert v s).wbuf = s.wbuf := rfl
@[simp] theorem State.chpInsert_wpos (s : State) (v : Raw) : (chpInsert v s).wpos = s.wpos := rfl
@[simp] theorem State.chpInsert_flushed (s : State) (v : Raw) : (chpInsert v s).flushed = s.flushed := rfl
@[simp] theorem State.chpInsert_rbuf (s : State) (v : Raw) : (chpInsert v s).rbuf = s.rbuf := rfl
@[simp] theorem State.chpInsert_len (s : State) (v : Raw) : (chpInsert v s).len = s.len := rfl
@[simp] theorem State.chpInsert_rpos (s : State) (v : Raw) : (chpInsert v s).rpos = s.rpos := rfl
@[simp] theorem State.chpInsert_pastEnd (s : State) (v : Raw) : (chpInsert v s).pastEnd = s.pastEnd := rfl
@[simp] theorem State.chpInsert_loaded (s : State) (v : Raw) : (chpInsert v s).loaded = s.loaded := rfl

/-! ### Views of the updated states -/

@[simp] theorem State.answer_n (s : State) (r : Result) : (s.answer r).n = s.n := rfl
@[simp] theorem State.answer_w (s : State) (r : Result) : (s.answer r).w = s.w := rfl
@[simp] theorem State.answer_lenBits (s : State) (r : Result) : (s.answer r).lenBits = s.lenBits := rfl
@[simp] theorem State.answer_leadRep (s : State) (r : Result) : (s.answer r).leadRep = s.leadRep := rfl
@[simp] theorem State.usage_n (s : State) (sub : SubCause) : (s.usage sub).n = s.n := rfl
@[simp] theorem State.usage_w (s : State) (sub : SubCause) : (s.usage sub).w = s.w := rfl
@[simp] theorem State.usage_lenBits (s : State) (sub : SubCause) : (s.usage sub).lenBits = s.lenBits := rfl
@[simp] theorem State.usage_leadRep (s : State) (sub : SubCause) : (s.usage sub).leadRep = s.leadRep := rfl
@[simp] theorem State.append_n (s : State) (bs : List Bool) : (s.append bs).n = s.n := rfl
@[simp] theorem State.append_w (s : State) (bs : List Bool) : (s.append bs).w = s.w := rfl
@[simp] theorem State.append_lenBits (s : State) (bs : List Bool) : (s.append bs).lenBits = s.lenBits := rfl
@[simp] theorem State.append_leadRep (s : State) (bs : List Bool) : (s.append bs).leadRep = s.leadRep := rfl
@[simp] theorem State.advance_n (s : State) (k : Nat) : (s.advance k).n = s.n := rfl
@[simp] theorem State.advance_w (s : State) (k : Nat) : (s.advance k).w = s.w := rfl
@[simp] theorem State.advance_lenBits (s : State) (k : Nat) : (s.advance k).lenBits = s.lenBits := rfl
@[simp] theorem State.advance_leadRep (s : State) (k : Nat) : (s.advance k).leadRep = s.leadRep := rfl
@[simp] theorem State.put_n (s : State) (bs : List Bool) : (s.put bs).n = s.n := rfl
@[simp] theorem State.put_w (s : State) (bs : List Bool) : (s.put bs).w = s.w := rfl
@[simp] theorem State.put_lenBits (s : State) (bs : List Bool) : (s.put bs).lenBits = s.lenBits := rfl
@[simp] theorem State.put_leadRep (s : State) (bs : List Bool) : (s.put bs).leadRep = s.leadRep := rfl
@[simp] theorem State.commitFirst_n (s : State) (v : Raw) : (commitFirst v s).n = s.n := rfl
@[simp] theorem State.commitFirst_w (s : State) (v : Raw) : (commitFirst v s).w = s.w := rfl
@[simp] theorem State.commitFirst_lenBits (s : State) (v : Raw) : (commitFirst v s).lenBits = s.lenBits := rfl
@[simp] theorem State.commitFirst_leadRep (s : State) (v : Raw) : (commitFirst v s).leadRep = s.leadRep := rfl
@[simp] theorem State.commitLater_n (s : State) (v : Raw) : (commitLater v s).n = s.n := rfl
@[simp] theorem State.commitLater_w (s : State) (v : Raw) : (commitLater v s).w = s.w := rfl
@[simp] theorem State.commitLater_lenBits (s : State) (v : Raw) : (commitLater v s).lenBits = s.lenBits := rfl
@[simp] theorem State.commitLater_leadRep (s : State) (v : Raw) : (commitLater v s).leadRep = s.leadRep := rfl
@[simp] theorem State.chpInsert_n (s : State) (v : Raw) : (chpInsert v s).n = s.n := rfl
@[simp] theorem State.chpInsert_w (s : State) (v : Raw) : (chpInsert v s).w = s.w := rfl
@[simp] theorem State.chpInsert_lenBits (s : State) (v : Raw) : (chpInsert v s).lenBits = s.lenBits := rfl
@[simp] theorem State.chpInsert_leadRep (s : State) (v : Raw) : (chpInsert v s).leadRep = s.leadRep := rfl

end Machine
end Sys2Proof
end

