-- ==== Sys2Proof/Laws/Ops.lean ====
section
/-! SUPPORT. For each shared operation, once, everything it can do. -/

namespace Sys2Proof
namespace Machine

/-! ## Effects -/

@[simp] theorem Eff.bind_ok {α β : Type} (a : α) (s : State) (k : α → State → Eff β) : (Eff.ok a s).bind k = k a s := rfl
@[simp] theorem Eff.bind_raise {α β : Type} (c : FailCode) (b : SubCause) (s : State) (k : α → State → Eff β) :
    (Eff.raise c b s).bind k = .raise c b s := rfl
@[simp] theorem Eff.bind_stuck {α β : Type} (f : Fault) (k : α → State → Eff β) :
    (Eff.stuck f : Eff α).bind k = .stuck f := rfl

/-- Where a sequence goes on, both parts went on. -/
theorem Eff.bind_eq_ok {α β : Type} {e : Eff α} {k : α → State → Eff β} {b : β} {t : State} (h : e.bind k = .ok b t) :
    ∃ a u, e = .ok a u ∧ k a u = .ok b t := by
  cases e with
  | ok a u => exact ⟨a, u, rfl, h⟩
  | raise c d u => cases h
  | stuck f => cases h

@[simp] theorem Eff.outcome_ok {α : Type} (a : α) (s : State) (r : α → State → State) :
    (Eff.ok a s).outcome r = .next (r a s) := rfl
@[simp] theorem Eff.outcome_raise {α : Type} (c : FailCode) (b : SubCause) (s : State) (r : α → State → State) :
    (Eff.raise c b s).outcome r = .next (s.failEntry c b) := rfl
@[simp] theorem Eff.outcome_stuck {α : Type} (f : Fault) (r : α → State → State) :
    (Eff.stuck f : Eff α).outcome r = .fault f := rfl

/-- A command's next state comes from an effect that went on, or from one that raised a failure. -/
theorem Eff.outcome_next {α : Type} {e : Eff α} {r : α → State → State} {t : State} (h : e.outcome r = .next t) :
    (∃ a u, e = .ok a u ∧ t = r a u) ∨ (∃ c b u, e = .raise c b u ∧ t = u.failEntry c b) := by
  cases e with
  | ok a u => left; simp at h; exact ⟨a, u, rfl, h.symm⟩
  | raise c b u => right; simp at h; exact ⟨c, b, u, rfl, h.symm⟩
  | stuck f => cases h

/-! ## The phase table -/

@[simp] theorem guarded_none (s : State) (k : State → Host.Outcome State Fault Refusal) : guarded none s k = k s := rfl
@[simp] theorem guarded_some (s : State) (sub : SubCause) (k : State → Host.Outcome State Fault Refusal) :
    guarded (some sub) s k = .next (s.usage sub) := rfl

/-- A guarded command that answers a next state was turned away, or ran. -/
theorem guarded_next {adm : Option SubCause} {s t : State} {k : State → Host.Outcome State Fault Refusal}
    (h : guarded adm s k = .next t) : (∃ sub, adm = some sub ∧ t = s.usage sub) ∨ (adm = none ∧ k s = .next t) := by
  cases adm with
  | none => right; exact ⟨rfl, h⟩
  | some sub => left; simp at h; exact ⟨sub, rfl, h.symm⟩

theorem admitDecoder_eq_none {s : State} : admitDecoder s = none ↔ s.phase ≠ .fault ∧ s.codec ≠ .bs ∧ s.dir = .dec := by
  unfold admitDecoder; cases hd : s.dir <;> by_cases h1 : s.phase = .fault <;> by_cases h2 : s.codec = .bs <;> simp [*]

theorem admitEncoder_eq_none {s : State} {c : SubCause} :
    admitEncoder c s = none ↔ s.phase ≠ .fault ∧ s.codec ≠ .bs ∧ s.dir = .enc ∧ s.phase ≠ .closed := by
  unfold admitEncoder; cases hd : s.dir <;> by_cases h1 : s.phase = .fault <;> by_cases h2 : s.codec = .bs <;>
    by_cases h3 : s.phase = .closed <;> simp [*]

theorem admitGetBytes_eq_none {s : State} :
    admitGetBytes s = none ↔ s.codec ≠ .bs ∧ s.dir = .enc ∧ s.phase = .closed := by
  unfold admitGetBytes; cases hd : s.dir <;> by_cases h1 : s.phase = .fault <;> by_cases h2 : s.codec = .bs <;>
    by_cases h3 : s.phase = .closed <;> simp_all

theorem admitGetSize_eq_none {s : State} : admitGetSize s = none ↔ s.phase ≠ .fault ∧ s.codec ≠ .bs ∧ s.dir = .enc := by
  unfold admitGetSize; cases hd : s.dir <;> by_cases h1 : s.phase = .fault <;> by_cases h2 : s.codec = .bs <;> simp [*]

theorem admitUnit_eq_none {s : State} {d : Dir} : admitUnit d s = none ↔ s.codec = .bs ∧ s.phase ≠ .fault ∧ s.dir = d := by
  unfold admitUnit; by_cases h0 : s.dir = d <;> by_cases h1 : s.phase = .fault <;> by_cases h2 : s.codec = .bs <;> simp [*]

/-- A wire code at its own place, before the end of the block, runs. -/
theorem onDecoder_run {codec : Codec} {place : State → Bool} {s : State} {k : State → Host.Outcome State Fault Refusal}
    (h1 : s.codec = codec) (h2 : codec ≠ .bs) (h3 : s.dir = .dec) (h4 : s.phase = .ready) (h5 : place s = true) :
    onDecoder codec place s k = k s := by
  have : admitDecoder s = none := admitDecoder_eq_none.mpr ⟨by simp [h4], by rw [h1]; exact h2, h3⟩
  simp [onDecoder, this, h1, h4, h5]

/-- What a wire code can answer: the phase table's row, END, BadCommand, or its own effect at its own place. -/
theorem onDecoder_next {codec : Codec} {place : State → Bool} {s t : State} {k : State → Host.Outcome State Fault Refusal}
    (h : onDecoder codec place s k = .next t) :
    (∃ sub, t = s.usage sub) ∨ t = s.answer .endOfBlock ∨
      (s.codec = codec ∧ s.codec ≠ .bs ∧ s.dir = .dec ∧ s.phase ≠ .fault ∧ s.phase ≠ .done ∧ place s = true ∧ k s = .next t) := by
  rcases guarded_next h with ⟨sub, -, ht⟩ | ⟨hn, hk⟩
  · exact .inl ⟨sub, ht⟩
  · obtain ⟨n1, n2, n3⟩ := admitDecoder_eq_none.mp hn
    split at hk
    · right; left; simpa using hk.symm
    · split at hk
      · rename_i hp hc; right; right; exact ⟨hc.1, n2, n3, n1, hp, hc.2, hk⟩
      · left; exact ⟨.badCommand, by simpa using hk.symm⟩

/-! ## The writer -/

theorem memSetBits_append (a b : List Bool) (m : Memory) (p : Nat) :
    memSetBits m p (a ++ b) = memSetBits (memSetBits m p a) (p + a.length) b := by
  induction a generalizing m p with
  | nil => simp [memSetBits]
  | cons x r ih => simp only [List.cons_append, memSetBits, ih, List.length_cons]; congr 1; omega

/-- Appending twice is appending once (rule R131: bits are appended in order). -/
theorem State.append_append (s : State) (a b : List Bool) : (s.append a).append b = s.append (a ++ b) := by
  simp [State.append, memSetBits_append, Nat.add_assoc]

@[simp] theorem State.append_nil (s : State) : s.append [] = s := rfl

@[simp] theorem State.stream_length (s : State) : s.stream.length = s.wpos := by simp [State.stream]

/-- An append puts its bits behind the stream and changes nothing of it. -/
theorem State.stream_append (s : State) (bs : List Bool) (h : memWf s.wbuf) : (s.append bs).stream = s.stream ++ bs := by
  apply List.ext_getElem
  · simp
  · intro i h1 h2
    simp only [State.stream, State.append, List.getElem_map, List.getElem_range, memBit_memSetBits _ _ _ _ h]
    simp only [State.stream_length, State.append] at h1
    by_cases hi : i < s.wpos
    · rw [if_neg (by omega), List.getElem_append_left (by simpa using hi)]; simp
    · rw [if_pos (by omega), List.getElem_append_right (by simpa using Nat.le_of_not_lt hi)]
      simp only [List.length_map, List.length_range, List.getD_eq_getElem?_getD]
      rw [List.getElem?_eq_getElem (by omega)]; rfl

@[simp] theorem lowBits_toNat (n : Nat) (v : Raw) : (lowBits n v).toNat = v.toNat % 2 ^ n := by
  have h := v.isLt
  have := Nat.mod_le v.toNat (2 ^ n)
  simp only [lowBits, BitVec.toNat_ofNat]
  exact Nat.mod_eq_of_lt (by omega)

/-- `WRITE` goes on exactly where its three tests pass, and appends its field (rule R131). -/
theorem bswWrite_eq (c : Raw) (n : Nat) (s : State) :
    bswWrite c n s =
      if s.flushed then .raise .usageError .writeAfterFlush s
      else if 32 < n then .raise .usageError .badLength s
      else if 32 * s.capw < s.wpos + n then .raise .capacityExceeded .wbuf s
      else .ok n (s.append (bitsOf n c.toNat)) := rfl

/-- `WRITELONG` is one append of its field, in one part or two (rule R132, net effect; tests as rule R298 orders them). -/
theorem bswWriteLong_eq (c : Raw) (n : Nat) (s : State) :
    bswWriteLong c n s =
      if s.flushed then .raise .usageError .writeAfterFlush s
      else if 64 < n then .raise .usageError .badLength s
      else if 32 * s.capw < s.wpos + n then .raise .capacityExceeded .wbuf s
      else .ok n (s.append (bitsOf n c.toNat)) := by
  unfold bswWriteLong
  by_cases h3 : s.flushed
  · simp [h3]
  by_cases h1 : 64 < n
  · simp [h1, h3]
  by_cases h2 : n ≤ 32
  · have : ¬ 32 < n := by omega
    simp [h1, h2, h3, bswWrite_eq, this]
  by_cases h4 : 32 * s.capw < s.wpos + n
  · simp [h1, h2, h3, h4]
  have e1 : ¬ 32 < n - 32 := by omega
  have e2 : ¬ 32 * s.capw < s.wpos + (n - 32) := by omega
  have e3 : ¬ 32 * s.capw < s.wpos + (n - 32) + 32 := by omega
  have key : bitsOf (n - 32) (c.toNat >>> 32) ++ bitsOf 32 (lowBits 32 c).toNat = bitsOf n c.toNat := by
    obtain ⟨k, rfl⟩ : ∃ k, n = k + 32 := ⟨n - 32, by omega⟩
    rw [bitsOf_split, lowBits_toNat, bitsOf_mod, Nat.add_sub_cancel]
  simp only [h1, h2, h3, h4, if_false]
  rw [← key]
  simp [bswWrite_eq, h3, e1, e2, e3, State.append_append]

/-- An engine's write: one append, counted in SIZE (rule R30), or a failure with nothing written. -/
theorem emit_eq (c : Raw) (n : Nat) (s : State) :
    emit c n s =
      if s.flushed then .raise .usageError .writeAfterFlush s
      else if 32 < n then .raise .usageError .badLength s
      else if 32 * s.capw < s.wpos + n then .raise .capacityExceeded .wbuf s
      else .ok () { s.append (bitsOf n c.toNat) with size := s.size + n } := by
  unfold emit; rw [bswWrite_eq]; split_ifs <;> rfl

theorem emitLong_eq (c : Raw) (n : Nat) (s : State) :
    emitLong c n s =
      if s.flushed then .raise .usageError .writeAfterFlush s
      else if 64 < n then .raise .usageError .badLength s
      else if 32 * s.capw < s.wpos + n then .raise .capacityExceeded .wbuf s
      else .ok () { s.append (bitsOf n c.toNat) with size := s.size + n } := by
  unfold emitLong; rw [bswWriteLong_eq]; split_ifs <;> rfl

/-! ## The reader -/

@[simp] theorem State.ahead_length (s : State) (n : Nat) : (s.ahead n).length = n := by simp [State.ahead]

/-- Looking `a + b` bits ahead is looking `a` bits ahead and `b` bits from there. -/
theorem State.ahead_add (s : State) (a b : Nat) : s.ahead (a + b) = s.ahead a ++ (s.advance a).ahead b := by
  simp only [State.ahead, List.range_add, List.map_append, List.map_map]
  congr 1
  apply List.map_congr_left
  intro i _
  simp only [Function.comp, State.readerBit, State.lenBits, State.advance, Nat.add_assoc]
  rfl

theorem State.advance_advance (s : State) (a b : Nat) : (s.advance a).advance b = s.advance (a + b) := by
  simp only [State.advance, pastEndAt, State.lenBits, Nat.add_assoc]
  congr 1
  rw [Bool.or_assoc]
  congr 1
  by_cases h : 8 * s.len < s.rpos + a
  · have : 8 * s.len < s.rpos + (a + b) := by omega
    simp [h, this]
  · simp only [h, decide_false, Bool.false_or]; rfl

theorem bsrReadInt_eq (n : Nat) (s : State) :
    bsrReadInt n s =
      if 32 < n then .raise .usageError .badLength s else .ok (natOfBits (s.ahead n)) (s.advance n) := by
  unfold bsrReadInt bsrPeek bsrForward; by_cases h : 32 < n <;> simp [h]

/-- `READLONG` reads one field, in one part or two (rule R144, net effect). -/
theorem bsrReadLong_eq (n : Nat) (s : State) :
    bsrReadLong n s =
      if 64 < n then .raise .usageError .badLength s else .ok (natOfBits (s.ahead n)) (s.advance n) := by
  unfold bsrReadLong
  by_cases h1 : 64 < n
  · simp [h1]
  by_cases h2 : n ≤ 32
  · have : ¬ 32 < n := by omega
    simp [h1, h2, bsrReadInt_eq, this]
  · obtain ⟨k, rfl⟩ : ∃ k, n = k + 32 := ⟨n - 32, by omega⟩
    have e1 : ¬ 32 < k := by omega
    simp [h1, h2, bsrReadInt_eq, e1, State.advance_advance, State.ahead_add s k 32, natOfBits_append]

end Machine
end Sys2Proof
end

