-- ==== Sys2Proof/Laws/InvEncoder.lean ====
section
/-! SUPPORT. The invariant of Safety.lean through an encoder's commands: each ends in a next state that has it. -/

namespace Sys2Proof
namespace Machine

/-- The part of the invariant that holds inside a command too. -/
def invCore (s : State) : Prop :=
  invBuffers s ∧ invParams s ∧ invStatus s ∧ invWriter s ∧ invReader s ∧ invRanges s

theorem Inv.core {s : State} (h : Inv s) : invCore s := ⟨h.1, h.2.1, h.2.2.1, h.2.2.2.1, h.2.2.2.2.1, h.2.2.2.2.2.1⟩

theorem inv_usage {s : State} (sub : SubCause) (h : Inv s) : Inv (s.usage sub) := h
theorem inv_answer {s : State} (r : Result) (h : Inv s) : Inv (s.answer r) := h
theorem inv_port {s : State} (p : List Byte) (h : Inv s) : Inv { s with port := p } := h

/-- Entering FAULT keeps the invariant, where the failure is one its machine can raise. -/
theorem inv_failEntry {s : State} (c : FailCode) (sub : SubCause) (h : invCore s) (h0 : c ≠ .usageError)
    (h1 : c = .capacityExceeded → s.dir = .enc) (h2 : c = .corruptStream → s.dir = .dec ∧ s.codec ≠ .bs)
    (h3 : c = .domainError → s.dir = .enc ∧ isElf s.codec = true) : Inv (s.failEntry c sub) := by
  obtain ⟨a, b, ⟨c1, c2, c3, c4, c5, c6, c7, c8, c9⟩, ⟨d1, d2, d3, d4, d5, d6⟩, e, f⟩ := h
  have hE : s.failEntry c sub =
      { s with err := some c, errsub := some sub, phase := .fault, resp := some (.fail c sub), pend := none } := by
    cases c <;> first | rfl | exact absurd rfl h0
  rw [hE]
  refine ⟨a, b, ⟨by simp, by simp, by simp, by simp, by simp, by simp [h0], by simpa using h1, by simpa using h2, by simpa using h3⟩,
    ⟨d1, d2, by simp, by simp, d5, d6⟩, e, f, by simp [invDecoder], by simp [invEncoder], by simp [invPending]⟩

/-! ## Appending -/

theorem mem_memSetBits (bs : List Bool) (m : Memory) (p : Nat) (h : ∀ c ∈ m, 8 * c.1 < p) :
    ∀ c ∈ memSetBits m p bs, 8 * c.1 < p + bs.length := by
  induction bs generalizing m p with
  | nil => simpa [memSetBits] using h
  | cons b r ih =>
    have : ∀ c ∈ memSetBit m p b, 8 * c.1 < p + 1 := by
      intro c hc
      unfold memSetBit memWrite at hc
      split at hc
      · have := h c (mem_tableErase hc); omega
      · rcases mem_tableInsert hc with rfl | hc
        · simp only; omega
        · have := h c hc; omega
    intro c hc
    have := ih _ _ this c hc
    simp only [List.length_cons]; omega

/-- A codec encoder inside a command. -/
def encCore (s : State) : Prop := invCore s ∧ s.dir = .enc ∧ s.phase = .opened ∧ s.codec ≠ .bs

theorem encCore.flushed {s : State} (h : encCore s) : s.flushed = false := (h.1.2.2.2.1.2.2.1 h.2.2.2 h.2.2.1).1

theorem encCore.put {s : State} (h : encCore s) (bs : List Bool) (hr : s.wpos + bs.length ≤ 32 * s.capw) :
    encCore (s.put bs) := by
  obtain ⟨⟨⟨a1, a2, a3, a4, a5, a6, a7⟩, b, c, ⟨d1, d2, d3, d4, d5, d6⟩, e, f⟩, g1, g2, g3⟩ := h
  have d3' := d3 g3 g2
  refine ⟨⟨⟨memSetBits_wf _ _ _ a1, a2, a3, a4, a5, mem_memSetBits bs s.wbuf s.wpos a6, a7⟩, b, c, ⟨hr, ?_, ?_, ?_, ?_, ?_⟩, e, f⟩, g1, g2, g3⟩
  · intro hf; exact absurd hf (by simp [State.put, d3'.1])
  · intro _ _; exact ⟨d3'.1, by simp [State.put, d3'.2]⟩
  · intro _ hp; rw [show (s.put bs).phase = s.phase from rfl, g2] at hp; cases hp
  · intro hb; exact absurd hb g3
  · intro hd; rw [show (s.put bs).dir = s.dir from rfl, g1] at hd; cases hd

/-- What a part of an encoder's command may do: go on with `Q`, or raise one of the encoder's failures. -/
def EncSound {α : Type} (Q : α → State → Prop) (e : Eff α) : Prop :=
  match e with
  | .ok a t => Q a t
  | .raise c _ t => invCore t ∧ t.dir = .enc ∧ (c = .capacityExceeded ∨ (c = .domainError ∧ isElf t.codec = true))
  | .stuck _ => False

theorem EncSound.bind {α β : Type} {P : α → State → Prop} {Q : β → State → Prop} {e : Eff α} {k : α → State → Eff β}
    (h : EncSound P e) (hk : ∀ a t, P a t → EncSound Q (k a t)) : EncSound Q (e.bind k) := by
  cases e with
  | ok a t => exact hk a t h
  | raise c b t => exact h
  | stuck f => exact h

theorem emit_sound {s : State} (h : encCore s) (c : Raw) (n : Nat) (hn : n ≤ 32) :
    EncSound (fun _ t => t = s.put (bitsOf n c.toNat) ∧ encCore t) (emit c n s) := by
  have hf := h.flushed
  rw [emit_eq, if_neg (by simp [hf]), if_neg (by omega)]
  split
  · exact ⟨h.1, h.2.1, .inl rfl⟩
  · have : s.put (bitsOf n c.toNat) = { s.append (bitsOf n c.toNat) with size := s.size + n } := by simp [State.put]
    exact ⟨this.symm, this ▸ h.put _ (by simp; omega)⟩

theorem emitLong_sound {s : State} (h : encCore s) (c : Raw) (n : Nat) (hn : n ≤ 64) :
    EncSound (fun _ t => t = s.put (bitsOf n c.toNat) ∧ encCore t) (emitLong c n s) := by
  have hf := h.flushed
  rw [emitLong_eq, if_neg (by simp [hf]), if_neg (by omega)]
  split
  · exact ⟨h.1, h.2.1, .inl rfl⟩
  · have : s.put (bitsOf n c.toNat) = { s.append (bitsOf n c.toNat) with size := s.size + n } := by simp [State.put]
    exact ⟨this.symm, this ▸ h.put _ (by simp; omega)⟩

theorem emitField_sound {s : State} (h : encCore s) (c : Raw) (n : Nat) (hn : n ≤ 64) :
    EncSound (fun _ t => t = s.put (bitsOf n c.toNat) ∧ encCore t) (emitField c n s) := by
  unfold emitField; split
  · exact emitLong_sound h c n hn
  · exact emit_sound h c n (by omega)

theorem State.put_put (s : State) (a b : List Bool) : (s.put a).put b = s.put (a ++ b) := by
  simp [State.put, memSetBits_append, Nat.add_assoc]

/-! ## GOR encoder -/

theorem EncSound.mono {α : Type} {P Q : α → State → Prop} {e : Eff α} (h : EncSound P e) (hk : ∀ a t, P a t → Q a t) :
    EncSound Q e := by
  cases e with
  | ok a t => exact hk a t h
  | raise c b t => exact h
  | stuck f => exact h

/-- what an encoder is left as after an accepted value -/
def encDone (s : State) : Prop := encCore s ∧ invEncoder s

theorem encDone.inv {s : State} (h : encDone s) : Inv s :=
  ⟨h.1.1.1, h.1.1.2.1, h.1.1.2.2.1, h.1.1.2.2.2.1, h.1.1.2.2.2.2.1, h.1.1.2.2.2.2.2,
    (fun hd => by rw [h.1.2.1] at hd; cases hd), h.2, fun hp => absurd (h.2 h.1.2.1 h.1.2.2.1 h.1.2.2.2).1 hp⟩

theorem encCore.setClead {s : State} (h : encCore s) (l : Option Nat) (t : Nat)
    (h1 : s.codec = .gor → ∀ k, l = some k → k ≤ 31 ∧ k + t ≤ 63)
    (h2 : hasRing s.codec = true → ∀ k, l = some k → k ∈ s.leadRep) : encCore { s with clead := l, ctrail := t } := by
  obtain ⟨⟨a, b, c, d, e, ⟨f1, f2, f3, f4, f5, f6, f7⟩⟩, g1, g2, g3⟩ := h
  exact ⟨⟨a, b, c, d, e, ⟨f1, f2, f3, f4, h1, h2, f7⟩⟩, g1, g2, g3⟩

theorem gorLead_le (x : Raw) : gorLead x ≤ 31 ∧ gorLead x ≤ clz 64 x := by unfold gorLead; omega

/-- a GOR encoder with its first value behind it -/
def gorMid (t : State) : Prop := encCore t ∧ t.codec = .gor ∧ t.first = false ∧ t.pend = none

theorem gorMid.put {s : State} (h : gorMid s) {bs : List Bool} (hp : encCore (s.put bs)) : gorMid (s.put bs) :=
  ⟨hp, h.2.1, h.2.2.1, h.2.2.2⟩

theorem gorEncodeXor_sound {s : State} (h : gorMid s) (x : Raw) : EncSound (fun _ t => gorMid t) (gorEncodeXor x s) := by
  unfold gorEncodeXor
  split
  · exact (emit_sound h.1 0 1 (by omega)).mono (by rintro _ t ⟨rfl, ht⟩; exact h.put ht)
  rename_i hx
  have hz : clz 64 x + ctz 64 x < 64 := clz_add_ctz_lt 64 x x.isLt hx
  have hl := gorLead_le x
  split
  · unfold gorEncodeReuse
    refine (emit_sound h.1 1 1 (by omega)).bind ?_
    rintro _ t ⟨rfl, ht⟩
    have h' := h.put ht
    refine (emit_sound ht 0 1 (by omega)).bind ?_
    rintro _ t ⟨rfl, ht⟩
    have h' := h'.put ht
    exact (emitLong_sound ht _ _ (by omega)).mono (by rintro _ t ⟨rfl, ht⟩; exact h'.put ht)
  · unfold gorEncodeNew
    refine (emit_sound h.1 1 1 (by omega)).bind ?_
    rintro _ t ⟨rfl, ht⟩
    have h' := h.put ht
    refine (emit_sound ht 1 1 (by omega)).bind ?_
    rintro _ t ⟨rfl, ht⟩
    have h' := h'.put ht
    refine (emit_sound ht _ 5 (by omega)).bind ?_
    rintro _ t ⟨rfl, ht⟩
    have h' := h'.put ht
    refine (emit_sound ht _ 6 (by omega)).bind ?_
    rintro _ t ⟨rfl, ht⟩
    have h' := h'.put ht
    refine (emitLong_sound ht _ _ (by omega)).bind ?_
    rintro _ t ⟨rfl, ht⟩
    have h' := h'.put ht
    refine ⟨h'.1.setClead _ _ (fun _ k hk => ?_) (fun hr => ?_), h'.2⟩
    · cases hk; omega
    · rw [h'.2.1] at hr; cases hr

theorem gorEncode_sound {s : State} (h : encCore s) (hE : invEncoder s) (hg : s.codec = .gor) (v : Raw) :
    EncSound (fun _ t => encDone t) (gorEncode v s) := by
  have hE := hE h.2.1 h.2.2.1 h.2.2.2
  unfold gorEncode
  refine EncSound.bind (P := fun _ t => gorMid t) ?_ ?_
  · by_cases hf : s.first = true
    · rw [if_pos hf]
      refine EncSound.bind (emitLong_sound h v 64 (by omega)) ?_
      rintro _ t ⟨rfl, ht⟩
      exact ⟨ht, hg, rfl, hE.1⟩
    · rw [if_neg hf]
      have hf : s.first = false := by simpa using hf
      have hp := hE.2.2.1 hg hf
      cases hpr : s.prev with
      | none => exact absurd hpr hp
      | some p => exact gorEncodeXor_sound ⟨h, hg, hf, hE.1⟩ _
  · rintro _ t ⟨⟨⟨a, b, c, d, e, ⟨f1, f2, f3, f4, f5, f6, f7⟩⟩, g1, g2, g3⟩, h1, h2, h3⟩
    refine ⟨⟨⟨a, b, c, d, e, ⟨?_, f2, f3, f4, f5, f6, f7⟩⟩, g1, g2, g3⟩, fun _ _ _ => ⟨h3, ?_, ?_, ?_⟩⟩
    · intro p hp
      cases hp
      have : State.n t = 64 := by simp [State.n, h1, width]
      show v.toNat < 2 ^ State.n t
      rw [this]; exact v.isLt
    · intro hf; rw [show ({ t with prev := some v } : State).first = t.first from rfl, h2] at hf; cases hf
    · intro _ _; simp
    · intro hr; rw [show ({ t with prev := some v } : State).codec = t.codec from rfl, h1] at hr; cases hr

/-! ## CHP encoder -/

def chpLatest (s : State) : Prop :=
  (∀ slot, slot < s.w → slot ≤ s.index → s.ringAt slot ≠ none)
    ∧ ∃ r, s.ringAt (s.index % s.w) = some r ∧ idxRead s.idx (keyOf s.n s.logw r) = s.index

/-- an encoder with a ring, before or inside a record -/
def chpPre (s : State) : Prop :=
  encCore s ∧ hasRing s.codec = true ∧ s.pend = none
    ∧ (s.first = true → s.ring = [] ∧ s.idx = [] ∧ s.index = 0) ∧ (s.first = false → chpLatest s)

theorem chpPre.put {s : State} (h : chpPre s) {bs : List Bool} (hp : encCore (s.put bs)) : chpPre (s.put bs) :=
  ⟨hp, h.2.1, h.2.2.1, h.2.2.2.1, h.2.2.2.2⟩

theorem chpPre.setClead {s : State} (h : chpPre s) (l : Option Nat) (h2 : ∀ k, l = some k → k ∈ s.leadRep) :
    chpPre { s with clead := l } := by
  obtain ⟨h1, h⟩ := h
  refine ⟨h1.setClead l s.ctrail (fun hg => ?_) (fun _ => h2), h⟩
  rw [hg] at h; cases h.1

theorem chpPre.legal {s : State} (h : chpPre s) : legalLeadRep s.leadRep = true := h.1.1.2.1.2.2.2.2.2 h.2.1

theorem chpPre.n_le {s : State} : s.n ≤ 64 := by unfold State.n; rcases width_eq s.codec with h | h <;> omega

theorem chpPre.n_ge {s : State} : 32 ≤ s.n := by unfold State.n; rcases width_eq s.codec with h | h <;> omega

/-- what the writes inside a record keep -/
def same (s t : State) : Prop := t.first = s.first ∧ t.codec = s.codec ∧ t.logw = s.logw ∧ t.leadRep = s.leadRep

theorem emit_pre {s : State} (h : chpPre s) (c : Raw) (n : Nat) (hn : n ≤ 32) :
    EncSound (fun _ t => chpPre t ∧ same s t) (emit c n s) :=
  (emit_sound h.1 c n hn).mono (by rintro _ t ⟨rfl, ht⟩; exact ⟨h.put ht, rfl, rfl, rfl, rfl⟩)

theorem emitField_pre {s : State} (h : chpPre s) (c : Raw) (n : Nat) (hn : n ≤ 64) :
    EncSound (fun _ t => chpPre t ∧ same s t) (emitField c n s) :=
  (emitField_sound h.1 c n hn).mono (by rintro _ t ⟨rfl, ht⟩; exact ⟨h.put ht, rfl, rfl, rfl, rfl⟩)

theorem farSig_le (x : Raw) (t : Nat) (s : State) : farSig x t s ≤ 64 := by
  have := @chpPre.n_le s; unfold farSig; omega

/-- the record of a value behind the first -/
theorem chpEncodeChoice_sound {s : State} (h : chpPre s) (hf : s.first = false) (c : Choice) :
    EncSound (fun _ t => chpPre t ∧ t.first = false ∧ t.codec = s.codec) (chpEncodeChoice c s) := by
  have hl : s.logw ≤ 16 := h.1.1.2.1.1
  have hn := @chpPre.n_le s
  unfold chpEncodeChoice
  split
  · unfold chpEncodeRepeat
    refine (emit_pre h _ _ (by unfold flagZero; omega)).bind ?_
    rintro _ t ⟨ht, e⟩
    exact ⟨ht.setClead none (by simp), e.1.trans hf, e.2.1⟩
  split
  · unfold chpEncodeFar
    refine (emit_pre h _ _ (by unfold flagOne; split <;> omega)).bind ?_
    rintro _ t ⟨ht, e⟩
    refine (emitField_pre ht _ _ (farSig_le _ _ _)).bind ?_
    rintro _ u ⟨hu, e'⟩
    exact ⟨hu.setClead none (by simp), (e'.1.trans e.1).trans hf, e'.2.1.trans e.2.1⟩
  split
  · unfold chpEncodeReuse
    refine (emit_pre h _ _ (by omega)).bind ?_
    rintro _ t ⟨ht, e⟩
    refine (emitField_pre ht _ _ (by have := @chpPre.n_le t; omega)).mono ?_
    rintro _ u ⟨hu, e'⟩
    exact ⟨hu, (e'.1.trans e.1).trans hf, e'.2.1.trans e.2.1⟩
  · unfold chpEncodeNew
    have h' := h.setClead (some (repOf s.leadRep (clz s.n c.x))) (by rintro k hk; cases hk; exact repOf_mem h.legal _)
    refine (emit_pre h' _ _ (by omega)).bind ?_
    rintro _ t ⟨ht, e⟩
    refine (emitField_pre ht _ _ (by have := @chpPre.n_le t; omega)).mono ?_
    rintro _ u ⟨hu, e'⟩
    exact ⟨hu, (e'.1.trans e.1).trans hf, e'.2.1.trans e.2.1⟩

theorem w_pos (s : State) : 0 < s.w := by unfold State.w ringSize; positivity

/-- candidate selection never reads an unwritten slot -/
theorem choose_isSome {s : State} (h : chpPre s) (hf : s.first = false) (v : Raw) : choose v s ≠ none := by
  obtain ⟨hs, r, hr, -⟩ := h.2.2.2.2 hf
  have hprev : choosePrevious v s ≠ none := by unfold choosePrevious; rw [hr]; simp
  unfold choose
  split
  · have hci : idxRead s.idx (keyOf s.n s.logw v) ≤ s.index := by
      unfold idxRead
      cases hk : tableFind s.idx (keyOf s.n s.logw v) with
      | none => simp
      | some e => exact (h.1.1.2.2.2.2.2.2.2.2.1 _ (tableFind_mem hk)).2
    have h1 : idxRead s.idx (keyOf s.n s.logw v) % s.w ≤ s.index := Nat.le_trans (Nat.mod_le _ _) hci
    have h2 := hs _ (Nat.mod_lt _ (w_pos s)) h1
    cases hk : s.ringAt (idxRead s.idx (keyOf s.n s.logw v) % s.w) with
    | none => exact absurd hk h2
    | some e => simp only [Option.bind_some]; split <;> simp [hprev]
  · exact hprev

theorem keyOf_lt (n logw : Nat) (v : Raw) : keyOf n logw v < 2 ^ keyBits n logw := Nat.mod_lt _ (by positivity)

theorem chpInsert_done {s : State} (h : chpPre s) (hf : s.first = false) (v : Raw) (hv : v.toNat < 2 ^ s.n) :
    encDone (chpInsert v s) := by
  obtain ⟨⟨⟨⟨a1, a2, a3, a4, a5, a6, a7⟩, b, c, d, e, ⟨f1, f2, f3, f4, f5, f6, f7⟩⟩, g1, g2, g3⟩, h1, h2, -, h4⟩ := h
  obtain ⟨hs, r, hr, hi⟩ := h4 hf
  refine ⟨⟨⟨⟨a1, a2, tableInsert_sorted _ _ _ a3, idxWrite_sorted s.idx (keyOf s.n s.logw v) (s.index + 1) a4,
    idxWrite_ne_zero s.idx (keyOf s.n s.logw v) (s.index + 1) a5, a6, a7⟩, b, c, d, e,
    ⟨f1, ?_, f3, ?_, f5, f6, f7⟩⟩, g1, g2, g3⟩, fun _ _ _ => ⟨h2, ?_, ?_, ?_⟩⟩
  · intro x hx
    rcases mem_tableInsert hx with rfl | hx
    · exact ⟨Nat.mod_lt _ (w_pos s), hv⟩
    · exact f2 x hx
  · intro x hx
    show x.1 < 2 ^ keyBits s.n s.logw ∧ x.2 ≤ s.index + 1
    have hx : x ∈ idxWrite s.idx (keyOf s.n s.logw v) (s.index + 1) := hx
    unfold idxWrite at hx
    rw [if_neg (by omega)] at hx
    rcases mem_tableInsert hx with rfl | hx
    · exact ⟨keyOf_lt _ _ _, Nat.le_refl _⟩
    · have := f4 x hx; exact ⟨this.1, by omega⟩
  · intro h; rw [show (chpInsert v s).first = s.first from rfl, hf] at h; cases h
  · intro hg; rw [show (chpInsert v s).codec = s.codec from rfl] at hg; rw [hg] at h1; cases h1
  · intro _ _
    have hring : ∀ k, (chpInsert v s).ringAt k = if (s.index + 1) % s.w = k then some v else s.ringAt k :=
      fun k => tableFind_insert _ _ _ _
    refine ⟨fun slot hw hle => ?_, v, ?_, ?_⟩
    · rw [hring]
      split
      · simp
      · rename_i hne
        have hw : slot < s.w := hw
        have hle : slot ≤ s.index + 1 := hle
        refine hs slot hw ?_
        rcases Nat.lt_or_ge s.index slot with hlt | hge
        · have : slot = s.index + 1 := by omega
          exact absurd (by rw [← this, Nat.mod_eq_of_lt hw]) hne
        · exact hge
    · rw [hring]; exact if_pos rfl
    · exact (idxRead_idxWrite s.idx (keyOf s.n s.logw v) (s.index + 1) (keyOf s.n s.logw v) a4).trans (if_pos rfl)

theorem chpEncodeLit_done {s : State} (h : chpPre s) (hf : s.first = true) (v : Raw) (hv : v.toNat < 2 ^ s.n)  :
    EncSound (fun _ t => encDone t) (chpEncodeLit v s) := by
  unfold chpEncodeLit
  have hn := @chpPre.n_le s
  refine (emitField_pre h _ _ hn).bind ?_
  rintro _ t ⟨ht, e1, e2, e3, e4⟩
  have hnt : t.n = s.n := by unfold State.n; rw [e2]
  obtain ⟨hr, hi, h0⟩ := ht.2.2.2.1 (e1.trans hf)
  obtain ⟨⟨⟨⟨a1, a2, a3, a4, a5, a6, a7⟩, b, c, d, e, ⟨f1, f2, f3, f4, f5, f6, f7⟩⟩, g1, g2, g3⟩, h1, h2, -, h4⟩ := ht
  have hidx : idxWrite t.idx (keyOf t.n t.logw v) 0 = [] := by rw [hi]; rfl
  have hring : tableInsert t.ring 0 v = [(0, v)] := by rw [hr]; rfl
  have hidx' : ∀ x ∈ idxWrite t.idx (keyOf t.n t.logw v) 0, False := by rw [hidx]; simp
  refine ⟨⟨⟨⟨a1, a2, tableInsert_sorted _ _ _ a3, idxWrite_sorted t.idx (keyOf t.n t.logw v) 0 a4,
    fun x hx => (hidx' x hx).elim, a6, a7⟩, b, c, d, e,
    ⟨f1, ?_, f3, fun x hx => (hidx' x hx).elim, f5, f6, f7⟩⟩, g1, g2, g3⟩, fun _ _ _ => ⟨h2, ?_, ?_, ?_⟩⟩
  · intro x hx
    rcases mem_tableInsert hx with rfl | hx
    · exact ⟨w_pos t, show v.toNat < 2 ^ t.n by rw [hnt]; exact hv⟩
    · exact f2 x hx
  · intro h; cases h
  · intro hg; simp only at hg; rw [hg] at h1; cases h1
  · intro _ _
    have hat : ∀ k, tableFind (tableInsert t.ring 0 v) k = if 0 = k then some v else tableFind t.ring k :=
      fun k => tableFind_insert _ _ _ _
    refine ⟨fun slot hw hle => ?_, v, ?_, ?_⟩
    · have hle : slot ≤ 0 := hle
      have : slot = 0 := by omega
      subst this
      show tableFind (tableInsert t.ring 0 v) 0 ≠ none
      rw [hat]; simp
    · show tableFind (tableInsert t.ring 0 v) (0 % t.w) = some v
      rw [hat, Nat.zero_mod]; rfl
    · show idxRead (idxWrite t.idx (keyOf t.n t.logw v) 0) _ = 0
      rw [hidx]; rfl

theorem chpEncode_done {s : State} (h : chpPre s) (v : Raw) (hv : v.toNat < 2 ^ s.n) :
    EncSound (fun _ t => encDone t) (chpEncode v s) := by
  unfold chpEncode
  by_cases hf : s.first = true
  · rw [if_pos hf]; exact chpEncodeLit_done h hf v hv
  · rw [if_neg hf]
    have hf : s.first = false := by simpa using hf
    have := choose_isSome h hf v
    cases hc : choose v s with
    | none => exact absurd hc this
    | some c =>
      refine (chpEncodeChoice_sound h hf c).bind ?_
      rintro _ t ⟨ht, h1, h2⟩
      exact chpInsert_done ht h1 v (by unfold State.n at *; rw [h2]; exact hv)

/-! ## ELF encoder -/

theorem fits_clearLow {n k : Nat} {v : Raw} (h : v.toNat < 2 ^ n) : (clearLow k v).toNat < 2 ^ n := by
  unfold clearLow
  apply xor_lt _ _ _ h
  rw [lowBits_toNat]
  exact Nat.lt_of_le_of_lt (Nat.mod_le _ _) h

theorem trial_fits {n : Nat} {eps v : Raw} {b : Nat} {r : Raw} (h : trial n eps v b = some r) (hv : v.toNat < 2 ^ n) :
    r.toNat < 2 ^ n := by
  unfold trial at h
  split at h
  · cases h
  split at h
  · cases h
  split at h
  · cases h
  split at h
  · cases h
  split at h
  · cases h; exact fits_clearLow hv
  · cases h

theorem searchFrom_fits {n : Nat} {eps v : Raw} (hv : v.toNat < 2 ^ n) (f b : Nat) {b' : Nat} {r : Raw}
    (h : searchFrom n eps v b f = some (b', r)) : r.toNat < 2 ^ n ∧ b' < b + f := by
  induction f generalizing b with
  | zero => cases h
  | succ f ih =>
    unfold searchFrom at h
    split at h
    · rename_i ht; cases h; exact ⟨trial_fits ht hv, by omega⟩
    · have := ih (b + 1) h; exact ⟨this.1, by omega⟩

theorem search_fits {n : Nat} {eps v : Raw} (hv : v.toNat < 2 ^ n) {b' : Nat} {r : Raw}
    (h : search n eps v = some (b', r)) : r.toNat < 2 ^ n ∧ b' ≤ bMax n := by
  unfold search at h
  split at h
  · cases h
  · have := searchFrom_fits hv _ _ h; exact ⟨this.1, by omega⟩

theorem bsBits_le (n : Nat) : bsBits n ≤ 4 := by unfold bsBits; split <;> omega

theorem chpPre.setLast {s : State} (h : chpPre s) (b : Nat) (hb : b ≤ bMax s.n) : chpPre { s with lastbs := some b } := by
  obtain ⟨⟨⟨a, b', c, d, e, ⟨f1, f2, f3, f4, f5, f6, f7⟩⟩, g⟩, h⟩ := h
  exact ⟨⟨⟨a, b', c, d, e, ⟨f1, f2, f3, f4, f5, f6, by rintro x hx; cases hx; exact hb⟩⟩, g⟩, h⟩

theorem elfErasure_sound {s : State} (h : chpPre s) (found : Option Nat) (hb : ∀ b, found = some b → b ≤ bMax s.n) :
    EncSound (fun _ t => chpPre t ∧ t.codec = s.codec) (elfEncodeErasure found s) := by
  unfold elfEncodeErasure
  split
  · exact (emit_pre h _ _ (by omega)).mono (by rintro _ t ⟨ht, e⟩; exact ⟨ht, e.2.1⟩)
  · rename_i b
    split
    · exact (emit_pre h _ _ (by omega)).mono (by rintro _ t ⟨ht, e⟩; exact ⟨ht, e.2.1⟩)
    · refine (emit_pre h _ _ (by have := bsBits_le s.n; omega)).bind ?_
      rintro _ t ⟨ht, e⟩
      have : t.n = s.n := by unfold State.n; rw [e.2.1]
      exact ⟨ht.setLast b (by rw [this]; exact hb b rfl), e.2.1⟩

theorem elfEncode_done {s : State} (h : chpPre s) (he : isElf s.codec = true) (v : Raw) (hv : v.toNat < 2 ^ s.n) :
    EncSound (fun _ t => encDone t) (elfEncode v s) := by
  unfold elfEncode
  split
  · exact ⟨h.1.1, h.1.2.1, .inr ⟨rfl, he⟩⟩
  · unfold elfEncodeFinite
    split
    · refine (elfErasure_sound h none (by simp)).bind ?_
      rintro _ t ⟨ht, hc⟩
      exact chpEncode_done ht v (by unfold State.n at *; rw [hc]; exact hv)
    · rename_i b r hs
      have := search_fits hv hs
      refine (elfErasure_sound h (some b) (by rintro x hx; cases hx; exact this.2)).bind ?_
      rintro _ t ⟨ht, hc⟩
      exact chpEncode_done ht r (by unfold State.n at *; rw [hc]; exact this.1)

/-! ## ADDVALUE and CLOSE -/

theorem encCore_of_inv {s : State} (h : Inv s) (hd : s.dir = .enc) (hp : s.phase = .opened) (hc : s.codec ≠ .bs) : encCore s :=
  ⟨h.core, hd, hp, hc⟩

theorem chpPre_of_inv {s : State} (h : Inv s) (hd : s.dir = .enc) (hp : s.phase = .opened) (hr : hasRing s.codec = true) :
    chpPre s := by
  have hc : s.codec ≠ .bs := by rintro hc; rw [hc] at hr; cases hr
  have hE := h.2.2.2.2.2.2.2.1 hd hp hc
  exact ⟨encCore_of_inv h hd hp hc, hr, hE.1, fun hf => ⟨(hE.2.1 hf).2.1, (hE.2.1 hf).2.2.1, (hE.2.1 hf).2.2.2.1⟩, fun hf => hE.2.2.2 hr hf⟩

/-- an encoder is open, closed or failed -/
theorem Inv.opened {s : State} (h : Inv s) (hd : s.dir = .enc) (h1 : s.phase ≠ .fault) (h2 : s.phase ≠ .closed) : s.phase = .opened := by
  have := h.2.2.1.1 hd
  cases hp : s.phase <;> simp_all

theorem Inv.ready {s : State} (h : Inv s) (hd : s.dir = .dec) (h1 : s.phase ≠ .fault) (h2 : s.phase ≠ .done) : s.phase = .ready := by
  have := h.2.2.1.2.1 hd
  cases hp : s.phase <;> simp_all

theorem encodeValue_done {s : State} (h : Inv s) (hd : s.dir = .enc) (hp : s.phase = .opened) (hc : s.codec ≠ .bs) (v : Raw)
    (hv : v.toNat < 2 ^ s.n) : EncSound (fun _ t => encDone t) (encodeValue v s) := by
  unfold encodeValue
  cases hcc : s.codec with
  | gor => exact gorEncode_sound (encCore_of_inv h hd hp hc) h.2.2.2.2.2.2.2.1 hcc v
  | chp64 => exact chpEncode_done (chpPre_of_inv h hd hp (by rw [hcc]; rfl)) v hv
  | chp32 => exact chpEncode_done (chpPre_of_inv h hd hp (by rw [hcc]; rfl)) v hv
  | elf64 => exact elfEncode_done (chpPre_of_inv h hd hp (by rw [hcc]; rfl)) (by rw [hcc]; rfl) v hv
  | elf32 => exact elfEncode_done (chpPre_of_inv h hd hp (by rw [hcc]; rfl)) (by rw [hcc]; rfl) v hv
  | bs => exact absurd hcc hc

/-- an encoder's command ends in a state with the invariant -/
theorem EncSound.outcome {α : Type} {Q : α → State → Prop} {e : Eff α} {r : α → State → State} (h : EncSound Q e)
    (hr : ∀ a t, Q a t → Inv (r a t)) : ∃ t, e.outcome r = .next t ∧ Inv t := by
  cases e with
  | ok a t => exact ⟨_, rfl, hr a t h⟩
  | raise c b t =>
    obtain ⟨h1, h2, h3⟩ := h
    refine ⟨_, rfl, inv_failEntry c b h1 ?_ (fun _ => h2) ?_ ?_⟩
    · rcases h3 with rfl | ⟨rfl, -⟩ <;> simp
    · rcases h3 with rfl | ⟨rfl, -⟩ <;> simp
    · rcases h3 with rfl | ⟨rfl, h3⟩
      · simp
      · exact fun _ => ⟨h2, h3⟩
  | stuck f => exact h.elim

theorem addValue_inv {s : State} (h : Inv s) (v : BitVec 64) : ∃ t, execAddValue v s = .next t ∧ Inv t := by
  unfold execAddValue
  cases ha : admitEncoder .addAfterClose s with
  | some sub => exact ⟨_, rfl, inv_usage sub h⟩
  | none =>
    obtain ⟨h1, h2, h3, h4⟩ := admitEncoder_eq_none.mp ha
    have hp := h.opened h3 h1 h4
    refine (encodeValue_done h h3 hp h2 (lowBits s.n v) ?_).outcome (fun _ t ht => inv_answer _ ht.inv)
    rw [lowBits_toNat]; exact Nat.mod_lt _ (by positivity)

theorem encodeSentinel_done {s : State} (h : Inv s) (hd : s.dir = .enc) (hp : s.phase = .opened) (hc : s.codec ≠ .bs) :
    EncSound (fun _ t => encDone t) (encodeSentinel s) := by
  unfold encodeSentinel
  cases hcc : s.codec with
  | gor => exact gorEncode_sound (encCore_of_inv h hd hp hc) h.2.2.2.2.2.2.2.1 hcc _
  | chp64 => exact chpEncode_done (chpPre_of_inv h hd hp (by rw [hcc]; rfl)) _ (by unfold State.n; rw [hcc]; decide)
  | chp32 => exact chpEncode_done (chpPre_of_inv h hd hp (by rw [hcc]; rfl)) _ (by unfold State.n; rw [hcc]; decide)
  | elf64 => exact ⟨encCore_of_inv h hd hp hc, h.2.2.2.2.2.2.2.1⟩
  | elf32 => exact ⟨encCore_of_inv h hd hp hc, h.2.2.2.2.2.2.2.1⟩
  | bs => exact absurd hcc hc

theorem padding_length (w : Nat) : (padding w).length = (32 - w % 32) % 32 := by simp [padding]

theorem close_inv {s : State} (h : Inv s) : ∃ t, execClose s = .next t ∧ Inv t := by
  unfold execClose
  cases ha : admitEncoder .secondClose s with
  | some sub => exact ⟨_, rfl, inv_usage sub h⟩
  | none =>
    obtain ⟨h1, h2, h3, h4⟩ := admitEncoder_eq_none.mp ha
    have hp := h.opened h3 h1 h4
    refine (EncSound.bind (Q := fun _ t => Inv ({ t with phase := .closed }.answer .unit)) (encodeSentinel_done h h3 hp h2) ?_).outcome (fun _ t ht => ht)
    rintro _ t ⟨ht, hE⟩
    have hpe := (hE ht.2.1 ht.2.2.1 ht.2.2.2).1
    unfold bswFlush
    rw [ht.flushed]
    obtain ⟨⟨⟨a1, a2, a3, a4, a5, a6, a7⟩, b, ⟨c1, c2, c3, c4, c5, c6, c7, c8, c9⟩, ⟨d1, d2, d3, d4, d5, d6⟩, e, f⟩, g1, g2, g3⟩ := ht
    have hpl := padding_length t.wpos
    have d3 := d3 g3 g2
    refine ⟨⟨memSetBits_wf _ _ _ a1, a2, a3, a4, a5, mem_memSetBits _ _ _ a6, a7⟩, b,
      ⟨fun _ => by simp, fun hd => ?_, fun hb => absurd hb g3, ?_, c5, c6, c7, c8, c9⟩,
      ⟨?_, ?_, ?_, ?_, fun hb => absurd hb g3, fun hd => ?_⟩, e, f, fun hd => ?_, ?_, fun hx => absurd hpe hx⟩
    · rw [show State.dir _ = t.dir from rfl, g1] at hd; cases hd
    · simp; rw [g2] at c4; simpa using c4
    · show t.wpos + (padding t.wpos).length ≤ 32 * t.capw
      rw [hpl]; omega
    · intro _
      show (t.wpos + (padding t.wpos).length) % 32 = 0
      rw [hpl]; omega
    · intro _ hx; cases hx
    · intro _ _
      refine ⟨rfl, ?_⟩
      show t.wpos + (padding t.wpos).length = 32 * ((t.size + 31) / 32)
      rw [hpl, d3.2]; omega
    · rw [show State.dir _ = t.dir from rfl, g1] at hd; cases hd
    · rw [show State.dir _ = t.dir from rfl, g1] at hd; cases hd
    · intro _ hx; cases hx

end Machine
end Sys2Proof
end

