-- ==== Sys2Proof/Laws/Wire.lean ====
section
/-! SUPPORT. The shape of decoded wire codes. -/

namespace Sys2Proof
namespace Machine

theorem takeBits_shorter {n : Nat} {bs : List Bool} {v : Nat} {r : List Bool} (h : takeBits n bs = some (v, r)) :
    r.length + n = bs.length := by
  have := (takeBits_some h).1
  rw [this]; simp; omega

/-- The erasure codes of ELF (rule R103). -/
def isErasure : Instr → Bool
  | .elf64EraseSame | .elf64Raw | .elf64EraseNew _ | .elf32EraseSame | .elf32Raw | .elf32EraseNew _ => true
  | _ => false

/-- Every wire code has at least one bit (rule R272). -/
theorem decodeWire_shorter {c : WireCtx} {bs : List Bool} {q : Instr × List Bool} (h : decodeWire c bs = some q) :
    q.2.length < bs.length := by
  unfold decodeWire decodeGor decodeChp64 decodeChp32 decodeErase64 decodeErase32 decodeX64 decodeX32 decodeLit64 decodeLit32 at h
  repeat' split at h
  all_goals try simp only [Option.bind_eq_some_iff, Option.map_eq_some_iff] at h
  all_goals grind [→ takeBits_shorter]

/-- Behind an erasure code no erasure code is read. -/
theorem decodeWire_mid {c : WireCtx} {bs : List Bool} {q : Instr × List Bool} (h : decodeWire c bs = some q)
    (hm : c.mid = true) : isErasure q.1 = false := by
  unfold decodeWire decodeGor decodeChp64 decodeChp32 decodeX64 decodeX32 decodeLit64 decodeLit32 at h
  simp only [hm, if_true] at h
  repeat' split at h
  all_goals try simp only [Option.bind_eq_some_iff, Option.map_eq_some_iff] at h
  all_goals grind [isErasure]
end Machine
end Sys2Proof
end

