-- ==== Sys2Proof/Laws/InvDecoder.lean ====
section
/-! SUPPORT. The invariant of Safety.lean through wire codes, the other commands and DECOMPRESS, which terminates. -/

namespace Sys2Proof
namespace Machine

/-! ## Decoder -/

/-- a codec decoder with values to come, inside a command -/
def decCore (s : State) : Prop := invCore s ∧ s.dir = .dec ∧ s.phase = .ready ∧ s.codec ≠ .bs

def decRegs (s : State) : Prop :=
  s.first = false ∧ s.prev ≠ none ∧ (hasRing s.codec = true → s.ringAt s.cur = s.prev)
    ∧ (s.pend ≠ none → isElf s.codec = true) ∧ (s.pend = some true → s.lastbs ≠ none)

theorem decCore.fail {s : State} (h : decCore s) (sub : SubCause) : Inv (s.failEntry .corruptStream sub) :=
  inv_failEntry _ _ h.1 (by simp) (by simp) (fun _ => ⟨h.2.1, h.2.2.2⟩) (by simp)

theorem decCore.done {s : State} (h : decCore s) (hpe : s.pend = none) (r : Result) : Inv ({ s with phase := .done }.answer r) := by
  obtain ⟨⟨a, b, ⟨c1, c2, c3, c4, c5, c6, c7, c8, c9⟩, ⟨d1, d2, d3, d4, d5, d6⟩, e, f⟩, g1, g2, g3⟩ := h
  refine ⟨a, b, ⟨fun hd => ?_, fun _ => by simp, fun hb => absurd hb g3, ?_, c5, c6, c7, c8, c9⟩,
    ⟨d1, d2, (by intro _ hx; cases hx), (by intro _ hx; cases hx), d5, d6⟩, e, f, (by intro _ hx; cases hx), (by intro _ hx; cases hx), fun hx => absurd hpe hx⟩
  · rw [show State.dir _ = s.dir from rfl, g1] at hd; cases hd
  · rw [g2] at c4; simpa using c4

theorem decCore.inv {s : State} (h : decCore s) (hr : decRegs s) : Inv s :=
  ⟨h.1.1, h.1.2.1, h.1.2.2.1, h.1.2.2.2.1, h.1.2.2.2.2.1, h.1.2.2.2.2.2,
    fun _ _ _ => ⟨fun hf => by (rw [hr.1] at hf; cases hf), fun _ => hr.2.1, fun hh _ => hr.2.2.1 hh, hr.2.2.2.1, hr.2.2.2.2⟩,
    fun hd => by (rw [h.2.1] at hd; cases hd), fun _ => ⟨h.2.1, h.2.2.1⟩⟩

theorem decCore_of_inv {s : State} (h : Inv s) (h1 : s.dir = .dec) (h2 : s.phase = .ready) (h3 : s.codec ≠ .bs) : decCore s :=
  ⟨h.core, h1, h2, h3⟩

theorem decRegs_of_inv {s : State} (h : decCore s) (hi : Inv s) (hf : s.first = false) : decRegs s := by
  have := hi.2.2.2.2.2.2.1 h.2.1 h.2.2.1 h.2.2.2
  exact ⟨hf, this.2.1 hf, fun hr => this.2.2.1 hr hf, this.2.2.2.1, this.2.2.2.2⟩

theorem finishRecord_inv {s : State} (h : decCore s) (hpe : s.pend = none) (r : Option Raw) (hr : r ≠ none → decRegs s) : Inv (finishRecord r s) := by
  unfold finishRecord
  split
  · exact h.fail _
  · cases r with
    | none => exact h.done hpe _
    | some v =>
      exact (show decCore { s with count := s.count + 1 } from h).inv
        (show decRegs { s with count := s.count + 1 } from hr (by simp))

theorem finishElf_inv {s : State} (h : decCore s) (v : Raw) (hr : decRegs s) : Inv (finishElf v s) := by
  unfold finishElf
  split
  · exact (show decCore { s with count := s.count + 1 } from h).fail _
  · exact (show decCore { s with count := s.count + 1 } from h).inv (show decRegs { s with count := s.count + 1 } from hr)

/-- a later commit -/
theorem decCore.later {s : State} (h : decCore s) (v : Raw) (hv : v.toNat < 2 ^ s.n) : decCore (commitLater v s) := by
  obtain ⟨⟨⟨a1, a2, a3, a4, a5, a6, a7⟩, b, c, d, e, ⟨f1, f2, f3, f4, f5, f6, f7⟩⟩, g⟩ := h
  refine ⟨⟨⟨a1, a2, tableInsert_sorted _ _ _ a3, a4, a5, a6, a7⟩, b, c, d, e, ⟨?_, ?_, Nat.mod_lt _ (w_pos s), f4, f5, f6, f7⟩⟩, g⟩
  · intro p hp; cases hp; exact hv
  · intro x hx
    rcases mem_tableInsert hx with rfl | hx
    · exact ⟨Nat.mod_lt _ (w_pos s), hv⟩
    · exact f2 x hx

theorem decCore.firstCommit {s : State} (h : decCore s) (v : Raw) (hv : v.toNat < 2 ^ s.n) : decCore (commitFirst v s) := by
  obtain ⟨⟨⟨a1, a2, a3, a4, a5, a6, a7⟩, b, c, d, e, ⟨f1, f2, f3, f4, f5, f6, f7⟩⟩, g⟩ := h
  refine ⟨⟨⟨a1, a2, tableInsert_sorted _ _ _ a3, a4, a5, a6, a7⟩, b, c, d, e, ⟨?_, ?_, w_pos s, f4, f5, f6, f7⟩⟩, g⟩
  · intro p hp; cases hp; exact hv
  · intro x hx
    rcases mem_tableInsert hx with rfl | hx
    · exact ⟨w_pos s, hv⟩
    · exact f2 x hx

theorem decCore.setPrev {s : State} (h : decCore s) (v : Raw) (hv : v.toNat < 2 ^ s.n) : decCore { s with prev := some v } := by
  obtain ⟨⟨a, b, c, d, e, ⟨f1, f2, f3, f4, f5, f6, f7⟩⟩, g⟩ := h
  exact ⟨⟨a, b, c, d, e, ⟨by intro p hp; cases hp; exact hv, f2, f3, f4, f5, f6, f7⟩⟩, g⟩

theorem decCore.setClead {s : State} (h : decCore s) (l : Option Nat) (t : Nat)
    (h1 : s.codec = .gor → ∀ k, l = some k → k ≤ 31 ∧ k + t ≤ 63)
    (h2 : hasRing s.codec = true → ∀ k, l = some k → k ∈ s.leadRep) : decCore { s with clead := l, ctrail := t } := by
  obtain ⟨⟨a, b, c, d, e, ⟨f1, f2, f3, f4, f5, f6, f7⟩⟩, g⟩ := h
  exact ⟨⟨a, b, c, d, e, ⟨f1, f2, f3, f4, h1, h2, f7⟩⟩, g⟩

/-- a wire code ends in a state with the invariant where its own effect does -/
theorem onDecoder_inv {codec : Codec} {place : State → Bool} {s : State} {k : State → Host.Outcome State Fault Refusal}
    (h : Inv s) (hk : decCore s → s.codec = codec → place s = true → ∃ t, k s = .next t ∧ Inv t) :
    ∃ t, onDecoder codec place s k = .next t ∧ Inv t := by
  unfold onDecoder
  cases ha : admitDecoder s with
  | some sub => exact ⟨_, rfl, inv_usage sub h⟩
  | none =>
    obtain ⟨h1, h2, h3⟩ := admitDecoder_eq_none.mp ha
    simp only [guarded_none]
    split
    · exact ⟨_, rfl, inv_answer _ h⟩
    · rename_i hp
      split
      · rename_i hc; exact hk (decCore_of_inv h h3 (h.ready h3 h1 hp) h2) hc.1 hc.2
      · exact ⟨_, rfl, inv_usage _ h⟩

/-! ### GOR -/

theorem gorCommit_inv {s : State} (h : decCore s) (hg : s.codec = .gor) (hf : s.first = false) (hp : s.pend = none) (v : Raw) :
    Inv (gorCommit v s) := by
  have hn : s.n = 64 := by unfold State.n; rw [hg]; rfl
  unfold gorCommit
  split
  · exact finishRecord_inv h hp none (by simp)
  · refine finishRecord_inv (h.setPrev v (by rw [hn]; exact v.isLt)) hp _ (fun _ => ⟨hf, by simp, ?_, ?_, ?_⟩)
    · intro hr; rw [show State.codec _ = s.codec from rfl, hg] at hr; cases hr
    · intro hr; exact absurd hp hr
    · intro hr; rw [show State.pend _ = s.pend from rfl, hp] at hr; cases hr

theorem gorXor_inv {s : State} (h : decCore s) (hg : s.codec = .gor) (hf : s.first = false) (hp : s.pend = none)
    (hpr : s.prev ≠ none) (x : Raw) : ∃ t, gorXor x s = .next t ∧ Inv t := by
  unfold gorXor
  cases hx : s.prev with
  | none => exact absurd hx hpr
  | some p => exact ⟨_, rfl, gorCommit_inv h hg hf hp _⟩

theorem noElf_pend {s : State} (h : Inv s) (hc : decCore s) (he : isElf s.codec = false) : s.pend = none := by
  have := (h.2.2.2.2.2.2.1 hc.2.1 hc.2.2.1 hc.2.2.2).2.2.2.1
  by_contra hp
  rw [he] at this; exact absurd (this hp) (by simp)

theorem gor_wire_inv {s : State} (h : Inv s) :
    (∀ v, ∃ t, execGorLit v s = .next t ∧ Inv t) ∧ (∃ t, execGorSame s = .next t ∧ Inv t)
      ∧ (∀ p, ∃ t, execGorReuse p s = .next t ∧ Inv t) ∧ (∀ l n p, ∃ t, execGorNew l n p s = .next t ∧ Inv t) := by
  refine ⟨fun v => onDecoder_inv h ?_, onDecoder_inv h ?_, fun p => onDecoder_inv h ?_, fun l n p => onDecoder_inv h ?_⟩
  · intro hc hg hf
    have hp := noElf_pend h hc (by rw [hg]; rfl)
    exact ⟨_, rfl, gorCommit_inv (s := { s with first := false }) hc hg rfl hp v⟩
  · intro hc hg hf
    have hf : s.first = false := by simpa [atLater] using hf
    exact gorXor_inv hc hg hf (noElf_pend h hc (by rw [hg]; rfl)) (decRegs_of_inv hc h hf).2.1 0
  · intro hc hg hf
    have hf : s.first = false := by simpa [atLater] using hf
    split
    · exact ⟨_, rfl, hc.fail _⟩
    · exact gorXor_inv hc hg hf (noElf_pend h hc (by rw [hg]; rfl)) (decRegs_of_inv hc h hf).2.1 _
  · intro hc hg hf
    have hf : s.first = false := by simpa [atLater] using hf
    split
    · exact ⟨_, rfl, hc.fail _⟩
    · have hq := noElf_pend h hc (by rw [hg]; rfl)
      have hr' := (decRegs_of_inv hc h hf).2.1
      refine gorXor_inv (s := { s with clead := some l.toNat, ctrail := 64 - l.toNat - sigOf 64 n.toNat })
        (hc.setClead (some l.toNat) (64 - l.toNat - sigOf 64 n.toNat) (fun _ k hk => ?_) (fun hr => ?_)) hg hf hq hr' _
      · cases hk
        have := sigOf_pos 64 n.toNat (by omega)
        have := l.isLt
        omega
      · rw [hg] at hr; cases hr

/-! ### CHP -/

/-- what a record step leaves: a value that fits, and the registers of a decoder behind its first value -/
def DecSound (e : Eff Raw) (s : State) : Prop :=
  match e with
  | .ok v t => v.toNat < 2 ^ s.n ∧ decCore t ∧ t.first = false ∧ t.codec = s.codec ∧ t.pend = s.pend ∧ t.lastbs = s.lastbs
  | .raise c _ t => c = .corruptStream ∧ decCore t
  | .stuck _ => False

theorem ringAt_fits {s : State} (h : decCore s) {k : Nat} {r : Raw} (hr : s.ringAt k = some r) : r.toNat < 2 ^ s.n :=
  (h.1.2.2.2.2.2.2.1 _ (tableFind_mem hr)).2

theorem stepXor_sound {s : State} (h : decCore s) (hf : s.first = false) (hp : s.prev ≠ none) (x : Raw)
    (hx : x.toNat < 2 ^ s.n) : DecSound (stepXor x s) s := by
  unfold stepXor
  cases hpr : s.prev with
  | none => exact absurd hpr hp
  | some p => exact ⟨xor_lt _ _ _ (h.1.2.2.2.2.2.1 p hpr) hx, h, hf, rfl, rfl, rfl⟩

theorem stepRepeat_sound {s : State} (h : decCore s) (hf : s.first = false) (k : Nat) (_hg : hasRing s.codec = true) :
    DecSound (stepRepeat k s) s := by
  unfold stepRepeat
  cases hr : s.ringAt k with
  | none => exact ⟨rfl, h⟩
  | some r => exact ⟨ringAt_fits h hr, h.setClead none s.ctrail (by simp) (by simp), hf, rfl, rfl, rfl⟩

theorem stepFar_sound {s : State} (h : decCore s) (hf : s.first = false) (k b c : Nat) (p : Raw) (_hg : hasRing s.codec = true) :
    DecSound (stepFar s.n k b c p s) s := by
  unfold stepFar
  split
  · exact ⟨rfl, h⟩
  · cases hr : s.ringAt k with
    | none => exact ⟨rfl, h⟩
    | some r =>
      exact ⟨xor_lt _ _ _ (ringAt_fits h hr) (by rw [lowBits_toNat]; exact Nat.mod_lt _ (by positivity)),
        h.setClead none s.ctrail (by simp) (by simp), hf, rfl, rfl, rfl⟩

theorem stepReuse_sound {s : State} (h : decCore s) (hf : s.first = false) (hp : s.prev ≠ none) (p : Raw)
    (hx : p.toNat < 2 ^ s.n) : DecSound (stepReuse p s) s := by
  unfold stepReuse
  split
  · exact ⟨rfl, h⟩
  · exact stepXor_sound h hf hp p hx

theorem decCore.legal {s : State} (h : decCore s) (hg : hasRing s.codec = true) : legalLeadRep s.leadRep = true :=
  h.1.2.1.2.2.2.2.2 hg

theorem stepNew_sound {s : State} (h : decCore s) (hf : s.first = false) (hp : s.prev ≠ none) (b : Nat) (hb : b < 8) (p : Raw)
    (hx : p.toNat < 2 ^ s.n) (hg : hasRing s.codec = true) : DecSound (stepNew b p s) s := by
  unfold stepNew
  refine stepXor_sound (s := { s with clead := some (leadOf s.leadRep b) }) ?_ hf hp p hx
  refine h.setClead _ s.ctrail (fun hc => ?_) (fun _ k hk => ?_)
  · rw [hc] at hg; cases hg
  · cases hk; exact leadOf_mem (h.legal hg) hb

theorem commitLater_regs {s : State} (hf : s.first = false) (v : Raw)
    (h4 : s.pend ≠ none → isElf s.codec = true) (h5 : s.pend = some true → s.lastbs ≠ none) : decRegs (commitLater v s) := by
  refine ⟨hf, by simp, fun _ => ?_, h4, h5⟩
  exact (tableFind_insert _ _ _ _).trans (if_pos rfl)

theorem commitFirst_regs {s : State} (hf : s.first = false) (v : Raw)
    (h4 : s.pend ≠ none → isElf s.codec = true) (h5 : s.pend = some true → s.lastbs ≠ none) : decRegs (commitFirst v s) := by
  refine ⟨hf, by simp, fun _ => ?_, h4, h5⟩
  exact (tableFind_insert _ _ _ _).trans (if_pos rfl)

theorem chpLater_inv {s t : State} {v : Raw} (h : decCore t) (hv : v.toNat < 2 ^ s.n) (hf : t.first = false) (hc : t.codec = s.codec)
    (hp : t.pend = none) : Inv (chpLater v t) := by
  have hv : v.toNat < 2 ^ t.n := by unfold State.n at *; rw [hc]; exact hv
  unfold chpLater
  split
  · exact finishRecord_inv h hp none (by simp)
  · exact finishRecord_inv (h.later v hv) hp _ (fun _ => commitLater_regs hf v (by simp [hp]) (by simp [hp]))

theorem DecSound.outcome {e : Eff Raw} {s : State} {r : Raw → State → State} (h : DecSound e s)
    (hr : ∀ v t, v.toNat < 2 ^ s.n → decCore t → t.first = false → t.codec = s.codec → t.pend = s.pend → t.lastbs = s.lastbs → Inv (r v t)) :
    ∃ t, e.outcome r = .next t ∧ Inv t := by
  cases e with
  | ok v t => obtain ⟨h1, h2, h3, h4, h5, h6⟩ := h; exact ⟨_, rfl, hr v t h1 h2 h3 h4 h5 h6⟩
  | raise c b t => obtain ⟨rfl, h⟩ := h; exact ⟨_, rfl, h.fail b⟩
  | stuck f => exact h.elim

theorem chpLit_inv {s : State} (h : decCore s) (hp : s.pend = none) (v : Raw) (hv : v.toNat < 2 ^ s.n) : Inv (chpLit v s) := by
  unfold chpLit
  have h' : decCore { s with first := false } := h
  split
  · exact finishRecord_inv h' hp none (by simp)
  · exact finishRecord_inv (h'.firstCommit v hv) hp _ (fun _ => commitFirst_regs rfl v (by simp [hp]) (by simp [hp]))

theorem setWidth_fits (p : BitVec 32) : (p.setWidth 64 : Raw).toNat < 2 ^ 32 := by
  have := p.isLt
  rw [BitVec.toNat_setWidth, Nat.mod_eq_of_lt (by omega)]; exact this

theorem chp64_wire_inv {s : State} (h : Inv s) :
    (∀ v, ∃ t, execChp64Lit v s = .next t ∧ Inv t) ∧ (∀ k, ∃ t, execChp64Repeat k s = .next t ∧ Inv t)
      ∧ (∀ k b n p, ∃ t, execChp64Far k b n p s = .next t ∧ Inv t) ∧ (∀ p, ∃ t, execChp64Reuse p s = .next t ∧ Inv t)
      ∧ (∀ b p, ∃ t, execChp64New b p s = .next t ∧ Inv t) := by
  refine ⟨fun v => onDecoder_inv h ?_, fun k => onDecoder_inv h ?_, fun k b n p => onDecoder_inv h ?_,
    fun p => onDecoder_inv h ?_, fun b p => onDecoder_inv h ?_⟩
  all_goals
    intro hc hg hf
    have hn : s.n = 64 := by unfold State.n; rw [hg]; rfl
    have hr : hasRing s.codec = true := by rw [hg]; rfl
    have hp := noElf_pend h hc (by rw [hg]; rfl)
  · exact ⟨_, rfl, chpLit_inv hc hp v (by rw [hn]; exact v.isLt)⟩
  all_goals
    have hf : s.first = false := by simpa [atLater] using hf
    have hpr := (decRegs_of_inv hc h hf).2.1
  · exact (stepRepeat_sound hc hf _ hr).outcome (fun v t h1 h2 h3 h4 h5 _ => chpLater_inv h2 h1 h3 h4 (h5.trans hp))
  · have := stepFar_sound hc hf k.toNat b.toNat n.toNat p hr
    rw [hn] at this
    exact this.outcome (fun v t h1 h2 h3 h4 h5 _ => chpLater_inv h2 h1 h3 h4 (h5.trans hp))
  · exact (stepReuse_sound hc hf hpr p (by rw [hn]; exact p.isLt)).outcome
      (fun v t h1 h2 h3 h4 h5 _ => chpLater_inv h2 h1 h3 h4 (h5.trans hp))
  · exact (stepNew_sound hc hf hpr b.toNat b.isLt p (by rw [hn]; exact p.isLt) hr).outcome
      (fun v t h1 h2 h3 h4 h5 _ => chpLater_inv h2 h1 h3 h4 (h5.trans hp))

theorem chp32_wire_inv {s : State} (h : Inv s) :
    (∀ v, ∃ t, execChp32Lit v s = .next t ∧ Inv t) ∧ (∀ k, ∃ t, execChp32Repeat k s = .next t ∧ Inv t)
      ∧ (∀ k b n p, ∃ t, execChp32Far k b n p s = .next t ∧ Inv t) ∧ (∀ p, ∃ t, execChp32Reuse p s = .next t ∧ Inv t)
      ∧ (∀ b p, ∃ t, execChp32New b p s = .next t ∧ Inv t) := by
  refine ⟨fun v => onDecoder_inv h ?_, fun k => onDecoder_inv h ?_, fun k b n p => onDecoder_inv h ?_,
    fun p => onDecoder_inv h ?_, fun b p => onDecoder_inv h ?_⟩
  all_goals
    intro hc hg hf
    have hn : s.n = 32 := by unfold State.n; rw [hg]; rfl
    have hr : hasRing s.codec = true := by rw [hg]; rfl
    have hp := noElf_pend h hc (by rw [hg]; rfl)
  · exact ⟨_, rfl, chpLit_inv hc hp _ (by rw [hn]; exact setWidth_fits v)⟩
  all_goals
    have hf : s.first = false := by simpa [atLater] using hf
    have hpr := (decRegs_of_inv hc h hf).2.1
  · exact (stepRepeat_sound hc hf _ hr).outcome (fun v t h1 h2 h3 h4 h5 _ => chpLater_inv h2 h1 h3 h4 (h5.trans hp))
  · have := stepFar_sound hc hf k.toNat b.toNat n.toNat (p.setWidth 64) hr
    rw [hn] at this
    exact this.outcome (fun v t h1 h2 h3 h4 h5 _ => chpLater_inv h2 h1 h3 h4 (h5.trans hp))
  · exact (stepReuse_sound hc hf hpr _ (by rw [hn]; exact setWidth_fits p)).outcome
      (fun v t h1 h2 h3 h4 h5 _ => chpLater_inv h2 h1 h3 h4 (h5.trans hp))
  · exact (stepNew_sound hc hf hpr b.toNat b.isLt _ (by rw [hn]; exact setWidth_fits p) hr).outcome
      (fun v t h1 h2 h3 h4 h5 _ => chpLater_inv h2 h1 h3 h4 (h5.trans hp))

/-! ### ELF -/

theorem elfDeliver_inv {s : State} (h : decCore s) (hr : decRegs s) (e : Option Bool) (v : Raw) : Inv (elfDeliver e v s) := by
  unfold elfDeliver
  split
  · split
    · exact h.fail _
    · exact finishElf_inv h _ hr
  · exact finishElf_inv h _ hr

theorem elfLit_inv {s : State} (h : decCore s) (v : Raw) (hv : v.toNat < 2 ^ s.n) : Inv (elfLit v s) := by
  unfold elfLit
  have h' : decCore { s with first := false, pend := none } := h
  exact elfDeliver_inv (h'.firstCommit v hv) (commitFirst_regs rfl v (by simp) (by simp)) _ _

theorem elfLater_inv {s t : State} {v : Raw} (h : decCore t) (hv : v.toNat < 2 ^ s.n) (hf : t.first = false) (hc : t.codec = s.codec) :
    Inv (elfLater v t) := by
  have hv : v.toNat < 2 ^ t.n := by unfold State.n at *; rw [hc]; exact hv
  unfold elfLater
  have h' : decCore { t with pend := none } := h
  exact elfDeliver_inv (h'.later v hv) (commitLater_regs (s := { t with pend := none }) hf v (by simp) (by simp)) _ _

/-- an erasure code keeps the invariant -/
theorem setPend_inv {s : State} (h : Inv s) (hc : decCore s) (he : isElf s.codec = true) (e : Option Bool) (l : Option Nat)
    (h1 : e = some true → l ≠ none) (h2 : ∀ b, l = some b → b ≤ bMax s.n) : Inv { s with pend := e, lastbs := l } := by
  have hd := h.2.2.2.2.2.2.1 hc.2.1 hc.2.2.1 hc.2.2.2
  obtain ⟨⟨a, b, c, d, e', ⟨f1, f2, f3, f4, f5, f6, f7⟩⟩, g1, g2, g3⟩ := hc
  exact ⟨a, b, c, d, e', ⟨f1, f2, f3, f4, f5, f6, h2⟩, fun _ _ _ => ⟨hd.1, hd.2.1, hd.2.2.1, fun _ => he, h1⟩,
    fun hd => by (rw [show State.dir _ = s.dir from rfl, g1] at hd; cases hd), fun _ => ⟨g1, g2⟩⟩

theorem elfEraseSame_inv {s : State} (h : Inv s) (hc : decCore s) (he : isElf s.codec = true) : Inv (elfEraseSame s) := by
  unfold elfEraseSame
  split
  · exact hc.fail _
  · rename_i b hb
    exact setPend_inv h hc he (some true) s.lastbs (fun _ => by simp [hb]) hc.1.2.2.2.2.2.2.2.2.2.2.2

theorem elfRaw_inv {s : State} (h : Inv s) (hc : decCore s) (he : isElf s.codec = true) : Inv (elfRaw s) :=
  setPend_inv h hc he (some false) s.lastbs (by simp) hc.1.2.2.2.2.2.2.2.2.2.2.2

theorem elfEraseNew_inv {s : State} (h : Inv s) (hc : decCore s) (he : isElf s.codec = true) (b : Nat) (hb : b ≤ bMax s.n) :
    Inv (elfEraseNew b s) :=
  setPend_inv h hc he (some true) (some b) (by simp) (by rintro x hx; cases hx; exact hb)

theorem elf64_wire_inv {s : State} (h : Inv s) :
    (∃ t, execElf64EraseSame s = .next t ∧ Inv t) ∧ (∃ t, execElf64Raw s = .next t ∧ Inv t)
      ∧ (∀ b, ∃ t, execElf64EraseNew b s = .next t ∧ Inv t) ∧ (∀ v, ∃ t, execElf64XLit v s = .next t ∧ Inv t)
      ∧ (∃ t, execElf64XRepeat s = .next t ∧ Inv t) ∧ (∀ b n p, ∃ t, execElf64XFar b n p s = .next t ∧ Inv t)
      ∧ (∀ p, ∃ t, execElf64XReuse p s = .next t ∧ Inv t) ∧ (∀ b p, ∃ t, execElf64XNew b p s = .next t ∧ Inv t) := by
  refine ⟨onDecoder_inv h ?_, onDecoder_inv h ?_, fun b => onDecoder_inv h ?_, fun v => onDecoder_inv h ?_, onDecoder_inv h ?_,
    fun b n p => onDecoder_inv h ?_, fun p => onDecoder_inv h ?_, fun b p => onDecoder_inv h ?_⟩
  all_goals
    intro hc hg hf
    have hn : s.n = 64 := by unfold State.n; rw [hg]; rfl
    have hr : hasRing s.codec = true := by rw [hg]; rfl
    have he : isElf s.codec = true := by rw [hg]; rfl
  · exact ⟨_, rfl, elfEraseSame_inv h hc he⟩
  · exact ⟨_, rfl, elfRaw_inv h hc he⟩
  · exact ⟨_, rfl, elfEraseNew_inv h hc he _ (by rw [hn]; have := b.isLt; simp [bMax, bsBits]; omega)⟩
  · exact ⟨_, rfl, elfLit_inv hc v (by rw [hn]; exact v.isLt)⟩
  all_goals
    have hf : s.first = false := by simp [atXLater] at hf; exact hf.2
    have hpr := (decRegs_of_inv hc h hf).2.1
  · exact (stepRepeat_sound hc hf _ hr).outcome (fun v t h1 h2 h3 h4 h5 _ => elfLater_inv h2 h1 h3 h4)
  · have := stepFar_sound hc hf 0 b.toNat n.toNat p hr
    rw [hn] at this
    exact this.outcome (fun v t h1 h2 h3 h4 h5 _ => elfLater_inv h2 h1 h3 h4)
  · exact (stepReuse_sound hc hf hpr p (by rw [hn]; exact p.isLt)).outcome
      (fun v t h1 h2 h3 h4 h5 _ => elfLater_inv h2 h1 h3 h4)
  · exact (stepNew_sound hc hf hpr b.toNat b.isLt p (by rw [hn]; exact p.isLt) hr).outcome
      (fun v t h1 h2 h3 h4 h5 _ => elfLater_inv h2 h1 h3 h4)

theorem elf32_wire_inv {s : State} (h : Inv s) :
    (∃ t, execElf32EraseSame s = .next t ∧ Inv t) ∧ (∃ t, execElf32Raw s = .next t ∧ Inv t)
      ∧ (∀ b, ∃ t, execElf32EraseNew b s = .next t ∧ Inv t) ∧ (∀ v, ∃ t, execElf32XLit v s = .next t ∧ Inv t)
      ∧ (∃ t, execElf32XRepeat s = .next t ∧ Inv t) ∧ (∀ b n p, ∃ t, execElf32XFar b n p s = .next t ∧ Inv t)
      ∧ (∀ p, ∃ t, execElf32XReuse p s = .next t ∧ Inv t) ∧ (∀ b p, ∃ t, execElf32XNew b p s = .next t ∧ Inv t) := by
  refine ⟨onDecoder_inv h ?_, onDecoder_inv h ?_, fun b => onDecoder_inv h ?_, fun v => onDecoder_inv h ?_, onDecoder_inv h ?_,
    fun b n p => onDecoder_inv h ?_, fun p => onDecoder_inv h ?_, fun b p => onDecoder_inv h ?_⟩
  all_goals
    intro hc hg hf
    have hn : s.n = 32 := by unfold State.n; rw [hg]; rfl
    have hr : hasRing s.codec = true := by rw [hg]; rfl
    have he : isElf s.codec = true := by rw [hg]; rfl
  · exact ⟨_, rfl, elfEraseSame_inv h hc he⟩
  · exact ⟨_, rfl, elfRaw_inv h hc he⟩
  · exact ⟨_, rfl, elfEraseNew_inv h hc he _ (by rw [hn]; have := b.isLt; simp [bMax, bsBits]; omega)⟩
  · exact ⟨_, rfl, elfLit_inv hc _ (by rw [hn]; exact setWidth_fits v)⟩
  all_goals
    have hf : s.first = false := by simp [atXLater] at hf; exact hf.2
    have hpr := (decRegs_of_inv hc h hf).2.1
  · exact (stepRepeat_sound hc hf _ hr).outcome (fun v t h1 h2 h3 h4 h5 _ => elfLater_inv h2 h1 h3 h4)
  · have := stepFar_sound hc hf 0 b.toNat n.toNat (p.setWidth 64) hr
    rw [hn] at this
    exact this.outcome (fun v t h1 h2 h3 h4 h5 _ => elfLater_inv h2 h1 h3 h4)
  · exact (stepReuse_sound hc hf hpr _ (by rw [hn]; exact setWidth_fits p)).outcome
      (fun v t h1 h2 h3 h4 h5 _ => elfLater_inv h2 h1 h3 h4)
  · exact (stepNew_sound hc hf hpr b.toNat b.isLt _ (by rw [hn]; exact setWidth_fits p) hr).outcome
      (fun v t h1 h2 h3 h4 h5 _ => elfLater_inv h2 h1 h3 h4)

/-! ## NEXT -/

theorem advance_inv {s : State} (h : Inv s) (hd : s.dir = .dec) (k : Nat) : Inv (s.advance k) := by
  obtain ⟨a, b, c, d, ⟨e1, e2, e3, e4, e5⟩, f, g, i⟩ := h
  refine ⟨a, b, c, d, ⟨e1, ?_, e3, fun hx => ?_, e5⟩, f, g, i⟩
  · show pastEndAt s (s.rpos + k) = true ↔ s.lenBits < s.rpos + k
    simp only [pastEndAt, Bool.or_eq_true, decide_eq_true_eq, e2]; omega
  · have hx : s.dir = .enc := hx
    rw [hd] at hx; cases hx

theorem runWire_inv {s : State} (h : Inv s) (i : Instr) : ∃ t, runWire i s = .next t ∧ Inv t := by
  obtain ⟨g1, g2, g3, g4⟩ := gor_wire_inv h
  obtain ⟨a1, a2, a3, a4, a5⟩ := chp64_wire_inv h
  obtain ⟨b1, b2, b3, b4, b5⟩ := chp32_wire_inv h
  obtain ⟨c1, c2, c3, c4, c5, c6, c7, c8⟩ := elf64_wire_inv h
  obtain ⟨d1, d2, d3, d4, d5, d6, d7, d8⟩ := elf32_wire_inv h
  cases i with
  | gorLit v => exact g1 v
  | gorSame => exact g2
  | gorReuse p => exact g3 p
  | gorNew l n p => exact g4 l n p
  | chp64Lit v => exact a1 v
  | chp64Repeat k => exact a2 k
  | chp64Far k b n p => exact a3 k b n p
  | chp64Reuse p => exact a4 p
  | chp64New b p => exact a5 b p
  | chp32Lit v => exact b1 v
  | chp32Repeat k => exact b2 k
  | chp32Far k b n p => exact b3 k b n p
  | chp32Reuse p => exact b4 p
  | chp32New b p => exact b5 b p
  | elf64EraseSame => exact c1
  | elf64Raw => exact c2
  | elf64EraseNew b => exact c3 b
  | elf64XLit v => exact c4 v
  | elf64XRepeat => exact c5
  | elf64XFar b n p => exact c6 b n p
  | elf64XReuse p => exact c7 p
  | elf64XNew b p => exact c8 b p
  | elf32EraseSame => exact d1
  | elf32Raw => exact d2
  | elf32EraseNew b => exact d3 b
  | elf32XLit v => exact d4 v
  | elf32XRepeat => exact d5
  | elf32XFar b n p => exact d6 b n p
  | elf32XReuse p => exact d7 p
  | elf32XNew b p => exact d8 b p
  | _ => exact ⟨_, rfl, inv_usage _ h⟩

theorem runNextCode_inv {s : State} (h : Inv s) (hd : s.dir = .dec) : ∃ t, runNextCode s = .next t ∧ Inv t := by
  unfold runNextCode
  cases hf : fetchWire s with
  | none => exact ⟨_, rfl, inv_usage _ h⟩
  | some q =>
    obtain ⟨i, t⟩ := q
    unfold fetchWire at hf
    cases hw : decodeWire s.wireCtx (s.ahead (lookahead s)) with
    | none => rw [hw] at hf; cases hf
    | some w =>
      rw [hw] at hf
      simp only [Option.map_some, Option.some.injEq, Prod.mk.injEq] at hf
      obtain ⟨-, rfl⟩ := hf
      exact runWire_inv (advance_inv h hd _) i

/-- no command changes the direction of a machine, so a record's second code is run by a decoder too -/
theorem runRecord_inv {s : State} (h : Inv s) (hd : s.dir = .dec) : ∃ t, runRecord s = .next t ∧ Inv t := by
  unfold runRecord
  obtain ⟨t, ht, hi⟩ := runNextCode_inv h hd
  rw [ht]
  simp only
  split
  · rename_i hp
    have hp : t.pend ≠ none := by intro h; rw [h] at hp; cases hp
    exact runNextCode_inv hi (hi.2.2.2.2.2.2.2.2 hp).1
  · exact ⟨t, rfl, hi⟩

theorem beforeRecord_inv {s t : State} (hpe : s.pend = none) (h : decCore s ∨ s.phase = .done) (hi : Inv s) (ht : beforeRecord s = some t) : Inv t := by
  unfold beforeRecord at ht
  split at ht
  · cases ht; exact inv_answer _ hi
  · rename_i hp
    have h := h.resolve_right hp
    split at ht
    · cases ht; exact h.done hpe _
    · split at ht
      · cases ht; exact h.fail _
      · cases ht

theorem nextValue_inv {s : State} (h : Inv s) : ∃ t, nextValue s = .next t ∧ Inv t := by
  unfold nextValue
  cases ha : admitDecoder s with
  | some sub => exact ⟨_, rfl, inv_usage sub h⟩
  | none =>
    obtain ⟨h1, h2, h3⟩ := admitDecoder_eq_none.mp ha
    simp only [guarded_none]
    split
    · exact runNextCode_inv h h3
    · cases hb : beforeRecord s with
      | none => exact runRecord_inv h h3
      | some t =>
        refine ⟨t, rfl, beforeRecord_inv (by simpa using ‹¬s.pend.isSome = true›) ?_ h hb⟩
        by_cases hp : s.phase = .done
        · exact .inr hp
        · exact .inl (decCore_of_inv h h3 (h.ready h3 h1 hp) h2)

/-! ## The other commands -/

theorem getBytes_inv {s : State} (h : Inv s) : ∃ t, execGetBytes s = .next t ∧ Inv t := by
  unfold execGetBytes
  cases ha : admitGetBytes s with
  | some sub => exact ⟨_, rfl, inv_usage sub h⟩
  | none =>
    simp only [guarded_none]
    unfold bswGetBuffer
    split
    · exact ⟨_, rfl, inv_usage _ h⟩
    · split
      · exact ⟨_, rfl, inv_usage _ h⟩
      · exact ⟨_, rfl, inv_answer _ h⟩

theorem getSize_inv {s : State} (h : Inv s) : ∃ t, execGetSize s = .next t ∧ Inv t := by
  unfold execGetSize
  cases ha : admitGetSize s with
  | some sub => exact ⟨_, rfl, inv_usage sub h⟩
  | none => exact ⟨_, rfl, inv_answer _ h⟩

theorem bareWrite_inv {s : State} (h : Inv s) (hb : s.codec = .bs) (hd : s.dir = .enc) (_hp : s.phase ≠ .fault) (e : Eff Nat)
    (he : (∃ bs n, e = .ok n (s.append bs) ∧ s.flushed = false ∧ s.wpos + bs.length ≤ 32 * s.capw) ∨
      (∃ sub, e = .raise .usageError sub s) ∨ e = .raise .capacityExceeded .wbuf s) :
    ∃ t, (e.outcome fun n s => s.answer (.num n)) = .next t ∧ Inv t := by
  rcases he with ⟨bs, n, rfl, hf, hr⟩ | ⟨sub, rfl⟩ | rfl
  · refine ⟨_, rfl, ?_⟩
    obtain ⟨⟨a1, a2, a3, a4, a5, a6, a7⟩, b, c, ⟨d1, d2, d3, d4, d5, d6⟩, e, f, g, i⟩ := h
    refine ⟨⟨memSetBits_wf _ _ _ a1, a2, a3, a4, a5, mem_memSetBits bs s.wbuf s.wpos a6, a7⟩, b, c, ⟨hr, ?_, ?_, ?_, d5, ?_⟩, e, f, g, ?_, i.2⟩
    · intro hx; have hx : s.flushed = true := hx; rw [hf] at hx; cases hx
    · intro hx; exact absurd hb hx
    · intro hx; exact absurd hb hx
    · intro hx; have hx : s.dir = .dec := hx; rw [hd] at hx; cases hx
    · intro _ _ hx; exact absurd hb hx
  · exact ⟨_, rfl, inv_usage sub h⟩
  · exact ⟨_, rfl, inv_failEntry _ _ h.core (by simp) (fun _ => hd) (by simp) (by simp)⟩

theorem bswWrite_kinds (c : Raw) (n : Nat) (s : State) :
    (∃ bs k, bswWrite c n s = .ok k (s.append bs) ∧ s.flushed = false ∧ s.wpos + bs.length ≤ 32 * s.capw) ∨
      (∃ sub, bswWrite c n s = .raise .usageError sub s) ∨ bswWrite c n s = .raise .capacityExceeded .wbuf s := by
  rw [bswWrite_eq]
  split
  · exact .inr (.inl ⟨_, rfl⟩)
  split
  · exact .inr (.inl ⟨_, rfl⟩)
  split
  · exact .inr (.inr rfl)
  · exact .inl ⟨_, _, rfl, by simpa using ‹¬s.flushed = true›, by simp; omega⟩

theorem bswWriteLong_kinds (c : Raw) (n : Nat) (s : State) :
    (∃ bs k, bswWriteLong c n s = .ok k (s.append bs) ∧ s.flushed = false ∧ s.wpos + bs.length ≤ 32 * s.capw) ∨
      (∃ sub, bswWriteLong c n s = .raise .usageError sub s) ∨ bswWriteLong c n s = .raise .capacityExceeded .wbuf s := by
  rw [bswWriteLong_eq]
  split
  · exact .inr (.inl ⟨_, rfl⟩)
  split
  · exact .inr (.inl ⟨_, rfl⟩)
  split
  · exact .inr (.inr rfl)
  · exact .inl ⟨_, _, rfl, by simpa using ‹¬s.flushed = true›, by simp; omega⟩

theorem unit_inv {s : State} (h : Inv s) (d : Dir) (k : State → Host.Outcome State Fault Refusal)
    (hk : s.codec = .bs → s.phase ≠ .fault → s.dir = d → ∃ t, k s = .next t ∧ Inv t) :
    ∃ t, guarded (admitUnit d s) s k = .next t ∧ Inv t := by
  cases ha : admitUnit d s with
  | some sub => exact ⟨_, rfl, inv_usage sub h⟩
  | none =>
    obtain ⟨h1, h2, h3⟩ := admitUnit_eq_none.mp ha
    exact hk h1 h2 h3

theorem flush_inv {s : State} (h : Inv s) : ∃ t, execFlush s = .next t ∧ Inv t := by
  refine unit_inv h _ _ fun hb hp hd => ?_
  unfold bswFlush
  split
  · exact ⟨_, rfl, inv_usage _ h⟩
  · refine ⟨_, rfl, ?_⟩
    have hpl := padding_length s.wpos
    obtain ⟨⟨a1, a2, a3, a4, a5, a6, a7⟩, b, c, ⟨d1, d2, d3, d4, d5, d6⟩, e, f, g, i⟩ := h
    refine ⟨⟨memSetBits_wf _ _ _ a1, a2, a3, a4, a5, mem_memSetBits _ s.wbuf s.wpos a6, a7⟩, b, c, ⟨?_, ?_, ?_, ?_, d5, ?_⟩, e, f, g, ?_, i.2⟩
    · show s.wpos + (padding s.wpos).length ≤ 32 * s.capw
      rw [hpl]; omega
    · intro _
      show (s.wpos + (padding s.wpos).length) % 32 = 0
      rw [hpl]; omega
    · intro hx; exact absurd hb hx
    · intro hx; exact absurd hb hx
    · intro hx; have hx : s.dir = .dec := hx; rw [hd] at hx; cases hx
    · intro _ _ hx; exact absurd hb hx

theorem memOfBytes_lt (bs : List Byte) (a : Nat) : ∀ c ∈ memOfBytes a bs, c.1 < a + bs.length := by
  induction bs generalizing a with
  | nil => simp [memOfBytes]
  | cons b r ih =>
    unfold memOfBytes
    intro c hc
    split at hc
    · have := ih (a + 1) c hc; simp only [List.length_cons]; omega
    · rcases List.mem_cons.mp hc with rfl | hc
      · simp
      · have := ih (a + 1) c hc; simp only [List.length_cons]; omega

theorem loadBytes_inv {s : State} (h : Inv s) (hd : s.dir = .dec) (bs : List Byte) (hl : bs.length < maxLoad) : Inv (s.loadBytes bs) := by
  obtain ⟨⟨a1, a2, a3, a4, a5, a6, a7⟩, b, c, d, e, f, g, i⟩ := h
  refine ⟨⟨a1, memOfBytes_wf _ _, a3, a4, a5, a6, ?_⟩, b, c, d, ⟨hl, ?_, ?_, ?_, fun _ _ => rfl⟩, f, g, i⟩
  · intro c hc; have := memOfBytes_lt bs 0 c hc; simpa using this
  · simp [State.loadBytes]
  · intro hx; cases hx
  · intro hx; have hx : s.dir = .enc := hx; rw [hd] at hx; cases hx

theorem load_inv {s : State} (h : Inv s) (bs : List Byte) : ∃ t, execLoad bs s = .next t ∧ Inv t := by
  refine unit_inv h _ _ fun hb hp hd => ?_
  unfold bsrLoad
  split
  · exact ⟨_, rfl, inv_usage _ h⟩
  split
  · exact ⟨_, rfl, inv_usage _ h⟩
  · exact ⟨_, rfl, inv_answer _ (loadBytes_inv h hd bs (by omega))⟩

theorem constructed_inv (s : State) (codec : Codec) (dir : Dir) (logw capw : Nat) (eps : Raw) (nval : Nat) (l64 l32 : List Nat)
    (h1 : codec = .chp64 ∨ codec = .chp32 → logw ≤ 16) (h2 : dir = .enc → capw ≤ 134217727)
    (h3 : isElf codec = true → dir = .enc → legalEps eps = true) (h4 : nval < 2 ^ 32)
    (h5 : hasRing codec = true → legalLeadRep (if width codec = 64 then l64 else l32) = true)
    (h6 : dir = .dec → codec = .bs) :
    Inv (s.construct codec dir logw capw eps nval l64 l32) := by
  have e0 : legalEps 0 = true := by decide
  refine ⟨⟨memWf_nil, memWf_nil, .nil, .nil, by simp [State.construct], by simp [State.construct], by simp [State.construct]⟩,
    ⟨?_, ?_, ?_, ?_, ?_, ?_⟩, ⟨?_, ?_, ?_, ?_, ?_, ?_, ?_, ?_, ?_⟩, ⟨?_, ?_, ?_, ?_, ?_, ?_⟩,
    ⟨?_, ?_, ?_, ?_, ?_⟩, ⟨?_, ?_, w_pos _, ?_, ?_, ?_, ?_⟩, ?_, ?_, ?_⟩
  all_goals simp only [State.construct, State.leadRep, State.n, State.lenBits, invDecoder, invEncoder, invPending, maxLoad]
  · split
    · exact h1 ‹_›
    · omega
  · intro ha hb; simp [ha, hb]
  · split
    · exact h2 ‹_›
    · omega
  · split
    · rename_i hh; exact h3 hh.1 hh.2
    · exact e0
  · split
    · exact h4
    · omega
  · exact h5
  all_goals try (cases dir <;> simp_all)

theorem constructedLoad_inv (s : State) (codec : Codec) (logw : Nat) (nval : Nat) (l64 l32 : List Nat) (bs : List Byte)
    (h0 : codec ≠ .bs) (h1 : codec = .chp64 ∨ codec = .chp32 → logw ≤ 16) (h4 : nval < 2 ^ 32)
    (h5 : hasRing codec = true → legalLeadRep (if width codec = 64 then l64 else l32) = true) (h7 : bs.length < maxLoad) :
    Inv ((s.construct codec .dec logw 0 0 nval l64 l32).loadBytes bs) := by
  have e0 : legalEps 0 = true := by decide
  have e1 : ∀ c ∈ memOfBytes 0 bs, c.1 < bs.length := by intro c hc; have := memOfBytes_lt bs 0 c hc; simpa using this
  refine ⟨⟨memWf_nil, memOfBytes_wf _ _, .nil, .nil, by simp [State.construct], by simp [State.construct], e1⟩,
    ⟨?_, ?_, ?_, ?_, ?_, ?_⟩, ⟨?_, ?_, ?_, ?_, ?_, ?_, ?_, ?_, ?_⟩, ⟨?_, ?_, ?_, ?_, ?_, ?_⟩,
    ⟨h7, ?_, ?_, ?_, ?_⟩, ⟨?_, ?_, w_pos _, ?_, ?_, ?_, ?_⟩, ?_, ?_, ?_⟩
  all_goals simp only [State.construct, State.loadBytes, State.leadRep, State.n, State.lenBits, invDecoder, invEncoder, invPending]
  · split
    · exact h1 ‹_›
    · omega
  · intro ha hb; simp [ha, hb]
  · simp
  · simpa using e0
  · split
    · exact h4
    · omega
  · exact h5
  all_goals try (simp_all)

theorem legalLogw_le {codec : Codec} {k : Nat} (h : legalLogw codec k = true) : codec = .chp64 ∨ codec = .chp32 → k ≤ 16 := by
  intro hc; unfold legalLogw at h
  rcases hc with rfl | rfl <;> simpa using h

theorem constructEnc_inv {s : State} (h : Inv s) (g : EncConfig) : ∃ t, execConstructEnc g s = .next t ∧ Inv t := by
  unfold execConstructEnc
  split
  · exact ⟨_, rfl, inv_usage _ h⟩
  · rename_i codec hc
    split
    · rename_i hl
      unfold legalEnc at hl
      simp only [Bool.and_eq_true] at hl
      obtain ⟨⟨⟨l1, l2⟩, l3⟩, l4⟩ := hl
      refine ⟨_, rfl, inv_answer _ (constructed_inv s codec .enc _ _ _ 0 _ _ (legalLogw_le l1) (fun _ => ?_) (fun he _ => ?_) (by omega) (fun hr => ?_) (by simp))⟩
      · simpa [legalCapw] using l2
      · simpa [he] using l3
      · unfold legalTables at l4
        simp only [hr, Bool.not_true, Bool.false_or] at l4
        rw [← l4]; split <;> rfl
    · exact ⟨_, rfl, inv_usage _ h⟩

theorem constructDec_inv {s : State} (h : Inv s) (g : DecConfig) : ∃ t, execConstructDec g s = .next t ∧ Inv t := by
  unfold execConstructDec
  split
  · exact ⟨_, rfl, inv_usage _ h⟩
  · rename_i codec hc
    split
    · rename_i hl
      unfold legalDec at hl
      simp only [Bool.and_eq_true, decide_eq_true_eq] at hl
      obtain ⟨⟨l1, l2⟩, l4⟩ := hl
      have l4' : hasRing codec = true → legalLeadRep (if width codec = 64 then tableOf g.lead64 else tableOf g.lead32) = true := by
        intro hr
        unfold legalTables at l4
        simp only [hr, Bool.not_true, Bool.false_or] at l4
        rw [← l4]; split <;> rfl
      split
      · rename_i hb
        subst hb
        exact ⟨_, rfl, inv_answer _ (constructed_inv s .bs .dec 0 0 0 0 _ _ (by simp) (by simp) (by simp [isElf]) (by omega) l4' (by simp))⟩
      · rename_i hb
        exact ⟨_, rfl, inv_answer _ (constructedLoad_inv s codec _ _ _ _ g.bytes hb (legalLogw_le l1) g.nval.isLt l4' l2)⟩
    · exact ⟨_, rfl, inv_usage _ h⟩

theorem readers_inv {s : State} (h : Inv s) : (∀ n, ∃ t, execPeek n s = .next t ∧ Inv t) ∧ (∀ n, ∃ t, execForward n s = .next t ∧ Inv t)
    ∧ (∀ n, ∃ t, execReadInt n s = .next t ∧ Inv t) ∧ (∀ n, ∃ t, execReadLong n s = .next t ∧ Inv t) ∧ (∃ t, execReadBit s = .next t ∧ Inv t) := by
  refine ⟨fun n => unit_inv h _ _ fun _ _ hd => ?_, fun n => unit_inv h _ _ fun _ _ hd => ?_, fun n => unit_inv h _ _ fun _ _ hd => ?_,
    fun n => unit_inv h _ _ fun _ _ hd => ?_, unit_inv h _ _ fun _ _ hd => ?_⟩
  · unfold bsrPeek; split
    · exact ⟨_, rfl, inv_usage _ h⟩
    · exact ⟨_, rfl, inv_answer _ h⟩
  · unfold bsrForward; split
    · exact ⟨_, rfl, inv_usage _ h⟩
    · exact ⟨_, rfl, inv_answer _ (advance_inv h hd _)⟩
  · rw [bsrReadInt_eq]; split
    · exact ⟨_, rfl, inv_usage _ h⟩
    · exact ⟨_, rfl, inv_answer _ (advance_inv h hd _)⟩
  · rw [bsrReadLong_eq]; split
    · exact ⟨_, rfl, inv_usage _ h⟩
    · exact ⟨_, rfl, inv_answer _ (advance_inv h hd _)⟩
  · rw [bsrReadInt_eq, if_neg (by omega)]
    exact ⟨_, rfl, inv_answer _ (advance_inv h hd _)⟩

theorem write_inv {s : State} (h : Inv s) : (∀ c n, ∃ t, execWrite c n s = .next t ∧ Inv t) ∧ (∀ c n, ∃ t, execWriteLong c n s = .next t ∧ Inv t)
    ∧ (∀ b, ∃ t, execWriteBit b s = .next t ∧ Inv t) ∧ (∀ n, ∃ t, execGetBuffer n s = .next t ∧ Inv t) := by
  refine ⟨fun c n => unit_inv h _ _ fun hb hp hd => ?_, fun c n => unit_inv h _ _ fun hb hp hd => ?_, fun b => unit_inv h _ _ fun hb hp hd => ?_,
    fun n => unit_inv h _ _ fun hb hp hd => ?_⟩
  · exact bareWrite_inv h hb hd hp _ (bswWrite_kinds _ _ _)
  · exact bareWrite_inv h hb hd hp _ (bswWriteLong_kinds _ _ _)
  · exact bareWrite_inv h hb hd hp _ (bswWrite_kinds _ _ _)
  · unfold bswGetBuffer
    split
    · exact ⟨_, rfl, inv_usage _ h⟩
    · split
      · exact ⟨_, rfl, inv_usage _ h⟩
      · exact ⟨_, rfl, inv_answer _ h⟩

/-! ## DECOMPRESS terminates -/

/-- the reader is untouched -/
def reader (s t : State) : Prop := t.rpos = s.rpos ∧ t.len = s.len ∧ t.pastEnd = s.pastEnd

/-- a value is delivered only with PAST_END clear -/
def delivers (s t : State) : Prop := ∀ v, t.resp = some (.ok (.value v)) → s.pastEnd = false

theorem finishRecord_out (r : Option Raw) (s : State) : reader s (finishRecord r s) ∧ delivers s (finishRecord r s) := by
  unfold finishRecord
  split
  · exact ⟨⟨rfl, rfl, rfl⟩, by intro v hv; cases hv⟩
  · rename_i hp
    have hp : s.pastEnd = false := by simpa using hp
    cases r with
    | none => exact ⟨⟨rfl, rfl, rfl⟩, fun _ _ => hp⟩
    | some v => exact ⟨⟨rfl, rfl, rfl⟩, fun _ _ => hp⟩

theorem finishElf_out (v : Raw) (s : State) : reader s (finishElf v s) ∧ delivers s (finishElf v s) := by
  unfold finishElf
  split
  · exact ⟨⟨rfl, rfl, rfl⟩, by intro v hv; cases hv⟩
  · rename_i hp
    exact ⟨⟨rfl, rfl, rfl⟩, fun _ _ => by simpa using hp⟩

theorem elfDeliver_out (e : Option Bool) (v : Raw) (s : State) : reader s (elfDeliver e v s) ∧ delivers s (elfDeliver e v s) := by
  unfold elfDeliver
  split
  · split
    · exact ⟨⟨rfl, rfl, rfl⟩, by intro v hv; cases hv⟩
    · exact finishElf_out _ _
  · exact finishElf_out _ _

/-- a record step does not touch the reader -/
def stepOut (s : State) (e : Eff Raw) : Prop :=
  match e with
  | .ok _ t => reader s t
  | .raise c _ t => c = .corruptStream ∧ reader s t
  | .stuck _ => True

theorem stepXor_out (x : Raw) (s : State) : stepOut s (stepXor x s) := by
  unfold stepXor; split <;> simp [stepOut, reader]

theorem stepRepeat_out (k : Nat) (s : State) : stepOut s (stepRepeat k s) := by
  unfold stepRepeat; split <;> simp [stepOut, reader]

theorem stepFar_out (n k b c : Nat) (p : Raw) (s : State) : stepOut s (stepFar n k b c p s) := by
  unfold stepFar; split
  · simp [stepOut, reader]
  · split <;> simp [stepOut, reader]

theorem stepReuse_out (p : Raw) (s : State) : stepOut s (stepReuse p s) := by
  unfold stepReuse; split
  · simp [stepOut, reader]
  · exact stepXor_out _ _

theorem stepNew_out (b : Nat) (p : Raw) (s : State) : stepOut s (stepNew b p s) :=
  stepXor_out p { s with clead := some (leadOf s.leadRep b) }

theorem chpLit_out (v : Raw) (s : State) : reader s (chpLit v s) ∧ delivers s (chpLit v s) := by
  unfold chpLit; split <;> exact finishRecord_out _ _

theorem chpLater_out (v : Raw) (s : State) : reader s (chpLater v s) ∧ delivers s (chpLater v s) := by
  unfold chpLater; split <;> exact finishRecord_out _ _

theorem elfLit_out (v : Raw) (s : State) : reader s (elfLit v s) ∧ delivers s (elfLit v s) := elfDeliver_out _ _ _

theorem elfLater_out (v : Raw) (s : State) : reader s (elfLater v s) ∧ delivers s (elfLater v s) := elfDeliver_out _ _ _

theorem gorCommit_out (v : Raw) (s : State) : reader s (gorCommit v s) ∧ delivers s (gorCommit v s) := by
  unfold gorCommit; split <;> exact finishRecord_out _ _

theorem out_outcome {e : Eff Raw} {s t : State} {r : Raw → State → State} (h : stepOut s e)
    (hr : ∀ v u, reader u (r v u) ∧ delivers u (r v u)) (ht : e.outcome r = .next t) : reader s t ∧ delivers s t := by
  cases e with
  | ok v u =>
    cases ht
    obtain ⟨⟨a, b, c⟩, d⟩ := hr v u
    obtain ⟨a', b', c'⟩ := h
    exact ⟨⟨a.trans a', b.trans b', c.trans c'⟩, fun v hv => c' ▸ d v hv⟩
  | raise c b u =>
    cases ht
    obtain ⟨rfl, h⟩ := h
    exact ⟨h, by intro v hv; cases hv⟩
  | stuck f => cases ht

theorem gorXor_out {x : Raw} {s t : State} (ht : gorXor x s = .next t) : reader s t ∧ delivers s t := by
  unfold gorXor at ht
  split at ht
  · cases ht
  · cases ht; exact gorCommit_out _ _

theorem onDecoder_out {codec : Codec} {place : State → Bool} {s t : State} {k : State → Host.Outcome State Fault Refusal}
    (ht : onDecoder codec place s k = .next t) (hk : place s = true → s.codec = codec → k s = .next t → reader s t ∧ delivers s t) :
    reader s t ∧ delivers s t := by
  rcases onDecoder_next ht with ⟨sub, rfl⟩ | rfl | ⟨hc, _, _, _, _, hp, hk'⟩
  · exact ⟨⟨rfl, rfl, rfl⟩, by intro v hv; cases hv⟩
  · exact ⟨⟨rfl, rfl, rfl⟩, by intro v hv; cases hv⟩
  · exact hk hp hc hk'

theorem runWire_out {i : Instr} {s t : State} (he : isErasure i = false) (ht : runWire i s = .next t) : reader s t ∧ delivers s t := by
  cases i with
  | elf64EraseSame => cases he
  | elf64Raw => cases he
  | elf64EraseNew b => cases he
  | elf32EraseSame => cases he
  | elf32Raw => cases he
  | elf32EraseNew b => cases he
  | gorLit v => simp only [runWire] at ht; exact onDecoder_out ht fun _ _ h => by cases h; exact gorCommit_out _ _
  | gorSame => simp only [runWire] at ht; exact onDecoder_out ht fun _ _ h => gorXor_out h
  | gorReuse p =>
    simp only [runWire] at ht
    refine onDecoder_out ht fun _ _ h => ?_
    split at h
    · cases h; exact ⟨⟨rfl, rfl, rfl⟩, by intro v hv; cases hv⟩
    · exact gorXor_out h
  | gorNew l n p =>
    simp only [runWire] at ht
    refine onDecoder_out ht fun _ _ h => ?_
    split at h
    · cases h; exact ⟨⟨rfl, rfl, rfl⟩, by intro v hv; cases hv⟩
    · exact gorXor_out (s := { s with clead := some l.toNat, ctrail := 64 - l.toNat - sigOf 64 n.toNat }) h
  | chp64Lit v => simp only [runWire] at ht; exact onDecoder_out ht fun _ _ h => by cases h; exact chpLit_out _ _
  | chp64Repeat k => simp only [runWire] at ht; exact onDecoder_out ht fun _ _ h => out_outcome (stepRepeat_out _ _) chpLater_out h
  | chp64Far k b n p => simp only [runWire] at ht; exact onDecoder_out ht fun _ _ h => out_outcome (stepFar_out _ _ _ _ _ _) chpLater_out h
  | chp64Reuse p => simp only [runWire] at ht; exact onDecoder_out ht fun _ _ h => out_outcome (stepReuse_out _ _) chpLater_out h
  | chp64New b p => simp only [runWire] at ht; exact onDecoder_out ht fun _ _ h => out_outcome (stepNew_out _ _ _) chpLater_out h
  | chp32Lit v => simp only [runWire] at ht; exact onDecoder_out ht fun _ _ h => by cases h; exact chpLit_out _ _
  | chp32Repeat k => simp only [runWire] at ht; exact onDecoder_out ht fun _ _ h => out_outcome (stepRepeat_out _ _) chpLater_out h
  | chp32Far k b n p => simp only [runWire] at ht; exact onDecoder_out ht fun _ _ h => out_outcome (stepFar_out _ _ _ _ _ _) chpLater_out h
  | chp32Reuse p => simp only [runWire] at ht; exact onDecoder_out ht fun _ _ h => out_outcome (stepReuse_out _ _) chpLater_out h
  | chp32New b p => simp only [runWire] at ht; exact onDecoder_out ht fun _ _ h => out_outcome (stepNew_out _ _ _) chpLater_out h
  | elf64XLit v => simp only [runWire] at ht; exact onDecoder_out ht fun _ _ h => by cases h; exact elfLit_out _ _
  | elf64XRepeat => simp only [runWire] at ht; exact onDecoder_out ht fun _ _ h => out_outcome (stepRepeat_out _ _) elfLater_out h
  | elf64XFar b n p => simp only [runWire] at ht; exact onDecoder_out ht fun _ _ h => out_outcome (stepFar_out _ _ _ _ _ _) elfLater_out h
  | elf64XReuse p => simp only [runWire] at ht; exact onDecoder_out ht fun _ _ h => out_outcome (stepReuse_out _ _) elfLater_out h
  | elf64XNew b p => simp only [runWire] at ht; exact onDecoder_out ht fun _ _ h => out_outcome (stepNew_out _ _ _) elfLater_out h
  | elf32XLit v => simp only [runWire] at ht; exact onDecoder_out ht fun _ _ h => by cases h; exact elfLit_out _ _
  | elf32XRepeat => simp only [runWire] at ht; exact onDecoder_out ht fun _ _ h => out_outcome (stepRepeat_out _ _) elfLater_out h
  | elf32XFar b n p => simp only [runWire] at ht; exact onDecoder_out ht fun _ _ h => out_outcome (stepFar_out _ _ _ _ _ _) elfLater_out h
  | elf32XReuse p => simp only [runWire] at ht; exact onDecoder_out ht fun _ _ h => out_outcome (stepReuse_out _ _) elfLater_out h
  | elf32XNew b p => simp only [runWire] at ht; exact onDecoder_out ht fun _ _ h => out_outcome (stepNew_out _ _ _) elfLater_out h
  | _ => cases ht; exact ⟨⟨rfl, rfl, rfl⟩, by intro v hv; cases hv⟩

theorem erasure_out {i : Instr} {s t : State} (he : isErasure i = true) (ht : runWire i s = .next t) :
    reader s t ∧ (t.pend = none → delivers s t) := by
  cases i <;> (try cases he)
  all_goals
    simp only [runWire] at ht
    rcases onDecoder_next ht with ⟨sub, rfl⟩ | rfl | ⟨hc, _, _, _, _, hp, hk'⟩
    · exact ⟨⟨rfl, rfl, rfl⟩, fun _ => by intro v hv; cases hv⟩
    · exact ⟨⟨rfl, rfl, rfl⟩, fun _ => by intro v hv; cases hv⟩
  · cases hk'; unfold elfEraseSame; split
    · exact ⟨⟨rfl, rfl, rfl⟩, fun _ => by intro v hv; cases hv⟩
    · exact ⟨⟨rfl, rfl, rfl⟩, fun h => by cases h⟩
  · cases hk'; exact ⟨⟨rfl, rfl, rfl⟩, fun h => by cases h⟩
  · cases hk'; exact ⟨⟨rfl, rfl, rfl⟩, fun h => by cases h⟩
  · cases hk'; unfold elfEraseSame; split
    · exact ⟨⟨rfl, rfl, rfl⟩, fun _ => by intro v hv; cases hv⟩
    · exact ⟨⟨rfl, rfl, rfl⟩, fun h => by cases h⟩
  · cases hk'; exact ⟨⟨rfl, rfl, rfl⟩, fun h => by cases h⟩
  · cases hk'; exact ⟨⟨rfl, rfl, rfl⟩, fun h => by cases h⟩

theorem runNextCode_out {s t : State} (h : runNextCode s = .next t) :
    t.len = s.len ∧ s.rpos ≤ t.rpos ∧ ((t.pend = none ∨ s.pend ≠ none) → ∀ v, t.resp = some (.ok (.value v)) → s.rpos < t.rpos ∧ t.pastEnd = false) := by
  unfold runNextCode at h
  cases hf : fetchWire s with
  | none => rw [hf] at h; cases h; exact ⟨rfl, Nat.le_refl _, fun _ v hv => by cases hv⟩
  | some q =>
    rw [hf] at h
    unfold fetchWire at hf
    cases hw : decodeWire s.wireCtx (s.ahead (lookahead s)) with
    | none => rw [hw] at hf; cases hf
    | some w =>
      rw [hw] at hf
      simp only [Option.map_some, Option.some.injEq] at hf
      subst hf
      simp only at h
      have hlt := decodeWire_shorter hw
      rw [State.ahead_length] at hlt
      have key : ∀ v, (reader (s.advance (lookahead s - w.2.length)) t ∧ delivers (s.advance (lookahead s - w.2.length)) t) →
          t.resp = some (.ok (.value v)) → s.rpos < t.rpos ∧ t.pastEnd = false := by
        rintro v ⟨⟨a, b, c⟩, d⟩ hv
        refine ⟨?_, c.trans (d v hv)⟩
        rw [a, State.advance_rpos]; omega
      cases he : isErasure w.1 with
      | false =>
        have ho := runWire_out he h
        exact ⟨ho.1.2.1, by rw [ho.1.1, State.advance_rpos]; omega, fun _ v hv => key v ho hv⟩
      | true =>
        have ho := erasure_out he h
        refine ⟨ho.1.2.1, by rw [ho.1.1, State.advance_rpos]; omega, fun hp v hv => ?_⟩
        rcases hp with hp | hp
        · exact key v ⟨ho.1, ho.2 hp⟩ hv
        · have := decodeWire_mid hw (by simp [State.wireCtx]; exact Option.isSome_iff_ne_none.mpr hp)
          rw [this] at he; cases he

theorem nextValue_value {s t : State} {v : Raw} (h : Inv s) (ht : nextValue s = .next t) (hv : t.resp = some (.ok (.value v))) :
    t.len = s.len ∧ s.rpos < t.rpos ∧ t.rpos ≤ t.lenBits := by
  have hi : Inv t := by
    obtain ⟨u, hu, hi⟩ := nextValue_inv h
    rw [hu] at ht; cases ht; exact hi
  have hle : t.pastEnd = false → t.rpos ≤ t.lenBits := by
    intro hp
    have := hi.2.2.2.2.1.2.1
    rw [hp] at this
    simp at this; exact this
  suffices t.len = s.len ∧ s.rpos < t.rpos ∧ t.pastEnd = false from ⟨this.1, this.2.1, hle this.2.2⟩
  unfold nextValue at ht
  rcases guarded_next ht with ⟨sub, -, rfl⟩ | ⟨hn, hk⟩
  · cases hv
  split at hk
  · rename_i hp
    have := runNextCode_out hk
    exact ⟨this.1, this.2.2 (.inr (by intro h; rw [h] at hp; cases hp)) v hv⟩
  · rename_i hp
    split at hk
    · rename_i u hb
      cases hk
      unfold beforeRecord at hb
      split at hb
      · cases hb; cases hv
      · split at hb
        · cases hb; cases hv
        · split at hb <;> cases hb; cases hv
    · unfold runRecord at hk
      split at hk
      · rename_i u hu
        have h1 := runNextCode_out hu
        split at hk
        · rename_i hpu
          have h2 := runNextCode_out hk
          have := h2.2.2 (.inr (by intro h; rw [h] at hpu; cases hpu)) v hv
          exact ⟨h2.1.trans h1.1, by omega, this.2⟩
        · rename_i hpu
          cases hk
          exact ⟨h1.1, h1.2.2 (.inl (by simpa using hpu)) v hv⟩
      · cases hk
      · cases hk

theorem decompressLoop_inv (f : Nat) (acc : List Raw) {s : State} (h : Inv s) (hf : s.lenBits - s.rpos + 1 ≤ f) :
    ∃ t, decompressLoop f acc s = .next t ∧ Inv t := by
  induction f generalizing acc s with
  | zero => omega
  | succ f ih =>
    obtain ⟨t, ht, hi⟩ := nextValue_inv h
    unfold decompressLoop
    rw [ht]
    simp only
    split
    · rename_i v hv
      obtain ⟨h1, h2, h3⟩ := nextValue_value h ht hv
      have : t.lenBits = s.lenBits := by simp [State.lenBits, h1]
      exact ih (acc ++ [v]) hi (by omega)
    · exact ⟨_, rfl, inv_answer _ hi⟩
    all_goals exact ⟨_, rfl, hi⟩

end Machine
end Sys2Proof
end

