-- ==== Sys2Proof/Laws/PerInstr.lean ====
section
/-! SUPPORT. Families of statements made per instruction (LAWS.json): decoding what was encoded gives it back. -/

namespace Sys2Proof
namespace Laws

open Machine

/-- Decoding an encoded well-formed instruction gives it back, whatever stands behind it: a command from its bytes, a
wire code from its bits at its place `c`. -/
def CodecRoundTrip.Statement (i : Instr) : Prop :=
  ∀ (c : WireCtx) (rest : List Byte) (bits : List Bool), wellFormed c i = true →
    if i.isCommand = true then decode (encode i ++ rest) = .command i rest
    else decodeWire c (encodeWire c i ++ bits) = some (i, bits)

/-- The context of a well-formed record. -/
theorem wfPlace_iff {c : WireCtx} {codec : Codec} {lit mid : Bool} :
    wfPlace c codec lit mid = true ↔ c.codec = codec ∧ c.first = lit ∧ c.mid = mid := by
  simp [wfPlace, and_assoc]

theorem wfErasure_iff {c : WireCtx} {codec : Codec} : wfErasure c codec = true ↔ c.codec = codec ∧ c.mid = false := by
  simp [wfErasure]

theorem wfPayload_iff {w p : Nat} : wfPayload w p = true ↔ p < 2 ^ w := by simp [wfPayload]

theorem wfSlot_iff {c : WireCtx} {p : Nat} : wfSlot c p = true ↔ p < 2 ^ c.logw := by simp [wfSlot]

namespace CodecRoundTrip

-- One theorem after another: the check of the whole package then needs few threads.
set_option Elab.async false

theorem gorLit (v : BitVec 64) : Statement (.gorLit v) := by
  intro c rest bits h
  obtain ⟨h1, h2, -⟩ := wfPlace_iff.mp h
  simp only [Instr.isCommand, decodeWire, encodeWire, h1, h2, decodeLit64]
  simp

theorem gorSame : Statement .gorSame := by
  intro c rest bits h
  obtain ⟨h1, h2, -⟩ := wfPlace_iff.mp h
  simp [Instr.isCommand, decodeWire, encodeWire, h1, h2, decodeGor]

theorem gorReuse (p : BitVec 64) : Statement (.gorReuse p) := by
  intro c rest bits h
  simp only [wellFormed, Bool.and_eq_true, wfPlace_iff, wfPayload_iff] at h
  obtain ⟨⟨h1, h2, -⟩, h3⟩ := h
  simp [Instr.isCommand, decodeWire, encodeWire, h1, h2, decodeGor, takeBits_bitsOf_lt, h3]

theorem gorNew (l : BitVec 5) (n : BitVec 6) (p : BitVec 64) : Statement (.gorNew l n p) := by
  intro c rest bits h
  simp only [wellFormed, Bool.and_eq_true, wfPlace_iff, wfPayload_iff] at h
  obtain ⟨⟨h1, h2, -⟩, h3⟩ := h
  simp [Instr.isCommand, decodeWire, encodeWire, h1, h2, decodeGor, List.append_assoc, takeBits_bitsOf_lt, h3]

theorem chp64Lit (v : BitVec 64) : Statement (.chp64Lit v) := by
  intro c rest bits h
  obtain ⟨h1, h2, -⟩ := wfPlace_iff.mp h
  simp only [Instr.isCommand, decodeWire, encodeWire, h1, h2, decodeLit64]
  simp

theorem chp64Repeat (t : BitVec 16) : Statement (.chp64Repeat t) := by
  intro c rest bits h
  simp only [wellFormed, Bool.and_eq_true, wfPlace_iff, wfSlot_iff] at h
  obtain ⟨⟨h1, h2, -⟩, h3⟩ := h
  simp [Instr.isCommand, decodeWire, encodeWire, h1, h2, decodeChp64, takeBits_bitsOf_lt, h3]

theorem chp64Far (t : BitVec 16) (b : BitVec 3) (n : BitVec 6) (p : BitVec 64) : Statement (.chp64Far t b n p) := by
  intro c rest bits h
  simp only [wellFormed, Bool.and_eq_true, wfPlace_iff, wfSlot_iff, wfPayload_iff] at h
  obtain ⟨⟨⟨h1, h2, -⟩, h3⟩, h4⟩ := h
  simp [Instr.isCommand, decodeWire, encodeWire, h1, h2, decodeChp64, List.append_assoc, takeBits_bitsOf_lt, h3, h4]

theorem chp64Reuse (p : BitVec 64) : Statement (.chp64Reuse p) := by
  intro c rest bits h
  simp only [wellFormed, Bool.and_eq_true, wfPlace_iff, wfPayload_iff] at h
  obtain ⟨⟨h1, h2, -⟩, h3⟩ := h
  simp [Instr.isCommand, decodeWire, encodeWire, h1, h2, decodeChp64, takeBits_bitsOf_lt, h3]

theorem chp64New (b : BitVec 3) (p : BitVec 64) : Statement (.chp64New b p) := by
  intro c rest bits h
  simp only [wellFormed, Bool.and_eq_true, wfPlace_iff, wfPayload_iff] at h
  obtain ⟨⟨h1, h2, -⟩, h3⟩ := h
  simp [Instr.isCommand, decodeWire, encodeWire, h1, h2, decodeChp64, List.append_assoc, takeBits_bitsOf_lt, h3]

theorem chp32Lit (v : BitVec 32) : Statement (.chp32Lit v) := by
  intro c rest bits h
  obtain ⟨h1, h2, -⟩ := wfPlace_iff.mp h
  simp only [Instr.isCommand, decodeWire, encodeWire, h1, h2, decodeLit32]
  simp

theorem chp32Repeat (t : BitVec 16) : Statement (.chp32Repeat t) := by
  intro c rest bits h
  simp only [wellFormed, Bool.and_eq_true, wfPlace_iff, wfSlot_iff] at h
  obtain ⟨⟨h1, h2, -⟩, h3⟩ := h
  simp [Instr.isCommand, decodeWire, encodeWire, h1, h2, decodeChp32, takeBits_bitsOf_lt, h3]

theorem chp32Far (t : BitVec 16) (b : BitVec 3) (n : BitVec 5) (p : BitVec 32) : Statement (.chp32Far t b n p) := by
  intro c rest bits h
  simp only [wellFormed, Bool.and_eq_true, wfPlace_iff, wfSlot_iff, wfPayload_iff] at h
  obtain ⟨⟨⟨h1, h2, -⟩, h3⟩, h4⟩ := h
  simp [Instr.isCommand, decodeWire, encodeWire, h1, h2, decodeChp32, List.append_assoc, takeBits_bitsOf_lt, h3, h4]

theorem chp32Reuse (p : BitVec 32) : Statement (.chp32Reuse p) := by
  intro c rest bits h
  simp only [wellFormed, Bool.and_eq_true, wfPlace_iff, wfPayload_iff] at h
  obtain ⟨⟨h1, h2, -⟩, h3⟩ := h
  simp [Instr.isCommand, decodeWire, encodeWire, h1, h2, decodeChp32, takeBits_bitsOf_lt, h3]

theorem chp32New (b : BitVec 3) (p : BitVec 32) : Statement (.chp32New b p) := by
  intro c rest bits h
  simp only [wellFormed, Bool.and_eq_true, wfPlace_iff, wfPayload_iff] at h
  obtain ⟨⟨h1, h2, -⟩, h3⟩ := h
  simp [Instr.isCommand, decodeWire, encodeWire, h1, h2, decodeChp32, List.append_assoc, takeBits_bitsOf_lt, h3]

theorem elf64EraseSame : Statement .elf64EraseSame := by
  intro c rest bits h
  obtain ⟨h1, h2⟩ := wfErasure_iff.mp h
  simp [Instr.isCommand, decodeWire, encodeWire, h1, h2, decodeErase64]

theorem elf64Raw : Statement .elf64Raw := by
  intro c rest bits h
  obtain ⟨h1, h2⟩ := wfErasure_iff.mp h
  simp [Instr.isCommand, decodeWire, encodeWire, h1, h2, decodeErase64]

theorem elf64EraseNew (b : BitVec 4) : Statement (.elf64EraseNew b) := by
  intro c rest bits h
  obtain ⟨h1, h2⟩ := wfErasure_iff.mp h
  simp [Instr.isCommand, decodeWire, encodeWire, h1, h2, decodeErase64]

theorem elf64XLit (v : BitVec 64) : Statement (.elf64XLit v) := by
  intro c rest bits h
  obtain ⟨h1, h2, h3⟩ := wfPlace_iff.mp h
  simp only [Instr.isCommand, decodeWire, encodeWire, h1, h2, h3, decodeLit64]
  simp

theorem elf64XRepeat : Statement .elf64XRepeat := by
  intro c rest bits h
  obtain ⟨h1, h2, h3⟩ := wfPlace_iff.mp h
  simp [Instr.isCommand, decodeWire, encodeWire, h1, h2, h3, decodeX64]

theorem elf64XFar (b : BitVec 3) (n : BitVec 6) (p : BitVec 64) : Statement (.elf64XFar b n p) := by
  intro c rest bits h
  simp only [wellFormed, Bool.and_eq_true, wfPlace_iff, wfPayload_iff] at h
  obtain ⟨⟨h1, h2, h5⟩, h4⟩ := h
  simp [Instr.isCommand, decodeWire, encodeWire, h1, h2, h5, decodeX64, List.append_assoc, takeBits_bitsOf_lt, h4]

theorem elf64XReuse (p : BitVec 64) : Statement (.elf64XReuse p) := by
  intro c rest bits h
  simp only [wellFormed, Bool.and_eq_true, wfPlace_iff, wfPayload_iff] at h
  obtain ⟨⟨h1, h2, h5⟩, h3⟩ := h
  simp [Instr.isCommand, decodeWire, encodeWire, h1, h2, h5, decodeX64, takeBits_bitsOf_lt, h3]

theorem elf64XNew (b : BitVec 3) (p : BitVec 64) : Statement (.elf64XNew b p) := by
  intro c rest bits h
  simp only [wellFormed, Bool.and_eq_true, wfPlace_iff, wfPayload_iff] at h
  obtain ⟨⟨h1, h2, h5⟩, h3⟩ := h
  simp [Instr.isCommand, decodeWire, encodeWire, h1, h2, h5, decodeX64, List.append_assoc, takeBits_bitsOf_lt, h3]

theorem elf32EraseSame : Statement .elf32EraseSame := by
  intro c rest bits h
  obtain ⟨h1, h2⟩ := wfErasure_iff.mp h
  simp [Instr.isCommand, decodeWire, encodeWire, h1, h2, decodeErase32]

theorem elf32Raw : Statement .elf32Raw := by
  intro c rest bits h
  obtain ⟨h1, h2⟩ := wfErasure_iff.mp h
  simp [Instr.isCommand, decodeWire, encodeWire, h1, h2, decodeErase32]

theorem elf32EraseNew (b : BitVec 3) : Statement (.elf32EraseNew b) := by
  intro c rest bits h
  obtain ⟨h1, h2⟩ := wfErasure_iff.mp h
  simp [Instr.isCommand, decodeWire, encodeWire, h1, h2, decodeErase32]

theorem elf32XLit (v : BitVec 32) : Statement (.elf32XLit v) := by
  intro c rest bits h
  obtain ⟨h1, h2, h3⟩ := wfPlace_iff.mp h
  simp only [Instr.isCommand, decodeWire, encodeWire, h1, h2, h3, decodeLit32]
  simp

theorem elf32XRepeat : Statement .elf32XRepeat := by
  intro c rest bits h
  obtain ⟨h1, h2, h3⟩ := wfPlace_iff.mp h
  simp [Instr.isCommand, decodeWire, encodeWire, h1, h2, h3, decodeX32]

theorem elf32XFar (b : BitVec 3) (n : BitVec 5) (p : BitVec 32) : Statement (.elf32XFar b n p) := by
  intro c rest bits h
  simp only [wellFormed, Bool.and_eq_true, wfPlace_iff, wfPayload_iff] at h
  obtain ⟨⟨h1, h2, h5⟩, h4⟩ := h
  simp [Instr.isCommand, decodeWire, encodeWire, h1, h2, h5, decodeX32, List.append_assoc, takeBits_bitsOf_lt, h4]

theorem elf32XReuse (p : BitVec 32) : Statement (.elf32XReuse p) := by
  intro c rest bits h
  simp only [wellFormed, Bool.and_eq_true, wfPlace_iff, wfPayload_iff] at h
  obtain ⟨⟨h1, h2, h5⟩, h3⟩ := h
  simp [Instr.isCommand, decodeWire, encodeWire, h1, h2, h5, decodeX32, takeBits_bitsOf_lt, h3]

theorem elf32XNew (b : BitVec 3) (p : BitVec 32) : Statement (.elf32XNew b p) := by
  intro c rest bits h
  simp only [wellFormed, Bool.and_eq_true, wfPlace_iff, wfPayload_iff] at h
  obtain ⟨⟨h1, h2, h5⟩, h3⟩ := h
  simp [Instr.isCommand, decodeWire, encodeWire, h1, h2, h5, decodeX32, List.append_assoc, takeBits_bitsOf_lt, h3]

theorem constructEnc (g : EncConfig) : Statement (.constructEnc g) := by
  intro c rest bits h
  simp only [wellFormed, wfTables, Bool.and_eq_true, beq_iff_eq] at h
  have h1 := g.codec.isLt
  have h2 := g.capw.isLt
  have h3 := g.eps.isLt
  have h4 : g.codec.toNat % 256 = g.codec.toNat := Nat.mod_eq_of_lt (by omega)
  have h5 : g.codec.toNat < 128 := by omega
  simp [Instr.isCommand, encode, decode, decodeCmd, decodeConstruct, takeNat_bytesBE, takeBytes_append', List.append_assoc,
    h.1, h.2, h4, h5, Nat.mod_eq_of_lt h2, Nat.mod_eq_of_lt h3]

theorem constructDec (g : DecConfig) : Statement (.constructDec g) := by
  intro c rest bits h
  simp only [wellFormed, wfTables, wfBytes, Bool.and_eq_true, beq_iff_eq, decide_eq_true_eq] at h
  obtain ⟨⟨ha, hb⟩, hc⟩ := h
  have h1 := g.codec.isLt
  have h2 := g.nval.isLt
  have h4 : (128 + g.codec.toNat) % 256 = 128 + g.codec.toNat := Nat.mod_eq_of_lt (by omega)
  have h5 : BitVec.ofNat 7 (128 + g.codec.toNat) = g.codec := by
    apply BitVec.eq_of_toNat_eq; simp; omega
  simp [Instr.isCommand, encode, decode, decodeCmd, decodeConstruct, takeNat_bytesBE, takeBytes_append', List.append_assoc,
    takeSeq_encode g.bytes rest hc, ha, hb, h4, h5, Nat.mod_eq_of_lt h2]

theorem addValue (v : BitVec 64) : Statement (.addValue v) := by
  intro c rest bits h
  have hv := v.isLt
  simp [Instr.isCommand, encode, decode, decodeCmd, takeNat_bytesBE, Nat.mod_eq_of_lt hv]

theorem close : Statement .close := fun _ _ _ _ => rfl
theorem getBytes : Statement .getBytes := fun _ _ _ _ => rfl
theorem getSize : Statement .getSize := fun _ _ _ _ => rfl
theorem next : Statement .next := fun _ _ _ _ => rfl
theorem decompress : Statement .decompress := fun _ _ _ _ => rfl

theorem write (v : BitVec 64) (n : Byte) : Statement (.write v n) := by
  intro c rest bits h
  have hv := v.isLt
  simp [Instr.isCommand, encode, decode, decodeCmd, decodeWrite, takeNat_bytesBE, List.append_assoc, Nat.mod_eq_of_lt hv]

theorem writeLong (v : BitVec 64) (n : Byte) : Statement (.writeLong v n) := by
  intro c rest bits h
  have hv := v.isLt
  simp [Instr.isCommand, encode, decode, decodeCmd, decodeWrite, takeNat_bytesBE, List.append_assoc, Nat.mod_eq_of_lt hv]

theorem writeBit (b : Bool) : Statement (.writeBit b) := by
  intro c rest bits h
  cases b <;> simp [Instr.isCommand, encode, decode, decodeCmd]

theorem flush : Statement .flush := fun _ _ _ _ => rfl

theorem getBuffer (n : BitVec 32) : Statement (.getBuffer n) := by
  intro c rest bits h
  have hn := n.isLt
  simp [Instr.isCommand, encode, decode, decodeCmd, takeNat_bytesBE, Nat.mod_eq_of_lt hn]

theorem load (bs : List Byte) : Statement (.load bs) := by
  intro c rest bits h
  simp only [wellFormed, wfBytes, decide_eq_true_eq] at h
  simp [Instr.isCommand, encode, decode, decodeCmd, takeSeq_encode bs rest h, List.append_assoc]

theorem peek (n : Byte) : Statement (.peek n) := by
  intro c rest bits h; simp [Instr.isCommand, encode, decode, decodeCmd, decodeLen]

theorem forward (n : Byte) : Statement (.forward n) := by
  intro c rest bits h; simp [Instr.isCommand, encode, decode, decodeCmd, decodeLen]

theorem readInt (n : Byte) : Statement (.readInt n) := by
  intro c rest bits h; simp [Instr.isCommand, encode, decode, decodeCmd, decodeLen]

theorem readLong (n : Byte) : Statement (.readLong n) := by
  intro c rest bits h; simp [Instr.isCommand, encode, decode, decodeCmd, decodeLen]

theorem readBit : Statement .readBit := fun _ _ _ _ => rfl

end CodecRoundTrip
end Laws
end Sys2Proof
end

