-- ==== Sys2Proof/Tests/Slice0.lean ====
section
/-! SUPPORT. The model's own tests: ill-formed terms refused, every constructor's decoding from a word written out from
30_encoding.md, single steps against 95_test_vectors.md, and for every statement with hypotheses a witness. -/

namespace Sys2Proof
namespace Tests

-- One theorem after another: the check of the whole package then needs few threads.
set_option Elab.async false

open Machine

/-! ## Helpers -/

/-- Stream bits written as digits. -/
def bits (l : List Nat) : List Bool := l.map (· == 1)

/-- A fresh encoder with the default tables. -/
def enc (codec : Codec) (logw capw : Nat) (eps : Raw) : State :=
  State.reset.construct codec .enc logw capw eps 0 Config.defaultLeadRep Config.defaultLeadRep

/-- A fresh codec decoder over the given bytes, with the default tables. -/
def dec (codec : Codec) (logw nval : Nat) (bytes : List Byte) : State :=
  (State.reset.construct codec .dec logw 0 0 nval Config.defaultLeadRep Config.defaultLeadRep).loadBytes bytes

/-- A fresh bare reader. -/
def reader : State :=
  State.reset.construct .bs .dec 0 0 0 0 Config.defaultLeadRep Config.defaultLeadRep

/-- The state after an instruction that answers a next state. -/
def after (i : Instr) (s : State) : State :=
  match exec i s with
  | .next t => t
  | .fault _ => s
  | .refused _ => s

/-- A place of a stream after the first value, nothing cached. -/
def place (codec : Codec) (logw : Nat) : WireCtx :=
  { codec := codec, logw := logw, rep := Config.defaultLeadRep, clead := none, ctrail := 0, first := false, mid := false,
    slots := [] }

/-- Operands of an encoder's CONSTRUCT. -/
def encCfg (codec : BitVec 7) (logw : Byte) (capw : BitVec 32) (eps : BitVec 64) : EncConfig :=
  { codec := codec, logw := logw, capw := capw, eps := eps, lead64 := [0, 8, 12, 16, 18, 20, 22, 24],
    lead32 := [0, 8, 12, 16, 18, 20, 22, 24] }

/-- Operands of a decoder's CONSTRUCT. -/
def decCfg (codec : BitVec 7) (logw : Byte) (nval : BitVec 32) (bytes : List Byte) : DecConfig :=
  { codec := codec, logw := logw, nval := nval, lead64 := [0, 8, 12, 16, 18, 20, 22, 24],
    lead32 := [0, 8, 12, 16, 18, 20, 22, 24], bytes := bytes }

/-! ## WellFormed refuses ill-formed terms, one for each check -/

theorem test_wf_slot : wellFormed (place .chp64 7) (.chp64Repeat 128) = false := by decide
theorem test_wf_payload : wellFormed (place .gor 0) (.gorNew 1 11 0x800) = false := by decide
theorem test_wf_payload_far : wellFormed { place .chp32 3 with slots := [2] } (.chp32Far 2 0 9 0x200) = false := by decide
theorem test_wf_payload_reuse : wellFormed { place .chp64 7 with clead := some 24 } (.chp64Reuse 0x10000000000) = false := by
  decide
theorem test_wf_place : wellFormed (place .gor 0) (.gorLit 5) = false := by decide
theorem test_wf_unit : wellFormed (place .gor 0) (.chp64Repeat 0) = false := by decide
theorem test_wf_erasure : wellFormed { place .elf64 0 with mid := true } .elf64Raw = false := by decide
theorem test_wf_tables : wellFormed (place .gor 0) (.constructEnc { encCfg 0 0 1 0 with lead64 := [0, 8] }) = false := by decide
theorem test_wf_bytes (bs : List Byte) (h : bs.length = 4294967296) : wellFormed (place .gor 0) (.load bs) = false := by
  simp [wellFormed, wfBytes, h]

/-! ## Decoding: words written out from rules R101 to R104 and R112 -/

theorem test_gorLit : decodeWire { place .gor 0 with first := true } (bits
    ([0,0,1,1, 1,1,1,1, 1,1,1,1, 0,0,0,0] ++ List.replicate 48 0)) = some (.gorLit 0x3FF0000000000000, []) := by decide
theorem test_gorSame : decodeWire (place .gor 0) (bits [0, 1]) = some (.gorSame, [true]) := by decide
theorem test_gorReuse : decodeWire { place .gor 0 with clead := some 12, ctrail := 41 }
    (bits [1,0, 1,0,0,0,0,0,0,0,0,0,1]) = some (.gorReuse 0x401, []) := by decide
theorem test_gorNew : decodeWire (place .gor 0) (bits [1,1, 0,0,0,0,1, 0,0,1,0,1,1, 1,1,1,1,1,1,1,1,1,1,1]) =
    some (.gorNew 1 11 0x7FF, []) := by decide
theorem test_gorNew_count_zero : decodeWire (place .gor 0)
    (bits ([1,1, 0,0,0,0,0, 0,0,0,0,0,0, 1] ++ List.replicate 62 0 ++ [1])) = some (.gorNew 0 0 0x8000000000000001, []) := by
  decide
theorem test_chp64Lit : decodeWire { place .chp64 7 with first := true } (bits
    ([0,1,0,0, 0,0,0,0, 0,1,0,1, 1,0,0,1] ++ List.replicate 48 0)) = some (.chp64Lit 0x4059000000000000, []) := by decide
theorem test_chp64Repeat : decodeWire (place .chp64 7) (bits [0,0, 0,0,0,1,0,1,0]) = some (.chp64Repeat 10, []) := by decide
theorem test_chp64Far : decodeWire { place .chp64 7 with slots := [10] }
    (bits [0,1, 0,0,0,1,0,1,0, 1,1,1, 0,1,1,0,0,0, 0,0,0,0,0,0,0,0,0,0,0,0,0,0,0,0, 1,1,1,1,1,1,1,1]) =
      some (.chp64Far 10 7 24 0xFF, []) := by decide
theorem test_chp64Reuse : decodeWire { place .chp64 7 with clead := some 12 }
    (bits ([1,0, 1,1,1,1] ++ List.replicate 47 0 ++ [1])) = some (.chp64Reuse 0xF000000000001, []) := by decide
theorem test_chp64New : decodeWire (place .chp64 7) (bits ([1,1, 0,1,0, 1,1,1,1] ++ List.replicate 47 0 ++ [1])) =
    some (.chp64New 2 0xF000000000001, []) := by decide
theorem test_chp32Lit : decodeWire { place .chp32 3 with first := true } (bits
    ([0,0,1,1, 1,1,1,1, 1,0,0,0, 0,0,0,0] ++ List.replicate 16 0)) = some (.chp32Lit 0x3F800000, []) := by decide
theorem test_chp32Repeat : decodeWire (place .chp32 3) (bits [0,0, 1,0,0]) = some (.chp32Repeat 4, []) := by decide
theorem test_chp32Far : decodeWire { place .chp32 3 with slots := [0] }
    (bits [0,1, 0,0,0, 0,0,0, 0,1,0,0,1, 0,1,1,1,1,1,1,1,1]) = some (.chp32Far 0 0 9 0xFF, []) := by decide
theorem test_chp32Reuse : decodeWire { place .chp32 3 with clead := some 24 } (bits [1,0, 0,0,0,0,0,0,1,0]) =
    some (.chp32Reuse 2, []) := by decide
theorem test_chp32New : decodeWire (place .chp32 3) (bits [1,1, 1,1,1, 0,0,0,0,0,0,0,1]) = some (.chp32New 7 1, []) := by decide
theorem test_elf64EraseSame : decodeWire (place .elf64 0) (bits [0]) = some (.elf64EraseSame, []) := by decide
theorem test_elf64Raw : decodeWire (place .elf64 0) (bits [1,0]) = some (.elf64Raw, []) := by decide
theorem test_elf64EraseNew : decodeWire (place .elf64 0) (bits [1,1, 1,0,1,1]) = some (.elf64EraseNew 11, []) := by decide
theorem test_elf64XLit : decodeWire { place .elf64 0 with first := true, mid := true }
    (bits ([0,1,0,0, 0,0,0,0, 0,1,0,1, 1,0,0,1] ++ List.replicate 48 0)) = some (.elf64XLit 0x4059000000000000, []) := by decide
theorem test_elf64XRepeat : decodeWire { place .elf64 0 with mid := true } (bits [0,0]) = some (.elf64XRepeat, []) := by decide
theorem test_elf64XFar : decodeWire { place .elf64 0 with mid := true, slots := [0] } (bits [0,1, 1,0,0, 0,0,0,0,0,1, 1]) =
    some (.elf64XFar 4 1 1, []) := by decide
theorem test_elf64XReuse : decodeWire { place .elf64 0 with mid := true, clead := some 24 }
    (bits ([1,0] ++ List.replicate 38 0 ++ [1,1])) = some (.elf64XReuse 3, []) := by decide
theorem test_elf64XNew : decodeWire { place .elf64 0 with mid := true } (bits ([1,1, 1,1,1] ++ List.replicate 39 0 ++ [1])) =
    some (.elf64XNew 7 1, []) := by decide
theorem test_elf32EraseSame : decodeWire (place .elf32 0) (bits [0]) = some (.elf32EraseSame, []) := by decide
theorem test_elf32Raw : decodeWire (place .elf32 0) (bits [1,0]) = some (.elf32Raw, []) := by decide
theorem test_elf32EraseNew : decodeWire (place .elf32 0) (bits [1,1, 0,1,1]) = some (.elf32EraseNew 3, []) := by decide
theorem test_elf32XLit : decodeWire { place .elf32 0 with first := true, mid := true }
    (bits ([0,1,0,0, 0,0,0,0, 0,1,0,0, 1,0,0,0, 1] ++ List.replicate 15 0)) = some (.elf32XLit 0x40488000, []) := by decide
theorem test_elf32XRepeat : decodeWire { place .elf32 0 with mid := true } (bits [0,0]) = some (.elf32XRepeat, []) := by decide
theorem test_elf32XFar : decodeWire { place .elf32 0 with mid := true, slots := [0] } (bits [0,1, 0,0,1, 0,0,0,1,0, 1,0]) =
    some (.elf32XFar 1 2 2, []) := by decide
theorem test_elf32XReuse : decodeWire { place .elf32 0 with mid := true, clead := some 24 } (bits [1,0, 1,0,0,0,0,0,0,1]) =
    some (.elf32XReuse 0x81, []) := by decide
theorem test_elf32XNew : decodeWire { place .elf32 0 with mid := true } (bits [1,1, 1,1,1, 1,0,0,0,0,0,0,1]) =
    some (.elf32XNew 7 0x81, []) := by decide

theorem test_constructEnc : decode ([0x01, 0x03, 0, 0, 0, 0, 3, 0x3F, 0x50, 0x62, 0x4D, 0xD2, 0xF1, 0xA9, 0xFC,
      0, 8, 12, 16, 18, 20, 22, 24, 0, 8, 12, 16, 18, 20, 22, 24]) =
    .command (.constructEnc (encCfg 3 0 3 0x3F50624DD2F1A9FC)) [] := by decide
theorem test_constructDec : decode ([0x01, 0x83, 0, 0, 0, 0, 2,
      0, 8, 12, 16, 18, 20, 22, 24, 0, 8, 12, 16, 18, 20, 22, 24, 0, 0, 0, 2, 0xC4, 0x00]) =
    .command (.constructDec (decCfg 3 0 2 [0xC4, 0x00])) [] := by decide
theorem test_addValue : decode [0x02, 0x40, 0x09, 0x1E, 0xB8, 0x51, 0xEB, 0x85, 0x1F] =
    .command (.addValue 0x40091EB851EB851F) [] := by decide
theorem test_close : decode [0x03] = .command .close [] := by decide
theorem test_getBytes : decode [0x04] = .command .getBytes [] := by decide
theorem test_getSize : decode [0x05] = .command .getSize [] := by decide
theorem test_next : decode [0x06, 0x07] = .command .next [0x07] := by decide
theorem test_decompress : decode [0x07] = .command .decompress [] := by decide
theorem test_write : decode [0x10, 0, 0, 0, 0, 0, 0, 0, 0xFF, 2] = .command (.write 0xFF 2) [] := by decide
theorem test_writeLong : decode [0x11, 0, 0, 0, 0x12, 0x34, 0x56, 0x78, 0x9A, 40] =
    .command (.writeLong 0x123456789A 40) [] := by decide
theorem test_writeBit : decode [0x12, 1] = .command (.writeBit true) [] := by decide
theorem test_flush : decode [0x13] = .command .flush [] := by decide
theorem test_getBuffer : decode [0x14, 0, 0, 0, 8] = .command (.getBuffer 8) [] := by decide
theorem test_load : decode [0x18, 0, 0, 0, 1, 0xB8, 0x06] = .command (.load [0xB8]) [0x06] := by decide
theorem test_peek : decode [0x19, 12] = .command (.peek 12) [] := by decide
theorem test_forward : decode [0x1A, 8] = .command (.forward 8) [] := by decide
theorem test_readInt : decode [0x1B, 3] = .command (.readInt 3) [] := by decide
theorem test_readLong : decode [0x1C, 64] = .command (.readLong 64) [] := by decide
theorem test_readBit : decode [0x1D] = .command .readBit [] := by decide
theorem test_not_a_command : decode [0x08, 0x06] = .notCommand 0x08 [0x06] := by decide
theorem test_incomplete : decode [0x02, 0x40] = .incomplete := by decide

/-! ## Single steps against 95_test_vectors.md -/

/-- A decoder that has delivered `v` as its first value. -/
def decAfter (codec : Codec) (logw : Nat) (v : Raw) : State :=
  { dec codec logw 0 [] with first := false, prev := some v, ring := [(0, v)], count := 1 }

/-- An ELF decoder behind an erasure code. -/
def elfMid (codec : Codec) (v : Raw) (erased : Bool) (b : Option Nat) : State :=
  { decAfter codec 0 v with pend := some erased, lastbs := b }

/-- A bare writer. -/
def writer (capw : Nat) : State := enc .bs 0 capw 0

/-- A bare reader with the six bytes of V-B5 loaded. -/
def readerB5 : State := reader.loadBytes [0xB8, 0x91, 0xA2, 0xB3, 0xC4, 0xD4]

-- GOR (P1, V-G2, V-G3, V-G6, V-G9)
theorem test_step_gorLit : (after (.gorLit 0x3FF0000000000000) (dec .gor 0 0 [])).resp =
    some (.ok (.value 0x3FF0000000000000)) := by decide
theorem test_step_gorLit_sentinel : (after (.gorLit 0x7FF8000000000000) (dec .gor 0 0 [])).phase = .done := by decide
theorem test_step_gorSame : (after .gorSame (decAfter .gor 0 0x3FF0000000000000)).count = 2 := by decide
theorem test_step_gorReuse : (after (.gorReuse 1)
      { decAfter .gor 0 0x4000000000000000 with clead := some 1, ctrail := 52 }).prev = some 0x4010000000000000 := by decide
theorem test_step_gorReuse_no_window : (after (.gorReuse 0) (decAfter .gor 0 0x3FF0000000000000)).errsub =
    some .reuseNoWindow := by decide
theorem test_step_gorNew : (after (.gorNew 1 11 0x7FF) (decAfter .gor 0 0x3FF0000000000000)).prev =
    some 0x4000000000000000 := by decide
theorem test_step_gorNew_bad_window : (after (.gorNew 31 0 0) (decAfter .gor 0 0x3FF0000000000000)).errsub =
    some .badWindow := by decide
-- CHP64 (V-C1, V-C6)
theorem test_step_chp64Lit : (after (.chp64Lit 0x3FF0000000000000) (dec .chp64 7 0 [])).ring = [(0, 0x3FF0000000000000)] := by
  decide
theorem test_step_chp64Repeat : (after (.chp64Repeat 0) (decAfter .chp64 7 0x3FF0000000000000)).cur = 1 := by decide
theorem test_step_chp64Repeat_unwritten : (after (.chp64Repeat 5) (decAfter .chp64 7 0x3FF0000000000000)).errsub =
    some .slotUnwritten := by decide
theorem test_step_chp64Far : (after (.chp64Far 0 0 12 0x7FF) (decAfter .chp64 7 0x3FF0000000000000)).prev =
    some 0x4000000000000000 := by decide
theorem test_step_chp64Far_bad_window : (after (.chp64Far 0 7 0 0) (decAfter .chp64 7 0x3FF0000000000000)).errsub =
    some .badWindow := by decide
theorem test_step_chp64Reuse : (after (.chp64Reuse 2) { decAfter .chp64 7 0x4000000000000001 with clead := some 24 }).prev =
    some 0x4000000000000003 := by decide
theorem test_step_chp64New : (after (.chp64New 7 1) (decAfter .chp64 7 0x4000000000000000)).clead = some 24 := by decide
-- CHP32 (V-C3, V-C6)
theorem test_step_chp32Lit : (after (.chp32Lit 0x3F800000) (dec .chp32 3 0 [])).prev = some 0x3F800000 := by decide
theorem test_step_chp32Lit_sentinel : (after (.chp32Lit 0x7FC00000) (dec .chp32 3 0 [])).resp = some (.ok .endOfBlock) := by
  decide
theorem test_step_chp32Repeat : (after (.chp32Repeat 0) (decAfter .chp32 3 0x3F800000)).prev = some 0x3F800000 := by decide
theorem test_step_chp32Far : (after (.chp32Far 0 0 9 0xFF) (decAfter .chp32 3 0x3F800000)).prev = some 0x40000000 := by decide
theorem test_step_chp32Far_bad_window : (after (.chp32Far 0 7 9 0) (decAfter .chp32 3 0x3F800000)).errsub =
    some .badWindow := by decide
theorem test_step_chp32Reuse : (after (.chp32Reuse 2) { decAfter .chp32 3 0x40000001 with clead := some 24 }).prev =
    some 0x40000003 := by decide
theorem test_step_chp32New : (after (.chp32New 7 1) (decAfter .chp32 3 0x40000000)).prev = some 0x40000001 := by decide
-- ELF64 (V-E2, V-E7, P3)
theorem test_step_elf64EraseSame : (after .elf64EraseSame (dec .elf64 0 1 [])).errsub = some .eraseNoBetaStar := by decide
theorem test_step_elf64Raw : (after .elf64Raw (dec .elf64 0 1 [])).pend = some false := by decide
theorem test_step_elf64EraseNew : (after (.elf64EraseNew 1) (dec .elf64 0 1 [])).lastbs = some 1 := by decide
theorem test_step_elf64XLit : (after (.elf64XLit 0x4009100000000000)
      { dec .elf64 0 1 [] with pend := some true, lastbs := some 3 }).resp = some (.ok (.value 0x40091EB851EB851F)) := by
  decide +kernel
theorem test_step_elf64XLit_domain : (after (.elf64XLit 0) { dec .elf64 0 1 [] with pend := some true, lastbs := some 1 }).errsub =
    some .recoverDomain := by decide +kernel
theorem test_step_elf64XRepeat : (after .elf64XRepeat (elfMid .elf64 0x4059000000000000 true (some 1))).resp =
    some (.ok (.value 0x4059000000000000)) := by decide +kernel
theorem test_step_elf64XFar : (after (.elf64XFar 4 1 1) (elfMid .elf64 0x4009100000000000 true (some 3))).resp =
    some (.ok (.value 0x4009333333333333)) := by decide +kernel
theorem test_step_elf64XFar_holds_erased : (after (.elf64XFar 4 1 1) (elfMid .elf64 0x4009100000000000 true (some 3))).prev =
    some 0x4009300000000000 := by decide +kernel
theorem test_step_elf64XReuse : (after (.elf64XReuse 3) { elfMid .elf64 1 false none with clead := some 24 }).prev = some 2 := by
  decide
theorem test_step_elf64XNew : (after (.elf64XNew 0 0x8000000000000000) (elfMid .elf64 0 false none)).resp =
    some (.ok (.value 0x8000000000000000)) := by decide
-- ELF32 (V-E3)
theorem test_step_elf32EraseSame : (after .elf32EraseSame { dec .elf32 0 1 [] with lastbs := some 3 }).pend = some true := by
  decide
theorem test_step_elf32Raw : (after .elf32Raw (dec .elf32 0 1 [])).pend = some false := by decide
theorem test_step_elf32EraseNew : (after (.elf32EraseNew 3) (dec .elf32 0 1 [])).lastbs = some 3 := by decide
theorem test_step_elf32XLit : (after (.elf32XLit 0x40488000)
      { dec .elf32 0 1 [] with pend := some true, lastbs := some 3 }).resp = some (.ok (.value 0x4048F5C3)) := by
  decide +kernel
theorem test_step_elf32XRepeat : (after .elf32XRepeat (elfMid .elf32 0x40488000 true (some 3))).resp =
    some (.ok (.value 0x4048F5C3)) := by decide +kernel
theorem test_step_elf32XFar : (after (.elf32XFar 1 2 2) (elfMid .elf32 0x42C80000 false none)).prev =
    some 0x42480000 := by decide
theorem test_step_elf32XReuse : (after (.elf32XReuse 0x81) { elfMid .elf32 0x40000001 false none with clead := some 24 }).prev =
    some 0x40000080 := by decide
theorem test_step_elf32XNew : (after (.elf32XNew 0 0x80000000) (elfMid .elf32 0 false none)).prev = some 0x80000000 := by decide
-- codec commands (P1, P3, V-G2, V-G6, V-C1, V-E1, V-E7, V-K1, V-K2, V-K3)
theorem test_step_constructEnc : (after (.constructEnc (encCfg 1 17 1 0)) State.reset).resp =
    some (.fail .usageError .badConfig) := by decide
theorem test_step_constructEnc_minus_zero : (after (.constructEnc (encCfg 3 0 1 0x8000000000000000)) State.reset).codec =
    .elf64 := by decide
theorem test_step_constructDec : (after (.constructDec (decCfg 3 0 2 [0x90, 0x16])) State.reset).lenBits = 16 := by decide
theorem test_step_addValue_gor_new :
    (after (.addValue 0x4000000000000000) (after (.addValue 0x3FF0000000000000) (enc .gor 0 8 0))).stream.drop 64 =
      bits [1,1, 0,0,0,0,1, 0,0,1,0,1,1, 1,1,1,1,1,1,1,1,1,1,1] := by decide +kernel
theorem test_step_addValue_chp64_far :
    (after (.addValue 0x4000000000000000) (after (.addValue 0x3FF0000000000000) (enc .chp64 7 8 0))).stream.drop 64 =
      bits [0,1, 0,0,0,0,0,0,0, 0,0,0, 0,0,1,1,0,0, 0,1,1,1,1,1,1,1,1,1,1,1] := by decide +kernel
theorem test_step_addValue_elf64 :
    (after (.addValue 0x40590001A36E2EB2) (after (.addValue 0x4059000000000000) (enc .elf64 0 8 0x3F50624DD2F1A9FC))).stream.drop
      66 = bits [1,1, 0,0,0,1, 0,0] := by decide +kernel
theorem test_step_addValue_elf64_inf : (after (.addValue 0xFFF0000000000000) (enc .elf64 0 8 0)).err = some .domainError := by
  decide
theorem test_step_close : (after .close (enc .gor 0 8 0)).size = 64 := by decide +kernel
theorem test_step_close_elf : (after .close (enc .elf64 0 0 0)).phase = .closed := by decide
theorem test_step_getBytes : (after .getBytes (after .close (enc .gor 0 8 0))).resp =
    some (.ok (.bytes [0x7F, 0xF8, 0, 0, 0, 0, 0, 0])) := by decide +kernel
theorem test_step_getSize : (after .getSize (after (.addValue 0x3FF0000000000000) (enc .gor 0 4 0))).resp =
    some (.ok (.num 64)) := by decide +kernel
theorem test_step_next : (after .next (dec .gor 0 0 [0x3F, 0xF0, 0, 0, 0, 0, 0, 0, 0x30, 0x99, 0x00, 0x20])).rpos = 64 := by
  decide +kernel
theorem test_step_next_empty : (after .next (dec .gor 0 0 [])).errsub = some .pastEnd := by decide +kernel
theorem test_step_decompress :
    (after .decompress (dec .gor 0 0 [0x3F, 0xF0, 0, 0, 0, 0, 0, 0, 0x30, 0x99, 0x00, 0x20])).resp =
      some (.ok (.values [0x3FF0000000000000, 0x3FF0000000000000, 0x3FF0000000000000])) := by decide +kernel
-- bit-stream unit commands (V-B1 to V-B6)
theorem test_step_write : (after (.write 0xFF 2) (after (.write 0x5 3) (writer 2))).stream = bits [1,0,1, 1,1] := by decide
theorem test_step_write_full : (after (.write 0 1) (writer 0)).err = some .capacityExceeded := by decide
theorem test_step_writeLong : (after (.writeLong 0x3FF0000000000000 64) (writer 2)).wbufWord 0 = some 0x3FF00000 := by decide +kernel
theorem test_step_writeLong_flushed : (after (.writeLong 0 65) (after .flush (writer 1))).resp =
    some (.fail .usageError .writeAfterFlush) := by decide
theorem test_step_writeBit : (after (.writeBit true) (writer 1)).stream = [true] := by decide
theorem test_step_flush : (after .flush (after (.write 0xFFFFFFFF 4) (writer 1))).wbufWord 0 = some 0xF0000000 := by decide +kernel
theorem test_step_getBuffer : (after (.getBuffer 1) (after .flush (after (.write 0x17 5) (writer 1)))).resp =
    some (.ok (.bytes [0xB8])) := by decide +kernel
theorem test_step_getBuffer_beyond : (after (.getBuffer 5) (after .flush (after (.write 0x17 5) (writer 1)))).resp =
    some (.fail .usageError .badLength) := by decide +kernel
theorem test_step_load : (after (.load [0xB8]) reader).lenBits = 8 := by decide
theorem test_step_load_twice : (after (.load [0xB8]) readerB5).resp = some (.fail .usageError .reload) := by decide
theorem test_step_peek : (after (.peek 12) readerB5).resp = some (.ok (.num 0xB89)) := by decide +kernel
theorem test_step_forward : (after (.forward 1) { readerB5 with rpos := 48 }).pastEnd = true := by decide
theorem test_step_forward_to_the_end : (after (.forward 2) { readerB5 with rpos := 46 }).pastEnd = false := by decide
theorem test_step_readInt : (after (.readInt 2) { readerB5 with rpos := 3 }).resp = some (.ok (.num 3)) := by decide +kernel
theorem test_step_readLong : (after (.readLong 40) { readerB5 with rpos := 5 }).resp = some (.ok (.num 0x123456789A)) := by decide +kernel
theorem test_step_readBit : (after .readBit { readerB5 with rpos := 45 }).resp = some (.ok (.num 1)) := by decide

/-- The defaults of rule R10: LOGW 7, so W = 128 and T = 13 and 12; a CONSTRUCT that offers them is legal. -/
theorem test_defaultLogw : ringSize (Config.defaultLogw .chp64) = 128 ∧ threshold 64 (Config.defaultLogw .chp64) = 13 ∧
    threshold 32 (Config.defaultLogw .chp32) = 12 := by decide
theorem test_defaultEnc : after (.constructEnc (defaultEnc .chp64 8 0)) State.reset =
    { enc .chp64 7 8 0 with resp := some (.ok .unit) } := by decide

/-- The host's word of a table row runs as the first step after reset. -/
theorem test_withFetchWord : (step (State.reset.withFetchWord 8 5)) =
    .next (after .getSize { State.reset with port := List.replicate 32 0 }) := rfl
theorem test_withFetchWord_wire : decodeTableWord 64 0x3FF = some (.gorLit 0x3FF) := by decide

/-! ## Witnesses: states and operands that meet the hypotheses of each statement, clause by clause -/

theorem inv_enc (codec : Codec) (logw capw : Nat) (eps : Raw) (h1 : codec = .chp64 ∨ codec = .chp32 → logw ≤ 16)
    (h2 : capw ≤ 134217727) (h3 : legalEps eps = true) : Inv (enc codec logw capw eps) :=
  constructed_inv _ _ _ _ _ _ _ _ _ h1 (fun _ => h2) (fun _ _ => h3) (by omega)
    (fun _ => by split <;> decide) (by simp)

theorem inv_dec (codec : Codec) (logw nval : Nat) (bs : List Byte) (h0 : codec ≠ .bs)
    (h1 : codec = .chp64 ∨ codec = .chp32 → logw ≤ 16) (h2 : nval < 2 ^ 32) (h3 : bs.length < maxLoad) :
    Inv (dec codec logw nval bs) :=
  constructedLoad_inv _ _ _ _ _ _ _ h0 h1 h2 (fun _ => by split <;> decide) h3

theorem inv_add {s : State} (h : Inv s) (v : BitVec 64) : Inv (after (.addValue v) s) := by
  obtain ⟨t, ht, hi⟩ := addValue_inv h v
  simpa [after, exec, ht] using hi

theorem inv_close {s : State} (h : Inv s) : Inv (after .close s) := by
  obtain ⟨t, ht, hi⟩ := close_inv h
  simpa [after, exec, ht] using hi

/-- A GOR encoder that holds 1.0. -/
def gor1 : State := after (.addValue 0x3FF0000000000000) (enc .gor 0 8 0)

/-- A GOR encoder that holds 1.0 and 2.0, its window (1, 52). -/
def gor2 : State := after (.addValue 0x4000000000000000) gor1

/-- A CHP64 encoder (W = 1) that holds 1.0. -/
def chp1 : State := after (.addValue 0x3FF0000000000000) (enc .chp64 0 8 0)

/-- An ELF64 encoder that holds 100.0. -/
def elf1 : State := after (.addValue 0x4059000000000000) (enc .elf64 0 8 0x3F50624DD2F1A9FC)

/-- A GOR encoder in FAULT: a buffer of no words. -/
def faulty : State := after (.addValue 0) (enc .gor 0 0 0)

theorem inv_gor1 : Inv gor1 := inv_add (inv_enc .gor 0 8 0 (by simp) (by omega) (by decide)) _
theorem inv_chp1 : Inv chp1 := inv_add (inv_enc .chp64 0 8 0 (by simp) (by omega) (by decide)) _
theorem inv_elf1 : Inv elf1 := inv_add (inv_enc .elf64 0 8 _ (by simp) (by omega) (by decide)) _
theorem inv_faulty : Inv faulty := inv_add (inv_enc .gor 0 0 0 (by simp) (by omega) (by decide)) _

theorem witness_WireCodesRoundTrip :
    wellFormed (place .gor 0) (.gorNew 31 33 0x1FFFFFFFF) = true ∧ wellFormed (place .gor 0) (.gorNew 0 0 0xFFFFFFFFFFFFFFFF) = true ∧
    wellFormed { place .chp64 16 with slots := [65535] } (.chp64Far 65535 7 40 0xFFFFFFFFFF) = true ∧
    (Instr.chp64Far 65535 7 40 0xFFFFFFFFFF).isCommand = false := by decide
theorem witness_CommandsRoundTrip :
    wellFormed (place .gor 0) (.constructDec (decCfg 5 0 0 [])) = true ∧ wellFormed (place .gor 0) (.load [0xB8]) = true ∧
    (Instr.load [0xB8]).isCommand = true := by decide
theorem witness_DecodedInstructionsAreWellFormed :
    (place .gor 0).logw ≤ 16 ∧ ((place .gor 0).mid = true → isElf (place .gor 0).codec = true) ∧
    decodeWire (place .gor 0) [false, true] = some (.gorSame, [true]) ∧ decode [0x03, 0x04] = .command .close [0x04] ∧
    (∀ b, Instr.close ≠ .writeBit b) ∧ decode [0x12, 0xFE, 0x04] = .command (.writeBit false) [0x04] :=
  ⟨by decide, by decide, by decide, by decide, by simp, by decide⟩
theorem witness_EveryBitStringDecodes :
    (place .chp64 16).codec ≠ .bs ∧ (place .chp64 16).logw + 77 ≤ (List.replicate 93 true).length := by decide
theorem witness_WireCodeLengths :
    (wellFormed (place .gor 0) (.gorNew 0 0 0) = true ∧ (encodeWire (place .gor 0) (.gorNew 0 0 0)).length = 77) ∧
    (wellFormed { place .chp64 16 with slots := [0] } (.chp64Far 0 0 0 0) = true ∧
      (encodeWire { place .chp64 16 with slots := [0] } (.chp64Far 0 0 0 0)).length = 91) ∧
    (wellFormed { place .chp32 16 with slots := [0] } (.chp32Far 0 0 0 0) = true ∧
      (encodeWire { place .chp32 16 with slots := [0] } (.chp32Far 0 0 0 0)).length = 58) ∧
    (wellFormed (place .elf64 0) (.elf64EraseNew 15) = true ∧ (encodeWire (place .elf64 0) (.elf64EraseNew 15)).length = 6) ∧
    (wellFormed { place .elf64 0 with mid := true, slots := [0] } (.elf64XFar 0 0 0) = true ∧
      (encodeWire { place .elf64 0 with mid := true, slots := [0] } (.elf64XFar 0 0 0)).length = 75) ∧
    (wellFormed (place .elf32 0) (.elf32EraseNew 7) = true ∧ (encodeWire (place .elf32 0) (.elf32EraseNew 7)).length = 5) ∧
    wellFormed { place .elf32 0 with mid := true, slots := [0] } (.elf32XFar 0 0 0) = true ∧
      (encodeWire { place .elf32 0 with mid := true, slots := [0] } (.elf32XFar 0 0 0)).length = 42 := by decide
theorem witness_CommandNumbers : ∀ cmd ∈ ([0x00, 0x08, 0x0F, 0x15, 0x17, 0x1E, 0xFF] : List Byte),
    cmd ∉ ([0x01, 0x02, 0x03, 0x04, 0x05, 0x06, 0x07, 0x10, 0x11, 0x12, 0x13, 0x14, 0x18, 0x19, 0x1A, 0x1B, 0x1C, 0x1D]
      : List Byte) := by decide
theorem witness_StepTakesTheNextCommand :
    decode ({ State.reset with port := [0x05, 0x06] } : State).port = .command .getSize [0x06] ∧
    (decode State.reset.port = .incomplete ∧ State.reset.wire = false) ∧
    decode ({ State.reset with port := [0x02, 0x40] } : State).port = .incomplete := by decide

/-- A GOR decoder behind its first value, at a zero byte, asked for wire codes. -/
def sameNext : State := { decAfter .gor 0 5 with wire := true, rbuf := [(0, 0x80)], len := 2, rpos := 8 }

theorem witness_StepRunsTheWireCode :
    sameNext.port = [] ∧ sameNext.wire = true ∧ sameNext.dir = .dec ∧ sameNext.phase = .ready ∧ sameNext.codec ≠ .bs ∧
    (sameNext.pend = none → sameNext.pastEnd = false ∧ (isElf sameNext.codec = true → sameNext.count ≠ sameNext.nval)) ∧
    wellFormed sameNext.wireCtx .gorSame = true ∧ Instr.gorSame.isCommand = false ∧
    sameNext.ahead (lookahead sameNext) = encodeWire sameNext.wireCtx .gorSame ++ List.replicate 95 false := by decide +kernel

/-- An ELF64 decoder before its second record, of two; the bits ahead are `10 00`, a RAW record that repeats. -/
def rawNext : State := { decAfter .elf64 0 5 with rbuf := [(0, 0x80)], len := 1, nval := 2 }

/-- The same decoder at the bit `0`, an ERASE_SAME record, while no betaStar is cached. -/
def sameNoBeta : State := { decAfter .elf64 0 5 with rbuf := [], len := 1, nval := 2 }

theorem witness_NextRunsOneRecord_failing :
    sameNoBeta.dir = .dec ∧ sameNoBeta.phase = .ready ∧ sameNoBeta.codec ≠ .bs ∧ sameNoBeta.pend = none ∧
    sameNoBeta.pastEnd = false ∧ (isElf sameNoBeta.codec = true → sameNoBeta.count ≠ sameNoBeta.nval) ∧
    wellFormed sameNoBeta.wireCtx .elf64EraseSame = true ∧
    sameNoBeta.ahead (lookahead sameNoBeta) = encodeWire sameNoBeta.wireCtx .elf64EraseSame ++ List.replicate 95 false ∧
    (after .elf64EraseSame (sameNoBeta.advance 1)).pend = none ∧
    (after .elf64EraseSame (sameNoBeta.advance 1)).errsub = some .eraseNoBetaStar := by decide +kernel

theorem witness_NextRunsOneRecord :
    (sameNext.pend = none ∧ sameNext.pastEnd = false ∧ isElf sameNext.codec = false) ∧
    rawNext.dir = .dec ∧ rawNext.phase = .ready ∧ rawNext.codec ≠ .bs ∧ rawNext.pend = none ∧ rawNext.pastEnd = false ∧
    (isElf rawNext.codec = true → rawNext.count ≠ rawNext.nval) ∧ isElf rawNext.codec = true ∧
    wellFormed rawNext.wireCtx .elf64Raw = true ∧
    rawNext.ahead (lookahead rawNext) = encodeWire rawNext.wireCtx .elf64Raw ++ List.replicate 94 false ∧
    (after .elf64Raw (rawNext.advance 2)).pend ≠ none ∧
    wellFormed (after .elf64Raw (rawNext.advance 2)).wireCtx .elf64XRepeat = true ∧
    (after .elf64Raw (rawNext.advance 2)).ahead 96 =
      encodeWire (after .elf64Raw (rawNext.advance 2)).wireCtx .elf64XRepeat ++ List.replicate 94 false := by decide +kernel
theorem witness_ConstructEncoderResets :
    ((encCfg 1 16 134217727 0).codec.toNat = codecCode .chp64 ∧ (encCfg 1 16 134217727 0).logw.toNat ≤ 16 ∧
      (encCfg 1 16 134217727 0).capw.toNat ≤ 2 ^ 27 - 1) ∧
    (encCfg 3 0 0 0x8000000000000000).codec.toNat = codecCode .elf64 ∧ isElf .elf64 = true ∧
    isNaN 64 0x8000000000000000 = false ∧ isInf 64 0x8000000000000000 = false ∧
    (signBit 64 0x8000000000000000 = true → isZero 64 0x8000000000000000 = true) ∧
    legalLeadRep (([0, 8, 12, 16, 18, 20, 22, 31] : List Byte).map BitVec.toNat) = true := by decide
theorem witness_ConstructDecoderResets :
    (decCfg 2 16 0 []).codec.toNat = codecCode .chp32 ∧ (decCfg 2 16 0 []).logw.toNat ≤ 16 ∧ (decCfg 2 16 0 []).bytes.length < 2 ^ 29 ∧
    legalLeadRep ((decCfg 2 16 0 []).lead32.map BitVec.toNat) = true ∧ (decCfg 5 0 0 []).codec.toNat = codecCode .bs := by decide
theorem witness_ConstructRefusesBadConfig :
    5 < (encCfg 6 0 0 0).codec.toNat ∧ 16 < (encCfg 1 17 0 0).logw.toNat ∧ 2 ^ 27 - 1 < (encCfg 0 0 134217728 0).capw.toNat ∧
    isNaN 64 0x7FF8000000000000 = true ∧ isInf 64 0x7FF0000000000000 = true ∧
    (signBit 64 0xBFF0000000000000 = true ∧ isZero 64 0xBFF0000000000000 = false) ∧
    legalLeadRep [0, 8, 12, 16, 18, 20, 22, 32] = false ∧ legalLeadRep [0, 8, 8, 16, 18, 20, 22, 24] = false := by decide
theorem witness_ConstructRefusesLongLoad : ∃ g : DecConfig, g.codec.toNat = codecCode .gor ∧ 2 ^ 29 ≤ g.bytes.length := by
  obtain ⟨l, hl⟩ : ∃ l : List Byte, l.length = 2 ^ 29 := ⟨_, List.length_replicate (a := 0)⟩
  exact ⟨decCfg 0 0 0 l, rfl, hl.ge⟩
theorem witness_WriteAppendsItsField :
    (memWf (writer 1).wbuf ∧ (writer 1).codec = .bs ∧ (writer 1).dir = .enc ∧ (writer 1).phase ≠ .fault) ∧
    (after .flush (writer 1)).flushed = true ∧ (writer 1).flushed = false ∧ 32 < (33 : Byte).toNat ∧
    32 * (writer 0).capw < (writer 0).wpos + (1 : Byte).toNat ∧ (writer 1).wpos + (32 : Byte).toNat ≤ 32 * (writer 1).capw := by
  decide
theorem witness_WriteLongAppendsItsField :
    (memWf (writer 2).wbuf ∧ (writer 2).bare .enc ∧ (writer 2).flushed = false) ∧ 64 < (65 : Byte).toNat ∧
    ((after .flush (writer 1)).bare .enc ∧ (after .flush (writer 1)).flushed = true) ∧
    32 * (writer 1).capw < (writer 1).wpos + (33 : Byte).toNat ∧ (writer 2).wpos + (64 : Byte).toNat ≤ 32 * (writer 2).capw := by
  unfold State.bare; decide
theorem witness_WriteBitAppendsOneBit :
    memWf (writer 1).wbuf ∧ (writer 1).bare .enc ∧ (writer 1).flushed = false ∧ (writer 1).wpos + 1 ≤ 32 * (writer 1).capw := by
  unfold State.bare; decide
theorem witness_FlushPads :
    (memWf (writer 1).wbuf ∧ (writer 1).bare .enc ∧ (writer 1).flushed = false) ∧
    (after .flush (writer 1)).bare .enc ∧ (after .flush (writer 1)).flushed = true := by unfold State.bare; decide
theorem witness_GetBufferReturnsTheFirstBytes :
    ((writer 1).bare .enc ∧ (writer 1).flushed = false) ∧
    (after .flush (after (.write 0x17 5) (writer 1))).flushed = true ∧
    (after .flush (after (.write 0x17 5) (writer 1))).wpos < 8 * (5 : BitVec 32).toNat ∧
    8 * (4 : BitVec 32).toNat ≤ (after .flush (after (.write 0x17 5) (writer 1))).wpos := by
  unfold State.bare; decide
theorem witness_LoadFillsTheReader :
    (readerB5.bare .dec ∧ readerB5.loaded = true) ∧ reader.bare .dec ∧ reader.loaded = false ∧
    ([0xB8] : List Byte).length < 2 ^ 29 := by unfold State.bare; decide
theorem witness_PeekReturnsTheNextBits :
    readerB5.bare .dec ∧ 32 < (33 : Byte).toNat ∧ (32 : Byte).toNat ≤ 32 := by unfold State.bare; decide
theorem witness_ForwardMovesTheCursor :
    readerB5.bare .dec ∧ 32 < (33 : Byte).toNat ∧ (32 : Byte).toNat ≤ 32 := by unfold State.bare; decide
theorem witness_ReadsReturnTheField :
    readerB5.bare .dec ∧ 32 < (33 : Byte).toNat ∧ (32 : Byte).toNat ≤ 32 ∧ 64 < (65 : Byte).toNat ∧ (64 : Byte).toNat ≤ 64 := by
  unfold State.bare; decide

/-- Two fields, of 5 and of 64 bits. -/
def twoFields : List (BitVec 64 × Byte) := [(0x17, 5), (0x3FF0000000000001, 64)]

theorem witness_WrittenFieldsReadBack :
    ((∀ f ∈ twoFields, f.2.toNat ≤ 64) ∧ ∀ n ∈ ([33, 36] : List Byte), n.toNat ≤ 64) ∧ (encCfg 5 0 3 0).codec.toNat = 5 ∧ (decCfg 5 0 0 []).codec.toNat = 5 ∧
    (encCfg 5 0 3 0).capw.toNat ≤ 2 ^ 27 - 1 ∧ (decCfg 5 0 0 []).bytes.length < 2 ^ 29 ∧
    (twoFields.map fun f => f.2.toNat).sum ≤ 32 * (encCfg 5 0 3 0).capw.toNat ∧
    (twoFields.map fun f => f.2.toNat).sum ≤ 8 * (9 : BitVec 32).toNat ∧
    8 * (9 : BitVec 32).toNat ≤ 32 * (((twoFields.map fun f => f.2.toNat).sum + 31) / 32) ∧
    (([33, 36] : List Byte).map BitVec.toNat).sum = (twoFields.map fun f => f.2.toNat).sum :=
  ⟨⟨by simp [twoFields], by simp⟩, by decide⟩
theorem witness_WordsHoldTheStream : 32 * (0 + 1) ≤ (after (.write 5 32) (writer 1)).wpos := by decide +kernel
theorem witness_GorDecodes :
    ((dec .gor 0 0 []).decoding .gor ∧ (dec .gor 0 0 []).pastEnd = false ∧ (dec .gor 0 0 []).first = true) ∧
    (decAfter .gor 0 5).decoding .gor ∧ (decAfter .gor 0 5).first = false ∧ (decAfter .gor 0 5).prev = some 5 ∧
    (31 : BitVec 5).toNat + 33 + 0 = 64 ∧ (0 : BitVec 5).toNat + 64 + 0 = 64 := by unfold State.decoding; decide
theorem witness_GorRefusesCorruptRecords :
    (decAfter .gor 0 5).decoding .gor ∧ (decAfter .gor 0 5).first = false ∧ (decAfter .gor 0 5).clead = none ∧
    64 < (1 : BitVec 5).toNat + (if (0 : BitVec 6) = 0 then 64 else (0 : BitVec 6).toNat) ∧
    64 < (31 : BitVec 5).toNat + (if (34 : BitVec 6) = 0 then 64 else (34 : BitVec 6).toNat) := by unfold State.decoding; decide
theorem witness_GorEncodes :
    ((enc .gor 0 2 0).encoding .gor ∧ (enc .gor 0 2 0).flushed = false ∧ (enc .gor 0 2 0).first = true ∧
      (enc .gor 0 2 0).wpos + 64 ≤ 32 * (enc .gor 0 2 0).capw) ∧
    (gor1.encoding .gor ∧ gor1.flushed = false ∧ gor1.first = false ∧ gor1.prev = some 0x3FF0000000000000 ∧ gor1.clead = none ∧
      gor1.wpos + 13 + 64 ≤ 32 * gor1.capw) ∧
    gor2.prev = some 0x4000000000000000 ∧ gor2.clead = some 1 ∧ gor2.ctrail = 52 ∧
    min (clz 64 (0x4000000000000000 ^^^ 0x4010000000000000)) 31 = 11 ∧ ctz 64 (0x4000000000000000 ^^^ 0x4010000000000000) = 52 ∧
    gor2.wpos + 2 + (64 - 1 - 52) ≤ 32 * gor2.capw := by unfold State.encoding; decide +kernel
theorem witness_GorRoundTrip :
    (∀ v ∈ ([0x3FF0000000000000, 0x7FF0000000000000] : List Raw), isNaN 64 v = false) ∧
    (encCfg 0 0 7 0).codec.toNat = 0 ∧ (decCfg 0 0 0 []).codec.toNat = 0 ∧ (encCfg 0 0 7 0).capw.toNat ≤ 2 ^ 27 - 1 ∧
    64 + 77 * ([0x3FF0000000000000, 0x7FF0000000000000] : List Raw).length ≤ 32 * (encCfg 0 0 7 0).capw.toNat :=
  ⟨List.forall_mem_cons.mpr ⟨by decide, List.forall_mem_singleton.mpr (by decide)⟩, by decide⟩
theorem witness_Chp64Decodes :
    ((dec .chp64 7 0 []).decoding .chp64 ∧ (dec .chp64 7 0 []).pastEnd = false ∧ (dec .chp64 7 0 []).first = true) ∧
    (decAfter .chp64 7 5).decoding .chp64 ∧ (decAfter .chp64 7 5).first = false ∧ (decAfter .chp64 7 5).prev = some 5 ∧
    (decAfter .chp64 7 5).ringAt (0 : BitVec 16).toNat = some 5 ∧
    leadOf (decAfter .chp64 7 5).leadRep64 (7 : BitVec 3).toNat + 40 + 0 = 64 ∧
    leadOf (decAfter .chp64 7 5).leadRep64 (0 : BitVec 3).toNat + 64 + 0 = 64 ∧
    ({ decAfter .chp64 7 5 with clead := some 24 } : State).decoding .chp64 := by unfold State.decoding; decide
theorem witness_Chp32Decodes :
    ((dec .chp32 7 0 []).decoding .chp32 ∧ (dec .chp32 7 0 []).pastEnd = false ∧ (dec .chp32 7 0 []).first = true) ∧
    (decAfter .chp32 7 5).decoding .chp32 ∧ (decAfter .chp32 7 5).first = false ∧ (decAfter .chp32 7 5).prev = some 5 ∧
    (decAfter .chp32 7 5).ringAt (0 : BitVec 16).toNat = some 5 ∧
    leadOf (decAfter .chp32 7 5).leadRep32 (7 : BitVec 3).toNat + 8 + 0 = 32 ∧
    leadOf (decAfter .chp32 7 5).leadRep32 (0 : BitVec 3).toNat + 32 + 0 = 32 ∧
    ({ decAfter .chp32 7 5 with clead := some 24 } : State).decoding .chp32 := by unfold State.decoding; decide
theorem witness_ChpRefusesCorruptRecords :
    ((decAfter .chp64 7 5).decoding .chp64 ∧ (decAfter .chp64 7 5).first = false ∧
      (decAfter .chp64 7 5).ringAt (1 : BitVec 16).toNat = none ∧ (decAfter .chp64 7 5).clead = none ∧
      64 < leadOf (decAfter .chp64 7 5).leadRep64 (7 : BitVec 3).toNat + 41 ∧
      leadOf (decAfter .chp64 7 5).leadRep64 (7 : BitVec 3).toNat + 40 ≤ 64) ∧
    (decAfter .chp32 7 5).decoding .chp32 ∧ (decAfter .chp32 7 5).first = false ∧
      (decAfter .chp32 7 5).ringAt (1 : BitVec 16).toNat = none ∧ (decAfter .chp32 7 5).clead = none ∧
      32 < leadOf (decAfter .chp32 7 5).leadRep32 (7 : BitVec 3).toNat + 9 ∧
      leadOf (decAfter .chp32 7 5).leadRep32 (7 : BitVec 3).toNat + 8 ≤ 32 := by unfold State.decoding; decide

/-- The candidate of 2.0 after 1.0 with W = 1: the previous value, a far match. -/
theorem chp1_selects_far : chp1.selects 0x4000000000000000 true 0 0x7FF0000000000000 :=
  .inl ⟨rfl, by decide +kernel, by decide +kernel, ⟨0x3FF0000000000000, by decide +kernel, by decide +kernel⟩, by decide +kernel⟩

/-- The candidate of a value with another key: the previous value, not a far match. -/
theorem chp1_selects_near : chp1.selects 0x3FF0000000000001 false 0 1 :=
  .inr ⟨rfl, by decide +kernel, ⟨0x3FF0000000000000, by decide +kernel, by decide +kernel⟩,
    fun _ => ⟨0x3FF0000000000000, by decide +kernel, by decide +kernel⟩⟩

theorem witness_ChpEncodes :
    ((enc .chp32 3 1 0).encoding .chp32 ∧ (enc .chp32 3 1 0).flushed = false ∧ (enc .chp32 3 1 0).first = true ∧
      (enc .chp32 3 1 0).wpos + (enc .chp32 3 1 0).n ≤ 32 * (enc .chp32 3 1 0).capw) ∧
    chp1.encoding .chp64 ∧ chp1.flushed = false ∧ chp1.logw ≤ 16 ∧ (0x4000000000000000 : Raw).toNat < 2 ^ chp1.n ∧
    chp1.first = false ∧ chp1.wpos + (chp1.chpRecord true 0 0x7FF0000000000000).1.length ≤ 32 * chp1.capw ∧
    chp1.wpos + (chp1.chpRecord false 0 1).1.length ≤ 32 * chp1.capw ∧
    chp1.wpos + (chp1.chpRecord false 0 0).1.length ≤ 32 * chp1.capw := by unfold State.encoding; decide +kernel
theorem witness_CandidateSelectionIsSound :
    Inv chp1 ∧ chp1.dir = .enc ∧ chp1.phase = .opened ∧ hasRing chp1.codec = true ∧ chp1.first = false ∧
    (0x4000000000000000 : Raw).toNat < 2 ^ chp1.n ∧ chp1.selects 0x4000000000000000 true 0 0x7FF0000000000000 ∧
    chp1.selects 0x3FF0000000000001 false 0 1 :=
  ⟨inv_chp1, by decide +kernel, by decide +kernel, by decide +kernel, by decide +kernel, by decide +kernel, chp1_selects_far,
    chp1_selects_near⟩
theorem witness_SinglePreviousValueChimp :
    Inv chp1 ∧ chp1.dir = .enc ∧ chp1.phase = .opened ∧ hasRing chp1.codec = true ∧ chp1.first = false ∧
    (0x4000000000000000 : Raw).toNat < 2 ^ chp1.n ∧ chp1.logw = 0 :=
  ⟨inv_chp1, by decide +kernel, by decide +kernel, by decide +kernel, by decide +kernel, by decide +kernel, by decide +kernel⟩
theorem witness_ChpRoundTrip :
    (∀ v ∈ ([0x3F800000, 0xFF800000] : List Raw), v.toNat < 2 ^ width .chp32 ∧ isNaN (width .chp32) v = false) ∧
    (encCfg 2 16 4 0).codec.toNat = codecCode .chp32 ∧ (decCfg 2 16 0 []).codec = (encCfg 2 16 4 0).codec ∧
    (decCfg 2 16 0 []).logw = (encCfg 2 16 4 0).logw ∧ (decCfg 2 16 0 []).lead64 = (encCfg 2 16 4 0).lead64 ∧
    (decCfg 2 16 0 []).lead32 = (encCfg 2 16 4 0).lead32 ∧ (encCfg 2 16 4 0).logw.toNat ≤ 16 ∧
    legalLeadRep ((encCfg 2 16 4 0).lead32.map BitVec.toNat) = true ∧ (encCfg 2 16 4 0).capw.toNat ≤ 2 ^ 27 - 1 ∧
    width .chp32 + (width .chp32 + 5) * ([0x3F800000, 0xFF800000] : List Raw).length ≤ 32 * (encCfg 2 16 4 0).capw.toNat :=
  ⟨List.forall_mem_cons.mpr ⟨by decide, List.forall_mem_singleton.mpr (by decide)⟩, by decide⟩
theorem witness_ElfErasureCodes :
    ((dec .elf64 0 1 []).pend = none ∧ (dec .elf64 0 1 []).decoding .elf64 ∧ (dec .elf64 0 1 []).lastbs = none) ∧
    ({ dec .elf32 0 1 [] with lastbs := some 7 } : State).pend = none ∧
    ({ dec .elf32 0 1 [] with lastbs := some 7 } : State).decoding .elf32 := by unfold State.decoding; decide
theorem witness_Elf64Decodes :
    (({ dec .elf64 0 1 [] with pend := some true } : State).decoding .elf64 ∧
      ({ dec .elf64 0 1 [] with pend := some true } : State).first = true) ∧
    (elfMid .elf64 5 true (some 15)).decoding .elf64 ∧ (elfMid .elf64 5 true (some 15)).pastEnd = false ∧
    (elfMid .elf64 5 true (some 15)).pend = some true ∧ (elfMid .elf64 5 true (some 15)).first = false ∧
    (elfMid .elf64 5 true (some 15)).ringAt 0 = some 5 ∧ (elfMid .elf64 5 true (some 15)).prev = some 5 ∧
    leadOf (elfMid .elf64 5 true (some 15)).leadRep64 (0 : BitVec 3).toNat + 64 + 0 = 64 := by unfold State.decoding; decide
theorem witness_Elf32Decodes :
    (({ dec .elf32 0 1 [] with pend := some true } : State).decoding .elf32 ∧
      ({ dec .elf32 0 1 [] with pend := some true } : State).first = true) ∧
    (elfMid .elf32 5 false none).decoding .elf32 ∧ (elfMid .elf32 5 false none).pastEnd = false ∧
    (elfMid .elf32 5 false none).pend = some false ∧ (elfMid .elf32 5 false none).first = false ∧
    (elfMid .elf32 5 false none).ringAt 0 = some 5 ∧ (elfMid .elf32 5 false none).prev = some 5 ∧
    leadOf (elfMid .elf32 5 false none).leadRep32 (7 : BitVec 3).toNat + 8 + 0 = 32 := by unfold State.decoding; decide
theorem witness_ElfRefusesCorruptRecords :
    ((elfMid .elf64 5 true none).pend ≠ none ∧ (elfMid .elf64 5 true none).first = false ∧
      (elfMid .elf64 5 true none).decoding .elf64 ∧ (elfMid .elf64 5 true none).clead = none ∧
      64 < leadOf (elfMid .elf64 5 true none).leadRep64 (7 : BitVec 3).toNat + 41) ∧
    (elfMid .elf32 5 true none).decoding .elf32 ∧ (elfMid .elf32 5 true none).clead = none ∧
      32 < leadOf (elfMid .elf32 5 true none).leadRep32 (7 : BitVec 3).toNat + 9 := by unfold State.decoding; decide

/-- 100.0 once more, behind 100.0: not erased (P3), and the XOR stage's candidate is the previous value. -/
theorem elf1_selects : elf1.selects 0x4059000000000000 true 0 0 :=
  .inl ⟨rfl, by decide +kernel, by decide +kernel, ⟨0x4059000000000000, by decide +kernel, by decide +kernel⟩, by decide +kernel⟩

theorem witness_ElfEncodes :
    ((enc .elf32 0 8 0).encoding .elf32 ∧ isNaN (enc .elf32 0 8 0).n 0x7FC00000 = true ∧
      isInf (enc .elf32 0 8 0).n 0xFF800000 = true ∧ (0xFF800000 : Raw).toNat < 2 ^ (enc .elf32 0 8 0).n) ∧
    ((enc .elf64 0 3 0).encoding .elf64 ∧ (enc .elf64 0 3 0).first = true ∧ (enc .elf64 0 3 0).logw = 0 ∧
      (enc .elf64 0 3 0).erasure 0 = ([true, false], none, 0) ∧
      (enc .elf64 0 3 0).wpos + 2 + (enc .elf64 0 3 0).n ≤ 32 * (enc .elf64 0 3 0).capw) ∧
    elf1.encoding .elf64 ∧ elf1.flushed = false ∧ elf1.logw = 0 ∧ elf1.first = false ∧
    elf1.erasure 0x40590001A36E2EB2 = ([true, true, false, false, false, true], some 1, 0x4059000000000000) ∧
    elf1.wpos + 6 + (elf1.chpRecord true 0 0).1.length ≤ 32 * elf1.capw := by unfold State.encoding; decide +kernel
theorem witness_ExactDecimals :
    (isNaN 64 0x7FEFFFFFFFFFFFFF = false ∧ isInf 64 0x7FEFFFFFFFFFFFFF = false) ∧ (0 < (1 : Nat) ∧ 0 < (10 : Nat)) ∧
    ((0 : Int) ≤ 0 ∧ (0 : Int) < 1) := by decide
theorem witness_RoundNearestIsNearest :
    0 < (10 : Nat) ∧ isInf 64 (roundNearest 64 { num := 1, den := 10 }) = false ∧
    isInf 32 (roundNearest 32 { num := 2 ^ 128, den := 1 }) = true ∧ (0 : Raw).toNat < 2 ^ (64 - 1) := by decide +kernel
theorem witness_RecoverRoundsUp :
    (0x4059000000000000 : Raw).toNat < 2 ^ 64 ∧ recover 64 0x4059000000000000 1 = some 0x4059000000000000 ∧
    recover 64 0x3FB0000000000000 0 = some 0x3FB999999999999A ∧ isZero 64 0x8000000000000000 = true := by decide +kernel
theorem witness_ElfSearchIsLeast :
    (0x40590001A36E2EB2 : Raw).toNat < 2 ^ 64 ∧ isNaN 64 0x40590001A36E2EB2 = false ∧ isInf 64 0x40590001A36E2EB2 = false ∧
    legalEps 0x3F50624DD2F1A9FC = true ∧
    search 64 0x3F50624DD2F1A9FC 0x40590001A36E2EB2 = some (1, 0x4059000000000000) ∧
    search 64 0x3F50624DD2F1A9FC 0x4059000000000000 = none := by decide +kernel
theorem witness_ElfErrorBound :
    (∀ v ∈ ([0x4059000000000000, 0x40590001A36E2EB2] : List Raw),
      v.toNat < 2 ^ width .elf64 ∧ isNaN (width .elf64) v = false ∧ isInf (width .elf64) v = false) ∧
    (encCfg 3 0 5 0x3F50624DD2F1A9FC).codec.toNat = codecCode .elf64 ∧ legalEps (encCfg 3 0 5 0x3F50624DD2F1A9FC).eps = true ∧
    (decCfg 3 0 2 []).nval.toNat = ([0x4059000000000000, 0x40590001A36E2EB2] : List Raw).length ∧
    legalLeadRep ((encCfg 3 0 5 0).lead64.map BitVec.toNat) = true ∧ (encCfg 3 0 5 0).capw.toNat ≤ 2 ^ 27 - 1 ∧
    (bsBits (width .elf64) + width .elf64 + 7) * ([0x4059000000000000, 0x40590001A36E2EB2] : List Raw).length ≤
      32 * (encCfg 3 0 5 0).capw.toNat :=
  ⟨List.forall_mem_cons.mpr ⟨by decide, List.forall_mem_singleton.mpr (by decide)⟩, by decide⟩
theorem witness_BitCountsAndBuckets :
    ((64 : Nat) ≤ 64 ∧ (0x0008020000000000 : Raw).toNat < 2 ^ 64 ∧ (0x0008020000000000 : Raw) ≠ 0) ∧
    legalLeadRep Config.defaultLeadRep = true ∧ leadOf Config.defaultLeadRep 7 ≤ 24 := by decide
theorem witness_PhaseTable :
    (gor1.codec ≠ .bs ∧ gor1.dir = .enc ∧ gor1.phase = .opened) ∧ (after .close gor1).phase = .closed ∧
    ((dec .gor 0 0 []).codec ≠ .bs ∧ (dec .gor 0 0 []).dir = .dec ∧ (dec .gor 0 0 []).phase = .ready) ∧
    (faulty.phase = .fault ∧ Instr.close ∈ codecCommands) ∧ unitDir (.write 0 0) = some .enc ∧
    (after (.write 0 1) (writer 0)).phase = .fault ∧ (writer 0).codec = .bs ∧ (writer 0).phase ≠ .fault ∧
    unitDir .readBit = some .dec ∧ (writer 0).dir ≠ .dec := by decide +kernel
theorem witness_UsageErrorsChangeNothing :
    Inv gor1 ∧ Instr.getBytes.isCommand = true ∧ (after .getBytes gor1).resp = some (.fail .usageError .notClosed) :=
  ⟨inv_gor1, rfl, by decide +kernel⟩
theorem witness_FailureEntry :
    (Inv (enc .gor 0 0 0) ∧ (enc .gor 0 0 0).phase ≠ .fault ∧ faulty.phase = .fault ∧
      faulty.resp = some (.fail .capacityExceeded .wbuf)) ∧ Inv faulty :=
  ⟨⟨inv_enc .gor 0 0 0 (by simp) (by omega) (by decide), by decide, by decide, by decide⟩, inv_faulty⟩
theorem witness_CapacityDecidesAlone :
    (gor1.wpos ≤ 32 * gor1.capw ∧ (after (.addValue 0x4000000000000000) { gor1 with capw := 9 }).resp = some (.ok .unit) ∧
      (after (.addValue 0x4000000000000000) { gor1 with capw := 9 }).wpos ≤ 32 * gor1.capw) ∧
    (after (.addValue 0) { enc .gor 0 1 0 with capw := 2 }).resp = some (.ok .unit) ∧
    32 * (enc .gor 0 1 0).capw < (after (.addValue 0) { enc .gor 0 1 0 with capw := 2 }).wpos := by decide +kernel
theorem witness_CloseSealsTheBlock :
    (Inv elf1 ∧ elf1.codec ≠ .bs ∧ elf1.dir = .enc ∧ elf1.phase = .opened ∧ isElf elf1.codec = true) ∧
    Inv gor1 ∧ isElf gor1.codec = false ∧ gor1.phase = .opened ∧ gor1.wpos + 77 ≤ 32 * gor1.capw :=
  ⟨⟨inv_elf1, by decide +kernel, by decide +kernel, by decide +kernel, by decide +kernel⟩, inv_gor1, by decide +kernel,
    by decide +kernel, by decide +kernel⟩
theorem witness_ReadingTheOutput :
    (Inv gor1 ∧ gor1.codec ≠ .bs ∧ gor1.dir = .enc ∧ gor1.phase = .opened) ∧ Inv (after .close gor1) ∧
    (after .close gor1).phase = .closed ∧ Inv (after .close elf1) ∧ isElf (after .close elf1).codec = true :=
  ⟨⟨inv_gor1, by decide +kernel, by decide +kernel, by decide +kernel⟩, inv_close inv_gor1, by decide +kernel,
    inv_close inv_elf1, by decide +kernel⟩
theorem witness_NextAroundARecord :
    ((dec .elf64 0 0 []).codec ≠ .bs ∧ (dec .elf64 0 0 []).dir = .dec ∧ (dec .elf64 0 0 []).pend = none ∧
      (dec .elf64 0 0 []).phase = .ready ∧ (dec .elf64 0 0 []).count = (dec .elf64 0 0 []).nval) ∧
    (after .next (dec .elf64 0 0 [])).phase = .done ∧ ({ sameNext with pastEnd := true } : State).pastEnd = true ∧
    (Inv (dec .gor 0 0 []) ∧ (dec .gor 0 0 []).pastEnd = false ∧ (after .next (dec .gor 0 0 [])).pastEnd = true) :=
  ⟨by decide, by decide +kernel, rfl, inv_dec .gor 0 0 [] (by simp) (by simp) (by omega) (by decide), rfl, by decide +kernel⟩
theorem witness_NextReadsTheLiteral :
    (dec .gor 0 0 [0, 0, 0, 0, 0, 0, 0, 5]).dir = .dec ∧ (dec .gor 0 0 [0, 0, 0, 0, 0, 0, 0, 5]).phase = .ready ∧
    isElf (dec .gor 0 0 [0, 0, 0, 0, 0, 0, 0, 5]).codec = false ∧ (dec .gor 0 0 [0, 0, 0, 0, 0, 0, 0, 5]).first = true ∧
    (dec .gor 0 0 [0, 0, 0, 0, 0, 0, 0, 5]).rpos + 64 ≤ 8 * (dec .gor 0 0 [0, 0, 0, 0, 0, 0, 0, 5]).len ∧
    (5 : Raw).toNat = ∑ i ∈ Finset.range 64,
      ((dec .gor 0 0 [0, 0, 0, 0, 0, 0, 0, 5]).readerBit (0 + i)).toNat * 2 ^ (64 - 1 - i) := by decide +kernel
theorem witness_DecompressRepeatsNext :
    (Inv (dec .gor 0 0 [0, 0, 0, 0, 0, 0, 0, 5]) ∧ (dec .gor 0 0 [0, 0, 0, 0, 0, 0, 0, 5]).codec ≠ .bs ∧
      (dec .gor 0 0 [0, 0, 0, 0, 0, 0, 0, 5]).dir = .dec ∧ (dec .gor 0 0 [0, 0, 0, 0, 0, 0, 0, 5]).phase ≠ .fault) ∧
    (after .next (dec .elf64 0 0 [])).phase = .done ∧
    (after .decompress (dec .gor 0 0 [0x7F, 0xF8, 0, 0, 0, 0, 0, 0])).resp = some (.ok (.values [])) ∧
    (after .decompress (dec .gor 0 0 [0, 0, 0, 0, 0, 0, 0, 5])).err = some .corruptStream :=
  ⟨⟨inv_dec .gor 0 0 _ (by simp) (by simp) (by omega) (by decide), by decide, by decide, by decide⟩, by decide +kernel,
    by decide +kernel, by decide +kernel⟩
theorem witness_PersonalitiesStayApart :
    (∀ g, Instr.addValue 5 ≠ .constructEnc g) ∧ (∀ g, Instr.addValue 5 ≠ .constructDec g) ∧
    (enc .gor 0 8 0).dir = .enc ∧ exec (.addValue 5) (enc .gor 0 8 0) = .next (after (.addValue 5) (enc .gor 0 8 0)) ∧
    (decAfter .gor 0 5).dir = .dec ∧ exec .gorSame (decAfter .gor 0 5) = .next (after .gorSame (decAfter .gor 0 5)) :=
  ⟨by simp, by simp, rfl, rfl, rfl, rfl⟩
theorem witness_CursorsOnlyMoveForward :
    Inv (enc .gor 0 8 0) ∧ (∀ g, Instr.addValue 5 ≠ .constructEnc g) ∧ (∀ g, Instr.addValue 5 ≠ .constructDec g) ∧
    (∀ bs, Instr.addValue 5 ≠ .load bs) ∧ exec (.addValue 5) (enc .gor 0 8 0) = .next (after (.addValue 5) (enc .gor 0 8 0)) :=
  ⟨inv_enc .gor 0 8 0 (by simp) (by omega) (by decide), by simp, by simp, by simp, rfl⟩
theorem witness_StepKeepsTheInvariant :
    Inv { enc .gor 0 8 0 with port := [0x05] } ∧ decode ({ enc .gor 0 8 0 with port := [0x05] } : State).port =
      .command .getSize [] :=
  ⟨inv_port _ (inv_enc .gor 0 8 0 (by simp) (by omega) (by decide)), by decide⟩
theorem witness_StepNeverStops : Inv chp1 := inv_chp1

end Tests
end Sys2Proof
end

section
/-! PROOFS. Rules about bit strings, buffers and runs of commands that the bit-stream statements share. -/

namespace Sys2Proof
namespace Machine

/-! ## Bit strings as numbers (rules R61, R91) -/

/-- A bit string given by position is the sum of its bits, the first at the highest power (rule R141). -/
theorem natOfBits_map_range (n : Nat) (f : Nat → Bool) :
    natOfBits ((List.range n).map f) = ∑ i ∈ Finset.range n, (f i).toNat * 2 ^ (n - 1 - i) := by
  induction n with
  | zero => rfl
  | succ n ih =>
    have hshift : ∀ i ∈ Finset.range n, (f i).toNat * 2 ^ (n - 1 - i) * 2 = (f i).toNat * 2 ^ (n + 1 - 1 - i) := by
      intro i hi
      have hi := Finset.mem_range.mp hi
      rw [mul_assoc, ← pow_succ, show n - 1 - i + 1 = n + 1 - 1 - i by omega]
    rw [List.range_succ, List.map_append, natOfBits_append, ih, Finset.sum_range_succ, ← Finset.sum_congr rfl hshift,
      ← Finset.sum_mul]
    simp

@[simp] theorem bitsOfByte_length (b : Byte) : (bitsOfByte b).length = 8 := bitsOf_length 8 _

theorem flatMap_bitsOfByte_length (bs : List Byte) : (bs.flatMap bitsOfByte).length = 8 * bs.length := by
  simp [List.length_flatMap, mul_comm]

theorem bitsOfByte_getD (b : Byte) (p : Nat) (h : p < 8) : (bitsOfByte b).getD p false = b.getLsbD (7 - p) := by
  simp [bitsOfByte, bitsOf, BitVec.getLsbD, h]

/-- Bit `p` of a byte sequence is bit `7 - p mod 8` of its byte `p div 8` (rule R61). -/
theorem flatMap_bitsOfByte_getD (bs : List Byte) (p : Nat) :
    (bs.flatMap bitsOfByte).getD p false = (bs.getD (p / 8) 0).getLsbD (7 - p % 8) := by
  induction bs generalizing p with
  | nil => simp
  | cons b r ih =>
    rw [List.flatMap_cons]
    by_cases h : p < 8
    · rw [List.getD_append _ _ _ _ (by simpa using h), bitsOfByte_getD b p h, Nat.div_eq_of_lt h, Nat.mod_eq_of_lt h]
      rfl
    · rw [List.getD_append_right _ _ _ _ (by simpa using h), bitsOfByte_length, ih,
        show p / 8 = (p - 8) / 8 + 1 by omega, show p % 8 = (p - 8) % 8 by omega]
      rfl

/-! ## Bytes and bits of a buffer (rule R61) -/

@[simp] theorem memBytes_length (m : Memory) (a n : Nat) : (memBytes m a n).length = n := by simp [memBytes]

/-- The first bytes of a buffer hold its first stream bits. -/
theorem flatMap_memBytes (m : Memory) (n : Nat) :
    (memBytes m 0 n).flatMap bitsOfByte = (List.range (8 * n)).map (memBit m) := by
  apply List.ext_getElem
  · rw [flatMap_bitsOfByte_length, memBytes_length]
    simp
  · intro p hp _
    have hn : p / 8 < n := by rw [flatMap_bitsOfByte_length, memBytes_length] at hp; omega
    rw [← List.getD_eq_getElem _ false hp, flatMap_bitsOfByte_getD]
    simp [memBytes, memBit, hn]

/-- A buffer filled from a byte sequence reads as its bits, and as 0 behind them (rules R44, R140). -/
theorem memBit_memOfBytes (bs : List Byte) (p : Nat) :
    memBit (memOfBytes 0 bs) p = (bs.flatMap bitsOfByte).getD p false := by
  rw [flatMap_bitsOfByte_getD, memBit, memRead_memOfBytes, if_pos (Nat.zero_le _), Nat.sub_zero]

/-! ## Runs of commands (rule R260) -/

theorem runCommands_cons {i : Instr} {is : List Instr} {s t u : State} {rs : List (Option Response)}
    (hi : exec i s = .next t) (hr : runCommands is t = some (rs, u)) :
    runCommands (i :: is) s = some (t.resp :: rs, u) := by
  simp [runCommands, hi, hr]

theorem runCommands_append {is js : List Instr} {s t u : State} {rs qs : List (Option Response)}
    (hi : runCommands is s = some (rs, t)) (hj : runCommands js t = some (qs, u)) :
    runCommands (is ++ js) s = some (rs ++ qs, u) := by
  induction is generalizing s rs with
  | nil =>
    cases hi
    exact hj
  | cons i r ih =>
    simp only [runCommands] at hi
    split at hi
    · rename_i v hv
      obtain ⟨⟨ps, w⟩, hp, hq⟩ := Option.map_eq_some_iff.mp hi
      cases hq
      exact runCommands_cons hv (ih hp)
    · cases hi
    · cases hi

/-! ## Bare machines (rule R262) -/

/-- A bare machine admits the unit operations of its direction. -/
theorem State.bare.admits {s : State} {d : Dir} (h : s.bare d) : admitUnit d s = none := by
  obtain ⟨hcodec, hdir, hphase⟩ := h
  exact admitUnit_eq_none.mpr ⟨hcodec, hphase, hdir⟩

end Machine
end Sys2Proof
end

section
/-! PROOFS. The bit-stream writer: WRITE, WRITEBIT, FLUSH and GETBUFFER on a bare machine (rules R131 to R135). -/

namespace Sys2Proof
namespace Machine

/-! ## The effects behind the commands -/

/-- An append with the moved cursor written out. -/
theorem State.append_eq (s : State) (bs : List Bool) {p : Nat} (h : s.wpos + bs.length = p) :
    s.append bs = { s with wbuf := memSetBits s.wbuf s.wpos bs, wpos := p } := by
  subst h; rfl

/-- A field's bits by position, first the highest (rule R131). -/
theorem bitsOf_toNat (content : BitVec 64) (n : Nat) :
    bitsOf n content.toNat = (List.range n).map fun i => content.getLsbD (n - 1 - i) := rfl

/-- FLUSH is one append of its padding and the flag, or a refusal (rule R134). -/
theorem bswFlush_eq (s : State) :
    bswFlush s =
      if s.flushed then .raise .usageError .secondFlush s
      else .ok () { s.append (padding s.wpos) with flushed := true } := rfl

/-- The padding ends at the next multiple of 32 (rule R134). -/
theorem add_padding_length (wpos : Nat) : wpos + (padding wpos).length = 32 * ((wpos + 31) / 32) := by
  rw [padding_length]; omega

theorem padding_eq (wpos : Nat) : padding wpos = List.replicate (32 * ((wpos + 31) / 32) - wpos) false := by
  rw [padding, show (32 - wpos % 32) % 32 = 32 * ((wpos + 31) / 32) - wpos by omega]

/-- The first bytes of WBUF are the first bits of the stream, where it reaches that far (rules R61, R135). -/
theorem State.flatMap_memBytes_wbuf (s : State) (n : Nat) (h : 8 * n ≤ s.wpos) :
    (memBytes s.wbuf 0 n).flatMap bitsOfByte = s.stream.take (8 * n) := by
  rw [flatMap_memBytes, State.stream, ← List.map_take, List.take_range, Nat.min_eq_left h]

/-! ## The commands on a bare writer -/

theorem exec_write_of_bare {s : State} (h : s.bare .enc) (content : BitVec 64) (len : Byte) :
    exec (.write content len) s = (bswWrite content len.toNat s).outcome fun n s => s.answer (.num n) := by
  change execWrite content len s = _
  rw [execWrite, h.admits, guarded_none]

theorem exec_writeLong_of_bare {s : State} (h : s.bare .enc) (content : BitVec 64) (len : Byte) :
    exec (.writeLong content len) s = (bswWriteLong content len.toNat s).outcome fun n s => s.answer (.num n) := by
  change execWriteLong content len s = _
  rw [execWriteLong, h.admits, guarded_none]

theorem exec_flush_of_bare {s : State} (h : s.bare .enc) :
    exec .flush s = (bswFlush s).outcome fun _ s => s.answer .unit := by
  change execFlush s = _
  rw [execFlush, h.admits, guarded_none]

theorem exec_getBuffer_of_bare {s : State} (h : s.bare .enc) (byteLen : BitVec 32) :
    exec (.getBuffer byteLen) s = (bswGetBuffer byteLen.toNat s).outcome fun bs s => s.answer (.bytes bs) := by
  change execGetBuffer byteLen s = _
  rw [execGetBuffer, h.admits, guarded_none]

/-- WRITE with room appends its field (rule R131). -/
theorem exec_write_append {s : State} (h : s.bare .enc) (hf : s.flushed = false) (content : BitVec 64) (len : Byte)
    (hlen : len.toNat ≤ 32) (hroom : s.wpos + len.toNat ≤ 32 * s.capw) :
    exec (.write content len) s = .next ((s.append (bitsOf len.toNat content.toNat)).answer (.num len.toNat)) := by
  rw [exec_write_of_bare h, bswWrite_eq, if_neg (by simp [hf]), if_neg (by omega), if_neg (by omega), Eff.outcome_ok]

/-- WRITELONG with room appends its field (rule R132). -/
theorem exec_writeLong_append {s : State} (h : s.bare .enc) (hf : s.flushed = false) (content : BitVec 64) (len : Byte)
    (hlen : len.toNat ≤ 64) (hroom : s.wpos + len.toNat ≤ 32 * s.capw) :
    exec (.writeLong content len) s = .next ((s.append (bitsOf len.toNat content.toNat)).answer (.num len.toNat)) := by
  rw [exec_writeLong_of_bare h, bswWriteLong_eq, if_neg (by simp [hf]), if_neg (by omega), if_neg (by omega),
    Eff.outcome_ok]

/-- The first FLUSH appends its padding and sets FLUSHED (rule R134). -/
theorem exec_flush_pads {s : State} (h : s.bare .enc) (hf : s.flushed = false) :
    exec .flush s = .next (({ s.append (padding s.wpos) with flushed := true } : State).answer .unit) := by
  rw [exec_flush_of_bare h, bswFlush_eq, if_neg (by simp [hf]), Eff.outcome_ok]

/-- GETBUFFER of bytes the flushed stream fills answers them (rule R135). -/
theorem exec_getBuffer_bytes {s : State} (h : s.bare .enc) (hf : s.flushed = true) (byteLen : BitVec 32)
    (hlen : 8 * byteLen.toNat ≤ s.wpos) :
    exec (.getBuffer byteLen) s = .next (s.answer (.bytes (memBytes s.wbuf 0 byteLen.toNat))) := by
  rw [exec_getBuffer_of_bare h, bswGetBuffer, if_neg (by simp [hf]), if_neg (by omega), Eff.outcome_ok]

/-! ## The statements -/

/-- Settles O14: each clause is one branch of the tests of WRITE, and the last one is an append. -/
theorem writeAppendsItsField : Obligations.WriteAppendsItsField := by
  intro s content len hwf hbare
  have hexec := exec_write_of_bare hbare content len
  rw [bswWrite_eq] at hexec
  refine ⟨rfl, fun hf => ?flushed, fun hf hlen => ?length, fun hf hlen hcap => ?capacity, fun hf hlen hroom => ?appends⟩
  case flushed => rw [hexec, if_pos hf]; rfl
  case length => rw [hexec, if_neg (by simp [hf]), if_pos hlen]; rfl
  case capacity => rw [hexec, if_neg (by simp [hf]), if_neg (by omega), if_pos hcap]; rfl
  case appends =>
    have happend := s.append_eq (bitsOf len.toNat content.toNat) (p := s.wpos + len.toNat) (by simp)
    refine ⟨memSetBits s.wbuf s.wpos (bitsOf len.toNat content.toNat), ?_, ?_⟩
    · rw [exec_write_append hbare hf content len hlen hroom, happend]; rfl
    · rw [← happend, State.stream_append _ _ hwf, bitsOf_toNat]

/-- Settles O16: WRITEBIT runs WRITE's own effect, so its clause with room is that of WRITE. -/
theorem writeBitAppendsOneBit : Obligations.WriteBitAppendsOneBit := by
  intro s b
  have hsame : exec (.writeBit b) s = exec (.write (if b then 1 else 0) 1) s := by cases b <;> rfl
  refine ⟨rfl, hsame, fun hwf hbare hf hroom => ?_⟩
  obtain ⟨-, -, -, -, happends⟩ := writeAppendsItsField s (if b then 1 else 0) 1 hwf hbare
  obtain ⟨m, hexec, hstream⟩ := happends hf (by decide) hroom
  refine ⟨m, hsame.trans hexec, hstream.trans ?_⟩
  cases b <;> rfl

/-- Settles O17: FLUSH is one append of the padding, whose length is the distance to the next multiple of 32. -/
theorem flushPads : Obligations.FlushPads := by
  intro s hwf hbare
  refine ⟨rfl, fun hf => ?second, fun hf => ?first⟩
  case second => rw [exec_flush_of_bare hbare, bswFlush_eq, if_pos hf]; rfl
  case first =>
    have happend := s.append_eq (padding s.wpos) (add_padding_length s.wpos)
    refine ⟨memSetBits s.wbuf s.wpos (padding s.wpos), ?_, ?_⟩
    · rw [exec_flush_pads hbare hf, happend]; rfl
    · rw [← happend, State.stream_append _ _ hwf, padding_eq]

/-- Settles O18: the bytes GETBUFFER reads from WBUF are the stream's bits eight at a time. -/
theorem getBufferReturnsTheFirstBytes : Obligations.GetBufferReturnsTheFirstBytes := by
  intro s byteLen hbare
  have hexec := exec_getBuffer_of_bare hbare byteLen
  rw [bswGetBuffer] at hexec
  refine ⟨rfl, fun hf => ?notFlushed, fun hf hlen => ?length, fun hf hlen => ?bytes⟩
  case notFlushed => rw [hexec, if_pos (by simp [hf])]; rfl
  case length => rw [hexec, if_neg (by simp [hf]), if_pos hlen]; rfl
  case bytes =>
    exact ⟨memBytes s.wbuf 0 byteLen.toNat, exec_getBuffer_bytes hbare hf byteLen hlen, memBytes_length _ _ _,
      s.flatMap_memBytes_wbuf _ hlen⟩

end Machine
end Sys2Proof
end

section
/-! PROOFS. The bit-stream reader: PEEK, FORWARD, READINT, READLONG and READBIT on a bare machine (rules R141 to R145). -/

namespace Sys2Proof
namespace Machine

/-! ## The effects behind the commands -/

/-- The next bits as a number (rule R141). -/
theorem State.natOfBits_ahead (s : State) (n : Nat) :
    natOfBits (s.ahead n) = ∑ i ∈ Finset.range n, (s.readerBit (s.rpos + i)).toNat * 2 ^ (n - 1 - i) :=
  natOfBits_map_range n fun i => s.readerBit (s.rpos + i)

/-- A reader's bit is the loaded bit before LENBITS and 0 from there (rules R61, R141). -/
theorem State.readerBit_toNat (s : State) (p : Nat) :
    (s.readerBit p).toNat =
      if p < s.lenBits ∧ (memRead s.rbuf (p / 8)).getLsbD (7 - p % 8) = true then 1 else 0 := by
  unfold State.readerBit memBit
  by_cases hp : p < s.lenBits
  · cases (memRead s.rbuf (p / 8)).getLsbD (7 - p % 8) <;> simp [hp]
  · simp [hp]

/-! ## The commands on a bare reader -/

theorem exec_load_of_bare {s : State} (h : s.bare .dec) (bytes : List Byte) :
    exec (.load bytes) s = (bsrLoad bytes s).outcome fun _ s => s.answer .unit := by
  change execLoad bytes s = _
  rw [execLoad, h.admits, guarded_none]

theorem exec_peek_of_bare {s : State} (h : s.bare .dec) (len : Byte) :
    exec (.peek len) s = (bsrPeek len.toNat s).outcome fun v s => s.answer (.num v) := by
  change execPeek len s = _
  rw [execPeek, h.admits, guarded_none]

theorem exec_forward_of_bare {s : State} (h : s.bare .dec) (len : Byte) :
    exec (.forward len) s = (bsrForward len.toNat s).outcome fun _ s => s.answer .unit := by
  change execForward len s = _
  rw [execForward, h.admits, guarded_none]

theorem exec_readInt_of_bare {s : State} (h : s.bare .dec) (len : Byte) :
    exec (.readInt len) s = (bsrReadInt len.toNat s).outcome fun v s => s.answer (.num v) := by
  change execReadInt len s = _
  rw [execReadInt, h.admits, guarded_none]

theorem exec_readLong_of_bare {s : State} (h : s.bare .dec) (len : Byte) :
    exec (.readLong len) s = (bsrReadLong len.toNat s).outcome fun v s => s.answer (.num v) := by
  change execReadLong len s = _
  rw [execReadLong, h.admits, guarded_none]

/-- READBIT is READINT of one bit (rule R145). -/
theorem exec_readBit (s : State) : exec .readBit s = exec (.readInt 1) s := rfl

/-- READINT of up to 32 bits answers the next bits and moves past them (rule R143). -/
theorem exec_readInt_field {s : State} (h : s.bare .dec) (len : Byte) (hlen : len.toNat ≤ 32) :
    exec (.readInt len) s = .next ((s.advance len.toNat).answer (.num (natOfBits (s.ahead len.toNat)))) := by
  rw [exec_readInt_of_bare h, bsrReadInt_eq, if_neg (by omega), Eff.outcome_ok]

/-- READLONG of up to 64 bits answers the next bits and moves past them (rule R144). -/
theorem exec_readLong_field {s : State} (h : s.bare .dec) (len : Byte) (hlen : len.toNat ≤ 64) :
    exec (.readLong len) s = .next ((s.advance len.toNat).answer (.num (natOfBits (s.ahead len.toNat)))) := by
  rw [exec_readLong_of_bare h, bsrReadLong_eq, if_neg (by omega), Eff.outcome_ok]

/-! ## The statements -/

/-- Settles O20: PEEK answers the bits ahead, and each of them is the loaded bit or 0. -/
theorem peekReturnsTheNextBits : Obligations.PeekReturnsTheNextBits := by
  intro s len hbare
  have hexec := exec_peek_of_bare hbare len
  rw [bsrPeek] at hexec
  refine ⟨rfl, fun hlen => ?length, fun hlen => ?bits⟩
  case length => rw [hexec, if_pos hlen]; rfl
  case bits =>
    rw [hexec, if_neg (by omega), s.natOfBits_ahead]
    simp only [State.readerBit_toNat]
    rfl

/-- Settles O21: FORWARD is one move of the cursor. -/
theorem forwardMovesTheCursor : Obligations.ForwardMovesTheCursor := by
  intro s len hbare
  have hexec := exec_forward_of_bare hbare len
  rw [bsrForward] at hexec
  refine ⟨rfl, fun hlen => ?length, fun hlen => ?moves⟩
  case length => rw [hexec, if_pos hlen]; rfl
  case moves => rw [hexec, if_neg (by omega)]; rfl

/-- Settles O22: both reads answer the bits ahead and move past them, and READBIT is the read of one bit. -/
theorem readsReturnTheField : Obligations.ReadsReturnTheField := by
  intro s len hbare
  refine ⟨rfl, rfl, rfl, fun hlen => ?intLength, fun hlen => ?int, fun hlen => ?longLength, fun hlen => ?long,
    exec_readBit s, ?bit⟩
  case intLength => rw [exec_readInt_of_bare hbare, bsrReadInt_eq, if_pos hlen]; rfl
  case int => rw [exec_readInt_field hbare len hlen, s.natOfBits_ahead]; rfl
  case longLength => rw [exec_readLong_of_bare hbare, bsrReadLong_eq, if_pos hlen]; rfl
  case long => rw [exec_readLong_field hbare len hlen, s.natOfBits_ahead]; rfl
  case bit =>
    have hone : natOfBits (s.ahead 1) = (s.readerBit s.rpos).toNat := by simp [State.ahead]
    rw [exec_readBit, exec_readInt_field hbare 1 (by decide), show (1 : Byte).toNat = 1 from rfl, hone]
    rfl

end Machine
end Sys2Proof
end

section
/-! PROOFS. Read after write (rule R147): what a bare writer was given, a bare reader of its bytes returns. -/

namespace Sys2Proof
namespace Machine

/-! ## The fields' bits and the numbers read from them -/

/-- The bits that a list of fields puts on the stream (rule R131). -/
def writtenBits (fields : List (BitVec 64 × Byte)) : List Bool := fields.flatMap fun f => bitsOf f.2.toNat f.1.toNat

@[simp] theorem writtenBits_cons (f : BitVec 64 × Byte) (r : List (BitVec 64 × Byte)) :
    writtenBits (f :: r) = bitsOf f.2.toNat f.1.toNat ++ writtenBits r := rfl

@[simp] theorem writtenBits_length (fields : List (BitVec 64 × Byte)) :
    (writtenBits fields).length = (fields.map fun f => f.2.toNat).sum := by
  simp [writtenBits, List.length_flatMap]

/-- Read at their own lengths, the fields come back as their low bits (rule R63). -/
theorem readings_writtenBits (fields : List (BitVec 64 × Byte)) :
    readings (fields.map fun f => f.2.toNat) (writtenBits fields) = fields.map fun f => f.1.toNat % 2 ^ f.2.toNat := by
  induction fields with
  | nil => rfl
  | cons f r ih =>
    rw [List.map_cons, List.map_cons, writtenBits_cons, readings, List.take_left' (bitsOf_length _ _),
      List.drop_left' (bitsOf_length _ _), natOfBits_bitsOf, ih]

/-! ## The writer's run -/

/-- CONSTRUCT of a bare writer with a legal capacity (rules R36, R261). -/
theorem exec_constructEnc_bare (g : EncConfig) (s : State) (hcodec : g.codec.toNat = 5)
    (hcapw : g.capw.toNat ≤ 2 ^ 27 - 1) :
    exec (.constructEnc g) s = .next ((s.construct .bs .enc g.logw.toNat g.capw.toNat g.eps 0 (tableOf g.lead64)
      (tableOf g.lead32)).answer .unit) := by
  have hlegal : legalEnc .bs g = true := by
    simpa [legalEnc, legalLogw, legalCapw, legalTables, isElf, hasRing] using hcapw
  change execConstructEnc g s = _
  simp only [execConstructEnc, hcodec, codecOf, hlegal, if_true]

/-- A field written with room is one append, by WRITE or by WRITELONG. -/
theorem exec_writeField {s : State} (h : s.bare .enc) (hf : s.flushed = false) (f : BitVec 64 × Byte)
    (hlen : f.2.toNat ≤ 64) (hroom : s.wpos + f.2.toNat ≤ 32 * s.capw) :
    exec (writeField f) s = .next ((s.append (bitsOf f.2.toNat f.1.toNat)).answer (.num f.2.toNat)) := by
  unfold writeField
  split
  · exact exec_write_append h hf f.1 f.2 ‹_› hroom
  · exact exec_writeLong_append h hf f.1 f.2 hlen hroom

/-- A bare writer that has not failed and is not flushed. -/
def State.openWriter (s : State) : Prop := s.bare .enc ∧ s.flushed = false ∧ memWf s.wbuf

/-- A writer just constructed is open and its stream empty (rule R321). -/
theorem openWriter_construct (s : State) (logw capw : Nat) (eps : Raw) (lead64 lead32 : List Nat) :
    (s.construct .bs .enc logw capw eps 0 lead64 lead32).openWriter :=
  ⟨⟨rfl, rfl, Phase.noConfusion⟩, rfl, memWf_nil⟩

theorem State.openWriter.append_answer {s : State} (h : s.openWriter) (bs : List Bool) (r : Result) :
    ((s.append bs).answer r).openWriter := by
  obtain ⟨hbare, hflushed, hwf⟩ := h
  exact ⟨hbare, hflushed, memSetBits_wf _ _ _ hwf⟩

/-- Fields written one after another with room for all put their bits behind the stream. -/
theorem runCommands_writeFields (fields : List (BitVec 64 × Byte)) {s : State} (h : s.openWriter)
    (hlen : ∀ f ∈ fields, f.2.toNat ≤ 64) (hroom : s.wpos + (fields.map fun f => f.2.toNat).sum ≤ 32 * s.capw) :
    ∃ ws t, runCommands (fields.map writeField) s = some (ws, t) ∧ t.openWriter ∧
      t.stream = s.stream ++ writtenBits fields := by
  induction fields generalizing s with
  | nil => exact ⟨[], s, rfl, h, (List.append_nil _).symm⟩
  | cons f r ih =>
    have ⟨hbare, hflushed, hwf⟩ := h
    simp only [List.map_cons, List.sum_cons] at hroom
    have hstep := exec_writeField hbare hflushed f (hlen f (by simp)) (by omega)
    obtain ⟨ws, t, hrun, ht, hstream⟩ := ih (h.append_answer (bitsOf f.2.toNat f.1.toNat) (.num f.2.toNat))
      (fun g hg => hlen g (by simp [hg])) (by simp; omega)
    have hfield : ((s.append (bitsOf f.2.toNat f.1.toNat)).answer (.num f.2.toNat)).stream =
        s.stream ++ bitsOf f.2.toNat f.1.toNat := s.stream_append _ hwf
    exact ⟨_, t, runCommands_cons hstep hrun, ht, by rw [hstream, hfield, List.append_assoc, writtenBits_cons]⟩

/-- FLUSH and GETBUFFER on an open writer: the bytes answered are the first of the padded stream. -/
theorem runCommands_flush_getBuffer {s : State} (h : s.openWriter) (byteLen : BitVec 32)
    (hlen : 8 * byteLen.toNat ≤ 32 * ((s.wpos + 31) / 32)) :
    ∃ ws w bs, runCommands [.flush, .getBuffer byteLen] s = some (ws, w) ∧ w.resp = some (.ok (.bytes bs)) ∧
      bs.length = byteLen.toNat ∧ bs.flatMap bitsOfByte = (s.stream ++ padding s.wpos).take (8 * byteLen.toNat) := by
  obtain ⟨hbare, hflushed, hwf⟩ := h
  have hflush := exec_flush_pads hbare hflushed
  generalize ht : ({ s.append (padding s.wpos) with flushed := true } : State).answer .unit = t at hflush
  have htbare : t.bare .enc := ht ▸ hbare
  have htflushed : t.flushed = true := ht ▸ rfl
  have hwpos : t.wpos = 32 * ((s.wpos + 31) / 32) := ht ▸ add_padding_length s.wpos
  have hstream : t.stream = s.stream ++ padding s.wpos := ht ▸ s.stream_append (padding s.wpos) hwf
  have hget := exec_getBuffer_bytes htbare htflushed byteLen (hwpos ▸ hlen)
  refine ⟨_, _, memBytes t.wbuf 0 byteLen.toNat, runCommands_cons hflush (runCommands_cons hget rfl), rfl,
    memBytes_length _ _ _, ?_⟩
  rw [← hstream]
  exact t.flatMap_memBytes_wbuf _ (hwpos ▸ hlen)

/-- A fresh bare writer given `fields`, flushed and read out: its bytes begin with the fields' bits. -/
theorem runCommands_writer (fields : List (BitVec 64 × Byte)) (g : EncConfig) (byteLen : BitVec 32) (s : State)
    (hlen : ∀ f ∈ fields, f.2.toNat ≤ 64) (hcodec : g.codec.toNat = 5) (hcapw : g.capw.toNat ≤ 2 ^ 27 - 1)
    (hroom : (fields.map fun f => f.2.toNat).sum ≤ 32 * g.capw.toNat)
    (hcovers : (fields.map fun f => f.2.toNat).sum ≤ 8 * byteLen.toNat)
    (hwords : 8 * byteLen.toNat ≤ 32 * (((fields.map fun f => f.2.toNat).sum + 31) / 32)) :
    ∃ ws w bs,
      runCommands (.constructEnc g :: fields.map writeField ++ [.flush, .getBuffer byteLen]) s = some (ws, w) ∧
      w.resp = some (.ok (.bytes bs)) ∧ bs.length = byteLen.toNat ∧ writtenBits fields <+: bs.flatMap bitsOfByte := by
  have hconstruct := exec_constructEnc_bare g s hcodec hcapw
  have hfresh := openWriter_construct s g.logw.toNat g.capw.toNat g.eps (tableOf g.lead64) (tableOf g.lead32)
  obtain ⟨ws, t, hwrite, ht, hstream⟩ := runCommands_writeFields fields (hfresh.append_answer [] .unit) hlen
    (by simpa [State.construct] using hroom)
  replace hstream : t.stream = writtenBits fields := hstream
  have hwpos : t.wpos = (fields.map fun f => f.2.toNat).sum := by
    rw [← t.stream_length, hstream, writtenBits_length]
  obtain ⟨vs, w, bs, hrest, hresp, hbytes, hbits⟩ := runCommands_flush_getBuffer ht byteLen (hwpos ▸ hwords)
  refine ⟨_, w, bs, runCommands_append (runCommands_cons hconstruct hwrite) hrest, hresp, hbytes,
    (padding t.wpos).take (8 * byteLen.toNat - (writtenBits fields).length), ?_⟩
  rw [hbits, hstream, List.take_append,
    List.take_of_length_le (l := writtenBits fields) (by simpa using hcovers)]

/-! ## The reader's run -/

/-- CONSTRUCT of a bare reader, which loads nothing (rules R36, R270). -/
theorem exec_constructDec_bare (g : DecConfig) (s : State) (hcodec : g.codec.toNat = 5)
    (hbytes : g.bytes.length < 2 ^ 29) :
    exec (.constructDec g) s =
      .next ((s.construct .bs .dec 0 0 0 0 (tableOf g.lead64) (tableOf g.lead32)).answer .unit) := by
  have hlegal : legalDec .bs g = true := by
    have hmax : g.bytes.length < maxLoad := hbytes
    simp [legalDec, legalLogw, legalTables, hasRing, hmax]
  change execConstructDec g s = _
  simp only [execConstructDec, hcodec, codecOf, hlegal, if_true]

/-- A first LOAD of fewer than 2^29 bytes on a bare reader (rule R140). -/
theorem exec_load_bytes {s : State} (h : s.bare .dec) (hl : s.loaded = false) (bytes : List Byte)
    (hlen : bytes.length < 2 ^ 29) : exec (.load bytes) s = .next ((s.loadBytes bytes).answer .unit) := by
  rw [exec_load_of_bare h, bsrLoad, if_neg (by simp [hl]), if_neg (by simpa [maxLoad] using hlen), Eff.outcome_ok]

/-- Stream bit `p` of a reader just loaded (rules R61, R140). -/
theorem State.readerBit_loadBytes (s : State) (bytes : List Byte) (p : Nat) :
    (s.loadBytes bytes).readerBit p = (bytes.flatMap bitsOfByte).getD p false := by
  have hbit : (s.loadBytes bytes).readerBit p = if p < 8 * bytes.length then memBit (memOfBytes 0 bytes) p else false := rfl
  rw [hbit, memBit_memOfBytes]
  split
  · rfl
  · rw [List.getD_eq_default _ _ (by rw [flatMap_bitsOfByte_length]; omega)]

/-- What a reader just loaded has ahead is the beginning of its bytes' bits. -/
theorem State.ahead_loadBytes (s : State) (bytes : List Byte) {bits : List Bool}
    (h : bits <+: bytes.flatMap bitsOfByte) : (s.loadBytes bytes).ahead bits.length = bits := by
  obtain ⟨rest, hrest⟩ := h
  apply List.ext_getElem
  · simp
  · intro p _ hp
    have hat : ((s.loadBytes bytes).ahead bits.length)[p]'(by simpa using hp) = (bits ++ rest).getD p false := by
      simp [State.ahead, State.readerBit_loadBytes, hrest]
    rw [hat, List.getD_append _ _ _ _ hp, List.getD_eq_getElem _ _ hp]

/-- A field read is the bits ahead and one move, by READINT or by READLONG. -/
theorem exec_readField {s : State} (h : s.bare .dec) (n : Byte) (hlen : n.toNat ≤ 64) :
    exec (readField n) s = .next ((s.advance n.toNat).answer (.num (natOfBits (s.ahead n.toNat)))) := by
  unfold readField
  split
  · exact exec_readInt_field h n ‹_›
  · exact exec_readLong_field h n hlen

/-- A move that ends at LENBITS or before leaves PAST_END (rule R142). -/
theorem State.advance_pastEnd_of_le (s : State) (n : Nat) (h : s.rpos + n ≤ s.lenBits) :
    (s.advance n).pastEnd = s.pastEnd := by
  simp [pastEndAt, h]

/-- Reads inside the stream return the bits ahead cut at their lengths, and PAST_END stays clear. -/
theorem runCommands_readFields (ns : List Byte) {s : State} (h : s.bare .dec) (hp : s.pastEnd = false)
    (hlen : ∀ n ∈ ns, n.toNat ≤ 64) (hroom : s.rpos + (ns.map BitVec.toNat).sum ≤ s.lenBits) :
    ∃ t, runCommands (ns.map readField) s =
        some ((readings (ns.map BitVec.toNat) (s.ahead (ns.map BitVec.toNat).sum)).map fun k => some (.ok (.num k)), t) ∧
      t.pastEnd = false := by
  induction ns generalizing s with
  | nil => exact ⟨s, rfl, hp⟩
  | cons n r ih =>
    simp only [List.map_cons, List.sum_cons] at hroom
    have hstep := exec_readField h n (hlen n (by simp))
    have hpast : (s.advance n.toNat).pastEnd = false := (s.advance_pastEnd_of_le _ (by omega)).trans hp
    obtain ⟨t, hrun, ht⟩ := ih (s := (s.advance n.toNat).answer (.num (natOfBits (s.ahead n.toNat)))) h hpast
      (fun m hm => hlen m (by simp [hm])) (by simp; omega)
    refine ⟨t, (runCommands_cons hstep hrun).trans ?_, ht⟩
    rw [List.map_cons, List.sum_cons, State.ahead_add, readings, List.take_left' (State.ahead_length _ _),
      List.drop_left' (State.ahead_length _ _), List.map_cons]
    rfl

/-- A fresh bare reader loaded with bytes that begin with `bits` returns them cut at the lengths of its reads. -/
theorem runCommands_reader (ns : List Byte) (g : DecConfig) (bytes : List Byte) (bits : List Bool) (s : State)
    (hcodec : g.codec.toNat = 5) (hbytes : g.bytes.length < 2 ^ 29) (hload : bytes.length < 2 ^ 29)
    (hbits : bits <+: bytes.flatMap bitsOfByte) (hlen : ∀ n ∈ ns, n.toNat ≤ 64)
    (htotal : (ns.map BitVec.toNat).sum = bits.length) :
    ∃ rs r, runCommands (.constructDec g :: .load bytes :: ns.map readField) s = some (rs, r) ∧
      rs.drop 2 = (readings (ns.map BitVec.toNat) bits).map (fun k => some (.ok (.num k))) ∧ r.pastEnd = false := by
  have hconstruct := exec_constructDec_bare g s hcodec hbytes
  generalize hs0 : (s.construct .bs .dec 0 0 0 0 (tableOf g.lead64) (tableOf g.lead32)).answer .unit = s0 at hconstruct
  have hbare : s0.bare .dec := hs0 ▸ ⟨rfl, rfl, Phase.noConfusion⟩
  have hloaded := exec_load_bytes hbare (hs0 ▸ rfl) bytes hload
  have hroom : (ns.map BitVec.toNat).sum ≤ 8 * bytes.length := by
    rw [htotal, ← flatMap_bitsOfByte_length]
    exact hbits.length_le
  obtain ⟨r, hreads, hpast⟩ := runCommands_readFields ns (s := (s0.loadBytes bytes).answer .unit) hbare rfl hlen
    (by simpa [State.lenBits] using hroom)
  refine ⟨_, r, runCommands_cons hconstruct (runCommands_cons hloaded hreads), ?_, hpast⟩
  have hahead : ((s0.loadBytes bytes).answer .unit).ahead (ns.map BitVec.toNat).sum = bits :=
    htotal ▸ s0.ahead_loadBytes bytes hbits
  rw [hahead]
  rfl

/-! ## The statement -/

/-- Settles O23: the writer's bytes begin with the fields' bits, and a reader of such bytes returns those bits cut at
whatever lengths it reads; at the fields' own lengths the pieces are the fields. -/
theorem writtenFieldsReadBack : Obligations.WrittenFieldsReadBack := by
  intro fields gw gr byteLen s s' hlen hgw hgr hcapw hbytes hroom hcovers hwords
  obtain ⟨ws, w, bs, hwriter, hresp, hbs, hbits⟩ :=
    runCommands_writer fields gw byteLen s hlen hgw hcapw hroom hcovers hwords
  have hload : bs.length < 2 ^ 29 := by omega
  have hread := fun (ns : List Byte) => runCommands_reader ns gr bs (writtenBits fields) s' hgr hbytes hload hbits
  have hlengths : (fields.map Prod.snd).map BitVec.toNat = fields.map fun f => f.2.toNat := List.map_map
  obtain ⟨rs, r, hreader, hdrop, hpast⟩ := hread (fields.map Prod.snd)
    (List.forall_mem_map.mpr hlen) (by rw [hlengths, writtenBits_length])
  refine ⟨bs, ws, rs, w, r, hwriter, hresp, ?_, ?_, hpast, fun ns hns hsum => ?_⟩
  · rw [List.map_map] at hreader
    exact hreader
  · rw [hdrop, hlengths, readings_writtenBits, List.map_map]
    rfl
  · exact hread ns hns (hsum.trans (writtenBits_length fields).symm)

end Machine
end Sys2Proof
end

section
/-! PROOFS. The GOR decoder: what LIT, SAME, REUSE and NEW leave behind (rules R170 to R174). -/

namespace Sys2Proof
namespace Machine

/-! ## The end of a record before the end of the stream (rules R174, R271) -/

/-- A decoder with values to come runs a wire code of its own unit at its own place. -/
theorem State.decoding.runs {s : State} {codec : Codec} (h : s.decoding codec) (hcodec : codec ≠ .bs)
    {place : State → Bool} (hplace : place s = true) (k : State → Host.Outcome State Fault Refusal) :
    onDecoder codec place s k = k s := by
  obtain ⟨hc, hdir, hphase⟩ := h
  exact onDecoder_run hc hcodec hdir hphase hplace

theorem atLater_of_not_first {s : State} (h : s.first = false) : atLater s = true := by simp [atLater, h]

theorem finishRecord_none {s : State} (h : s.pastEnd = false) : finishRecord none s = s.ends := by
  simp [finishRecord, h, State.ends, State.answer]

theorem finishRecord_some {s : State} (h : s.pastEnd = false) (v : Raw) : finishRecord (some v) s = s.delivers v := by
  simp [finishRecord, h, State.delivers, State.answer]

/-- A NaN ends the block with PREV as it was; any other value is committed and delivered (rule R174). -/
theorem gorCommit_eq {s : State} (h : s.pastEnd = false) (v : Raw) :
    gorCommit v s = if isNaN 64 v = true then s.ends else { s with prev := some v }.delivers v := by
  rw [gorCommit, finishRecord_none h, finishRecord_some (s := { s with prev := some v }) h]

/-- A record behind the first commits the XOR with the previous value (rules R171 to R174). -/
theorem gorXor_eq {s : State} {q : Raw} (hprev : s.prev = some q) (x : Raw) : gorXor x s = .next (gorCommit (q ^^^ x) s) := by
  rw [gorXor, hprev]

/-! ## The four records on a GOR decoder -/

/-- NEW's six-bit count as a number of bits, 0 standing for 64 (rules R93, R173). -/
theorem sigOf_toNat (cnt : BitVec 6) : sigOf 64 cnt.toNat = if cnt = 0 then 64 else cnt.toNat := by
  simp only [sigOf, BitVec.toNat_eq, BitVec.ofNat_eq_ofNat, BitVec.toNat_ofNat, Nat.zero_mod]

theorem exec_gorLit_of_first {s : State} (h : s.decoding .gor) (hfirst : s.first = true) (v : BitVec 64) :
    exec (.gorLit v) s = .next (gorCommit v { s with first := false }) := by
  change execGorLit v s = _
  rw [execGorLit, h.runs (place := atFirst) (by decide) hfirst]

theorem exec_gorSame_of_later {s : State} (h : s.decoding .gor) (hfirst : s.first = false) :
    exec .gorSame s = gorXor 0 s := by
  change execGorSame s = _
  rw [execGorSame, h.runs (by decide) (atLater_of_not_first hfirst)]

/-- REUSE with a window shifts its payload to the window's place (rule R172). -/
theorem exec_gorReuse_of_window {s : State} (h : s.decoding .gor) (hfirst : s.first = false) {l : Nat}
    (hwindow : s.clead = some l) (p : BitVec 64) : exec (.gorReuse p) s = gorXor (p <<< s.ctrail) s := by
  change execGorReuse p s = _
  rw [execGorReuse, h.runs (by decide) (atLater_of_not_first hfirst), hwindow]

/-- NEW whose fields fill 64 bits opens its window, then shifts its payload to the window's place (rule R173). -/
theorem exec_gorNew_of_fits {s : State} (h : s.decoding .gor) (hfirst : s.first = false) {l : BitVec 5} {cnt : BitVec 6}
    {trail : Nat} (hfits : l.toNat + sigOf 64 cnt.toNat + trail = 64) (p : BitVec 64) :
    exec (.gorNew l cnt p) s = gorXor (p <<< trail) { s with clead := some l.toNat, ctrail := trail } := by
  have htrail : 64 - l.toNat - sigOf 64 cnt.toNat = trail := by omega
  change execGorNew l cnt p s = _
  rw [execGorNew, h.runs (by decide) (atLater_of_not_first hfirst), if_neg (by omega), htrail]

/-! ## The statement -/

/-- Settles O25: each code is the commit of one value on the state its registers were written in, and on a decoder that
has not run past its stream that commit is END or the value; SAME's commit writes PREV with what it holds. -/
theorem gorDecodes : Obligations.GorDecodes := by
  intro s hdec hpast
  refine ⟨fun hfirst v => ?lit, fun hfirst q hprev => ⟨?same, fun l hwindow p => ?reuse,
    fun l cnt p sig trail hsig hfits => ?new⟩⟩
  case lit => rw [exec_gorLit_of_first hdec hfirst, gorCommit_eq (s := { s with first := false }) hpast]
  case same =>
    have hkept : { s with prev := some q } = s := by rw [← hprev]
    have hxor : q ^^^ 0 = q := BitVec.xor_zero
    rw [exec_gorSame_of_later hdec hfirst, gorXor_eq hprev, hxor, gorCommit_eq hpast, hkept]
  case reuse => rw [exec_gorReuse_of_window hdec hfirst hwindow, gorXor_eq hprev, gorCommit_eq hpast]
  case new =>
    rw [← sigOf_toNat] at hsig
    rw [exec_gorNew_of_fits hdec hfirst (hsig ▸ hfits),
      gorXor_eq (s := { s with clead := some l.toNat, ctrail := trail }) hprev,
      gorCommit_eq (s := { s with clead := some l.toNat, ctrail := trail }) hpast]

end Machine
end Sys2Proof
end

section
/-! PROOFS. The exact numbers of the ELF erasure stage: magnitude, `floorlog10` and `F` (rules R16, R17, R223). -/

namespace Sys2Proof
namespace Machine

/-! ## The magnitude (rule R16) -/

theorem one_le_bias_add_mantBits (n : Nat) : 1 ≤ bias n + mantBits n := by unfold bias; split <;> omega

theorem magnitude_den_pos (n : Nat) (v : Raw) : 0 < (magnitude n v).den := by
  unfold magnitude; split_ifs <;> positivity

/-- The value without its sign, in the words of rule R16. -/
theorem abs_rawVal (n : Nat) (v : Raw) :
    |rawVal n v| =
      if expField n v = 0 then 2 ^ (1 - (bias n : Int) - (mantBits n : Int)) * (mantField n v : ℚ)
      else 2 ^ ((expField n v : Int) - (bias n : Int) - (mantBits n : Int)) * (2 ^ mantBits n + (mantField n v : ℚ)) := by
  have hsign : |(if signBit n v then (-1 : ℚ) else 1)| = 1 := by split <;> simp
  rw [rawVal, abs_mul, hsign, one_mul]
  exact abs_of_nonneg (by split <;> positivity)

theorem magnitude_val (n : Nat) (v : Raw) : (magnitude n v).val = |rawVal n v| := by
  have hpos := one_le_bias_add_mantBits n
  rw [abs_rawVal]
  unfold magnitude Frac.val
  split
  case isTrue h =>
    have hexp : 1 - (bias n : Int) - (mantBits n : Int) = -((bias n + mantBits n - 1 : Nat) : Int) := by omega
    rw [hexp, zpow_neg, zpow_natCast]
    push_cast
    rw [div_eq_inv_mul]
  case isFalse h =>
    split
    case isTrue hlt =>
      have hexp : (expField n v : Int) - bias n - mantBits n = -((bias n + mantBits n - expField n v : Nat) : Int) := by
        omega
      rw [hexp, zpow_neg, zpow_natCast]
      push_cast
      rw [div_eq_inv_mul]
    case isFalse hge =>
      have hexp : (expField n v : Int) - bias n - mantBits n = ((expField n v - (bias n + mantBits n) : Nat) : Int) := by
        omega
      rw [hexp, zpow_natCast]
      push_cast
      rw [div_one, mul_comm]

/-! ## `floorlog10` (rule R17) -/

/-- Counting up stops at the last power of ten that is not above the fraction, where the fuel reaches it. -/
theorem countUp_spec (fuel num den : Nat) (hle : den ≤ num) (hfuel : num < den * 10 ^ fuel) :
    den * 10 ^ countUp fuel num den ≤ num ∧ num < den * 10 ^ (countUp fuel num den + 1) := by
  induction fuel generalizing den with
  | zero => omega
  | succ f ih =>
    unfold countUp
    split
    case isTrue h =>
      have hstep : ∀ k, den * 10 * 10 ^ k = den * 10 ^ (k + 1) := fun k => by ring
      have := ih (den * 10) h (by rw [hstep]; exact hfuel)
      simpa only [hstep] using this
    case isFalse h => omega

/-- Counting down stops at the first power of ten that lifts the fraction to 1, where the fuel reaches it. -/
theorem countDown_spec (fuel num den : Nat) (hlt : num < den * 10) (hfuel : den ≤ num * 10 ^ fuel) :
    den ≤ num * 10 ^ countDown fuel num den ∧ num * 10 ^ countDown fuel num den < den * 10 := by
  induction fuel generalizing num with
  | zero => exact ⟨hfuel, by simpa [countDown] using hlt⟩
  | succ f ih =>
    unfold countDown
    split
    case isTrue h => simpa using ⟨h, hlt⟩
    case isFalse h =>
      have hstep : ∀ k, num * 10 * 10 ^ k = num * 10 ^ (k + 1) := fun k => by ring
      have := ih (num * 10) (by omega) (by rw [hstep]; exact hfuel)
      simpa only [hstep] using this

/-- A number is below the power of ten whose exponent is its count of binary digits. -/
theorem lt_ten_pow_log2_succ (m : Nat) : m < 10 ^ (m.log2 + 1) :=
  Nat.lt_of_lt_of_le Nat.lt_log2_self (Nat.pow_le_pow_left (by decide) _)

theorem floorLog10_spec (a : Frac) (hnum : 0 < a.num) (hden : 0 < a.den) :
    (10 : ℚ) ^ floorLog10 a ≤ a.val ∧ a.val < (10 : ℚ) ^ (floorLog10 a + 1) := by
  have hd : (0 : ℚ) < a.den := by exact_mod_cast hden
  unfold floorLog10 Frac.val
  split
  case isTrue h =>
    have hfuel : a.num < a.den * 10 ^ (a.num.log2 + 1) :=
      Nat.lt_of_lt_of_le (lt_ten_pow_log2_succ _) (Nat.le_mul_of_pos_left _ hden)
    obtain ⟨hlow, hhigh⟩ := countUp_spec _ _ _ h hfuel
    rw [le_div_iff₀ hd, div_lt_iff₀ hd, ← Nat.cast_succ, zpow_natCast, zpow_natCast, mul_comm, mul_comm _ (a.den : ℚ)]
    exact ⟨by exact_mod_cast hlow, by exact_mod_cast hhigh⟩
  case isFalse h =>
    have hfuel : a.den ≤ a.num * 10 ^ (a.den.log2 + 1) :=
      Nat.le_trans (Nat.le_of_lt (lt_ten_pow_log2_succ _)) (Nat.le_mul_of_pos_left _ hnum)
    obtain ⟨hlow, hhigh⟩ := countDown_spec _ _ _ (by omega) hfuel
    rw [zpow_add₀ (by norm_num), zpow_neg, zpow_natCast, zpow_one, inv_mul_eq_div, div_lt_div_iff₀ hd (by positivity),
      le_div_iff₀ hd, inv_mul_le_iff₀ (by positivity)]
    exact ⟨by rw [mul_comm]; exact_mod_cast hlow, by rw [mul_comm (10 : ℚ)]; exact_mod_cast hhigh⟩

/-- The exponent of ten is the only one between whose powers the number lies. -/
theorem floorLog10_eq {a : Frac} (hnum : 0 < a.num) (hden : 0 < a.den) {sp : Int} (hlow : (10 : ℚ) ^ sp ≤ a.val)
    (hhigh : a.val < (10 : ℚ) ^ (sp + 1)) : floorLog10 a = sp := by
  obtain ⟨hlow', hhigh'⟩ := floorLog10_spec a hnum hden
  have h1 := (zpow_lt_zpow_iff_right₀ (by norm_num : (1 : ℚ) < 10)).mp (hlow.trans_lt hhigh')
  have h2 := (zpow_lt_zpow_iff_right₀ (by norm_num : (1 : ℚ) < 10)).mp (hlow'.trans_lt hhigh)
  omega

/-! ## `F` (rule R223) -/

theorem fracBits_of_nonpos {alpha : Int} (h : alpha ≤ 0) : fracBits alpha = 0 := if_pos h

/-- `F(alpha)` is the least exponent of two that reaches `10^alpha`. -/
theorem fracBits_le_iff {alpha : Int} (h : 0 < alpha) (f : Nat) : fracBits alpha ≤ f ↔ 10 ^ alpha.toNat ≤ 2 ^ f := by
  have hten : 10 ≤ 10 ^ alpha.toNat := Nat.le_self_pow (by omega) 10
  have hlog := @Nat.log2_lt (10 ^ alpha.toNat - 1) f (by omega)
  rw [fracBits, if_neg (by omega)]
  omega

/-- Settles O41: the magnitude by the three shapes of a finite value, `floorlog10` by counting from either side of 1, `F`
by the binary logarithm of `10^alpha - 1`. -/
theorem exactDecimals : Obligations.ExactDecimals := by
  refine ⟨fun n v _ _ _ => ⟨magnitude_val n v, magnitude_den_pos n v⟩, floorLog10_spec, fun alpha =>
    ⟨fracBits_of_nonpos, fun h => ⟨?_, fun f hf => ?_⟩⟩⟩
  · exact (fracBits_le_iff h _).mp le_rfl
  · exact (fracBits_le_iff h f).mpr hf

end Machine
end Sys2Proof
end

section
/-! PROOFS. Restoring an erased value: rounding up in decimal, the sign, and `Recover` (rules R16, R17, R224). -/

namespace Sys2Proof
namespace Machine

/-! ## Rounding up in decimal (rules R17, R224) -/

theorem scale10_den_pos {a : Frac} (h : 0 < a.den) (k : Int) : 0 < (scale10 a k).den := by
  unfold scale10; positivity

theorem scale10_val (a : Frac) (k : Int) : (scale10 a k).val = a.val * (10 : ℚ) ^ k := by
  unfold scale10 Frac.val
  push_cast
  rw [mul_div_mul_comm, ← zpow_natCast, ← zpow_natCast, ← zpow_sub₀ (by norm_num)]
  congr 2
  omega

/-- `ceilDiv` is the least integer not below the fraction. -/
theorem ceilDiv_le_iff (a : Frac) (h : 0 < a.den) (k : Int) : (ceilDiv a.num a.den : ℚ) ≤ k ↔ a.val ≤ k := by
  have hceil : ceilDiv a.num a.den = a.num ⌈/⌉ a.den := (Nat.ceilDiv_eq_add_pred_div _ _).symm
  have hd : (0 : ℚ) < a.den := by exact_mod_cast h
  rw [Frac.val, div_le_iff₀ hd, hceil]
  rcases k with k | k
  · rw [Int.ofNat_eq_natCast]
    norm_cast
    rw [ceilDiv_le_iff_le_mul h, mul_comm]
  · have hk : ((Int.negSucc k : Int) : ℚ) < 0 := by exact_mod_cast Int.negSucc_lt_zero k
    have h1 : ¬ ((a.num ⌈/⌉ a.den : Nat) : ℚ) ≤ (Int.negSucc k : Int) := by
      have : (0 : ℚ) ≤ ((a.num ⌈/⌉ a.den : Nat) : ℚ) := by positivity
      linarith
    have h2 : ¬ (a.num : ℚ) ≤ (Int.negSucc k : Int) * a.den := by
      have := mul_neg_of_neg_of_pos hk hd
      have : (0 : ℚ) ≤ a.num := by positivity
      linarith
    exact iff_of_false h1 h2

theorem roundUp10_den_pos (a : Frac) (alpha : Int) : 0 < (roundUp10 a alpha).den :=
  scale10_den_pos Nat.one_pos _

/-- `roundUp10` is a multiple of `10^(-alpha)`, and the multiples not below it are those not below the fraction. -/
theorem roundUp10_spec (a : Frac) (h : 0 < a.den) (alpha : Int) :
    (∃ k : Int, (roundUp10 a alpha).val = k * (10 : ℚ) ^ (-alpha)) ∧
      ∀ k : Int, (roundUp10 a alpha).val ≤ k * (10 : ℚ) ^ (-alpha) ↔ a.val ≤ k * (10 : ℚ) ^ (-alpha) := by
  have hunit : (0 : ℚ) < (10 : ℚ) ^ (-alpha) := by positivity
  have hval : (roundUp10 a alpha).val =
      (ceilDiv (scale10 a alpha).num (scale10 a alpha).den : ℚ) * (10 : ℚ) ^ (-alpha) := by
    rw [roundUp10, scale10_val, Frac.val, Nat.cast_one, div_one]
  refine ⟨⟨ceilDiv (scale10 a alpha).num (scale10 a alpha).den, by rw [hval, Int.cast_natCast]⟩, fun k => ?_⟩
  rw [hval, mul_le_mul_iff_of_pos_right hunit, ceilDiv_le_iff _ (scale10_den_pos h alpha), scale10_val,
    ← div_le_iff₀ hunit, zpow_neg, div_inv_eq_mul]

/-! ## The range of `RN_N` (rule R17) -/

/-- The bits of the infinity bound what RN_N gives. -/
theorem roundNearest_le (n : Nat) (q : Frac) :
    (roundNearest n q).toNat ≤ (2 ^ expBits n - 1) * 2 ^ mantBits n := by
  unfold roundNearest
  split
  · exact Nat.zero_le _
  · rw [BitVec.toNat_ofNat]
    exact Nat.le_trans (Nat.mod_le _ _) (Nat.min_le_right _ _)

theorem roundNearest_lt {n : Nat} (hn : n = 64 ∨ n = 32) (q : Frac) : (roundNearest n q).toNat < 2 ^ (n - 1) := by
  have h := roundNearest_le n q
  rcases hn with rfl | rfl <;> norm_num [expBits, mantBits] at h ⊢ <;> omega

/-! ## The sign (rules R16, R224) -/

theorem signBit_eq (n : Nat) (v : Raw) : signBit n v = decide (v.toNat / 2 ^ (n - 1) % 2 = 1) := by
  rw [signBit, BitVec.getLsbD, Nat.testBit_eq_decide_div_mod_eq]

/-- A magnitude put behind a sign is the sign's place and the magnitude. -/
theorem withSign_toNat {n : Nat} (hn : n = 64 ∨ n = 32) (v t : Raw) (ht : t.toNat < 2 ^ (n - 1)) :
    (withSign n v t).toNat = (if signBit n v = true then 2 ^ (n - 1) else 0) + t.toNat := by
  unfold withSign
  split
  · have hone : (2 ^ (n - 1) : Nat) % 2 ^ 64 = 2 ^ (n - 1) := by rcases hn with rfl | rfl <;> rfl
    have hor := Nat.two_pow_add_eq_or_of_lt ht 1
    rw [mul_one] at hor
    rw [BitVec.toNat_or, BitVec.toNat_ofNat, hone, Nat.or_comm, hor]
  · rw [Nat.zero_add]

/-! ## `Recover` (rule R224) -/

/-- The decimal number that `Recover` rounds to the format. -/
def recoverTarget (n : Nat) (v : Raw) (b : Nat) : Frac :=
  if b = 0 then scale10 { num := 1, den := 1 } (floorLog10 (magnitude n v) + 1)
  else roundUp10 (magnitude n v) ((b : Int) - floorLog10 (magnitude n v) - 1)

theorem recover_eq (n : Nat) (v : Raw) (b : Nat) :
    recover n v b =
      if isZero n v || isNaN n v || isInf n v then none
      else some (withSign n v (roundNearest n (recoverTarget n v b))) := by
  unfold recover recoverTarget; split_ifs <;> rfl

theorem recover_eq_none_iff (n : Nat) (v : Raw) (b : Nat) :
    recover n v b = none ↔ isZero n v = true ∨ isNaN n v = true ∨ isInf n v = true := by
  rw [recover_eq]; split <;> simp_all [or_assoc]

theorem recover_eq_some {n : Nat} {v r : Raw} {b : Nat} (h : recover n v b = some r) :
    isZero n v = false ∧ r = withSign n v (roundNearest n (recoverTarget n v b)) := by
  rw [recover_eq] at h
  split at h
  · cases h
  · cases h; simp_all

theorem recover_toNat {n : Nat} (hn : n = 64 ∨ n = 32) {v r : Raw} {b : Nat} (h : recover n v b = some r) :
    r.toNat = (if signBit n v = true then 2 ^ (n - 1) else 0) + (roundNearest n (recoverTarget n v b)).toNat := by
  obtain ⟨-, rfl⟩ := recover_eq_some h
  exact withSign_toNat hn _ _ (roundNearest_lt hn _)

/-- A value that is neither zero has a magnitude above 0 (rule R16). -/
theorem magnitude_num_pos {n : Nat} (hn : n = 64 ∨ n = 32) {v : Raw} (h : isZero n v = false) :
    0 < (magnitude n v).num := by
  unfold magnitude
  split_ifs with hexp
  · simp only [isZero, beq_eq_false_iff_ne] at h
    simp only [expField, mantField] at hexp ⊢
    rcases hn with rfl | rfl <;> norm_num [expBits, mantBits] at h hexp ⊢ <;> omega
  all_goals positivity

theorem floorLog10_magnitude {n : Nat} (hn : n = 64 ∨ n = 32) {v : Raw} (h : isZero n v = false) :
    (10 : ℚ) ^ floorLog10 (magnitude n v) ≤ |rawVal n v| ∧
      |rawVal n v| < (10 : ℚ) ^ (floorLog10 (magnitude n v) + 1) := by
  rw [← magnitude_val]
  exact floorLog10_spec _ (magnitude_num_pos hn h) (magnitude_den_pos n v)

theorem recoverTarget_den_pos (n : Nat) (v : Raw) (b : Nat) : 0 < (recoverTarget n v b).den := by
  unfold recoverTarget
  split
  · exact scale10_den_pos (by decide) _
  · exact roundUp10_den_pos _ _

/-- Settles O43: `Recover` rounds `recoverTarget`, the next power of ten or the least multiple not below the magnitude. -/
theorem recoverRoundsUp : Obligations.RecoverRoundsUp := by
  intro n v b hn _
  refine ⟨recover_eq_none_iff n v b, fun r hr => ?_⟩
  obtain ⟨hzero, -⟩ := recover_eq_some hr
  obtain ⟨hlow, hhigh⟩ := floorLog10_magnitude hn hzero
  refine ⟨floorLog10 (magnitude n v), recoverTarget n v b, hlow, hhigh, recoverTarget_den_pos n v b, fun hb => ?power,
    fun hb => ?multiple, recover_toNat hn hr⟩
  case power => rw [recoverTarget, if_pos hb, scale10_val]; simp [Frac.val]
  case multiple =>
    obtain ⟨⟨k, hk⟩, hleast⟩ :=
      roundUp10_spec (magnitude n v) (magnitude_den_pos n v) ((b : Int) - floorLog10 (magnitude n v) - 1)
    simp only [magnitude_val] at hleast
    rw [recoverTarget, if_neg hb]
    exact ⟨hk ▸ (hleast k).mp hk.le, ⟨k, hk⟩, fun j => (hleast j).mpr⟩

end Machine
end Sys2Proof
end

section
/-! PROOFS. Trials of the ELF encoder over the rationals, and the search for betaStar (rules R225, R228). -/

namespace Sys2Proof
namespace Machine

/-! ## Signs and distances (rule R16) -/

theorem rawVal_eq (n : Nat) (v : Raw) : rawVal n v = (if signBit n v then -1 else 1) * |rawVal n v| := by
  rw [abs_rawVal, rawVal]

/-- Numbers of one sign are as far apart as their magnitudes. -/
theorem abs_sub_of_signBit_eq {n : Nat} {v w : Raw} (h : signBit n w = signBit n v) :
    |rawVal n w - rawVal n v| = |(magnitude n w).val - (magnitude n v).val| := by
  have hsign : |(if signBit n v then (-1 : ℚ) else 1)| = 1 := by split <;> simp
  rw [magnitude_val, magnitude_val, rawVal_eq n w, rawVal_eq n v, h, ← mul_sub, abs_mul, hsign, one_mul, abs_mul,
    abs_mul, hsign, one_mul, one_mul, abs_abs, abs_abs]

/-- A legal EPS is not negative (rule R10). -/
theorem rawVal_nonneg_of_legalEps {eps : Raw} (h : legalEps eps = true) : 0 ≤ rawVal 64 eps := by
  rw [rawVal_eq]
  cases hs : signBit 64 eps with
  | false => simp
  | true =>
    have hzero : isZero 64 eps = true := by
      by_contra hz
      simp [legalEps, hs, hz] at h
    have hz : eps.toNat % 2 ^ 63 = 0 := by simpa [isZero] using hzero
    have hexp : expField 64 eps = 0 := by norm_num [expField, mantBits, expBits] at hz ⊢; omega
    have hmant : mantField 64 eps = 0 := by norm_num [mantField, mantBits] at hz ⊢; omega
    simp [abs_rawVal, hexp, hmant]

theorem magnitude_val_of_legalEps {eps : Raw} (h : legalEps eps = true) : (magnitude 64 eps).val = rawVal 64 eps := by
  rw [magnitude_val, abs_of_nonneg (rawVal_nonneg_of_legalEps h)]

/-- The difference of naturals taken both ways is their distance. -/
theorem cast_sub_add_sub (x y : Nat) : ((x - y + (y - x) : Nat) : ℚ) = |(x : ℚ) - y| := by
  rcases Nat.le_total x y with h | h
  · rw [Nat.sub_eq_zero_of_le h, Nat.zero_add, Nat.cast_sub h, abs_sub_comm, abs_of_nonneg]
    exact sub_nonneg.mpr (by exact_mod_cast h)
  · rw [Nat.sub_eq_zero_of_le h, Nat.add_zero, Nat.cast_sub h, abs_of_nonneg]
    exact sub_nonneg.mpr (by exact_mod_cast h)

theorem within_iff {a b e : Frac} (ha : 0 < a.den) (hb : 0 < b.den) (he : 0 < e.den) :
    within a b e = true ↔ |a.val - b.val| ≤ e.val := by
  have hab : (0 : ℚ) < a.den * b.den := by exact_mod_cast Nat.mul_pos ha hb
  have hnum : |a.val - b.val| = ((a.num * b.den - b.num * a.den + (b.num * a.den - a.num * b.den) : Nat) : ℚ)
      / (a.den * b.den) := by
    rw [cast_sub_add_sub, Frac.val, Frac.val, div_sub_div _ _ (by positivity) (by positivity), abs_div, abs_of_pos hab]
    push_cast
    rw [mul_comm (a.den : ℚ) b.num]
  rw [hnum, Frac.val, div_le_div_iff₀ hab (by exact_mod_cast he), within, decide_eq_true_eq]
  norm_cast

/-! ## Clearing low bits (rules R13, R225) -/

theorem clearLow_getLsbD (k : Nat) (v : Raw) (i : Nat) : (clearLow k v).getLsbD i = (decide (k ≤ i) && v.getLsbD i) := by
  rw [clearLow, BitVec.getLsbD_xor, BitVec.getLsbD, BitVec.getLsbD, lowBits_toNat, Nat.testBit_mod_two_pow]
  by_cases h : i < k
  · simp [h]
  · simp [h, Nat.le_of_not_lt h]

theorem clearLow_toNat (k : Nat) (v : Raw) : (clearLow k v).toNat = v.toNat - v.toNat % 2 ^ k := by
  have hmul : v.toNat - v.toNat % 2 ^ k = 2 ^ k * (v.toNat / 2 ^ k) := by
    have := Nat.div_add_mod v.toNat (2 ^ k); omega
  rw [hmul]
  refine Nat.eq_of_testBit_eq fun i => ?_
  have hbit := clearLow_getLsbD k v i
  rw [BitVec.getLsbD, BitVec.getLsbD] at hbit
  rw [hbit, Nat.testBit_two_pow_mul, Nat.testBit_div_two_pow]
  by_cases h : k ≤ i
  · simp [h]
  · simp [h]

theorem eq_clearLow_iff (k : Nat) (v w : Raw) : w = clearLow k v ↔ w.toNat = v.toNat - v.toNat % 2 ^ k := by
  rw [← clearLow_toNat, BitVec.toNat_inj]

theorem lowBits_eq_zero_iff (k : Nat) (v : Raw) : lowBits k v = 0 ↔ v.toNat % 2 ^ k = 0 := by
  rw [← lowBits_toNat, ← BitVec.toNat_inj]; rfl

/-- Clearing mantissa bits leaves the sign. -/
theorem signBit_clearLow {n k : Nat} (hn : n = 64 ∨ n = 32) (hk : k ≤ mantBits n) (v : Raw) :
    signBit n (clearLow k v) = signBit n v := by
  have hmant : mantBits n ≤ n - 1 := by rcases hn with rfl | rfl <;> decide
  rw [signBit, clearLow_getLsbD, signBit]
  simp [Nat.le_trans hk hmant]

/-- `Recover` keeps the sign (rule R224). -/
theorem signBit_recover {n : Nat} (hn : n = 64 ∨ n = 32) {v r : Raw} {b : Nat} (h : recover n v b = some r) :
    signBit n r = signBit n v := by
  have hlt := roundNearest_lt hn (recoverTarget n v b)
  have hr := recover_toNat hn h
  rw [signBit_eq n r, hr]
  cases signBit n v
  · simp [Nat.div_eq_of_lt hlt]
  · rw [if_pos rfl, Nat.add_comm, Nat.add_div_right _ (by positivity), Nat.div_eq_of_lt hlt]; rfl

/-! ## One trial (rule R225) -/

/-- The tests of a trial, each passed. -/
theorem trial_eq_some_iff (n : Nat) (eps v : Raw) (b : Nat) (v' : Raw) :
    trial n eps v b = some v' ↔
      (minErase n : Int) < trialErase n v b ∧ lowBits (trialErase n v b).toNat v ≠ 0 ∧
        v' = clearLow (trialErase n v b).toNat v ∧
        ∃ r, recover n v' b = some r ∧ isInf n r = false ∧
          within (magnitude n r) (magnitude n v) (magnitude 64 eps) = true := by
  unfold trial
  split
  case isTrue h => exact iff_of_false (by simp) (by omega)
  case isFalse h =>
    split
    case isTrue hlow => exact iff_of_false (by simp) (by tauto)
    case isFalse hlow =>
      have hE : (minErase n : Int) < trialErase n v b := by omega
      cases hr : recover n (clearLow (trialErase n v b).toNat v) b with
      | none => exact iff_of_false (by simp) (by rintro ⟨-, -, rfl, r, hr', -⟩; simp [hr] at hr')
      | some r =>
        constructor
        · intro ht
          cases hinf : isInf n r <;> cases hw : within (magnitude n r) (magnitude n v) (magnitude 64 eps) <;>
            simp [hinf, hw] at ht
          exact ⟨hE, hlow, ht.symm, r, ht ▸ hr, hinf, hw⟩
        · rintro ⟨-, -, rfl, r', hr', hinf, hw⟩
          cases hr.symm.trans hr'
          simp [hinf, hw]

/-- The model's trial is the trial of rule R225 over the rationals. -/
theorem trial_eq_some_iff_accepts {n : Nat} {eps v : Raw} (hn : n = 64 ∨ n = 32) (heps : legalEps eps = true)
    (hzero : isZero n v = false) (b : Nat) (v' : Raw) : trial n eps v b = some v' ↔ trialAccepts n eps v b v' := by
  have hcap : trialErase n v b ≤ mantBits n := min_le_right _ _
  have herror : ∀ {k : Nat} {r : Raw}, k ≤ mantBits n → recover n (clearLow k v) b = some r →
      (within (magnitude n r) (magnitude n v) (magnitude 64 eps) = true ↔ |rawVal n r - rawVal n v| ≤ rawVal 64 eps) := by
    intro k r hk hr
    have hsign := (signBit_recover hn hr).trans (signBit_clearLow hn hk v)
    rw [within_iff (magnitude_den_pos _ _) (magnitude_den_pos _ _) (magnitude_den_pos _ _), abs_sub_of_signBit_eq hsign,
      magnitude_val_of_legalEps heps]
  rw [trial_eq_some_iff]
  constructor
  · rintro ⟨herase, hlow, hv', r, hr, hinf, hwithin⟩
    obtain ⟨hsp, hsp'⟩ := floorLog10_magnitude hn hzero
    have hcast : ((trialErase n v b).toNat : Int) = trialErase n v b := Int.toNat_of_nonneg (by omega)
    refine ⟨floorLog10 (magnitude n v), (trialErase n v b).toNat, r, hsp, hsp', hcast, by omega,
      mt (lowBits_eq_zero_iff _ v).mpr hlow, (eq_clearLow_iff _ v v').mp hv', hr, hinf, ?_⟩
    exact (herror (by omega) (hv' ▸ hr)).mp hwithin
  · rintro ⟨sp, erase, r, hsp, hsp', herase, hmin, hlow, hv', hr, hinf, hwithin⟩
    have hlog : floorLog10 (magnitude n v) = sp :=
      floorLog10_eq (magnitude_num_pos hn hzero) (magnitude_den_pos n v) (magnitude_val n v ▸ hsp) (magnitude_val n v ▸ hsp')
    have hE : trialErase n v b = erase := by rw [herase, trialErase, trialAlpha, hlog]
    rw [hE, Int.toNat_natCast]
    have hclear := (eq_clearLow_iff erase v v').mpr hv'
    refine ⟨by exact_mod_cast hmin, mt (lowBits_eq_zero_iff _ v).mp hlow, hclear, r, hr, hinf, ?_⟩
    exact (herror (by omega) (hclear ▸ hr)).mpr hwithin

/-! ## The search (rule R228) -/

/-- The search answers the first betaStar in its range whose trial succeeds. -/
theorem searchFrom_eq_some_iff (n : Nat) (eps v : Raw) (b fuel c : Nat) (w : Raw) :
    searchFrom n eps v b fuel = some (c, w) ↔
      b ≤ c ∧ c < b + fuel ∧ trial n eps v c = some w ∧ ∀ j, b ≤ j → j < c → trial n eps v j = none := by
  induction fuel generalizing b with
  | zero => exact iff_of_false (by simp [searchFrom]) (by omega)
  | succ f ih =>
    unfold searchFrom
    cases ht : trial n eps v b with
    | some v' =>
      constructor
      · intro h
        cases h
        exact ⟨le_rfl, by omega, ht, by omega⟩
      · rintro ⟨hbc, -, hc, hbefore⟩
        rcases Nat.eq_or_lt_of_le hbc with rfl | hlt
        · cases ht.symm.trans hc
          rfl
        · cases ht.symm.trans (hbefore b le_rfl hlt)
    | none =>
      simp only [ih]
      constructor
      · rintro ⟨hbc, hcf, hc, hbefore⟩
        refine ⟨by omega, by omega, hc, fun j hj hjc => ?_⟩
        rcases Nat.eq_or_lt_of_le hj with rfl | hlt
        · exact ht
        · exact hbefore j hlt hjc
      · rintro ⟨hbc, hcf, hc, hbefore⟩
        have hne : b ≠ c := by rintro rfl; cases ht.symm.trans hc
        exact ⟨by omega, by omega, hc, fun j hj => hbefore j (by omega)⟩

theorem searchFrom_eq_none_iff (n : Nat) (eps v : Raw) (b fuel : Nat) :
    searchFrom n eps v b fuel = none ↔ ∀ j, b ≤ j → j < b + fuel → trial n eps v j = none := by
  induction fuel generalizing b with
  | zero => exact iff_of_true rfl (by omega)
  | succ f ih =>
    unfold searchFrom
    cases ht : trial n eps v b with
    | some v' => exact iff_of_false (by simp) fun h => by cases ht.symm.trans (h b le_rfl (by omega))
    | none =>
      simp only [ih]
      refine ⟨fun h j hj hjf => ?_, fun h j hj hjf => h j (by omega) (by omega)⟩
      rcases Nat.eq_or_lt_of_le hj with rfl | hlt
      · exact ht
      · exact h j hlt (by omega)

theorem search_of_zero {n : Nat} {eps v : Raw} (h : isZero n v = true) : search n eps v = none := if_pos h

theorem search_of_nonzero {n : Nat} {eps v : Raw} (h : isZero n v = false) :
    search n eps v = searchFrom n eps v 0 (bMax n + 1) := if_neg (by simp [h])

/-- What the search answers passed its trial. -/
theorem trial_of_search {n : Nat} {eps v w : Raw} {b : Nat} (h : search n eps v = some (b, w)) :
    isZero n v = false ∧ trial n eps v b = some w := by
  cases hz : isZero n v with
  | true => cases (search_of_zero hz).symm.trans h
  | false =>
    rw [search_of_nonzero hz, searchFrom_eq_some_iff] at h
    obtain ⟨-, -, htrial, -⟩ := h
    exact ⟨rfl, htrial⟩

/-- Settles O44: the search is the least success among the trials, and each trial is rule R225's. -/
theorem elfSearchIsLeast : Obligations.ElfSearchIsLeast := by
  intro n eps v hn _ _ _ heps
  cases hz : isZero n v with
  | true => exact ⟨fun b v' => by simp [search_of_zero hz], by simp [search_of_zero hz]⟩
  | false =>
    have haccepts := trial_eq_some_iff_accepts hn heps hz
    have hrejects : ∀ b, trial n eps v b = none ↔ ∀ w, ¬ trialAccepts n eps v b w := fun b => by
      simp only [Option.eq_none_iff_forall_ne_some, ne_eq, haccepts]
    rw [search_of_nonzero hz]
    refine ⟨fun b v' => ?_, ?_⟩
    · rw [searchFrom_eq_some_iff]
      simp [haccepts, hrejects]
    · rw [searchFrom_eq_none_iff]
      simp only [hrejects, Nat.zero_le, Nat.zero_add, Nat.lt_succ_iff, true_imp_iff, Bool.false_eq_true, false_or]
      exact ⟨fun h b w hb => h b hb w, fun h b hb w => h b w hb⟩

end Machine
end Sys2Proof
end

section
/-! PROOFS. The Chimp and ELF encoders with room: the bits each engine step appends (rules R183 to R190, R226 to R230). -/

namespace Sys2Proof
namespace Machine

/-! ## An engine's writes (rule R30) -/

/-- An engine's write with room appends its field and counts it. -/
theorem emit_put {s : State} (hf : s.flushed = false) (c : Raw) {k : Nat} (hk : k ≤ 32) (hroom : s.wpos + k ≤ 32 * s.capw) :
    emit c k s = .ok () (s.put (bitsOf k c.toNat)) := by
  rw [emit_eq, if_neg (by simp [hf]), if_neg (by omega), if_neg (by omega)]
  simp [State.put]

theorem emitField_put {s : State} (hf : s.flushed = false) (c : Raw) {k : Nat} (hk : k ≤ 64)
    (hroom : s.wpos + k ≤ 32 * s.capw) : emitField c k s = .ok () (s.put (bitsOf k c.toNat)) := by
  unfold emitField
  split
  · rw [emitLong_eq, if_neg (by simp [hf]), if_neg (by omega), if_neg (by omega)]
    simp [State.put]
  · exact emit_put hf c (by omega) hroom

theorem State.put_stream (s : State) (bs : List Bool) (h : memWf s.wbuf) : (s.put bs).stream = s.stream ++ bs :=
  s.stream_append bs h

/-! ## Later Chimp records (rules R184 to R189) -/

theorem flagOne_eq {n : Nat} (logw : Nat) : flagOne n logw = 2 + logw + 3 + cntBits n := by
  unfold flagOne cntBits; split <;> omega

theorem cntBits_le (n : Nat) : cntBits n ≤ 6 := by unfold cntBits; split <;> omega

/-- The REPEAT record as one field (rules R102, R186). -/
theorem bitsOf_repeat {logw slot : Nat} (hs : slot < 2 ^ logw) :
    bitsOf (flagZero logw) slot = [false, false] ++ bitsOf logw slot := by
  have h := bitsOf_append 2 logw 0 slot
  rw [Nat.zero_mod, Nat.zero_mul, Nat.zero_add, Nat.mod_eq_of_lt hs, Nat.add_comm 2] at h
  exact h.symm

/-- The FAR header as one field (rules R102, R187). -/
theorem bitsOf_farHeader {n logw slot b sig : Nat} (hs : slot < 2 ^ logw) (hb : b < 8) (hsig : sig < 2 ^ cntBits n) :
    bitsOf (flagOne n logw) (farHeader n logw slot b sig) =
      [false, true] ++ bitsOf logw slot ++ bitsOf 3 b ++ bitsOf (cntBits n) sig := by
  have h2 : [false, true] = bitsOf 2 1 := rfl
  have hpow : 2 ^ (2 + logw) = 4 * 2 ^ logw := pow_add 2 2 logw
  have hpow3 : 2 ^ (2 + logw + 3) = 2 ^ (2 + logw) * 8 := pow_add 2 (2 + logw) 3
  have hhead : 2 ^ logw + slot < 2 ^ (2 + logw) := by omega
  have hhead3 : (2 ^ logw + slot) * 2 ^ 3 + b < 2 ^ (2 + logw + 3) := by omega
  rw [h2, bitsOf_append, Nat.mod_eq_of_lt hs, show 1 % 2 ^ 2 * 2 ^ logw = 2 ^ logw by norm_num, bitsOf_append,
    Nat.mod_eq_of_lt hhead, Nat.mod_eq_of_lt (a := b) (b := 2 ^ 3) hb, bitsOf_append, Nat.mod_eq_of_lt hhead3,
    Nat.mod_eq_of_lt hsig, flagOne_eq, farHeader, ringSize]
  congr 1
  rw [pow_add]
  ring

/-- A FAR header fits a raw value. -/
theorem farHeader_lt {n logw slot b sig : Nat} (hlogw : logw ≤ 16) (hs : slot < 2 ^ logw) (hb : b < 8)
    (hsig : sig < 2 ^ cntBits n) : farHeader n logw slot b sig < 2 ^ 64 := by
  have hw : 2 ^ logw ≤ 2 ^ 16 := Nat.pow_le_pow_right (by decide) hlogw
  have hc : 2 ^ cntBits n ≤ 2 ^ 6 := Nat.pow_le_pow_right (by decide) (cntBits_le n)
  have h3 : 2 ^ (3 + cntBits n) ≤ 2 ^ 9 := Nat.pow_le_pow_right (by decide) (by have := cntBits_le n; omega)
  have h1 : (2 ^ logw + slot) * 2 ^ (3 + cntBits n) ≤ (2 ^ 16 + 2 ^ 16) * 2 ^ 9 := Nat.mul_le_mul (by omega) h3
  have h2 : b * 2 ^ cntBits n ≤ 8 * 2 ^ 6 := Nat.mul_le_mul (by omega) hc
  unfold farHeader ringSize
  omega

/-- The NEW header as one field (rules R102, R189). -/
theorem bitsOf_new {b : Nat} (hb : b < 8) : bitsOf 5 (24 + b) = [true, true] ++ bitsOf 3 b := by
  have h := bitsOf_append 2 3 3 b
  rw [Nat.mod_eq_of_lt (a := b) (b := 2 ^ 3) hb] at h
  exact h.symm

/-- The significant bits of a far match of `n`-bit values: at least one, fewer than a count field's range. -/
theorem farSig_bounds {s : State} {x : Raw} (hx : x.toNat < 2 ^ s.n) (h0 : x ≠ 0) (hrep : legalLeadRep s.leadRep = true)
    (hfar : threshold s.n s.logw < ctz s.n x) :
    0 < farSig x (ctz s.n x) s ∧ farSig x (ctz s.n x) s + ctz s.n x + repOf s.leadRep (clz s.n x) = s.n ∧
      farSig x (ctz s.n x) s + threshold s.n s.logw < s.n ∧ farSig x (ctz s.n x) s < 2 ^ cntBits s.n := by
  have hpow : 2 ^ cntBits s.n = s.n := cntBits_pow s.codec
  have hzeros := clz_add_ctz_lt s.n x hx h0
  have hle := repOf_le hrep (clz s.n x)
  rw [hpow]
  unfold farSig
  omega

/-- Candidate selection in the words of rule R185, with the trailing zeros of a far match. -/
theorem choose_selects {v : Raw} {s : State} {c : Choice} (h : choose v s = some c) :
    s.selects v c.far c.slot c.x ∧ (c.far = true → c.trail = ctz s.n c.x) := by
  have hprevious : ∀ {c : Choice}, choosePrevious v s = some c →
      c.far = false ∧ c.slot = s.index % 2 ^ s.logw ∧ ∃ r, s.ringAt c.slot = some r ∧ c.x = v ^^^ r := by
    intro c hc
    obtain ⟨r, hr, rfl⟩ := Option.map_eq_some_iff.mp hc
    exact ⟨rfl, rfl, r, hr, rfl⟩
  unfold choose at h
  split at h
  case isTrue hnear =>
    obtain ⟨r, hr, hc⟩ := Option.bind_eq_some_iff.mp h
    split at hc
    case isTrue hfar =>
      cases hc
      exact ⟨.inl ⟨rfl, hnear, rfl, ⟨r, hr, rfl⟩, hfar⟩, fun _ => rfl⟩
    case isFalse hfar =>
      obtain ⟨hc, hslot, hx⟩ := hprevious hc
      exact ⟨.inr ⟨hc, hslot, hx, fun _ => ⟨r, hr, Nat.le_of_not_lt hfar⟩⟩, by simp [hc]⟩
  case isFalse hnear =>
    obtain ⟨hc, hslot, hx⟩ := hprevious h
    exact ⟨.inr ⟨hc, hslot, hx, fun hnear' => absurd hnear' hnear⟩, by simp [hc]⟩

/-- The far match selected has more than `T` trailing zeros (rule R185). -/
theorem State.selects.far_lt {s : State} {v x : Raw} {far : Bool} {slot : Nat} (h : s.selects v far slot x)
    (hf : far = true) : threshold s.n s.logw < ctz s.n x := by
  rcases h with ⟨-, -, -, -, hlt⟩ | ⟨hf', -⟩
  · exact hlt
  · rw [hf] at hf'; cases hf'

/-- The slot selected is one of the ring's, and holds the reference of the XOR (rule R185). -/
theorem State.selects.slot_spec {s : State} {v x : Raw} {far : Bool} {slot : Nat} (h : s.selects v far slot x) :
    slot < 2 ^ s.logw ∧ ∃ r, s.ringAt slot = some r ∧ x = v ^^^ r := by
  rcases h with ⟨-, -, rfl, hr, -⟩ | ⟨-, rfl, hr, -⟩
  · exact ⟨Nat.mod_lt _ (by positivity), hr⟩
  · exact ⟨Nat.mod_lt _ (by positivity), hr⟩

/-- A later record is at most five bits longer than a value (rule R105), one slot field apart. -/
theorem chpRecord_length_le {s : State} {far : Bool} {x : Raw} (slot : Nat) (hx : x.toNat < 2 ^ s.n)
    (hrep : legalLeadRep s.leadRep = true) (hfar : far = true → threshold s.n s.logw < ctz s.n x) :
    (s.chpRecord far slot x).1.length ≤ s.logw + 5 + s.n := by
  unfold State.chpRecord
  split
  · simp; omega
  split
  · rename_i h0 hf
    obtain ⟨-, hsum, hlt, -⟩ := farSig_bounds hx h0 hrep (hfar hf)
    have hT : cntBits s.n ≤ threshold s.n s.logw := by unfold cntBits threshold; split <;> omega
    simp only [farSig] at hlt
    simp
    omega
  split
  all_goals simp; omega

theorem chpEncodeRepeat_put {s : State} {slot : Nat} (hf : s.flushed = false) (hlogw : s.logw ≤ 16)
    (hslot : slot < 2 ^ s.logw) (hroom : s.wpos + (s.logw + 2) ≤ 32 * s.capw) :
    chpEncodeRepeat slot s = .ok () { s.put ([false, false] ++ bitsOf s.logw slot) with clead := none } := by
  have hw : 2 ^ s.logw ≤ 2 ^ 16 := Nat.pow_le_pow_right (by decide) hlogw
  have hnat : (BitVec.ofNat 64 slot).toNat = slot := by rw [BitVec.toNat_ofNat, Nat.mod_eq_of_lt (by omega)]
  have hemit := emit_put hf (BitVec.ofNat 64 slot) (k := flagZero s.logw) (by unfold flagZero; omega) hroom
  rw [chpEncodeRepeat, hemit, Eff.bind_ok, hnat, bitsOf_repeat hslot]

theorem chpEncodeFar_put {s : State} {slot : Nat} {x : Raw} (hf : s.flushed = false) (hlogw : s.logw ≤ 16)
    (hrep : legalLeadRep s.leadRep = true) (hslot : slot < 2 ^ s.logw) (hx : x.toNat < 2 ^ s.n) (h0 : x ≠ 0)
    (hfar : threshold s.n s.logw < ctz s.n x)
    (hroom : s.wpos + (2 + s.logw + 3 + cntBits s.n + farSig x (ctz s.n x) s) ≤ 32 * s.capw) :
    chpEncodeFar slot x (ctz s.n x) s =
      .ok () { s.put ([false, true] ++ bitsOf s.logw slot ++ bitsOf 3 (bucket s.leadRep (clz s.n x))
        ++ bitsOf (cntBits s.n) (farSig x (ctz s.n x) s)
        ++ bitsOf (farSig x (ctz s.n x) s) (x.toNat / 2 ^ ctz s.n x)) with clead := none } := by
  obtain ⟨-, -, -, hsig⟩ := farSig_bounds hx h0 hrep hfar
  have hb := bucket_lt s.leadRep (clz s.n x)
  have hone := flagOne_eq (n := s.n) s.logw
  have hcnt := cntBits_le s.n
  have hhead : (BitVec.ofNat 64 (farHeader s.n s.logw slot (bucket s.leadRep (clz s.n x)) (farSig x (ctz s.n x) s))).toNat =
      farHeader s.n s.logw slot (bucket s.leadRep (clz s.n x)) (farSig x (ctz s.n x) s) := by
    rw [BitVec.toNat_ofNat, Nat.mod_eq_of_lt (farHeader_lt hlogw hslot hb hsig)]
  have hshift : (x >>> ctz s.n x).toNat = x.toNat / 2 ^ ctz s.n x := by
    rw [BitVec.toNat_ushiftRight, Nat.shiftRight_eq_div_pow]
  have hput : ∀ bs, farSig x (ctz s.n x) (s.put bs) = farSig x (ctz s.n x) s := fun _ => rfl
  rw [chpEncodeFar, emit_put hf _ (by omega) (by omega), Eff.bind_ok, hhead, bitsOf_farHeader hslot hb hsig, hput,
    emitField_put (s := s.put _) hf _ (farSig_le x _ s) (by simp; omega), Eff.bind_ok, hshift, State.put_put]

/-- A header and the low bits of an XOR behind its leading zeros (rules R188, R189). -/
theorem emit_emitField_put {s : State} (hf : s.flushed = false) (c x : Raw) {k : Nat} (lead : Nat) (hk : k ≤ 32)
    (hroom : s.wpos + (k + (s.n - lead)) ≤ 32 * s.capw) :
    ((emit c k s).bind fun _ t => emitField x (t.n - lead) t) =
      .ok () (s.put (bitsOf k c.toNat ++ bitsOf (s.n - lead) x.toNat)) := by
  have hn := @chpPre.n_le s
  rw [emit_put hf c hk (by omega), Eff.bind_ok, State.put_n,
    emitField_put (s := s.put _) hf x (by omega) (by simp; omega), State.put_put]

theorem chpEncodeReuse_put {s : State} {x : Raw} {lead : Nat} (hf : s.flushed = false)
    (hroom : s.wpos + (2 + (s.n - lead)) ≤ 32 * s.capw) :
    chpEncodeReuse x lead s = .ok () (s.put ([true, false] ++ bitsOf (s.n - lead) x.toNat)) :=
  emit_emitField_put hf 2 x lead (by omega) hroom

theorem chpEncodeNew_put {s : State} {x : Raw} {lead b : Nat} (hf : s.flushed = false) (hb : b < 8)
    (hroom : s.wpos + (5 + (s.n - lead)) ≤ 32 * s.capw) :
    chpEncodeNew x lead b s =
      .ok () { s.put ([true, true] ++ bitsOf 3 b ++ bitsOf (s.n - lead) x.toNat) with clead := some lead } := by
  have hnat : (BitVec.ofNat 64 (24 + b)).toNat = 24 + b := by rw [BitVec.toNat_ofNat, Nat.mod_eq_of_lt (by omega)]
  have hput := emit_emitField_put (s := { s with clead := some lead }) hf (BitVec.ofNat 64 (24 + b)) x lead (k := 5)
    (by omega) hroom
  rw [hnat, bitsOf_new hb] at hput
  exact hput

/-- The record of a candidate, with room, is one append; its CLEAD is as rules R186 to R189 leave it. -/
theorem chpEncodeChoice_put {s : State} {c : Choice} (hf : s.flushed = false) (hlogw : s.logw ≤ 16)
    (hrep : legalLeadRep s.leadRep = true) (hslot : c.slot < 2 ^ s.logw) (hx : c.x.toNat < 2 ^ s.n)
    (hfar : c.far = true → threshold s.n s.logw < ctz s.n c.x) (htrail : c.far = true → c.trail = ctz s.n c.x)
    (hroom : s.wpos + (s.chpRecord c.far c.slot c.x).1.length ≤ 32 * s.capw) :
    chpEncodeChoice c s =
      .ok () { s.put (s.chpRecord c.far c.slot c.x).1 with clead := (s.chpRecord c.far c.slot c.x).2 } := by
  unfold State.chpRecord at hroom ⊢
  unfold chpEncodeChoice
  split_ifs at hroom ⊢ with h0 hf' hreuse
  all_goals simp only [List.length_append, List.length_cons, List.length_nil, bitsOf_length] at hroom
  · exact chpEncodeRepeat_put hf hlogw hslot (by omega)
  · rw [htrail hf']
    exact chpEncodeFar_put hf hlogw hrep hslot hx h0 (hfar hf') (by unfold farSig; omega)
  · exact chpEncodeReuse_put hf (by omega)
  · exact chpEncodeNew_put hf (bucket_lt _ _) (by omega)

/-- The engine step behind the first value of a block, with room (rule R183). -/
theorem chpEncode_first {s : State} (hfirst : s.first = true) (hf : s.flushed = false) (v : Raw)
    (hroom : s.wpos + s.n ≤ 32 * s.capw) :
    chpEncode v s = .ok () { s.put (bitsOf s.n v.toNat) with
      ring := tableInsert s.ring 0 v, index := 0, idx := idxWrite s.idx (keyOf s.n s.logw v) 0, first := false } := by
  rw [chpEncode, if_pos hfirst, chpEncodeLit, emitField_put hf v chpPre.n_le hroom]
  rfl

/-- The engine step behind a later value, with room for the record of the candidate selected (rules R184 to R190). -/
theorem chpEncode_later {s : State} (hfirst : s.first = false) (hf : s.flushed = false) (hlogw : s.logw ≤ 16)
    (hrep : legalLeadRep s.leadRep = true) {v : Raw} {c : Choice} (hc : choose v s = some c) (hx : c.x.toNat < 2 ^ s.n)
    (hroom : s.wpos + (s.chpRecord c.far c.slot c.x).1.length ≤ 32 * s.capw) :
    chpEncode v s = .ok ()
      (chpInsert v { s.put (s.chpRecord c.far c.slot c.x).1 with clead := (s.chpRecord c.far c.slot c.x).2 }) := by
  obtain ⟨hsel, htrail⟩ := choose_selects hc
  have hput := chpEncodeChoice_put hf hlogw hrep hsel.slot_spec.1 hx hsel.far_lt htrail hroom
  simp [chpEncode, hfirst, hc, hput]

/-! ## The erasure stage (rules R227 to R229) -/

/-- The ERASE_NEW code as one field (rules R103, R229). -/
theorem bitsOf_eraseNew {k b : Nat} (hb : b < 2 ^ k) : bitsOf (2 + k) (3 * 2 ^ k + b) = [true, true] ++ bitsOf k b := by
  have h := bitsOf_append 2 k 3 b
  rw [Nat.mod_eq_of_lt hb] at h
  exact h.symm

theorem le_bMax_iff (n b : Nat) : b ≤ bMax n ↔ b < 2 ^ bsBits n := by
  have : 0 < 2 ^ bsBits n := by positivity
  unfold bMax; omega

theorem erasure_length_le (s : State) (v : Raw) : (s.erasure v).1.length ≤ 2 + bsBits s.n := by
  unfold State.erasure
  split
  · simp
  · split <;> simp <;> omega

/-- The erasure code, with room, is one append; its LASTBS is as rule R229 leaves it. -/
theorem elfEncodeFinite_eq {s : State} (hf : s.flushed = false) {v : Raw} (hv : v.toNat < 2 ^ s.n)
    (hroom : s.wpos + (s.erasure v).1.length ≤ 32 * s.capw) :
    elfEncodeFinite v s =
      chpEncode (s.erasure v).2.2 { s.put (s.erasure v).1 with lastbs := (s.erasure v).2.1 } := by
  unfold State.erasure at hroom ⊢
  unfold elfEncodeFinite elfEncodeErasure
  cases hs : search s.n s.eps v with
  | none =>
    simp only [hs] at hroom ⊢
    rw [emit_put hf 2 (k := 2) (by omega) hroom]
    rfl
  | some q =>
    obtain ⟨b, v'⟩ := q
    have hbound : b < 2 ^ bsBits s.n := (le_bMax_iff _ _).mp (search_fits hv hs).2
    have hbits := bsBits_le s.n
    have hpow : 2 ^ bsBits s.n ≤ 2 ^ 4 := Nat.pow_le_pow_right (by decide) hbits
    have hnat : (BitVec.ofNat 64 (3 * 2 ^ bsBits s.n + b)).toNat = 3 * 2 ^ bsBits s.n + b := by
      rw [BitVec.toNat_ofNat, Nat.mod_eq_of_lt (by omega)]
    simp only [hs] at hroom ⊢
    split_ifs at hroom ⊢ with hlast
    · rw [emit_put hf 0 (k := 1) (by omega) hroom]
      rfl
    · simp only [List.length_append, List.length_cons, List.length_nil, bitsOf_length] at hroom
      rw [emit_put hf _ (by omega) (by omega), hnat, bitsOf_eraseNew hbound]
      rfl

/-- The value behind the erasure code fits its width: it is the input, or the input with low bits cleared. -/
theorem erasure_fits {s : State} {v : Raw} (hv : v.toNat < 2 ^ s.n) : (s.erasure v).2.2.toNat < 2 ^ s.n := by
  unfold State.erasure
  split
  · exact hv
  · rename_i b v' hs
    split <;> exact (search_fits hv hs).1

end Machine
end Sys2Proof
end

section
/-! PROOFS. The ELF decoder over its stream: a record's bits ahead are the wire codes NEXT runs (rules R100, R103, R104, R231). -/

namespace Sys2Proof
namespace Machine

/-! ## Fetching a wire code whose bits stand ahead (rules R29, R100) -/

/-- `bits` are those of a wire code that can stand where `s` reads next, and that runs as `k` behind its bits. -/
def State.reads (s : State) (bits : List Bool) (k : State → Host.Outcome State Fault Refusal) : Prop :=
  ∃ i, Laws.CodecRoundTrip.Statement i ∧ i.isCommand = false ∧ wellFormed s.wireCtx i = true ∧
    encodeWire s.wireCtx i = bits ∧ runWire i (s.advance bits.length) = k (s.advance bits.length)

/-- A wire code whose bits stand ahead is the one the decoder fetches and runs. -/
theorem State.reads.runNextCode {s : State} {bits : List Bool} {k : State → Host.Outcome State Fault Refusal}
    (h : s.reads bits k) (hahead : s.ahead bits.length = bits) (hlen : bits.length ≤ lookahead s) :
    runNextCode s = k (s.advance bits.length) := by
  obtain ⟨i, hround, hcmd, hwf, hbits, hrun⟩ := h
  have hdecode := hround s.wireCtx [] ((s.advance bits.length).ahead (lookahead s - bits.length)) hwf
  rw [if_neg (by simp [hcmd]), hbits] at hdecode
  have hsplit := s.ahead_add bits.length (lookahead s - bits.length)
  rw [hahead, Nat.add_sub_cancel' hlen] at hsplit
  have hfetch : fetchWire s = some (i, s.advance bits.length) := by
    rw [fetchWire, hsplit, hdecode, Option.map_some, State.ahead_length, Nat.sub_sub_self hlen]
  simp only [Machine.runNextCode, hfetch, hrun]

/-- What stands ahead depends on the loaded bytes and the cursor only. -/
theorem State.ahead_congr {s t : State} (hbuf : t.rbuf = s.rbuf) (hlen : t.len = s.len) (hpos : t.rpos = s.rpos) (k : Nat) :
    t.ahead k = s.ahead k := by
  have hbit : t.readerBit = s.readerBit := by
    funext p
    unfold State.readerBit State.lenBits
    rw [hbuf, hlen]
  unfold State.ahead
  rw [hbit, hpos]

/-- The bits ahead, cut: the first part stands ahead, and the rest behind it. -/
theorem State.ahead_append {s : State} {a b : List Bool} (h : s.ahead (a ++ b).length = a ++ b) :
    s.ahead a.length = a ∧ (s.advance a.length).ahead b.length = b := by
  rw [List.length_append, State.ahead_add] at h
  exact List.append_inj h (by simp)

/-! ## ELF decoders -/

/-- The decoder of an ELF unit with values to come. -/
def State.elfDecoding (s : State) : Prop :=
  (s.codec = .elf64 ∨ s.codec = .elf32) ∧ s.dir = .dec ∧ s.phase = .ready

theorem State.n_of_elf64 {s : State} (h : s.codec = .elf64) : s.n = 64 := by rw [State.n, h]; rfl
theorem State.n_of_elf32 {s : State} (h : s.codec = .elf32) : s.n = 32 := by rw [State.n, h]; rfl

/-- A wire code of the decoder's own unit, at its own place, is read from its bits and runs as its own effect. -/
theorem State.elfDecoding.reads {s : State} (h : s.elfDecoding) {codec : Codec} (hcodec : s.codec = codec) {i : Instr}
    {bits : List Bool} {place : State → Bool} {k : State → Host.Outcome State Fault Refusal}
    (hround : Laws.CodecRoundTrip.Statement i) (hcmd : i.isCommand = false) (hwf : wellFormed s.wireCtx i = true)
    (hbits : encodeWire s.wireCtx i = bits) (hrun : ∀ t, runWire i t = onDecoder codec place t k)
    (hplace : place (s.advance bits.length) = true) : s.reads bits k := by
  obtain ⟨helf, hdir, hphase⟩ := h
  have hne : codec ≠ .bs := by rintro rfl; simp [hcodec] at helf
  exact ⟨i, hround, hcmd, hwf, hbits, (hrun _).trans (onDecoder_run hcodec hne hdir hphase hplace)⟩

/-! ## Erasure codes (rules R103, R231) -/

theorem wfErasure_of_start {s : State} {codec : Codec} (hcodec : s.codec = codec) (hp : s.pend = none) :
    wfErasure s.wireCtx codec = true := Laws.wfErasure_iff.mpr ⟨hcodec, by simp [State.wireCtx, hp]⟩

theorem reads_eraseSame {s : State} (h : s.elfDecoding) (hp : s.pend = none) :
    s.reads [false] fun t => .next (elfEraseSame t) := by
  have hplace : atErasure (s.advance 1) = true := by simp [atErasure, hp]
  rcases h.1 with hc | hc
  · exact h.reads hc Laws.CodecRoundTrip.elf64EraseSame rfl (wfErasure_of_start hc hp) rfl (fun _ => rfl) hplace
  · exact h.reads hc Laws.CodecRoundTrip.elf32EraseSame rfl (wfErasure_of_start hc hp) rfl (fun _ => rfl) hplace

theorem reads_raw {s : State} (h : s.elfDecoding) (hp : s.pend = none) :
    s.reads [true, false] fun t => .next (elfRaw t) := by
  have hplace : atErasure (s.advance 2) = true := by simp [atErasure, hp]
  rcases h.1 with hc | hc
  · exact h.reads hc Laws.CodecRoundTrip.elf64Raw rfl (wfErasure_of_start hc hp) rfl (fun _ => rfl) hplace
  · exact h.reads hc Laws.CodecRoundTrip.elf32Raw rfl (wfErasure_of_start hc hp) rfl (fun _ => rfl) hplace

theorem reads_eraseNew {s : State} (h : s.elfDecoding) (hp : s.pend = none) {b : Nat} (hb : b < 2 ^ bsBits s.n) :
    s.reads ([true, true] ++ bitsOf (bsBits s.n) b) fun t => .next (elfEraseNew b t) := by
  have hplace : ∀ k, atErasure (s.advance k) = true := fun _ => by simp [atErasure, hp]
  rcases h.1 with hc | hc
  · rw [State.n_of_elf64 hc] at hb ⊢
    have hnat : (BitVec.ofNat 4 b).toNat = b := (BitVec.toNat_ofNat b _).trans (Nat.mod_eq_of_lt hb)
    refine h.reads hc (Laws.CodecRoundTrip.elf64EraseNew (BitVec.ofNat 4 b)) rfl (wfErasure_of_start hc hp)
      (by rw [encodeWire, hnat]; rfl) (fun t => ?_) (hplace _)
    rw [runWire, execElf64EraseNew, hnat]
  · rw [State.n_of_elf32 hc] at hb ⊢
    have hnat : (BitVec.ofNat 3 b).toNat = b := (BitVec.toNat_ofNat b _).trans (Nat.mod_eq_of_lt hb)
    refine h.reads hc (Laws.CodecRoundTrip.elf32EraseNew (BitVec.ofNat 3 b)) rfl (wfErasure_of_start hc hp)
      (by rw [encodeWire, hnat]; rfl) (fun t => ?_) (hplace _)
    rw [runWire, execElf32EraseNew, hnat]

/-! ## XOR-stage records (rules R104, R231) -/

/-- A value of 32 bits is the zero extension of its low half (rule R148). -/
theorem setWidth_ofNat_toNat {p : Raw} (h : p.toNat < 2 ^ 32) : (BitVec.ofNat 32 p.toNat).setWidth 64 = p := by
  apply BitVec.eq_of_toNat_eq
  rw [BitVec.toNat_setWidth, BitVec.toNat_ofNat, Nat.mod_eq_of_lt h, Nat.mod_eq_of_lt p.isLt]

theorem toNat_ofNat_toNat {p : Raw} (h : p.toNat < 2 ^ 32) : (BitVec.ofNat 32 p.toNat).toNat = p.toNat := by
  rw [BitVec.toNat_ofNat, Nat.mod_eq_of_lt h]

theorem wfPlace_of_mid {s : State} {codec : Codec} (hcodec : s.codec = codec) {e : Bool} (hp : s.pend = some e)
    {first : Bool} (hfirst : s.first = first) : wfPlace s.wireCtx codec first true = true :=
  Laws.wfPlace_iff.mpr ⟨hcodec, hfirst, by simp [State.wireCtx, hp]⟩

theorem reads_xLit {s : State} (h : s.elfDecoding) {e : Bool} (hp : s.pend = some e) (hfirst : s.first = true) {v : Raw}
    (hv : v.toNat < 2 ^ s.n) : s.reads (bitsOf s.n v.toNat) fun t => .next (elfLit v t) := by
  have hplace : ∀ k, atXFirst (s.advance k) = true := fun _ => by simp [atXFirst, hp, hfirst]
  rcases h.1 with hc | hc
  · rw [State.n_of_elf64 hc]
    exact h.reads hc (Laws.CodecRoundTrip.elf64XLit v) rfl (wfPlace_of_mid hc hp hfirst) rfl (fun _ => rfl) (hplace _)
  · rw [State.n_of_elf32 hc] at hv ⊢
    refine h.reads hc (Laws.CodecRoundTrip.elf32XLit (BitVec.ofNat 32 v.toNat)) rfl (wfPlace_of_mid hc hp hfirst)
      (by rw [encodeWire, toNat_ofNat_toNat hv]) (fun t => ?_) (hplace _)
    rw [runWire, execElf32XLit, setWidth_ofNat_toNat hv]

section
variable {s : State} {e : Bool} (h : s.elfDecoding) (hp : s.pend = some e) (hfirst : s.first = false)
include h hp hfirst

theorem reads_xRepeat : s.reads [false, false] fun t => (stepRepeat 0 t).outcome elfLater := by
  have hplace : atXLater (s.advance 2) = true := by simp [atXLater, hp, hfirst]
  rcases h.1 with hc | hc
  · exact h.reads hc Laws.CodecRoundTrip.elf64XRepeat rfl (wfPlace_of_mid hc hp hfirst) rfl (fun _ => rfl) hplace
  · exact h.reads hc Laws.CodecRoundTrip.elf32XRepeat rfl (wfPlace_of_mid hc hp hfirst) rfl (fun _ => rfl) hplace

theorem reads_xFar {r p : Raw} {b : BitVec 3} {sig : Nat} (hring : s.ringAt 0 = some r) (hsig : 0 < sig)
    (hcnt : sig < 2 ^ cntBits s.n) (hfit : leadOf s.leadRep b.toNat + sig ≤ s.n) (hpay : p.toNat < 2 ^ sig) :
    s.reads ([false, true] ++ bitsOf 3 b.toNat ++ bitsOf (cntBits s.n) sig ++ bitsOf sig p.toNat)
      fun t => (stepFar s.n 0 b.toNat sig p t).outcome elfLater := by
  have hplace : ∀ k, atXLater (s.advance k) = true := fun _ => by simp [atXLater, hp, hfirst]
  have hsigOf : sigOf s.n sig = sig := if_neg (by omega)
  have hslot : s.wireCtx.slots.contains 0 = true := by
    simpa [State.wireCtx] using ⟨r, tableFind_mem hring⟩
  have hwidth : farWidth s.wireCtx s.n 0 b.toNat sig = sig := by
    rw [farWidth, hsigOf, hslot]
    simp [State.wireCtx, hfit]
  rcases h.1 with hc | hc
  · rw [State.n_of_elf64 hc] at *
    have hnat : (BitVec.ofNat 6 sig).toNat = sig := (BitVec.toNat_ofNat sig _).trans (Nat.mod_eq_of_lt hcnt)
    refine h.reads hc (Laws.CodecRoundTrip.elf64XFar b (BitVec.ofNat 6 sig) p) rfl ?_
      (by rw [encodeWire, hnat, hwidth]; rfl) (fun t => ?_) (hplace _)
    · rw [wellFormed, wfPlace_of_mid hc hp hfirst, hnat, hwidth, Bool.true_and, Laws.wfPayload_iff]
      exact hpay
    · rw [runWire, execElf64XFar, hnat]
  · rw [State.n_of_elf32 hc] at *
    have hnat : (BitVec.ofNat 5 sig).toNat = sig := (BitVec.toNat_ofNat sig _).trans (Nat.mod_eq_of_lt hcnt)
    have hpay32 : p.toNat < 2 ^ 32 := lt_of_lt_pow hpay (by omega)
    refine h.reads hc (Laws.CodecRoundTrip.elf32XFar b (BitVec.ofNat 5 sig) (BitVec.ofNat 32 p.toNat)) rfl ?_
      (by rw [encodeWire, hnat, hwidth, toNat_ofNat_toNat hpay32]; rfl) (fun t => ?_) (hplace _)
    · rw [wellFormed, wfPlace_of_mid hc hp hfirst, hnat, hwidth, toNat_ofNat_toNat hpay32, Bool.true_and, Laws.wfPayload_iff]
      exact hpay
    · rw [runWire, execElf32XFar, hnat, setWidth_ofNat_toNat hpay32]

theorem reads_xReuse {p : Raw} {l : Nat} (hclead : s.clead = some l) (hpay : p.toNat < 2 ^ (s.n - l)) :
    s.reads ([true, false] ++ bitsOf (s.n - l) p.toNat) fun t => (stepReuse p t).outcome elfLater := by
  have hplace : ∀ k, atXLater (s.advance k) = true := fun _ => by simp [atXLater, hp, hfirst]
  have hwidth : reuseWidth s.wireCtx s.n = s.n - l := by simp [reuseWidth, State.wireCtx, hclead]
  rcases h.1 with hc | hc
  · rw [State.n_of_elf64 hc] at *
    refine h.reads hc (Laws.CodecRoundTrip.elf64XReuse p) rfl ?_ (by rw [encodeWire, hwidth]) (fun _ => rfl) (hplace _)
    rw [wellFormed, wfPlace_of_mid hc hp hfirst, hwidth, Bool.true_and, Laws.wfPayload_iff]
    exact hpay
  · rw [State.n_of_elf32 hc] at *
    have hpay32 : p.toNat < 2 ^ 32 := lt_of_lt_pow hpay (by omega)
    refine h.reads hc (Laws.CodecRoundTrip.elf32XReuse (BitVec.ofNat 32 p.toNat)) rfl ?_
      (by rw [encodeWire, hwidth, toNat_ofNat_toNat hpay32]) (fun t => ?_) (hplace _)
    · rw [wellFormed, wfPlace_of_mid hc hp hfirst, hwidth, toNat_ofNat_toNat hpay32, Bool.true_and, Laws.wfPayload_iff]
      exact hpay
    · rw [runWire, execElf32XReuse, setWidth_ofNat_toNat hpay32]

theorem reads_xNew {p : Raw} {b : BitVec 3} (hpay : p.toNat < 2 ^ (s.n - leadOf s.leadRep b.toNat)) :
    s.reads ([true, true] ++ bitsOf 3 b.toNat ++ bitsOf (s.n - leadOf s.leadRep b.toNat) p.toNat)
      fun t => (stepNew b.toNat p t).outcome elfLater := by
  have hplace : ∀ k, atXLater (s.advance k) = true := fun _ => by simp [atXLater, hp, hfirst]
  have hwidth : newWidth s.wireCtx s.n b.toNat = s.n - leadOf s.leadRep b.toNat := rfl
  rcases h.1 with hc | hc
  · rw [State.n_of_elf64 hc] at *
    refine h.reads hc (Laws.CodecRoundTrip.elf64XNew b p) rfl ?_ (by rw [encodeWire, hwidth]) (fun _ => rfl) (hplace _)
    rw [wellFormed, wfPlace_of_mid hc hp hfirst, hwidth, Bool.true_and, Laws.wfPayload_iff]
    exact hpay
  · rw [State.n_of_elf32 hc] at *
    have hpay32 : p.toNat < 2 ^ 32 := lt_of_lt_pow hpay (by omega)
    refine h.reads hc (Laws.CodecRoundTrip.elf32XNew b (BitVec.ofNat 32 p.toNat)) rfl ?_
      (by rw [encodeWire, hwidth, toNat_ofNat_toNat hpay32]) (fun t => ?_) (hplace _)
    · rw [wellFormed, wfPlace_of_mid hc hp hfirst, hwidth, toNat_ofNat_toNat hpay32, Bool.true_and, Laws.wfPayload_iff]
      exact hpay
    · rw [runWire, execElf32XNew, setWidth_ofNat_toNat hpay32]

end

end Machine
end Sys2Proof
end

section
/-! PROOFS. One ELF record in the stream: what the decoder makes of the erasure code and of the XOR-stage record
(rules R192 to R197, R231). -/

namespace Sys2Proof
namespace Machine

/-! ## The end of an ELF record (rule R231) -/

theorem finishElf_eq {s : State} (h : s.pastEnd = false) (v : Raw) : finishElf v s = s.delivers v := by
  simp [finishElf, h, State.delivers, State.answer]

/-- Before the end of the stream the value is delivered or restored, in the words of rule R231. -/
theorem elfDeliver_eq {s : State} (h : s.pastEnd = false) (e : Bool) (v : Raw) :
    elfDeliver (some e) v s = s.restores e v := by
  cases e with
  | false => exact finishElf_eq h v
  | true =>
    unfold elfDeliver State.restores
    cases hlast : s.lastbs with
    | none => rfl
    | some b =>
      cases hrec : recover s.n v b with
      | none => simp [hrec]; rfl
      | some r => simp [hrec, finishElf_eq h]

theorem elfLit_eq {s : State} {e : Bool} (hp : s.pend = some e) (h : s.pastEnd = false) (v : Raw) :
    elfLit v s = ({ s with pend := none }.holdsFirst v).restores e v := by
  rw [elfLit, hp]
  exact elfDeliver_eq (s := commitFirst v { s with first := false, pend := none }) h e v

theorem elfLater_eq {s : State} {e : Bool} (hp : s.pend = some e) (h : s.pastEnd = false) (v : Raw) :
    elfLater v s = ({ s with pend := none }.holdsLater v).restores e v := by
  rw [elfLater, hp]
  exact elfDeliver_eq (s := commitLater v { s with pend := none }) h e v

/-- An erased value leaves its betaStar in LASTBS and goes on with its low bits cleared (rule R229). -/
theorem erasure_of_some {s : State} {v v' : Raw} {b : Nat} (h : search s.n s.eps v = some (b, v')) :
    (s.erasure v).2 = (some b, v') := by
  rw [State.erasure, h]
  simp only
  split_ifs with hsame
  · rw [hsame]
  · rfl

/-- The value the search lets through is restored within `EPS`, and is the input itself where it was sent RAW. -/
theorem erasure_restores {s : State} (hn : s.n = 64 ∨ s.n = 32) (heps : legalEps s.eps = true) (v : Raw) :
    ∃ w, (∀ t : State, t.n = s.n → t.lastbs = (s.erasure v).2.1 →
        t.restores (search s.n s.eps v).isSome (s.erasure v).2.2 = t.delivers w) ∧
      |rawVal s.n w - rawVal s.n v| ≤ rawVal 64 s.eps ∧ (search s.n s.eps v = none → w = v) := by
  cases hs : search s.n s.eps v with
  | none =>
    have hraw : (s.erasure v).2.2 = v := by rw [State.erasure, hs]
    exact ⟨v, fun _ _ _ => by rw [hraw]; rfl, by simpa using rawVal_nonneg_of_legalEps heps, fun _ => rfl⟩
  | some q =>
    obtain ⟨b, v'⟩ := q
    obtain ⟨hzero, htrial⟩ := trial_of_search hs
    obtain ⟨-, -, r, -, -, -, -, -, -, hr, -, hwithin⟩ := (trial_eq_some_iff_accepts hn heps hzero b v').mp htrial
    refine ⟨r, fun t htn hlast => ?_, hwithin, by simp⟩
    rw [erasure_of_some hs] at hlast ⊢
    simp [State.restores, hlast, htn, hr]

/-! ## The erasure code (rules R103, R231) -/

/-- The decoder takes from the encoder's erasure code its LASTBS, and whether the value was erased. -/
theorem runNextCode_erasure {e d : State} (hd : d.elfDecoding) (hp : d.pend = none) (hn : d.n = e.n)
    (hlast : d.lastbs = e.lastbs) {v : Raw} (hv : v.toNat < 2 ^ e.n)
    (hahead : d.ahead (e.erasure v).1.length = (e.erasure v).1) :
    runNextCode d = .next { d.advance (e.erasure v).1.length with
      lastbs := (e.erasure v).2.1, pend := some (search e.n e.eps v).isSome } := by
  have hlen : (e.erasure v).1.length ≤ lookahead d := by
    have := erasure_length_le e v
    have := bsBits_le e.n
    unfold lookahead
    omega
  unfold State.erasure at hahead hlen ⊢
  cases hs : search e.n e.eps v with
  | none =>
    rw [hs] at hahead hlen
    rw [(reads_raw hd hp).runNextCode hahead hlen, ← hlast]
    rfl
  | some q =>
    obtain ⟨b, v'⟩ := q
    simp only [hs] at hahead hlen ⊢
    split_ifs at hahead hlen ⊢ with hsame
    · rw [(reads_eraseSame hd hp).runNextCode hahead hlen, elfEraseSame, State.advance_lastbs, hlast, hsame]
      rfl
    · have hb : b < 2 ^ bsBits d.n := hn ▸ (le_bMax_iff _ _).mp (search_fits hv hs).2
      have hreads := reads_eraseNew hd hp hb
      rw [hn] at hreads
      exact hreads.runNextCode hahead hlen

/-! ## The XOR-stage record (rules R104, R192 to R197) -/

theorem runNextCode_xLit {d : State} (hd : d.elfDecoding) {e : Bool} (hp : d.pend = some e) (hfirst : d.first = true)
    {v : Raw} (hv : v.toNat < 2 ^ d.n) (hahead : d.ahead d.n = bitsOf d.n v.toNat) :
    runNextCode d = .next (elfLit v (d.advance d.n)) := by
  have hn := @chpPre.n_le d
  have hrun := (reads_xLit hd hp hfirst hv).runNextCode (by rw [bitsOf_length]; exact hahead)
    (by rw [bitsOf_length]; unfold lookahead; omega)
  rwa [bitsOf_length] at hrun

theorem lowBits_of_lt {n : Nat} {x : Raw} (h : x.toNat < 2 ^ n) : lowBits n x = x :=
  BitVec.eq_of_toNat_eq (by rw [lowBits_toNat, Nat.mod_eq_of_lt h])

/-- A bucket as the three bits of a header. -/
theorem ofNat_bucket_toNat (rep : List Nat) (c : Nat) : (BitVec.ofNat 3 (bucket rep c)).toNat = bucket rep c := by
  rw [BitVec.toNat_ofNat, Nat.mod_eq_of_lt (bucket_lt rep c)]

/-- The value's bits fit behind the representative of its leading zeros (rule R188). -/
theorem toNat_lt_repOf {rep : List Nat} (hrep : legalLeadRep rep = true) {n : Nat} {x : Raw} (hx : x.toNat < 2 ^ n) :
    x.toNat < 2 ^ (n - repOf rep (clz n x)) :=
  lt_of_lt_pow (toNat_lt_clz n x hx) (by have := repOf_le hrep (clz n x); omega)

/-- FAR puts its payload back at the place of the XOR's significant bits (rules R187, R194). -/
theorem stepFar_eq {s : State} {q x : Raw} (hring : s.ringAt 0 = some q) (hrep : legalLeadRep s.leadRep = true)
    (hx : x.toNat < 2 ^ s.n) (h0 : x ≠ 0) (hfar : threshold s.n s.logw < ctz s.n x) :
    stepFar s.n 0 (bucket s.leadRep (clz s.n x)) (farSig x (ctz s.n x) s) (x >>> ctz s.n x) s =
      .ok (q ^^^ x) { s with clead := none } := by
  obtain ⟨hpos, hsum, -, -⟩ := farSig_bounds hx h0 hrep hfar
  have hsig : sigOf s.n (farSig x (ctz s.n x) s) = farSig x (ctz s.n x) s := if_neg (by omega)
  have hshift : s.n - leadOf s.leadRep (bucket s.leadRep (clz s.n x)) - farSig x (ctz s.n x) s = ctz s.n x := by
    rw [← repOf]; omega
  rw [stepFar, hsig, if_neg (by rw [← repOf]; omega), hring, hshift, shiftRight_shiftLeft _ _ (ctz_zeros s.n x),
    lowBits_of_lt hx]

/-- A later record gives the XOR back on the previous value, and CLEAD as the encoder left it (rules R193 to R197). -/
theorem runNextCode_chpRecord {d : State} (hd : d.elfDecoding) {e : Bool} (hp : d.pend = some e) (hfirst : d.first = false)
    (hlogw : d.logw = 0) (hrep : legalLeadRep d.leadRep = true) {q x : Raw} (hring : d.ringAt 0 = some q)
    (hprev : d.prev = some q) (hx : x.toNat < 2 ^ d.n) {far : Bool} (hfar : far = true → threshold d.n d.logw < ctz d.n x)
    (hahead : d.ahead (d.chpRecord far 0 x).1.length = (d.chpRecord far 0 x).1) :
    runNextCode d = .next (elfLater (q ^^^ x)
      { d.advance (d.chpRecord far 0 x).1.length with clead := (d.chpRecord far 0 x).2 }) := by
  have hlen : (d.chpRecord far 0 x).1.length ≤ lookahead d := by
    have := chpRecord_length_le 0 hx hrep hfar
    have := @chpPre.n_le d
    unfold lookahead
    omega
  have hxn := toNat_lt_repOf hrep hx
  have hbucket := ofNat_bucket_toNat d.leadRep (clz d.n x)
  unfold State.chpRecord at hahead hlen ⊢
  split_ifs at hahead hlen ⊢ with h0 hf hreuse
  · rw [hlogw, bitsOf_zero, List.append_nil] at hahead hlen ⊢
    have hq : q ^^^ x = q := by rw [h0]; exact BitVec.xor_zero
    have hstep : ∀ k, stepRepeat 0 (d.advance k) = .ok q { d.advance k with clead := none } := fun k => by
      rw [stepRepeat, show (d.advance k).ringAt 0 = d.ringAt 0 from rfl, hring]
    rw [(reads_xRepeat hd hp hfirst).runNextCode hahead hlen, hstep, hq]
    rfl
  · obtain ⟨hpos, hsum, -, hcnt⟩ := farSig_bounds hx h0 hrep (hfar hf)
    have hpay : (x >>> ctz d.n x).toNat = x.toNat / 2 ^ ctz d.n x := by
      rw [BitVec.toNat_ushiftRight, Nat.shiftRight_eq_div_pow]
    have hreads := reads_xFar hd hp hfirst (p := x >>> ctz d.n x) (b := BitVec.ofNat 3 (bucket d.leadRep (clz d.n x)))
      hring hpos hcnt (by rw [hbucket, ← repOf]; omega)
      (ushiftRight_lt _ _ _ (lt_of_lt_pow hxn (by omega)))
    rw [hbucket, hpay] at hreads
    rw [← farSig, hlogw, bitsOf_zero, List.append_nil] at hahead hlen ⊢
    rw [hreads.runNextCode hahead hlen]
    exact congrArg (Eff.outcome · elfLater) (stepFar_eq (s := d.advance _) hring hrep hx h0 (hfar hf))
  · have hstep : ∀ k, stepReuse x (d.advance k) = .ok (q ^^^ x) (d.advance k) := fun k => by
      simp [stepReuse, stepXor, hreuse, hprev]
    rw [(reads_xReuse hd hp hfirst hreuse hxn).runNextCode hahead hlen, hstep]
    rfl
  · have hreads := reads_xNew hd hp hfirst (p := x) (b := BitVec.ofNat 3 (bucket d.leadRep (clz d.n x)))
      (by rw [hbucket]; exact hxn)
    rw [hbucket] at hreads
    have hstep : ∀ k, stepNew (bucket d.leadRep (clz d.n x)) x (d.advance k) =
        .ok (q ^^^ x) { d.advance k with clead := some (repOf d.leadRep (clz d.n x)) } := fun k => by
      simp [stepNew, stepXor, hprev, repOf]
    rw [hreads.runNextCode hahead hlen, hstep]
    rfl

end Machine
end Sys2Proof
end

section
/-! PROOFS. An ELF encoder and decoder in step: one value, then a block (rules R226 to R231, R271, R272). -/

namespace Sys2Proof
namespace Machine

/-! ## Open encoders -/

/-- A reachable ELF encoder that accepts values. -/
structure ElfOpen (e : State) : Prop where
  inv : Inv e
  elf : e.codec = .elf64 ∨ e.codec = .elf32
  dir : e.dir = .enc
  phase : e.phase = .opened

/-- The parameters of a reachable ELF machine: no ring beyond one slot, a legal table (rules R10, R222). -/
theorem Inv.elf_params {s : State} (h : Inv s) (helf : s.codec = .elf64 ∨ s.codec = .elf32) :
    s.logw = 0 ∧ legalEps s.eps = true ∧ legalLeadRep s.leadRep = true := by
  obtain ⟨-, ⟨-, hlogw, -, heps, -, hrep⟩, -⟩ := h
  refine ⟨hlogw ?_ ?_, heps, hrep ?_⟩ <;> rcases helf with h | h <;> simp [h, hasRing]

theorem ElfOpen.core {e : State} (h : ElfOpen e) : encCore e :=
  encCore_of_inv h.inv h.dir h.phase (by rcases h.elf with h | h <;> simp [h])

theorem ElfOpen.pre {e : State} (h : ElfOpen e) : chpPre e :=
  chpPre_of_inv h.inv h.dir h.phase (by rcases h.elf with h | h <;> simp [h, hasRing])

theorem ElfOpen.memWf {e : State} (h : ElfOpen e) : memWf e.wbuf := h.inv.1.1

theorem ElfOpen.size_eq {e : State} (h : ElfOpen e) : e.size = e.wpos := by
  obtain ⟨-, -, -, ⟨-, -, hsize, -⟩, -⟩ := h.inv
  exact (hsize h.core.2.2.2 h.phase).2

/-- Behind the first value, the one slot of the ring holds the previous value (rules R24, R222). -/
theorem ElfOpen.ring {e : State} (h : ElfOpen e) (hfirst : e.first = false) :
    ∃ q, e.ringAt 0 = some q ∧ q.toNat < 2 ^ e.n := by
  obtain ⟨-, -, -, -, hlatest⟩ := h.pre
  obtain ⟨-, q, hq, -⟩ := hlatest hfirst
  have hw : e.index % e.w = 0 := by rw [State.w, (h.inv.elf_params h.elf).1]; exact Nat.mod_one _
  rw [hw] at hq
  obtain ⟨-, -, -, -, -, ⟨-, hfits, -⟩, -⟩ := h.inv
  exact ⟨q, hq, (hfits _ (tableFind_mem hq)).2⟩

/-! ## ADDVALUE of a finite value (rules R226 to R230) -/

/-- The encoder behind an erasure code with the bits `pre`, which leaves `bs` in LASTBS (rule R229). -/
def State.erases (s : State) (pre : List Bool) (bs : Option Nat) : State := { s.put pre with lastbs := bs }

/-- The encoder behind the XOR-stage record of the block's first value (rule R183). -/
def State.putsFirst (s : State) (v : Raw) : State :=
  { s.put (bitsOf s.n v.toNat) with
    ring := tableInsert s.ring 0 v, index := 0, idx := idxWrite s.idx (keyOf s.n s.logw v) 0, first := false }

/-- The encoder behind the XOR-stage record of a later value (rules R184 to R190). -/
def State.putsLater (s : State) (v : Raw) (far : Bool) (x : Raw) : State :=
  chpInsert v { s.put (s.chpRecord far 0 x).1 with clead := (s.chpRecord far 0 x).2 }

@[simp] theorem State.erases_leadRep (s : State) (pre : List Bool) (bs : Option Nat) :
    (s.erases pre bs).leadRep = s.leadRep := rfl
@[simp] theorem State.erases_chpRecord (s : State) (pre : List Bool) (bs : Option Nat) (far : Bool) (slot : Nat)
    (x : Raw) : (s.erases pre bs).chpRecord far slot x = s.chpRecord far slot x := rfl
@[simp] theorem State.putsFirst_leadRep (s : State) (v : Raw) : (s.putsFirst v).leadRep = s.leadRep := rfl
@[simp] theorem State.putsLater_leadRep (s : State) (v : Raw) (far : Bool) (x : Raw) :
    (s.putsLater v far x).leadRep = s.leadRep := rfl

theorem State.answer_stream (s : State) (r : Result) : (s.answer r).stream = s.stream := rfl

theorem State.erases_stream (s : State) (pre : List Bool) (bs : Option Nat) (h : memWf s.wbuf) :
    (s.erases pre bs).stream = s.stream ++ pre := s.put_stream pre h

theorem State.putsFirst_stream (s : State) (v : Raw) (h : memWf s.wbuf) :
    (s.putsFirst v).stream = s.stream ++ bitsOf s.n v.toNat := s.put_stream _ h

theorem State.putsLater_stream (s : State) (v : Raw) (far : Bool) (x : Raw) (h : memWf s.wbuf) :
    (s.putsLater v far x).stream = s.stream ++ (s.chpRecord far 0 x).1 := s.put_stream _ h

section
variable {e : State} (h : ElfOpen e) {v v' : Raw} {pre : List Bool} {bs : Option Nat} (hE : e.erasure v = (pre, bs, v'))
  (hv : v.toNat < 2 ^ e.n) (hnan : isNaN e.n v = false) (hinf : isInf e.n v = false)
include h hE hv hnan hinf

/-- ADDVALUE with room for the erasure code runs the XOR stage behind it. -/
theorem exec_addValue_elf (hroom : e.wpos + pre.length ≤ 32 * e.capw) :
    exec (.addValue v) e = (chpEncode v' (e.erases pre bs)).outcome fun _ t => t.answer .unit := by
  obtain ⟨-, hdir, hphase, hcodec⟩ := h.core
  have hadmit : admitEncoder .addAfterClose e = none :=
    admitEncoder_eq_none.mpr ⟨by simp [hphase], hcodec, hdir, by simp [hphase]⟩
  have hvalue : encodeValue v e = elfEncode v e := by
    unfold encodeValue; rcases h.elf with hc | hc <;> rw [hc]
  have hfinite := elfEncodeFinite_eq h.core.flushed hv (by rw [hE]; exact hroom)
  rw [hE] at hfinite
  change execAddValue v e = _
  rw [execAddValue, hadmit, guarded_none, lowBits_of_lt hv, hvalue, elfEncode, if_neg (by simp [hnan, hinf]), hfinite]
  rfl

theorem exec_addValue_first (hfirst : e.first = true) (hroom : e.wpos + pre.length + e.n ≤ 32 * e.capw) :
    exec (.addValue v) e = .next (((e.erases pre bs).putsFirst v').answer .unit) := by
  rw [exec_addValue_elf h hE hv hnan hinf (by omega),
    chpEncode_first (s := e.erases pre bs) hfirst h.core.flushed _ hroom]
  rfl

/-- The record of a later value is that of its XOR with the previous one; a far match has more than `T` trailing zeros
(rules R185, R199). -/
theorem exec_addValue_later (hfirst : e.first = false) {q : Raw} (hring : e.ringAt 0 = some q)
    (hroom : e.wpos + pre.length + (e.n + 5) ≤ 32 * e.capw) :
    ∃ far, (far = true → threshold e.n e.logw < ctz e.n (v' ^^^ q)) ∧
      exec (.addValue v) e = .next (((e.erases pre bs).putsLater v' far (v' ^^^ q)).answer .unit) := by
  obtain ⟨hlogw, -, hrep⟩ := h.inv.elf_params h.elf
  obtain ⟨q', hring', hq⟩ := h.ring hfirst
  cases hring.symm.trans hring'
  obtain ⟨c, hc⟩ := Option.ne_none_iff_exists'.mp (choose_isSome h.pre hfirst v')
  obtain ⟨hsel, -⟩ := choose_selects hc
  obtain ⟨hslot, r, hr, hx⟩ := hsel.slot_spec
  have hzero : c.slot = 0 := by rw [hlogw] at hslot; omega
  rw [hzero, hring] at hr
  cases hr
  have hv' : v'.toNat < 2 ^ e.n := by have := erasure_fits hv; rwa [hE] at this
  have hxlt : c.x.toNat < 2 ^ e.n := hx ▸ xor_lt _ _ _ hv' hq
  have hlen := chpRecord_length_le c.slot hxlt hrep hsel.far_lt
  rw [← hx]
  refine ⟨c.far, hsel.far_lt, ?_⟩
  have hroom' : (e.erases pre bs).wpos + ((e.erases pre bs).chpRecord c.far c.slot c.x).1.length ≤
      32 * (e.erases pre bs).capw := by
    change e.wpos + pre.length + (e.chpRecord c.far c.slot c.x).1.length ≤ 32 * e.capw
    omega
  rw [exec_addValue_elf h hE hv hnan hinf (by omega), chpEncode_later (s := e.erases pre bs) hfirst h.core.flushed
    (by change e.logw ≤ 16; omega) hrep hc hxlt hroom', hzero]
  rfl

end

theorem ElfOpen.next {e e' : State} (h : ElfOpen e) {v : Raw} (hexec : exec (.addValue v) e = .next e')
    (hcodec : e'.codec = e.codec) (hdir : e'.dir = e.dir) (hphase : e'.phase = e.phase) : ElfOpen e' := by
  obtain ⟨t, ht, hinv⟩ := addValue_inv h.inv v
  have ht' : exec (.addValue v) e = .next t := ht
  cases hexec.symm.trans ht'
  exact ⟨hinv, hcodec ▸ h.elf, hdir.trans h.dir, hphase.trans h.phase⟩

/-! ## A decoder in step with the encoder -/

/-- A reachable ELF decoder between two records, its predictor registers those of the encoder. -/
structure Paired (e d : State) : Prop where
  enc : ElfOpen e
  inv : Inv d
  codec : d.codec = e.codec
  dir : d.dir = .dec
  phase : d.phase = .ready
  pend : d.pend = none
  leadRep : d.leadRep = e.leadRep
  first : d.first = e.first
  clead : d.clead = e.clead
  lastbs : d.lastbs = e.lastbs
  ring : d.ringAt 0 = e.ringAt 0

theorem Paired.elfDecoding {e d : State} (h : Paired e d) : d.elfDecoding := ⟨h.codec ▸ h.enc.elf, h.dir, h.phase⟩

theorem Paired.n_eq {e d : State} (h : Paired e d) : d.n = e.n := by rw [State.n, h.codec]; rfl

theorem Paired.logw {e d : State} (h : Paired e d) : d.logw = 0 := (h.inv.elf_params h.elfDecoding.1).1

/-- Both machines lay a later record out alike (rule R102). -/
theorem Paired.chpRecord_eq {e d : State} (h : Paired e d) (far : Bool) (slot : Nat) (x : Raw) :
    d.chpRecord far slot x = e.chpRecord far slot x := by
  have hlogw : d.logw = e.logw := h.logw.trans (h.enc.inv.elf_params h.enc.elf).1.symm
  unfold State.chpRecord
  rw [h.n_eq, hlogw, h.leadRep, h.clead]

/-- Behind the first value PREV is the one slot of the ring (rule R231). -/
theorem Paired.prev {e d : State} (h : Paired e d) (hfirst : d.first = false) : d.prev = d.ringAt 0 := by
  obtain ⟨-, -, -, -, -, ⟨-, -, hcur, -⟩, hdec, -⟩ := h.inv
  obtain ⟨-, -, hring, -⟩ := hdec h.dir h.phase (by rcases h.elfDecoding.1 with h | h <;> simp [h])
  have hzero : d.cur = 0 := by
    rw [State.w, h.logw] at hcur
    exact Nat.lt_one_iff.mp hcur
  rw [← hring (by rcases h.elfDecoding.1 with h | h <;> simp [h, hasRing]) hfirst, hzero]

/-- The input of a decoder: its bytes and its number of values, which no record changes. -/
def State.sameInput (d d' : State) : Prop := d'.rbuf = d.rbuf ∧ d'.len = d.len ∧ d'.nval = d.nval

/-- PAST_END is clear on a reachable decoder whose cursor has not passed the stream (rule R33). -/
theorem Inv.pastEnd_of_le {s : State} (h : Inv s) (hle : s.rpos ≤ s.lenBits) : s.pastEnd = false := by
  obtain ⟨-, -, -, -, ⟨-, hpast, -⟩, -⟩ := h
  cases hp : s.pastEnd with
  | false => rfl
  | true => exact absurd (hpast.mp hp) (by omega)

/-! ## NEXT on an ELF decoder (rule R271) -/

theorem State.elfDecoding.admits {d : State} (h : d.elfDecoding) : admitDecoder d = none := by
  obtain ⟨helf, hdir, hphase⟩ := h
  exact admitDecoder_eq_none.mpr ⟨by simp [hphase], by rcases helf with h | h <;> simp [h], hdir⟩

theorem nextValue_record {d : State} (h : d.elfDecoding) (hp : d.pend = none) (hcount : d.count ≠ d.nval)
    (hpast : d.pastEnd = false) : nextValue d = runRecord d := by
  have hbefore : beforeRecord d = none := by
    rw [beforeRecord, if_neg (by simp [h.2.2]), if_neg (by simp [hcount]), if_neg (by simp [hpast])]
  simp [nextValue, h.admits, hp, hbefore]

/-- At the count of values the block ends (rule R232). -/
theorem nextValue_end {d : State} (h : d.elfDecoding) (hp : d.pend = none) (hcount : d.count = d.nval) :
    nextValue d = .next d.ends := by
  have helf : isElf d.codec = true := by rcases h.1 with h | h <;> simp [h, isElf]
  have hbefore : beforeRecord d = some d.ends := by
    rw [beforeRecord, if_neg (by simp [h.2.2]), if_pos ⟨helf, hcount⟩]
    rfl
  simp [nextValue, h.admits, hp, hbefore]

theorem runRecord_eq {d t : State} (h : runNextCode d = .next t) (hp : t.pend.isSome = true) :
    runRecord d = runNextCode t := by simp [runRecord, h, hp]

end Machine
end Sys2Proof
end

section
/-! PROOFS. An ELF block through encoder and decoder: value by value, then whole (rules R236, R271, R272). -/

namespace Sys2Proof
namespace Machine

/-! ## Values delivered by NEXT (rules R271, R272) -/

/-- NEXT after NEXT delivers `ws`, from `s` to `t`. -/
def State.yields (s : State) : List Raw → State → Prop
  | [], t => t = s
  | w :: ws, t => ∃ u, nextValue s = .next u ∧ u.resp = some (.ok (.value w)) ∧ u.yields ws t

theorem State.yields.append {s t u : State} {vs ws : List Raw} (h : s.yields vs t) (h' : t.yields ws u) :
    s.yields (vs ++ ws) u := by
  induction vs generalizing s with
  | nil => cases h; exact h'
  | cons v r ih =>
    obtain ⟨q, hq, hresp, hrest⟩ := h
    exact ⟨q, hq, hresp, ih hrest⟩

/-- Every value delivered moves the cursor (rule R272). -/
theorem State.yields.length_le {s t : State} {ws : List Raw} (h : s.yields ws t) (hinv : Inv s) :
    s.rpos + ws.length ≤ t.rpos := by
  induction ws generalizing s with
  | nil => cases h; simp
  | cons w r ih =>
    obtain ⟨u, hu, hresp, hrest⟩ := h
    obtain ⟨u', hu', huinv⟩ := nextValue_inv hinv
    cases hu.symm.trans hu'
    obtain ⟨-, hmoves, -⟩ := nextValue_value hinv hu hresp
    have := ih hrest huinv
    simp only [List.length_cons]
    omega

/-- DECOMPRESS answers the values that NEXT delivers before END (rule R272). -/
theorem decompressLoop_of_yields {s t u : State} {ws : List Raw} (h : s.yields ws t) (hend : nextValue t = .next u)
    (hresp : u.resp = some (.ok .endOfBlock)) (fuel : Nat) (hfuel : ws.length < fuel) (acc : List Raw) :
    decompressLoop fuel acc s = .next (u.answer (.values (acc ++ ws))) := by
  induction ws generalizing s fuel acc with
  | nil =>
    cases h
    obtain ⟨f, rfl⟩ : ∃ f, fuel = f + 1 := ⟨fuel - 1, by simp at hfuel; omega⟩
    simp [decompressLoop, hend, hresp]
  | cons w r ih =>
    obtain ⟨q, hq, hval, hrest⟩ := h
    simp only [List.length_cons] at hfuel
    obtain ⟨f, rfl⟩ : ∃ f, fuel = f + 1 := ⟨fuel - 1, by omega⟩
    simp [decompressLoop, hq, hval, ih hrest f (by omega)]

/-! ## One value (rule R236) -/

/-- The decoder behind an erasure code with the bits `pre`, which leaves `bs` in LASTBS (rule R231). -/
def State.takesErasure (d : State) (pre : List Bool) (bs : Option Nat) (erased : Bool) : State :=
  { d.advance pre.length with lastbs := bs, pend := some erased }

/-- The decoder behind the XOR-stage record of the block's first value (rules R192, R231). -/
def State.takesFirst (d : State) (k : Nat) (v : Raw) : State := { d.advance k with pend := none }.holdsFirst v

/-- The decoder behind the XOR-stage record of a later value, of `k` bits, which leaves CLEAD as given (rules R193 to
R197, R231). -/
def State.takesLater (d : State) (k : Nat) (clead : Option Nat) (v : Raw) : State :=
  { d.advance k with clead := clead, pend := none }.holdsLater v

@[simp] theorem State.takesErasure_leadRep (d : State) (pre : List Bool) (bs : Option Nat) (erased : Bool) :
    (d.takesErasure pre bs erased).leadRep = d.leadRep := rfl
@[simp] theorem State.takesFirst_leadRep (d : State) (k : Nat) (v : Raw) : (d.takesFirst k v).leadRep = d.leadRep := rfl
@[simp] theorem State.takesLater_leadRep (d : State) (k : Nat) (clead : Option Nat) (v : Raw) :
    (d.takesLater k clead v).leadRep = d.leadRep := rfl

theorem elfLit_takesFirst {d : State} {e : Bool} (hp : d.pend = some e) {k : Nat} (hpast : (d.advance k).pastEnd = false)
    (v : Raw) : elfLit v (d.advance k) = (d.takesFirst k v).restores e v :=
  elfLit_eq (s := d.advance k) hp hpast v

theorem elfLater_takesLater {d : State} {e : Bool} (hp : d.pend = some e) {k : Nat}
    (hpast : (d.advance k).pastEnd = false) (clead : Option Nat) (v : Raw) :
    elfLater v { d.advance k with clead := clead } = (d.takesLater k clead v).restores e v :=
  elfLater_eq (s := { d.advance k with clead := clead }) hp hpast v

/-- What the decoder delivers for a value: within `EPS` of it, the value itself where it was sent RAW (rule R236). -/
def deliveredWithin (n : Nat) (eps v w : Raw) : Prop :=
  |rawVal n w - rawVal n v| ≤ rawVal 64 eps ∧ (search n eps v = none → w = v)

/-- A decoder in step with `e` that has `bits` ahead delivers the values `vs`, and is then in step with `e'`. -/
def Carries (n : Nat) (eps : Raw) (e e' : State) (bits : List Bool) (vs : List Raw) : Prop :=
  ∀ d, Paired e d → d.ahead bits.length = bits → d.rpos + bits.length ≤ d.lenBits → d.count + vs.length ≤ d.nval →
    ∃ ws d', d.yields ws d' ∧ Paired e' d' ∧ d.sameInput d' ∧ d'.rpos = d.rpos + bits.length ∧
      d'.count = d.count + vs.length ∧ List.Forall₂ (deliveredWithin n eps) vs ws

theorem Carries.nil (n : Nat) (eps : Raw) (e : State) : Carries n eps e e [] [] :=
  fun d h _ _ _ => ⟨[], d, rfl, h, ⟨rfl, rfl, rfl⟩, rfl, rfl, .nil⟩

theorem Carries.append {n : Nat} {eps : Raw} {e e' e'' : State} {a b : List Bool} {vs us : List Raw}
    (h : Carries n eps e e' a vs) (h' : Carries n eps e' e'' b us) : Carries n eps e e'' (a ++ b) (vs ++ us) := by
  intro d hpair hahead hpos hcount
  obtain ⟨ha, hb⟩ := State.ahead_append hahead
  rw [List.length_append] at hpos hcount
  obtain ⟨ws, d', hyields, hpair', ⟨hbuf, hlen, hnval⟩, hrpos, hcount', hvs⟩ := h d hpair ha (by omega) (by omega)
  have hlenBits : d'.lenBits = d.lenBits := by rw [State.lenBits, hlen]; rfl
  have hb' : d'.ahead b.length = b :=
    (State.ahead_congr (s := d.advance a.length) hbuf hlen hrpos _).trans hb
  obtain ⟨xs, d'', hyields', hpair'', ⟨hbuf', hlen', hnval'⟩, hrpos', hcount'', hus⟩ :=
    h' d' hpair' hb' (by omega) (by omega)
  refine ⟨ws ++ xs, d'', hyields.append hyields', hpair'',
    ⟨hbuf'.trans hbuf, hlen'.trans hlen, hnval'.trans hnval⟩, ?_, ?_, List.rel_append hvs hus⟩
  · rw [hrpos', hrpos, List.length_append, Nat.add_assoc]
  · rw [hcount'', hcount', List.length_append, Nat.add_assoc]

/-- What both machines must agree on behind a record for a decoder in step with `e` to be in step with `e'` when the
value is delivered. -/
structure Follows (e' t : State) : Prop where
  codec : t.codec = e'.codec
  dir : t.dir = .dec
  phase : t.phase = .ready
  pend : t.pend = none
  leadRep : t.leadRep = e'.leadRep
  first : t.first = e'.first
  clead : t.clead = e'.clead
  lastbs : t.lastbs = e'.lastbs
  ring : t.ringAt 0 = e'.ringAt 0

theorem Follows.paired {e' d t : State} (h : Follows e' t) (henc : ElfOpen e') (hinv : Inv d) {w : Raw}
    (hnext : nextValue d = .next (t.delivers w)) : Paired e' (t.delivers w) := by
  obtain ⟨u, hu, huinv⟩ := nextValue_inv hinv
  cases hnext.symm.trans hu
  exact ⟨henc, huinv, h.codec, h.dir, h.phase, h.pend, h.leadRep, h.first, h.clead, h.lastbs, h.ring⟩

theorem tableFind_insert_self {α : Type} (t : Table α) (k : Nat) (v : α) : tableFind (tableInsert t k v) k = some v := by
  rw [tableFind_insert, if_pos rfl]

section
variable {e : State} {v v' : Raw} {pre : List Bool} {bs : Option Nat} {erased : Bool}
  (hE : e.erasure v = (pre, bs, v')) (hS : (search e.n e.eps v).isSome = erased) (hv : v.toNat < 2 ^ e.n)
include hE hS hv

/-- NEXT delivers the restored value, where the XOR-stage record behind the erasure code gives the value the encoder
put there. -/
theorem Paired.nextValue_delivers {d : State} (h : Paired e d) (hahead : d.ahead pre.length = pre)
    (hpast : d.pastEnd = false) (hcount : d.count ≠ d.nval) :
    ∃ w, deliveredWithin e.n e.eps v w ∧ ∀ t : State, t.n = e.n → t.lastbs = bs →
      runNextCode (d.takesErasure pre bs erased) = .next (t.restores erased v') →
      nextValue d = .next (t.delivers w) := by
  obtain ⟨-, heps, -⟩ := h.enc.inv.elf_params h.enc.elf
  obtain ⟨w, hw, herror, hraw⟩ := erasure_restores (width_eq e.codec) heps v
  rw [hE, hS] at hw
  refine ⟨w, ⟨herror, hraw⟩, fun t hn hlast hrun => ?_⟩
  have herase := runNextCode_erasure h.elfDecoding h.pend h.n_eq h.lastbs hv (by rw [hE]; exact hahead)
  rw [hE, hS] at herase
  rw [nextValue_record h.elfDecoding h.pend hcount hpast, runRecord_eq herase rfl]
  exact hrun.trans (congrArg _ (hw t hn hlast))

/-- One value is carried where the XOR-stage record is: `t` is what the record makes of the decoder. -/
theorem carries_of_record {e' : State} (henc : ElfOpen e') {bits : List Bool} (t : State → State)
    (hcodec : e'.codec = e.codec) (hlast : e'.lastbs = bs)
    (hrun : ∀ d, Paired e d → (d.takesErasure pre bs erased).ahead bits.length = bits →
      ((d.takesErasure pre bs erased).advance bits.length).pastEnd = false →
      runNextCode (d.takesErasure pre bs erased) = .next ((t d).restores erased v'))
    (hfollows : ∀ d, Paired e d → Follows e' (t d))
    (hinput : ∀ d, d.sameInput (t d) ∧ (t d).rpos = d.rpos + pre.length + bits.length ∧ (t d).count = d.count) :
    Carries e.n e.eps e e' (pre ++ bits) [v] := by
  intro d h hahead hpos hcount
  obtain ⟨ha, hb⟩ := State.ahead_append hahead
  rw [List.length_append] at hpos
  simp only [List.length_singleton] at hcount
  have hpast : d.pastEnd = false := h.inv.pastEnd_of_le (by omega)
  have hpast' : ((d.takesErasure pre bs erased).advance bits.length).pastEnd = false := by
    rw [State.advance_pastEnd_of_le _ _ (by change d.rpos + _ + _ ≤ d.lenBits; omega)]
    exact (d.advance_pastEnd_of_le _ (by omega)).trans hpast
  obtain ⟨w, hw, hdelivers⟩ := h.nextValue_delivers hE hS hv ha hpast (by omega)
  have hn : (t d).n = e.n := by rw [State.n, (hfollows d h).codec, hcodec]; rfl
  have hnext := hdelivers (t d) hn ((hfollows d h).lastbs.trans hlast) (hrun d h hb hpast')
  obtain ⟨hsame, hrpos, hcount'⟩ := hinput d
  refine ⟨[w], (t d).delivers w, ⟨_, hnext, rfl, rfl⟩, (hfollows d h).paired henc h.inv hnext, hsame, ?_, ?_,
    .cons hw .nil⟩
  · change (t d).rpos = _
    rw [hrpos, List.length_append, Nat.add_assoc]
  · change (t d).count + 1 = _
    rw [hcount']
    rfl

/-- The block's first value is carried by its erasure code and a literal (rules R183, R192). -/
theorem carries_first (hfirst : e.first = true) (henc : ElfOpen (((e.erases pre bs).putsFirst v').answer .unit)) :
    Carries e.n e.eps e (((e.erases pre bs).putsFirst v').answer .unit) (pre ++ bitsOf e.n v'.toNat) [v] := by
  have hv' : v'.toNat < 2 ^ e.n := by have := erasure_fits hv; rwa [hE] at this
  refine carries_of_record hE hS hv henc
    (fun d => (d.takesErasure pre bs erased).takesFirst e.n v') (by simp [State.putsFirst, State.erases])
    (by simp [State.putsFirst, State.erases]) (fun d h hahead hpast => ?run) (fun d h => ?follows) (fun d => ?input)
  case run =>
    have hn : (d.takesErasure pre bs erased).n = e.n := h.n_eq
    rw [bitsOf_length] at hahead hpast
    rw [runNextCode_xLit (d := d.takesErasure pre bs erased) h.elfDecoding rfl (h.first.trans hfirst)
      (by rw [hn]; exact hv') (by rw [hn]; exact hahead), hn,
      elfLit_takesFirst rfl hpast]
  case follows =>
    constructor
    case leadRep => simpa using h.leadRep
    all_goals
      simp [State.takesFirst, State.takesErasure, State.holdsFirst, State.putsFirst, State.erases, State.ringAt,
        tableFind_insert_self, h.codec, h.dir, h.phase, h.clead]
  case input =>
    simp [State.sameInput, State.takesFirst, State.takesErasure, State.holdsFirst]

/-- A later value is carried by its erasure code and the record of its XOR with the previous one (rules R184 to R197). -/
theorem carries_later (h : ElfOpen e) (hfirst : e.first = false) {q : Raw} (hring : e.ringAt 0 = some q) {far : Bool}
    (hfar : far = true → threshold e.n e.logw < ctz e.n (v' ^^^ q))
    (henc : ElfOpen (((e.erases pre bs).putsLater v' far (v' ^^^ q)).answer .unit)) :
    Carries e.n e.eps e (((e.erases pre bs).putsLater v' far (v' ^^^ q)).answer .unit)
      (pre ++ (e.chpRecord far 0 (v' ^^^ q)).1) [v] := by
  obtain ⟨hlogw, -, hrep⟩ := h.inv.elf_params h.elf
  obtain ⟨q', hring', hq⟩ := h.ring hfirst
  cases hring.symm.trans hring'
  have hv' : v'.toNat < 2 ^ e.n := by have := erasure_fits hv; rwa [hE] at this
  have hx : (v' ^^^ q).toNat < 2 ^ e.n := xor_lt _ _ _ hv' hq
  have hback : q ^^^ (v' ^^^ q) = v' := by rw [BitVec.xor_comm v', xor_xor_self]
  refine carries_of_record hE hS hv henc
    (fun d => (d.takesErasure pre bs erased).takesLater (e.chpRecord far 0 (v' ^^^ q)).1.length
      (e.chpRecord far 0 (v' ^^^ q)).2 v') (by simp [State.putsLater, State.erases])
    (by simp [State.putsLater, State.erases]) (fun d hp hahead hpast => ?run) (fun d hp => ?follows) (fun d => ?input)
  case run =>
    have hdfirst : d.first = false := hp.first.trans hfirst
    have hdring : d.ringAt 0 = some q := hp.ring.trans hring
    have hrecord : (d.takesErasure pre bs erased).chpRecord far 0 (v' ^^^ q) = e.chpRecord far 0 (v' ^^^ q) :=
      hp.chpRecord_eq far 0 _
    have hn : (d.takesErasure pre bs erased).n = e.n := hp.n_eq
    have hdlogw : (d.takesErasure pre bs erased).logw = e.logw := hp.logw.trans hlogw.symm
    have hdrep : (d.takesErasure pre bs erased).leadRep = e.leadRep := hp.leadRep
    rw [runNextCode_chpRecord (d := d.takesErasure pre bs erased) hp.elfDecoding rfl hdfirst hp.logw (hdrep ▸ hrep)
      hdring ((hp.prev hdfirst).trans hdring) (by rw [hn]; exact hx) (by rw [hn, hdlogw]; exact hfar)
      (by rw [hrecord]; exact hahead), hback, hrecord,
      elfLater_takesLater rfl hpast]
  case follows =>
    have hslot : (d.cur + 1) % 2 ^ d.logw = 0 := by rw [hp.logw]; exact Nat.mod_one _
    have hslot' : (e.index + 1) % 2 ^ e.logw = 0 := by rw [hlogw]; exact Nat.mod_one _
    constructor
    case leadRep => simpa using hp.leadRep
    case clead => simp [State.takesLater, State.holdsLater, State.putsLater]
    all_goals
      simp [State.takesLater, State.takesErasure, State.holdsLater, State.putsLater, State.erases, State.ringAt, State.w,
        ringSize, tableFind_insert_self, hslot, hslot', hp.codec, hp.dir, hp.phase, hp.first]
  case input =>
    simp [State.sameInput, State.takesLater, State.takesErasure, State.holdsLater]

end

end Machine
end Sys2Proof
end

section
/-! PROOFS. Whole ELF blocks: the encoder's run to its bytes, the decoder's run over them, and the error bound
(rules R236, R261, R264, R265, R270, R272). -/

namespace Sys2Proof
namespace Machine

/-! ## Blocks of any codec (rules R260, R261, R270) -/

theorem codecOf_codecCode (codec : Codec) : codecOf (codecCode codec) = some codec := by cases codec <;> rfl

/-- The encoder that CONSTRUCT makes of legal operands (rule R261). -/
def State.freshEnc (s : State) (codec : Codec) (g : EncConfig) : State :=
  (s.construct codec .enc g.logw.toNat g.capw.toNat g.eps 0 (tableOf g.lead64) (tableOf g.lead32)).answer .unit

/-- The decoder that CONSTRUCT makes of legal operands, loaded with its bytes (rule R270). -/
def State.freshDec (s : State) (codec : Codec) (g : DecConfig) : State :=
  ((s.construct codec .dec g.logw.toNat 0 0 g.nval.toNat (tableOf g.lead64) (tableOf g.lead32)).loadBytes g.bytes).answer
    .unit

theorem exec_constructEnc_of_legal {g : EncConfig} {codec : Codec} (s : State) (hcodec : g.codec.toNat = codecCode codec)
    (hlegal : legalEnc codec g = true) : exec (.constructEnc g) s = .next (s.freshEnc codec g) := by
  change execConstructEnc g s = _
  rw [execConstructEnc, hcodec, codecOf_codecCode]
  exact if_pos hlegal

theorem exec_constructDec_of_legal {g : DecConfig} {codec : Codec} (s : State) (hcodec : g.codec.toNat = codecCode codec)
    (hlegal : legalDec codec g = true) (hbs : codec ≠ .bs) :
    exec (.constructDec g) s = .next (s.freshDec codec g) := by
  change execConstructDec g s = _
  rw [execConstructDec, hcodec, codecOf_codecCode]
  exact (if_pos hlegal).trans (if_neg hbs)

/-- The bytes of a block, from the run of each of its parts. -/
theorem encodeBlock_eq {g : EncConfig} {vs : List Raw} {s s₁ s₂ s₃ s₄ : State} {bs : List Byte}
    (hconstruct : exec (.constructEnc g) s = .next s₁) (hconstructed : s₁.resp = some (.ok .unit))
    (hvalues : runCommands (vs.map .addValue) s₁ = some (List.replicate vs.length (some (.ok .unit)), s₂))
    (hclose : exec .close s₂ = .next s₃) (hclosed : s₃.resp = some (.ok .unit))
    (hget : exec .getBytes s₃ = .next s₄) (hbytes : s₄.resp = some (.ok (.bytes bs))) : encodeBlock g vs s = some bs := by
  have hrun := runCommands_append (runCommands_cons hconstruct hvalues)
    (runCommands_cons hclose (runCommands_cons hget (rfl : runCommands [] s₄ = some ([], s₄))))
  have hdrop : ∀ (l : List (Option Response)) a b, (l ++ [a, b]).dropLast = l ++ [a] := by simp
  rw [encodeBlock, blockCommands, hrun]
  simp only [hbytes, hdrop]
  simp [hconstructed, hclosed]

/-! ## The encoder's run (rules R263 to R265) -/

/-- `e'` is the encoder `e` with `bits` behind its stream. -/
structure ElfExtends (e e' : State) (bits : List Bool) : Prop where
  opened : ElfOpen e'
  codec : e'.codec = e.codec
  capw : e'.capw = e.capw
  eps : e'.eps = e.eps
  stream : e'.stream = e.stream ++ bits

theorem ElfExtends.n_eq {e e' : State} {bits : List Bool} (h : ElfExtends e e' bits) : e'.n = e.n := by
  rw [State.n, h.codec]; rfl

theorem ElfExtends.wpos_eq {e e' : State} {bits : List Bool} (h : ElfExtends e e' bits) :
    e'.wpos = e.wpos + bits.length := by
  rw [← e'.stream_length, h.stream, List.length_append, e.stream_length]

theorem ElfExtends.trans {e e' e'' : State} {a b : List Bool} (h : ElfExtends e e' a) (h' : ElfExtends e' e'' b) :
    ElfExtends e e'' (a ++ b) :=
  ⟨h'.opened, h'.codec.trans h.codec, h'.capw.trans h.capw, h'.eps.trans h.eps, by
    rw [h'.stream, h.stream, List.append_assoc]⟩

/-- ADDVALUE of a finite value, with room for the longest record (rule R105): its record is appended, and carries the
value. -/
theorem elf_addValue {e : State} (h : ElfOpen e) {v : Raw} (hv : v.toNat < 2 ^ e.n) (hnan : isNaN e.n v = false)
    (hinf : isInf e.n v = false) (hroom : e.wpos + (bsBits e.n + e.n + 7) ≤ 32 * e.capw) :
    ∃ e' bits, exec (.addValue v) e = .next e' ∧ e'.resp = some (.ok .unit) ∧ ElfExtends e e' bits ∧
      bits.length ≤ bsBits e.n + e.n + 7 ∧ Carries e.n e.eps e e' bits [v] := by
  obtain ⟨hlogw, -, hrep⟩ := h.inv.elf_params h.elf
  have hpre := erasure_length_le e v
  have hfits := erasure_fits hv
  generalize hE : e.erasure v = E at hpre hfits
  obtain ⟨pre, bs, v'⟩ := E
  simp only at hpre hfits
  cases hfirst : e.first with
  | true =>
    have hexec := exec_addValue_first h hE hv hnan hinf hfirst (by omega)
    have henc := h.next hexec (by simp [State.putsFirst, State.erases]) (by simp [State.putsFirst, State.erases])
      (by simp [State.putsFirst, State.erases])
    refine ⟨_, pre ++ bitsOf e.n v'.toNat, hexec, rfl, ⟨henc, ?_, ?_, ?_, ?_⟩, ?_, carries_first hE rfl hv hfirst henc⟩
    case refine_4 =>
      rw [State.answer_stream, State.putsFirst_stream _ _ (memSetBits_wf pre e.wbuf e.wpos h.memWf),
        e.erases_stream _ _ h.memWf, List.append_assoc]
      rfl
    case refine_5 =>
      simp only [List.length_append, bitsOf_length]
      omega
    all_goals simp [State.putsFirst, State.erases]
  | false =>
    obtain ⟨q, hring, hq⟩ := h.ring hfirst
    obtain ⟨far, hfar, hexec⟩ := exec_addValue_later h hE hv hnan hinf hfirst hring (by omega)
    have henc := h.next hexec (by simp [State.putsLater, State.erases]) (by simp [State.putsLater, State.erases])
      (by simp [State.putsLater, State.erases])
    have hlen := chpRecord_length_le 0 (xor_lt _ _ _ hfits hq) hrep hfar
    refine ⟨_, pre ++ (e.chpRecord far 0 (v' ^^^ q)).1, hexec, rfl, ⟨henc, ?_, ?_, ?_, ?_⟩, ?_,
      carries_later hE rfl hv h hfirst hring hfar henc⟩
    case refine_4 =>
      rw [State.answer_stream, State.putsLater_stream _ _ _ _ (memSetBits_wf pre e.wbuf e.wpos h.memWf),
        e.erases_stream _ _ h.memWf, List.append_assoc, State.erases_chpRecord]
    case refine_5 =>
      simp only [List.length_append]
      omega
    all_goals simp [State.putsLater, State.erases]

/-- The values of a block, with room for the longest record of each. -/
theorem runCommands_addValues (vs : List Raw) {e : State} (h : ElfOpen e)
    (hvs : ∀ v ∈ vs, v.toNat < 2 ^ e.n ∧ isNaN e.n v = false ∧ isInf e.n v = false)
    (hroom : e.wpos + (bsBits e.n + e.n + 7) * vs.length ≤ 32 * e.capw) :
    ∃ e' bits, runCommands (vs.map .addValue) e = some (List.replicate vs.length (some (.ok .unit)), e') ∧
      ElfExtends e e' bits ∧ Carries e.n e.eps e e' bits vs := by
  induction vs generalizing e with
  | nil => exact ⟨e, [], rfl, ⟨h, rfl, rfl, rfl, (List.append_nil _).symm⟩, Carries.nil _ _ _⟩
  | cons v r ih =>
    obtain ⟨hv, hnan, hinf⟩ := hvs v (by simp)
    rw [List.length_cons, Nat.mul_succ] at hroom
    obtain ⟨e₁, a, hexec, hresp, hext, hlen, hcarries⟩ := elf_addValue h hv hnan hinf (by omega)
    have hwpos := hext.wpos_eq
    obtain ⟨e₂, b, hrun, hext', hcarries'⟩ := ih hext.opened (fun w hw => hext.n_eq ▸ hvs w (by simp [hw]))
      (by rw [hext.n_eq, hext.capw]; omega)
    rw [hext.n_eq, hext.eps] at hcarries'
    refine ⟨e₂, a ++ b, ?_, hext.trans hext', hcarries.append hcarries'⟩
    rw [List.map_cons, runCommands_cons hexec hrun, hresp]
    rfl

/-- CLOSE and GETBYTES of an open ELF encoder: the bytes begin with the stream (rules R232, R233, R264, R265). -/
theorem elf_close_getBytes {e : State} (h : ElfOpen e) :
    ∃ t u bs, exec .close e = .next t ∧ t.resp = some (.ok .unit) ∧ exec .getBytes t = .next u ∧
      u.resp = some (.ok (.bytes bs)) ∧ e.stream <+: bs.flatMap bitsOfByte ∧ bs.length ≤ 4 * e.capw := by
  obtain ⟨-, hdir, hphase, hcodec⟩ := h.core
  have hadmit : admitEncoder .secondClose e = none :=
    admitEncoder_eq_none.mpr ⟨by simp [hphase], hcodec, hdir, by simp [hphase]⟩
  have hsentinel : encodeSentinel e = .ok () e := by
    unfold encodeSentinel; rcases h.elf with hc | hc <;> rw [hc]
  have hclose : exec .close e =
      .next (({ e.append (padding e.wpos) with flushed := true, phase := .closed } : State).answer .unit) := by
    change execClose e = _
    rw [execClose, hadmit, guarded_none, hsentinel, Eff.bind_ok, bswFlush_eq, if_neg (by simp [h.core.flushed])]
    rfl
  generalize ht : ({ e.append (padding e.wpos) with flushed := true, phase := .closed } : State).answer .unit = t at hclose
  have hflushed : t.flushed = true := ht ▸ rfl
  have hwpos : t.wpos = 8 * (4 * ((e.wpos + 31) / 32)) := by
    rw [← ht]; exact (add_padding_length e.wpos).trans (by omega)
  have hstream : t.stream = e.stream ++ padding e.wpos := ht ▸ e.stream_append (padding e.wpos) h.memWf
  have hout : outputLength t = 4 * ((e.wpos + 31) / 32) := by
    have helf : isElf t.codec = true := by rw [← ht]; rcases h.elf with hc | hc <;> simp [hc, isElf]
    have hsize : t.size = e.wpos := by rw [← ht]; exact h.size_eq
    rw [outputLength, if_pos helf, hsize]
  have hget : exec .getBytes t = .next (t.answer (.bytes (memBytes t.wbuf 0 (outputLength t)))) := by
    have hadmit' : admitGetBytes t = none := admitGetBytes_eq_none.mpr (by rw [← ht]; exact ⟨hcodec, hdir, rfl⟩)
    change execGetBytes t = _
    rw [execGetBytes, hadmit', guarded_none, bswGetBuffer, if_neg (by simp [hflushed]), if_neg (by omega), Eff.outcome_ok]
  refine ⟨t, _, memBytes t.wbuf 0 (outputLength t), hclose, ht ▸ rfl, hget, rfl, ⟨padding e.wpos, ?_⟩, ?_⟩
  · rw [t.flatMap_memBytes_wbuf _ (by omega), hout, ← hwpos, ← t.stream_length, List.take_length, hstream]
  · obtain ⟨-, -, -, ⟨hcap, -⟩, -⟩ := h.inv
    rw [memBytes_length, hout]
    omega

/-! ## The decoder's run (rules R270 to R272) -/

/-- DECOMPRESS of a decoder in step with a fresh encoder, loaded with the stream that carries `vs`. -/
theorem exec_decompress_of_carries {n : Nat} {eps : Raw} {e e' d : State} {bits : List Bool} {vs : List Raw}
    (hcarries : Carries n eps e e' bits vs) (h : Paired e d) (hrpos : d.rpos = 0) (hahead : d.ahead bits.length = bits)
    (hlen : bits.length ≤ d.lenBits) (hcount : d.count = 0) (hnval : d.nval = vs.length) :
    ∃ ws u, exec .decompress d = .next u ∧ u.resp = some (.ok (.values ws)) ∧
      List.Forall₂ (deliveredWithin n eps) vs ws := by
  obtain ⟨ws, d', hyields, hpair, ⟨-, -, hsame⟩, hrpos', hcount', hvs⟩ :=
    hcarries d h hahead (by omega) (by omega)
  have hend := nextValue_end hpair.elfDecoding hpair.pend (by omega)
  have hws := hyields.length_le h.inv
  exact ⟨ws, _, decompressLoop_of_yields hyields hend rfl (d.lenBits + 2) (by omega) [], rfl, hvs⟩

/-! ## The error bound (rule R236) -/

section
variable {codec : Codec} {g : EncConfig} {d : DecConfig} (helf : codec = .elf64 ∨ codec = .elf32)
  (hrep : legalLeadRep ((if width codec = 64 then g.lead64 else g.lead32).map BitVec.toNat) = true)
include helf hrep

theorem legalEnc_elf (heps : legalEps g.eps = true) (hcapw : g.capw.toNat ≤ 2 ^ 27 - 1) : legalEnc codec g = true := by
  have hcap : legalCapw g.capw.toNat = true := by simpa [legalCapw] using hcapw
  have htables : legalTables codec g.lead64 g.lead32 = true := by
    rw [legalTables, tableOf, hrep, Bool.or_true]
  rcases helf with rfl | rfl <;> simp [legalEnc, legalLogw, hcap, heps, htables]

theorem legalDec_elf (h64 : d.lead64 = g.lead64) (h32 : d.lead32 = g.lead32) (hlen : d.bytes.length < 2 ^ 29) :
    legalDec codec d = true := by
  have hbytes : d.bytes.length < maxLoad := hlen
  have htables : legalTables codec d.lead64 d.lead32 = true := by
    rw [legalTables, tableOf, h64, h32, hrep, Bool.or_true]
  rcases helf with rfl | rfl <;> simp [legalDec, legalLogw, hbytes, htables]

theorem elfOpen_freshEnc (s : State) (heps : legalEps g.eps = true) (hcapw : g.capw.toNat ≤ 2 ^ 27 - 1) :
    ElfOpen (s.freshEnc codec g) where
  inv := inv_answer _ (constructed_inv _ _ _ _ _ _ _ _ _ (by rcases helf with rfl | rfl <;> simp) (fun _ => by omega)
    (fun _ _ => heps) (by omega) (fun _ => by rw [← hrep]; split <;> rfl) (by simp))
  elf := helf
  dir := rfl
  phase := rfl

/-- A fresh ELF decoder with the encoder's table is in step with the fresh encoder. -/
theorem paired_fresh (s s' : State) (heps : legalEps g.eps = true) (hcapw : g.capw.toNat ≤ 2 ^ 27 - 1)
    (h64 : d.lead64 = g.lead64) (h32 : d.lead32 = g.lead32) (hlen : d.bytes.length < 2 ^ 29) :
    Paired (s.freshEnc codec g) (s'.freshDec codec d) where
  enc := elfOpen_freshEnc helf hrep s heps hcapw
  inv := inv_answer _ (constructedLoad_inv _ _ _ _ _ _ _ (by rcases helf with rfl | rfl <;> simp)
    (by rcases helf with rfl | rfl <;> simp) d.nval.isLt (fun _ => by rw [h64, h32, ← hrep]; split <;> rfl) hlen)
  codec := rfl
  dir := rfl
  phase := rfl
  pend := rfl
  leadRep := by rw [State.freshDec, h64, h32]; rfl
  first := rfl
  clead := rfl
  lastbs := rfl
  ring := rfl

omit hrep in
theorem freshEnc_eps (s : State) : (s.freshEnc codec g).eps = g.eps := by
  rcases helf with rfl | rfl <;> simp [State.freshEnc, State.construct, isElf]

omit hrep in
theorem freshDec_nval (s : State) : (s.freshDec codec d).nval = d.nval.toNat := by
  rcases helf with rfl | rfl <;> simp [State.freshDec, State.construct, State.loadBytes, isElf]

/-- Encoding succeeds, and the bytes begin with a stream that carries the block. -/
theorem encodeBlock_carries {vs : List Raw} (s : State) (hcodec : g.codec.toNat = codecCode codec)
    (heps : legalEps g.eps = true) (hcapw : g.capw.toNat ≤ 2 ^ 27 - 1)
    (hroom : (bsBits (width codec) + width codec + 7) * vs.length ≤ 32 * g.capw.toNat)
    (hvs : ∀ v ∈ vs, v.toNat < 2 ^ width codec ∧ isNaN (width codec) v = false ∧ isInf (width codec) v = false) :
    ∃ bs bits e, encodeBlock g vs s = some bs ∧ bs.length < 2 ^ 29 ∧ bits <+: bs.flatMap bitsOfByte ∧
      Carries (width codec) g.eps (s.freshEnc codec g) e bits vs := by
  obtain ⟨e, bits, hvalues, hext, hcarries⟩ :=
    runCommands_addValues vs (elfOpen_freshEnc helf hrep s heps hcapw) hvs ((Nat.zero_add _).trans_le hroom)
  obtain ⟨t, u, bs, hclose, hclosed, hget, hbytes, hprefix, hlen⟩ := elf_close_getBytes hext.opened
  have hconstruct := exec_constructEnc_of_legal s hcodec (legalEnc_elf helf hrep heps hcapw)
  have hcap : e.capw = g.capw.toNat := hext.capw
  have hstream : e.stream = bits := hext.stream
  rw [freshEnc_eps helf s] at hcarries
  exact ⟨bs, bits, e, encodeBlock_eq hconstruct rfl hvalues hclose hclosed hget hbytes, by omega, hstream ▸ hprefix,
    hcarries⟩

/-- Decoding bytes that begin with a stream that carries the block. -/
theorem decodeBlock_of_carries {vs : List Raw} {s e : State} {bits : List Bool} (s' : State)
    (hcarries : Carries (width codec) g.eps (s.freshEnc codec g) e bits vs)
    (hprefix : bits <+: d.bytes.flatMap bitsOfByte) (hcodec : d.codec.toNat = codecCode codec)
    (h64 : d.lead64 = g.lead64) (h32 : d.lead32 = g.lead32) (heps : legalEps g.eps = true)
    (hcapw : g.capw.toNat ≤ 2 ^ 27 - 1) (hlen : d.bytes.length < 2 ^ 29) (hnval : d.nval.toNat = vs.length) :
    ∃ ws, decodeBlock d s' = some (.ok (.values ws)) ∧ List.Forall₂ (deliveredWithin (width codec) g.eps) vs ws := by
  have hconstruct := exec_constructDec_of_legal s' hcodec (legalDec_elf helf hrep h64 h32 hlen)
    (by rcases helf with rfl | rfl <;> simp)
  have hbits : bits.length ≤ (s'.freshDec codec d).lenBits :=
    hprefix.length_le.trans_eq (flatMap_bitsOfByte_length d.bytes)
  have hahead : (s'.freshDec codec d).ahead bits.length = bits :=
    (s'.construct codec .dec d.logw.toNat 0 0 d.nval.toNat (tableOf d.lead64) (tableOf d.lead32)).ahead_loadBytes
      d.bytes hprefix
  obtain ⟨ws, u, hrun, hvalue, hbound⟩ := exec_decompress_of_carries hcarries
    (paired_fresh helf hrep s s' heps hcapw h64 h32 hlen) rfl hahead hbits rfl ((freshDec_nval helf s').trans hnval)
  refine ⟨ws, ?_, hbound⟩
  rw [decodeBlock, runCommands_cons hconstruct (runCommands_cons hrun (rfl : runCommands [] u = some ([], u)))]
  exact hvalue

end

/-- Settles O45: the encoder's bytes carry the block, and a fresh decoder is in step with the fresh encoder. -/
theorem elfErrorBound : Obligations.ElfErrorBound := by
  intro codec vs g d s s' helf hcodec hdcodec h64 h32 heps hnval hrep hcapw hroom hvs
  obtain ⟨bs, bits, e, hencode, hlen, hprefix, hcarries⟩ := encodeBlock_carries helf hrep s hcodec heps hcapw hroom hvs
  obtain ⟨ws, hdecode, hbound⟩ := decodeBlock_of_carries (d := { d with bytes := bs }) helf hrep s' hcarries hprefix
    (by rw [hdcodec, hcodec]) h64 h32 heps hcapw hlen hnval
  exact ⟨bs, ws, hencode, hdecode, hbound⟩

end Machine
end Sys2Proof
end

section
/-! PROOFS. GETBYTES and GETSIZE on a codec encoder (rules R65, R265, R266). -/

namespace Sys2Proof
namespace Machine

/-- The output stands within the words of its bits, on ELF as on the other units (rule R65). -/
theorem outputLength_le (s : State) : outputLength s ≤ 4 * ((s.size + 31) / 32) := by
  unfold outputLength
  split
  case isTrue => exact le_rfl
  case isFalse => omega

/-- A closed encoder is flushed, and its stream is SIZE bits padded to whole words (rules R134, R264). -/
theorem Inv.flushed_of_closed {s : State} (h : Inv s) (hcodec : s.codec ≠ .bs) (hphase : s.phase = .closed) :
    s.flushed = true ∧ s.wpos = 32 * ((s.size + 31) / 32) := by
  obtain ⟨-, -, -, ⟨-, -, -, hclosed, -⟩, -⟩ := h
  exact hclosed hcodec hphase

/-- GETBYTES has no output to read before CLOSE (rule R262). -/
theorem exec_getBytes_of_opened {s : State} (hcodec : s.codec ≠ .bs) (hdir : s.dir = .enc) (hphase : s.phase = .opened) :
    exec .getBytes s = .next (s.refuses .notClosed) := by
  have hadmit : admitGetBytes s = some .notClosed := by simp [admitGetBytes, hcodec, hdir, hphase]
  change execGetBytes s = _
  rw [execGetBytes, hadmit]
  rfl

/-- GETBYTES of a closed encoder never runs past the flushed stream: it answers the output's bytes (rule R265). -/
theorem exec_getBytes_of_closed {s : State} (h : Inv s) (hcodec : s.codec ≠ .bs) (hdir : s.dir = .enc)
    (hphase : s.phase = .closed) :
    exec .getBytes s = .next (s.answer (.bytes (memBytes s.wbuf 0 (outputLength s)))) := by
  obtain ⟨hflushed, hwpos⟩ := h.flushed_of_closed hcodec hphase
  have hlen := outputLength_le s
  change execGetBytes s = _
  rw [execGetBytes, admitGetBytes_eq_none.mpr ⟨hcodec, hdir, hphase⟩, guarded_none, bswGetBuffer,
    if_neg (by simp [hflushed]), if_neg (by omega), Eff.outcome_ok]

/-- GETSIZE of an encoder that has not failed answers SIZE (rule R266). -/
theorem exec_getSize_of_enc {s : State} (hcodec : s.codec ≠ .bs) (hdir : s.dir = .enc) (hphase : s.phase ≠ .fault) :
    exec .getSize s = .next (s.answer (.num s.size)) := by
  change execGetSize s = _
  rw [execGetSize, admitGetSize_eq_none.mpr ⟨hphase, hcodec, hdir⟩, guarded_none]

/-- Settles O52: the output's bytes lie within the padded stream of a closed encoder, so they are its first bits. -/
theorem readingTheOutput : Obligations.ReadingTheOutput := by
  intro s hinv hcodec hdir
  refine ⟨rfl, rfl, exec_getBytes_of_opened hcodec hdir, fun hphase => ?size, fun hclosed l hl => ?bytes⟩
  case size =>
    have hfault : s.phase ≠ .fault := by rcases hphase with h | h <;> simp [h]
    exact exec_getSize_of_enc hcodec hdir hfault
  case bytes =>
    obtain ⟨-, hwpos⟩ := hinv.flushed_of_closed hcodec hclosed
    have hlen := outputLength_le s
    have hout : l = outputLength s := hl
    rw [hout]
    exact ⟨memBytes s.wbuf 0 (outputLength s), exec_getBytes_of_closed hinv hcodec hdir hclosed, memBytes_length _ _ _,
      s.flatMap_memBytes_wbuf _ (by omega)⟩

end Machine
end Sys2Proof
end

section
/-! PROOFS. What a command may answer, carried through the phase table and through its effect: a UsageError leaves the
machine as the command found it (rules R15, R260, R262, R295). -/

namespace Sys2Proof
namespace Machine

/-! ## Answers (rule R260) -/

/-- Every next state of the outcome has `Q`. -/
def Answers (Q : State → Prop) (o : Host.Outcome State Fault Refusal) : Prop := ∀ t, o = .next t → Q t

theorem answers_next {Q : State → Prop} {t : State} (h : Q t) : Answers Q (.next t) := by
  intro u hu
  cases hu
  exact h

theorem Answers.mono {Q R : State → Prop} {o : Host.Outcome State Fault Refusal} (h : Answers Q o) (hQR : ∀ t, Q t → R t) :
    Answers R o := fun t ht => hQR t (h t ht)

/-- If the answer `t` to a command issued in `s` is a UsageError, then only the response has changed (rule R295). -/
def UsageKeeps (s t : State) : Prop := ∀ sub, t.resp = some (.fail .usageError sub) → t = s.refuses sub

theorem usageKeeps_usage (s : State) (sub : SubCause) : UsageKeeps s (s.usage sub) := by
  intro b hb
  cases hb
  rfl

theorem usageKeeps_answer (s t : State) (r : Result) : UsageKeeps s (t.answer r) := by
  intro b hb
  cases hb

/-- A command is turned away by its row of the phase table, or runs (rule R262). -/
theorem Answers.guarded {adm : Option SubCause} {s : State} {k : State → Host.Outcome State Fault Refusal}
    (h : adm = none → Answers (UsageKeeps s) (k s)) : Answers (UsageKeeps s) (guarded adm s k) := by
  cases adm with
  | none => exact h rfl
  | some sub => exact answers_next (usageKeeps_usage s sub)

/-! ## Effects (rule R15) -/

/-- A UsageError is raised before anything of `s` has changed. -/
def Eff.usageKeeps {α : Type} (e : Eff α) (s : State) : Prop := ∀ sub u, e = .raise .usageError sub u → u = s

@[simp] theorem Eff.usageKeeps_ok {α : Type} (a : α) (t s : State) : (Eff.ok a t).usageKeeps s := by
  intro sub u h
  cases h

@[simp] theorem Eff.usageKeeps_raise {α : Type} (c : FailCode) (sub : SubCause) (s : State) :
    (Eff.raise c sub s : Eff α).usageKeeps s := by
  intro b u h
  cases h
  rfl

/-- A command whose effect raises its UsageErrors first, and that answers OK where the effect goes on. -/
theorem Eff.usageKeeps.answers {α : Type} {e : Eff α} {s : State} (h : e.usageKeeps s) {r : α → State → State}
    (hr : ∀ a u, UsageKeeps s (r a u)) : Answers (UsageKeeps s) (e.outcome r) := by
  cases e with
  | ok a u => exact answers_next (hr a u)
  | stuck f => intro t ht; cases ht
  | raise c b u =>
    intro t ht sub hsub
    cases ht
    cases c with
    | usageError =>
      cases h b u rfl
      exact usageKeeps_usage s b sub hsub
    | capacityExceeded => cases hsub
    | corruptStream => cases hsub
    | domainError => cases hsub

/-- A codec encoder's engine raises no UsageError (rules R164 to R190, R227). -/
theorem EncSound.usageKeeps {α : Type} {Q : α → State → Prop} {e : Eff α} (h : EncSound Q e) (s : State) :
    e.usageKeeps s := by
  rintro sub u rfl
  obtain ⟨-, -, hcode⟩ := h
  simp at hcode

/-! ## The unit operations (rules R131 to R145) -/

theorem bswWrite_usageKeeps (c : Raw) (n : Nat) (s : State) : (bswWrite c n s).usageKeeps s := by
  rw [bswWrite_eq]
  split_ifs <;> simp

theorem bswWriteLong_usageKeeps (c : Raw) (n : Nat) (s : State) : (bswWriteLong c n s).usageKeeps s := by
  rw [bswWriteLong_eq]
  split_ifs <;> simp

theorem bswFlush_usageKeeps (s : State) : (bswFlush s).usageKeeps s := by
  unfold bswFlush
  split <;> simp

theorem bswGetBuffer_usageKeeps (n : Nat) (s : State) : (bswGetBuffer n s).usageKeeps s := by
  unfold bswGetBuffer
  split_ifs <;> simp

theorem bsrLoad_usageKeeps (bs : List Byte) (s : State) : (bsrLoad bs s).usageKeeps s := by
  unfold bsrLoad
  split_ifs <;> simp

theorem bsrPeek_usageKeeps (n : Nat) (s : State) : (bsrPeek n s).usageKeeps s := by
  unfold bsrPeek
  split <;> simp

theorem bsrForward_usageKeeps (n : Nat) (s : State) : (bsrForward n s).usageKeeps s := by
  unfold bsrForward
  split <;> simp

theorem bsrReadInt_usageKeeps (n : Nat) (s : State) : (bsrReadInt n s).usageKeeps s := by
  rw [bsrReadInt_eq]
  split <;> simp

theorem bsrReadLong_usageKeeps (n : Nat) (s : State) : (bsrReadLong n s).usageKeeps s := by
  rw [bsrReadLong_eq]
  split <;> simp

/-- A command that the phase table guards, and that answers OK where its effect goes on. -/
theorem answers_guarded_outcome {α : Type} {adm : Option SubCause} {s : State} {e : State → Eff α}
    (h : (e s).usageKeeps s) (result : α → Result) :
    Answers (UsageKeeps s) (guarded adm s fun s => (e s).outcome fun a u => u.answer (result a)) :=
  .guarded fun _ => h.answers fun _ _ => usageKeeps_answer _ _ _

/-! ## CONSTRUCT and the encoder commands (rules R261 to R266, R270) -/

theorem answers_constructEnc (g : EncConfig) (s : State) : Answers (UsageKeeps s) (execConstructEnc g s) := by
  unfold execConstructEnc
  cases codecOf g.codec.toNat with
  | none => exact answers_next (usageKeeps_usage _ _)
  | some codec =>
    dsimp only
    split
    case isTrue => exact answers_next (usageKeeps_answer _ _ _)
    case isFalse => exact answers_next (usageKeeps_usage _ _)

theorem answers_constructDec (g : DecConfig) (s : State) : Answers (UsageKeeps s) (execConstructDec g s) := by
  unfold execConstructDec
  cases codecOf g.codec.toNat with
  | none => exact answers_next (usageKeeps_usage _ _)
  | some codec =>
    dsimp only
    split_ifs
    case pos => exact answers_next (usageKeeps_answer _ _ _)
    case neg => exact answers_next (usageKeeps_answer _ _ _)
    case neg => exact answers_next (usageKeeps_usage _ _)

theorem answers_addValue {s : State} (hinv : Inv s) (v : BitVec 64) : Answers (UsageKeeps s) (execAddValue v s) := by
  refine .guarded fun hadmit => ?_
  obtain ⟨hfault, hcodec, hdir, hclosed⟩ := admitEncoder_eq_none.mp hadmit
  have hfits : (lowBits s.n v).toNat < 2 ^ s.n := by
    rw [lowBits_toNat]
    exact Nat.mod_lt _ (by positivity)
  have hsound := encodeValue_done hinv hdir (hinv.opened hdir hfault hclosed) hcodec _ hfits
  exact (hsound.usageKeeps s).answers fun _ _ => usageKeeps_answer _ _ _

/-- CLOSE flushes behind the sentinel without a SecondFlush, as an encoder that takes values is not flushed yet (rule R264). -/
theorem answers_close {s : State} (hinv : Inv s) : Answers (UsageKeeps s) (execClose s) := by
  refine .guarded fun hadmit => ?_
  obtain ⟨hfault, hcodec, hdir, hclosed⟩ := admitEncoder_eq_none.mp hadmit
  have hflush : ∀ (_ : Unit) t, encDone t → EncSound (fun _ _ => True) (bswFlush t) := by
    rintro - t ⟨hcore, -⟩
    rw [bswFlush, if_neg (by simp [hcore.flushed])]
    trivial
  have hsound := (encodeSentinel_done hinv hdir (hinv.opened hdir hfault hclosed) hcodec).bind hflush
  exact (hsound.usageKeeps s).answers fun _ _ => usageKeeps_answer _ _ _

end Machine
end Sys2Proof
end

section
/-! PROOFS. Every bit string begins a wire code of the decoder's own unit and place (rules R100 to R106). -/

namespace Sys2Proof
namespace Machine

/-! ## Fields (rule R91) -/

/-- A decoder's reading exists, and `P` holds of its wire code. -/
def Begins (P : Instr → Prop) (o : Option (Instr × List Bool)) : Prop := ∃ q, o = some q ∧ P q.1

theorem begins_some {P : Instr → Prop} {i : Instr} (h : P i) (r : List Bool) : Begins P (some (i, r)) := ⟨(i, r), rfl, h⟩

/-- A field that the string is long enough for is read, and leaves the bits behind it. -/
theorem takeBits_of_le {n : Nat} {bs : List Bool} (h : n ≤ bs.length) :
    ∃ v r, takeBits n bs = some (v, r) ∧ r.length = bs.length - n :=
  ⟨_, _, if_pos h, List.length_drop⟩

theorem takeBits_ne_none {n : Nat} {bs : List Bool} (h : n ≤ bs.length) : takeBits n bs ≠ none := by simp [takeBits, h]

theorem begins_field {P : Instr → Prop} {n : Nat} {bs : List Bool} (hlen : n ≤ bs.length)
    {k : Nat × List Bool → Option (Instr × List Bool)} (h : ∀ q, q.2.length = bs.length - n → Begins P (k q)) :
    Begins P ((takeBits n bs).bind k) := by
  obtain ⟨v, r, htake, hr⟩ := takeBits_of_le hlen
  rw [htake]
  exact h (v, r) hr

theorem begins_lastField {P : Instr → Prop} {n : Nat} {bs : List Bool} (hlen : n ≤ bs.length)
    {f : Nat × List Bool → Instr} (h : ∀ q, P (f q)) : Begins P ((takeBits n bs).map fun q => (f q, q.2)) := by
  obtain ⟨v, r, htake, -⟩ := takeBits_of_le hlen
  rw [htake]
  exact begins_some (h (v, r)) r

/-! ## Payload widths (rules R100, R105) -/

theorem gorReuseWidth_le (c : WireCtx) : gorReuseWidth c ≤ 64 := by
  unfold gorReuseWidth
  split <;> omega

theorem gorNewWidth_le (lead cnt : Nat) : gorNewWidth lead cnt ≤ 64 := by
  unfold gorNewWidth
  split <;> omega

theorem farWidth_le (c : WireCtx) (n slot b cnt : Nat) : farWidth c n slot b cnt ≤ n := by
  unfold farWidth
  split_ifs <;> omega

theorem reuseWidth_le (c : WireCtx) (n : Nat) : reuseWidth c n ≤ n := by
  unfold reuseWidth
  split <;> omega

theorem newWidth_le (c : WireCtx) (n b : Nat) : newWidth c n b ≤ n := Nat.sub_le _ _

/-! ## The decoders, code by code -/

section
variable {P : Instr → Prop} {c : WireCtx} {bs : List Bool}

theorem begins_lit64 {mk : BitVec 64 → Instr} (hlen : 64 ≤ bs.length) (h : ∀ v, P (mk v)) : Begins P (decodeLit64 mk bs) :=
  begins_lastField hlen fun _ => h _

theorem begins_lit32 {mk : BitVec 32 → Instr} (hlen : 32 ≤ bs.length) (h : ∀ v, P (mk v)) : Begins P (decodeLit32 mk bs) :=
  begins_lastField hlen fun _ => h _

theorem begins_gor (hlen : 77 ≤ bs.length) (hsame : P .gorSame) (hreuse : ∀ p, P (.gorReuse p))
    (hnew : ∀ l n p, P (.gorNew l n p)) : Begins P (decodeGor c bs) := by
  unfold decodeGor
  split
  case h_1 hnone => exact absurd hnone (takeBits_ne_none (by omega))
  case h_2 r hbit => exact begins_some hsame r
  case h_3 v r hv hbit =>
    have hr := takeBits_shorter hbit
    split
    case h_1 hnone => exact absurd hnone (takeBits_ne_none (by omega))
    case h_2 r' hbit' =>
      have hr' := takeBits_shorter hbit'
      have := gorReuseWidth_le c
      exact begins_lastField (by omega) fun _ => hreuse _
    case h_3 w r' hw hbit' =>
      have hr' := takeBits_shorter hbit'
      refine begins_field (by omega) fun l hl => begins_field (by omega) fun n hn => ?_
      have := gorNewWidth_le l.1 n.1
      exact begins_lastField (by omega) fun _ => hnew _ _ _

/-- FAR behind its slot, with a count of `m` bits (rules R102, R104). -/
theorem begins_far {n m slot : Nat} (hlen : 3 + m + n ≤ bs.length)
    {f : Nat × List Bool → Nat × List Bool → Nat × List Bool → Instr}
    (h : ∀ b k q, P (f b k q)) :
    Begins P ((takeBits 3 bs).bind fun b => (takeBits m b.2).bind fun k =>
      (takeBits (farWidth c n slot b.1 k.1) k.2).map fun q => (f b k q, q.2)) := by
  refine begins_field (by omega) fun b hb => begins_field (by omega) fun k hk => ?_
  have := farWidth_le c n slot b.1 k.1
  exact begins_lastField (by omega) (h b k)

theorem begins_reuse {n : Nat} (hlen : n ≤ bs.length) {f : Nat × List Bool → Instr} (h : ∀ q, P (f q)) :
    Begins P ((takeBits (reuseWidth c n) bs).map fun q => (f q, q.2)) :=
  begins_lastField ((reuseWidth_le c n).trans hlen) h

theorem begins_new {n : Nat} (hlen : 3 + n ≤ bs.length) {f : Nat × List Bool → Nat × List Bool → Instr}
    (h : ∀ b q, P (f b q)) :
    Begins P ((takeBits 3 bs).bind fun b => (takeBits (newWidth c n b.1) b.2).map fun q => (f b q, q.2)) := by
  refine begins_field (by omega) fun b hb => ?_
  have := newWidth_le c n b.1
  exact begins_lastField (by omega) (h b)

theorem begins_chp64 (hlen : c.logw + 75 ≤ bs.length) (hrepeat : ∀ k, P (.chp64Repeat k))
    (hfar : ∀ k b n p, P (.chp64Far k b n p)) (hreuse : ∀ p, P (.chp64Reuse p)) (hnew : ∀ b p, P (.chp64New b p)) :
    Begins P (decodeChp64 c bs) := by
  obtain ⟨v, r, hv, hr⟩ := takeBits_of_le (n := 2) (bs := bs) (by omega)
  rw [decodeChp64, hv]
  match v with
  | 0 => exact begins_lastField (by omega) fun _ => hrepeat _
  | 1 => exact begins_field (by omega) fun k hk => begins_far (by omega) fun _ _ _ => hfar _ _ _ _
  | 2 => exact begins_reuse (by omega) fun _ => hreuse _
  | v + 3 => exact begins_new (by omega) fun _ _ => hnew _ _

theorem begins_chp32 (hlen : c.logw + 42 ≤ bs.length) (hrepeat : ∀ k, P (.chp32Repeat k))
    (hfar : ∀ k b n p, P (.chp32Far k b n p)) (hreuse : ∀ p, P (.chp32Reuse p)) (hnew : ∀ b p, P (.chp32New b p)) :
    Begins P (decodeChp32 c bs) := by
  obtain ⟨v, r, hv, hr⟩ := takeBits_of_le (n := 2) (bs := bs) (by omega)
  rw [decodeChp32, hv]
  match v with
  | 0 => exact begins_lastField (by omega) fun _ => hrepeat _
  | 1 => exact begins_field (by omega) fun k hk => begins_far (by omega) fun _ _ _ => hfar _ _ _ _
  | 2 => exact begins_reuse (by omega) fun _ => hreuse _
  | v + 3 => exact begins_new (by omega) fun _ _ => hnew _ _

theorem begins_erase64 (hlen : 6 ≤ bs.length) (hsame : P .elf64EraseSame) (hraw : P .elf64Raw)
    (hnew : ∀ b, P (.elf64EraseNew b)) : Begins P (decodeErase64 bs) := by
  unfold decodeErase64
  split
  case h_1 hnone => exact absurd hnone (takeBits_ne_none (by omega))
  case h_2 r hbit => exact begins_some hsame r
  case h_3 v r hv hbit =>
    have hr := takeBits_shorter hbit
    split
    case h_1 hnone => exact absurd hnone (takeBits_ne_none (by omega))
    case h_2 r' hbit' => exact begins_some hraw r'
    case h_3 w r' hw hbit' =>
      have hr' := takeBits_shorter hbit'
      exact begins_lastField (by omega) fun _ => hnew _

theorem begins_erase32 (hlen : 5 ≤ bs.length) (hsame : P .elf32EraseSame) (hraw : P .elf32Raw)
    (hnew : ∀ b, P (.elf32EraseNew b)) : Begins P (decodeErase32 bs) := by
  unfold decodeErase32
  split
  case h_1 hnone => exact absurd hnone (takeBits_ne_none (by omega))
  case h_2 r hbit => exact begins_some hsame r
  case h_3 v r hv hbit =>
    have hr := takeBits_shorter hbit
    split
    case h_1 hnone => exact absurd hnone (takeBits_ne_none (by omega))
    case h_2 r' hbit' => exact begins_some hraw r'
    case h_3 w r' hw hbit' =>
      have hr' := takeBits_shorter hbit'
      exact begins_lastField (by omega) fun _ => hnew _

theorem begins_x64 (hlen : 75 ≤ bs.length) (hrepeat : P .elf64XRepeat) (hfar : ∀ b n p, P (.elf64XFar b n p))
    (hreuse : ∀ p, P (.elf64XReuse p)) (hnew : ∀ b p, P (.elf64XNew b p)) : Begins P (decodeX64 c bs) := by
  obtain ⟨v, r, hv, hr⟩ := takeBits_of_le (n := 2) (bs := bs) (by omega)
  rw [decodeX64, hv]
  match v with
  | 0 => exact begins_some hrepeat r
  | 1 => exact begins_far (by omega) fun _ _ _ => hfar _ _ _
  | 2 => exact begins_reuse (by omega) fun _ => hreuse _
  | v + 3 => exact begins_new (by omega) fun _ _ => hnew _ _

theorem begins_x32 (hlen : 42 ≤ bs.length) (hrepeat : P .elf32XRepeat) (hfar : ∀ b n p, P (.elf32XFar b n p))
    (hreuse : ∀ p, P (.elf32XReuse p)) (hnew : ∀ b p, P (.elf32XNew b p)) : Begins P (decodeX32 c bs) := by
  obtain ⟨v, r, hv, hr⟩ := takeBits_of_le (n := 2) (bs := bs) (by omega)
  rw [decodeX32, hv]
  match v with
  | 0 => exact begins_some hrepeat r
  | 1 => exact begins_far (by omega) fun _ _ _ => hfar _ _ _
  | 2 => exact begins_reuse (by omega) fun _ => hreuse _
  | v + 3 => exact begins_new (by omega) fun _ _ => hnew _ _

end

end Machine
end Sys2Proof
end

section
/-! PROOFS. What a codec decoder answers to a record (rules R171 to R174, R192 to R197, R231, R271): never a UsageError. -/

namespace Sys2Proof
namespace Machine

/-! ## The end of a record (rules R271, R277) -/

/-- A decoder of `codec` with values to come, between two records. -/
def State.between (s : State) (codec : Codec) : Prop := s.decoding codec ∧ s.pend = none

/-- What the end of a record leaves: a value delivered and more to come, the end of the block, or a CorruptStream. -/
def State.endsRecord (t : State) (codec : Codec) : Prop :=
  t.pend = none ∧ ((t.decoding codec ∧ ∃ v, t.resp = some (.ok (.value v))) ∨ t.resp = some (.ok .endOfBlock) ∨
    ∃ sub, t.resp = some (.fail .corruptStream sub))

theorem endsRecord_failEntry (s : State) (sub : SubCause) (codec : Codec) :
    (s.failEntry .corruptStream sub).endsRecord codec := ⟨rfl, .inr (.inr ⟨sub, rfl⟩)⟩

section
variable {s : State} {codec : Codec}

theorem finishRecord_endsRecord (h : s.between codec) (r : Option Raw) : (finishRecord r s).endsRecord codec := by
  unfold finishRecord
  split
  case isTrue => exact endsRecord_failEntry _ _ _
  case isFalse =>
    cases r with
    | none => exact ⟨h.2, .inr (.inl rfl)⟩
    | some v => exact ⟨h.2, .inl ⟨h.1, v, rfl⟩⟩

theorem finishElf_endsRecord (h : s.between codec) (v : Raw) : (finishElf v s).endsRecord codec := by
  unfold finishElf
  split
  case isTrue => exact endsRecord_failEntry _ _ _
  case isFalse => exact ⟨h.2, .inl ⟨h.1, v, rfl⟩⟩

theorem gorCommit_endsRecord (h : s.between codec) (v : Raw) : (gorCommit v s).endsRecord codec := by
  unfold gorCommit
  split
  case isTrue => exact finishRecord_endsRecord h none
  case isFalse => exact finishRecord_endsRecord (s := { s with prev := some v }) h (some v)

theorem gorXor_endsRecord (h : s.between codec) (x : Raw) : Answers (·.endsRecord codec) (gorXor x s) := by
  unfold gorXor
  split
  case h_1 => exact fun t ht => by cases ht
  case h_2 p _ => exact answers_next (gorCommit_endsRecord h (p ^^^ x))

theorem chpLit_endsRecord (h : s.between codec) (v : Raw) : (chpLit v s).endsRecord codec := by
  unfold chpLit
  split
  case isTrue => exact finishRecord_endsRecord (s := { s with first := false }) h none
  case isFalse => exact finishRecord_endsRecord (s := commitFirst v { s with first := false }) h (some v)

theorem chpLater_endsRecord (h : s.between codec) (v : Raw) : (chpLater v s).endsRecord codec := by
  unfold chpLater
  split
  case isTrue => exact finishRecord_endsRecord h none
  case isFalse => exact finishRecord_endsRecord (s := commitLater v s) h (some v)

theorem elfDeliver_endsRecord (h : s.between codec) (e : Option Bool) (v : Raw) : (elfDeliver e v s).endsRecord codec := by
  unfold elfDeliver
  split
  case isTrue =>
    split
    case h_1 => exact endsRecord_failEntry _ _ _
    case h_2 r _ => exact finishElf_endsRecord h r
  case isFalse => exact finishElf_endsRecord h v

theorem elfLit_endsRecord (h : s.decoding codec) (v : Raw) : (elfLit v s).endsRecord codec :=
  elfDeliver_endsRecord (s := commitFirst v { s with first := false, pend := none }) ⟨h, rfl⟩ _ v

theorem elfLater_endsRecord (h : s.decoding codec) (v : Raw) : (elfLater v s).endsRecord codec :=
  elfDeliver_endsRecord (s := commitLater v { s with pend := none }) ⟨h, rfl⟩ _ v

end

/-! ## Record steps of CHP and of the ELF XOR stage (rules R193 to R196) -/

/-- A record step changes CLEAD alone, or raises a CorruptStream. -/
def setsClead (s : State) (e : Eff Raw) : Prop :=
  match e with
  | .ok _ t => ∃ l, t = { s with clead := l }
  | .raise c _ _ => c = .corruptStream
  | .stuck _ => True

theorem stepXor_setsClead (x : Raw) (s : State) : setsClead s (stepXor x s) := by
  unfold stepXor
  split
  case h_1 => trivial
  case h_2 => exact ⟨s.clead, rfl⟩

theorem stepRepeat_setsClead (k : Nat) (s : State) : setsClead s (stepRepeat k s) := by
  unfold stepRepeat
  split
  case h_1 => exact rfl
  case h_2 => exact ⟨none, rfl⟩

theorem stepFar_setsClead (n k b c : Nat) (p : Raw) (s : State) : setsClead s (stepFar n k b c p s) := by
  unfold stepFar
  split
  case isTrue => exact rfl
  case isFalse =>
    split
    case h_1 => exact rfl
    case h_2 => exact ⟨none, rfl⟩

theorem stepReuse_setsClead (p : Raw) (s : State) : setsClead s (stepReuse p s) := by
  unfold stepReuse
  split
  case h_1 => exact rfl
  case h_2 => exact stepXor_setsClead p s

theorem stepNew_setsClead (b : Nat) (p : Raw) (s : State) : setsClead s (stepNew b p s) := by
  unfold stepNew stepXor
  split
  case h_1 => trivial
  case h_2 => exact ⟨_, rfl⟩

/-- A record is a step and its commit (rule R197). -/
theorem setsClead.endsRecord {s : State} {e : Eff Raw} (h : setsClead s e) {codec : Codec} {r : Raw → State → State}
    (hr : ∀ v l, (r v { s with clead := l }).endsRecord codec) : Answers (·.endsRecord codec) (e.outcome r) := by
  cases e with
  | ok v t =>
    obtain ⟨l, rfl⟩ := h
    exact answers_next (hr v l)
  | raise c sub t =>
    cases (show c = .corruptStream from h)
    exact answers_next (endsRecord_failEntry t sub codec)
  | stuck f => exact fun t ht => by cases ht

theorem answers_chpRecord {s : State} {codec : Codec} (h : s.between codec) (hcodec : codec ≠ .bs)
    (hplace : atLater s = true) {e : State → Eff Raw} (hstep : ∀ s, setsClead s (e s)) :
    Answers (·.endsRecord codec) (onDecoder codec atLater s fun s => (e s).outcome chpLater) := by
  rw [h.1.runs hcodec hplace]
  exact (hstep s).endsRecord fun v l => chpLater_endsRecord (s := { s with clead := l }) h v

theorem answers_elfRecord {s : State} {codec : Codec} (h : s.decoding codec) (hcodec : codec ≠ .bs)
    (hplace : atXLater s = true) {e : State → Eff Raw} (hstep : ∀ s, setsClead s (e s)) :
    Answers (·.endsRecord codec) (onDecoder codec atXLater s fun s => (e s).outcome elfLater) := by
  rw [h.runs hcodec hplace]
  exact (hstep s).endsRecord fun v l => elfLater_endsRecord (s := { s with clead := l }) h v

/-! ## One wire code (rules R100, R101 to R104) -/

/-- The wire code that begins the bits ahead is the one that is run, its bits taken. -/
theorem answers_runNextCode {s : State} {Q : State → Prop}
    (h : Begins (fun i => ∀ k, Answers Q (runWire i (s.advance k))) (decodeWire s.wireCtx (s.ahead (lookahead s)))) :
    Answers Q (runNextCode s) := by
  obtain ⟨q, hq, hrun⟩ := h
  have hfetch : fetchWire s = some (q.1, s.advance (lookahead s - q.2.length)) := by rw [fetchWire, hq, Option.map_some]
  rw [runNextCode, hfetch]
  exact hrun _

/-- The bits looked at are enough for the longest record (rule R105). -/
theorem lookahead_le (s : State) : s.wireCtx.logw + 77 ≤ (s.ahead (lookahead s)).length := by
  have hlogw : s.wireCtx.logw = s.logw := rfl
  rw [State.ahead_length, lookahead]
  omega

section
variable {s : State}

theorem decodeWire_gor (h : s.codec = .gor) (bs : List Bool) :
    decodeWire s.wireCtx bs = if s.first then decodeLit64 .gorLit bs else decodeGor s.wireCtx bs := by
  simp [decodeWire, State.wireCtx, h]

theorem decodeWire_chp64 (h : s.codec = .chp64) (bs : List Bool) :
    decodeWire s.wireCtx bs = if s.first then decodeLit64 .chp64Lit bs else decodeChp64 s.wireCtx bs := by
  simp [decodeWire, State.wireCtx, h]

theorem decodeWire_chp32 (h : s.codec = .chp32) (bs : List Bool) :
    decodeWire s.wireCtx bs = if s.first then decodeLit32 .chp32Lit bs else decodeChp32 s.wireCtx bs := by
  simp [decodeWire, State.wireCtx, h]

theorem decodeWire_elf64 (h : s.codec = .elf64) (bs : List Bool) :
    decodeWire s.wireCtx bs = if s.pend.isSome then
      if s.first then decodeLit64 .elf64XLit bs else decodeX64 s.wireCtx bs else decodeErase64 bs := by
  simp [decodeWire, State.wireCtx, h]

theorem decodeWire_elf32 (h : s.codec = .elf32) (bs : List Bool) :
    decodeWire s.wireCtx bs = if s.pend.isSome then
      if s.first then decodeLit32 .elf32XLit bs else decodeX32 s.wireCtx bs else decodeErase32 bs := by
  simp [decodeWire, State.wireCtx, h]

/-! ### GOR and CHP: one wire code is one record -/

theorem runNextCode_gor (h : s.between .gor) : Answers (·.endsRecord .gor) (runNextCode s) := by
  have hlen := lookahead_le s
  have hat : ∀ k, (s.advance k).between .gor := fun _ => h
  refine answers_runNextCode ?_
  rw [decodeWire_gor h.1.1]
  split
  case isTrue hfirst =>
    refine begins_lit64 (by omega) fun v k => ?_
    rw [runWire, execGorLit, (hat k).1.runs (by decide) (place := atFirst) hfirst]
    exact answers_next (gorCommit_endsRecord (s := { s.advance k with first := false }) h v)
  case isFalse hfirst =>
    have hplace : ∀ k, atLater (s.advance k) = true := fun _ => by simp [atLater, hfirst]
    refine begins_gor (by omega) (fun k => ?same) (fun p k => ?reuse) (fun l n p k => ?new)
    case same =>
      rw [runWire, execGorSame, (hat k).1.runs (by decide) (hplace k)]
      exact gorXor_endsRecord (hat k) 0
    case reuse =>
      rw [runWire, execGorReuse, (hat k).1.runs (by decide) (hplace k)]
      split
      case h_1 => exact answers_next (endsRecord_failEntry _ _ _)
      case h_2 => exact gorXor_endsRecord (hat k) _
    case new =>
      rw [runWire, execGorNew, (hat k).1.runs (by decide) (hplace k)]
      split
      case isTrue => exact answers_next (endsRecord_failEntry _ _ _)
      case isFalse =>
        exact gorXor_endsRecord
          (s := { s.advance k with clead := some l.toNat, ctrail := 64 - l.toNat - sigOf 64 n.toNat }) h _

theorem runNextCode_chp64 (h : s.between .chp64) : Answers (·.endsRecord .chp64) (runNextCode s) := by
  have hlen := lookahead_le s
  have hat : ∀ k, (s.advance k).between .chp64 := fun _ => h
  refine answers_runNextCode ?_
  rw [decodeWire_chp64 h.1.1]
  split
  case isTrue hfirst =>
    refine begins_lit64 (by omega) fun v k => ?_
    rw [runWire, execChp64Lit, (hat k).1.runs (by decide) (place := atFirst) hfirst]
    exact answers_next (chpLit_endsRecord (hat k) _)
  case isFalse hfirst =>
    have hplace : ∀ k, atLater (s.advance k) = true := fun _ => by simp [atLater, hfirst]
    exact begins_chp64 (by omega)
      (fun slot k => answers_chpRecord (hat k) (by decide) (hplace k) (stepRepeat_setsClead slot.toNat))
      (fun slot b n p k => answers_chpRecord (hat k) (by decide) (hplace k) (stepFar_setsClead 64 slot.toNat b.toNat n.toNat p))
      (fun p k => answers_chpRecord (hat k) (by decide) (hplace k) (stepReuse_setsClead p))
      (fun b p k => answers_chpRecord (hat k) (by decide) (hplace k) (stepNew_setsClead b.toNat p))

theorem runNextCode_chp32 (h : s.between .chp32) : Answers (·.endsRecord .chp32) (runNextCode s) := by
  have hlen := lookahead_le s
  have hat : ∀ k, (s.advance k).between .chp32 := fun _ => h
  refine answers_runNextCode ?_
  rw [decodeWire_chp32 h.1.1]
  split
  case isTrue hfirst =>
    refine begins_lit32 (by omega) fun v k => ?_
    rw [runWire, execChp32Lit, (hat k).1.runs (by decide) (place := atFirst) hfirst]
    exact answers_next (chpLit_endsRecord (hat k) _)
  case isFalse hfirst =>
    have hplace : ∀ k, atLater (s.advance k) = true := fun _ => by simp [atLater, hfirst]
    exact begins_chp32 (by omega)
      (fun slot k => answers_chpRecord (hat k) (by decide) (hplace k) (stepRepeat_setsClead slot.toNat))
      (fun slot b n p k => answers_chpRecord (hat k) (by decide) (hplace k) (stepFar_setsClead 32 slot.toNat b.toNat n.toNat (p.setWidth 64)))
      (fun p k => answers_chpRecord (hat k) (by decide) (hplace k) (stepReuse_setsClead (p.setWidth 64)))
      (fun b p k => answers_chpRecord (hat k) (by decide) (hplace k) (stepNew_setsClead b.toNat (p.setWidth 64)))

/-! ### ELF: an erasure code, then an XOR-stage record -/

theorem runNextCode_xor64 (h : s.decoding .elf64) (hpend : s.pend.isSome = true) :
    Answers (·.endsRecord .elf64) (runNextCode s) := by
  have hlen := lookahead_le s
  have hat : ∀ k, (s.advance k).decoding .elf64 := fun _ => h
  refine answers_runNextCode ?_
  rw [decodeWire_elf64 h.1, if_pos hpend]
  split
  case isTrue hfirst =>
    have hplace : ∀ k, atXFirst (s.advance k) = true := fun _ => by simp [atXFirst, hpend, hfirst]
    refine begins_lit64 (by omega) fun v k => ?_
    rw [runWire, execElf64XLit, (hat k).runs (by decide) (hplace k)]
    exact answers_next (elfLit_endsRecord (hat k) _)
  case isFalse hfirst =>
    have hplace : ∀ k, atXLater (s.advance k) = true := fun _ => by simp [atXLater, hpend, hfirst]
    exact begins_x64 (by omega)
      (fun k => answers_elfRecord (hat k) (by decide) (hplace k) (stepRepeat_setsClead 0))
      (fun b n p k => answers_elfRecord (hat k) (by decide) (hplace k) (stepFar_setsClead 64 0 b.toNat n.toNat p))
      (fun p k => answers_elfRecord (hat k) (by decide) (hplace k) (stepReuse_setsClead p))
      (fun b p k => answers_elfRecord (hat k) (by decide) (hplace k) (stepNew_setsClead b.toNat p))

theorem runNextCode_xor32 (h : s.decoding .elf32) (hpend : s.pend.isSome = true) :
    Answers (·.endsRecord .elf32) (runNextCode s) := by
  have hlen := lookahead_le s
  have hat : ∀ k, (s.advance k).decoding .elf32 := fun _ => h
  refine answers_runNextCode ?_
  rw [decodeWire_elf32 h.1, if_pos hpend]
  split
  case isTrue hfirst =>
    have hplace : ∀ k, atXFirst (s.advance k) = true := fun _ => by simp [atXFirst, hpend, hfirst]
    refine begins_lit32 (by omega) fun v k => ?_
    rw [runWire, execElf32XLit, (hat k).runs (by decide) (hplace k)]
    exact answers_next (elfLit_endsRecord (hat k) _)
  case isFalse hfirst =>
    have hplace : ∀ k, atXLater (s.advance k) = true := fun _ => by simp [atXLater, hpend, hfirst]
    exact begins_x32 (by omega)
      (fun k => answers_elfRecord (hat k) (by decide) (hplace k) (stepRepeat_setsClead 0))
      (fun b n p k => answers_elfRecord (hat k) (by decide) (hplace k) (stepFar_setsClead 32 0 b.toNat n.toNat (p.setWidth 64)))
      (fun p k => answers_elfRecord (hat k) (by decide) (hplace k) (stepReuse_setsClead (p.setWidth 64)))
      (fun b p k => answers_elfRecord (hat k) (by decide) (hplace k) (stepNew_setsClead b.toNat (p.setWidth 64)))

end

/-- What the first wire code of a record leaves: the end of the record, or an ELF decoder inside it. -/
def State.leavesCode (t : State) (codec : Codec) : Prop :=
  t.endsRecord codec ∨ (t.decoding codec ∧ isElf codec = true ∧ t.pend.isSome = true)

theorem elfEraseSame_leavesCode {s : State} {codec : Codec} (h : s.decoding codec) (helf : isElf codec = true) :
    (elfEraseSame s).leavesCode codec := by
  unfold elfEraseSame
  split
  case h_1 => exact .inl (endsRecord_failEntry _ _ _)
  case h_2 => exact .inr ⟨h, helf, rfl⟩

section
variable {s : State}

theorem runNextCode_erase64 (h : s.between .elf64) : Answers (·.leavesCode .elf64) (runNextCode s) := by
  have hlen := lookahead_le s
  have hat : ∀ k, (s.advance k).decoding .elf64 := fun _ => h.1
  have hplace : ∀ k, atErasure (s.advance k) = true := fun _ => by simp [atErasure, h.2]
  refine answers_runNextCode ?_
  rw [decodeWire_elf64 h.1.1, if_neg (by simp [h.2])]
  refine begins_erase64 (by omega) (fun k => ?same) (fun k => ?raw) (fun b k => ?new)
  case same =>
    rw [runWire, execElf64EraseSame, (hat k).runs (by decide) (hplace k)]
    exact answers_next (elfEraseSame_leavesCode (hat k) rfl)
  case raw =>
    rw [runWire, execElf64Raw, (hat k).runs (by decide) (hplace k)]
    exact answers_next (.inr ⟨hat k, rfl, rfl⟩)
  case new =>
    rw [runWire, execElf64EraseNew, (hat k).runs (by decide) (hplace k)]
    exact answers_next (.inr ⟨hat k, rfl, rfl⟩)

theorem runNextCode_erase32 (h : s.between .elf32) : Answers (·.leavesCode .elf32) (runNextCode s) := by
  have hlen := lookahead_le s
  have hat : ∀ k, (s.advance k).decoding .elf32 := fun _ => h.1
  have hplace : ∀ k, atErasure (s.advance k) = true := fun _ => by simp [atErasure, h.2]
  refine answers_runNextCode ?_
  rw [decodeWire_elf32 h.1.1, if_neg (by simp [h.2])]
  refine begins_erase32 (by omega) (fun k => ?same) (fun k => ?raw) (fun b k => ?new)
  case same =>
    rw [runWire, execElf32EraseSame, (hat k).runs (by decide) (hplace k)]
    exact answers_next (elfEraseSame_leavesCode (hat k) rfl)
  case raw =>
    rw [runWire, execElf32Raw, (hat k).runs (by decide) (hplace k)]
    exact answers_next (.inr ⟨hat k, rfl, rfl⟩)
  case new =>
    rw [runWire, execElf32EraseNew, (hat k).runs (by decide) (hplace k)]
    exact answers_next (.inr ⟨hat k, rfl, rfl⟩)

end

/-! ## NEXT and DECOMPRESS (rules R271, R272) -/

theorem runNextCode_leavesCode {s : State} {codec : Codec} (h : s.between codec) (hcodec : codec ≠ .bs) :
    Answers (·.leavesCode codec) (runNextCode s) := by
  cases codec with
  | gor => exact (runNextCode_gor h).mono fun _ => .inl
  | chp64 => exact (runNextCode_chp64 h).mono fun _ => .inl
  | chp32 => exact (runNextCode_chp32 h).mono fun _ => .inl
  | elf64 => exact runNextCode_erase64 h
  | elf32 => exact runNextCode_erase32 h
  | bs => exact absurd rfl hcodec

/-- Inside an ELF record the next wire code ends it (rule R231). -/
theorem runNextCode_endsRecord {s : State} {codec : Codec} (h : s.decoding codec) (helf : isElf codec = true)
    (hpend : s.pend.isSome = true) : Answers (·.endsRecord codec) (runNextCode s) := by
  cases codec with
  | elf64 => exact runNextCode_xor64 h hpend
  | elf32 => exact runNextCode_xor32 h hpend
  | _ => cases helf

theorem runRecord_endsRecord {s : State} {codec : Codec} (h : s.between codec) (hcodec : codec ≠ .bs) :
    Answers (·.endsRecord codec) (runRecord s) := by
  intro u hu
  unfold runRecord at hu
  split at hu
  case h_1 t ht =>
    rcases runNextCode_leavesCode h hcodec t ht with hends | ⟨hdec, helf, hpend⟩
    · rw [hends.1] at hu
      cases hu
      exact hends
    · rw [if_pos hpend] at hu
      exact runNextCode_endsRecord hdec helf hpend u hu
  case h_2 => cases hu
  case h_3 => cases hu

/-- The tests before a record answer END or PastEnd (rules R232, R271). -/
theorem beforeRecord_endsRecord {s t : State} (hpend : s.pend = none) (h : beforeRecord s = some t) (codec : Codec) :
    t.endsRecord codec := by
  unfold beforeRecord at h
  split_ifs at h
  case pos => cases h; exact ⟨hpend, .inr (.inl rfl)⟩
  case pos => cases h; exact ⟨hpend, .inr (.inl rfl)⟩
  case pos => cases h; exact endsRecord_failEntry _ _ _

theorem beforeRecord_ne_none_of_done {s : State} (h : s.phase = .done) : beforeRecord s ≠ none := by simp [beforeRecord, h]

/-- Only an ELF decoder with values to come stands inside a record (rules R90, R231). -/
theorem Inv.elf_of_pend {s : State} (h : Inv s) (hpend : s.pend ≠ none) (hcodec : s.codec ≠ .bs) :
    s.decoding s.codec ∧ isElf s.codec = true := by
  obtain ⟨-, -, -, -, -, -, hdecoder, -, hpending⟩ := h
  obtain ⟨hdir, hphase⟩ := hpending hpend
  obtain ⟨-, -, -, helf, -⟩ := hdecoder hdir hphase hcodec
  exact ⟨⟨rfl, hdir, hphase⟩, helf hpend⟩

theorem nextValue_endsRecord {s : State} (hinv : Inv s) (hadmit : admitDecoder s = none) :
    Answers (·.endsRecord s.codec) (nextValue s) := by
  obtain ⟨hfault, hcodec, hdir⟩ := admitDecoder_eq_none.mp hadmit
  rw [nextValue, hadmit, guarded_none]
  split
  case isTrue hpend =>
    obtain ⟨hdec, helf⟩ := hinv.elf_of_pend (Option.isSome_iff_ne_none.mp hpend) hcodec
    exact runNextCode_endsRecord hdec helf hpend
  case isFalse hpend =>
    have hnone : s.pend = none := by simpa using hpend
    split
    case h_1 t hbefore => exact answers_next (beforeRecord_endsRecord hnone hbefore s.codec)
    case h_2 hbefore =>
      have hready := hinv.ready hdir hfault fun hdone => beforeRecord_ne_none_of_done hdone hbefore
      exact runRecord_endsRecord ⟨⟨rfl, hdir, hready⟩, hnone⟩ hcodec

/-- The answer `t` is no UsageError. -/
def NoUsage (t : State) : Prop := ∀ sub, t.resp ≠ some (.fail .usageError sub)

theorem NoUsage.usageKeeps {t : State} (h : NoUsage t) (s : State) : UsageKeeps s t := fun sub hsub => absurd hsub (h sub)

theorem State.endsRecord.noUsage {t : State} {codec : Codec} (h : t.endsRecord codec) : NoUsage t := by
  obtain ⟨-, ⟨-, v, hresp⟩ | hresp | ⟨b, hresp⟩⟩ := h <;> simp [NoUsage, hresp]

theorem answers_execNext {s : State} (hinv : Inv s) : Answers (UsageKeeps s) (execNext s) := by
  unfold execNext
  cases hadmit : admitDecoder s with
  | some sub =>
    rw [nextValue, hadmit]
    exact answers_next (usageKeeps_usage s sub)
  | none => exact (nextValue_endsRecord hinv hadmit).mono fun _ h => h.noUsage.usageKeeps s

/-- A machine that admits NEXT admits it again after each value, so the loop meets no UsageError (rule R272). -/
theorem decompressLoop_noUsage (fuel : Nat) (acc : List Raw) {s : State} (hinv : Inv s) (hadmit : admitDecoder s = none) :
    Answers NoUsage (decompressLoop fuel acc s) := by
  induction fuel generalizing acc s with
  | zero => exact fun t ht => by cases ht
  | succ f ih =>
    obtain ⟨-, hcodec, -⟩ := admitDecoder_eq_none.mp hadmit
    obtain ⟨t, ht, hinvt⟩ := nextValue_inv hinv
    have hends := nextValue_endsRecord hinv hadmit t ht
    have hquiet := hends.noUsage
    rw [decompressLoop, ht]
    obtain ⟨-, ⟨⟨hc, hdir, hphase⟩, v, hresp⟩ | hresp | ⟨sub, hresp⟩⟩ := hends
    · have hagain : admitDecoder t = none := admitDecoder_eq_none.mpr ⟨by simp [hphase], hc ▸ hcodec, hdir⟩
      simpa only [hresp] using ih (acc ++ [v]) hinvt hagain
    · simp only [hresp]
      exact answers_next fun sub h => by cases h
    · simp only [hresp]
      exact answers_next hquiet

theorem answers_decompress {s : State} (hinv : Inv s) : Answers (UsageKeeps s) (execDecompress s) := by
  unfold execDecompress
  cases hadmit : admitDecoder s with
  | some sub =>
    have hnext : nextValue s = .next (s.usage sub) := by rw [nextValue, hadmit, guarded_some]
    rw [decompressLoop, hnext]
    exact answers_next (usageKeeps_usage s sub)
  | none => exact (decompressLoop_noUsage _ _ hinv hadmit).mono fun _ h => h.usageKeeps s

/-! ## The statement -/

/-- Settles O48: the phase table and the unit operations refuse before anything has changed, and behind the phase table
no engine of a codec raises a UsageError. -/
theorem usageErrorsChangeNothing : Obligations.UsageErrorsChangeNothing := by
  intro i s t sub hinv hcommand ht hresp
  suffices h : Answers (UsageKeeps s) (exec i s) from h t ht sub hresp
  cases i with
  | constructEnc g => exact answers_constructEnc g s
  | constructDec g => exact answers_constructDec g s
  | addValue v => exact answers_addValue hinv v
  | close => exact answers_close hinv
  | getBytes => exact answers_guarded_outcome (bswGetBuffer_usageKeeps _ s) .bytes
  | getSize => exact .guarded fun _ => answers_next (usageKeeps_answer _ _ _)
  | next => exact answers_execNext hinv
  | decompress => exact answers_decompress hinv
  | write content len => exact answers_guarded_outcome (bswWrite_usageKeeps _ _ s) .num
  | writeLong content len => exact answers_guarded_outcome (bswWriteLong_usageKeeps _ _ s) .num
  | writeBit b => exact answers_guarded_outcome (bswWrite_usageKeeps _ _ s) .num
  | flush => exact answers_guarded_outcome (bswFlush_usageKeeps s) fun _ => .unit
  | getBuffer byteLen => exact answers_guarded_outcome (bswGetBuffer_usageKeeps _ s) .bytes
  | load bytes => exact answers_guarded_outcome (bsrLoad_usageKeeps _ s) fun _ => .unit
  | peek len => exact answers_guarded_outcome (bsrPeek_usageKeeps _ s) .num
  | forward len => exact answers_guarded_outcome (bsrForward_usageKeeps _ s) fun _ => .unit
  | readInt len => exact answers_guarded_outcome (bsrReadInt_usageKeeps _ s) .num
  | readLong len => exact answers_guarded_outcome (bsrReadLong_usageKeeps _ s) .num
  | readBit => exact answers_guarded_outcome (bsrReadInt_usageKeeps _ s) .num
  | _ => cases hcommand

end Machine
end Sys2Proof
end

section
/-! PROOFS. The encoder and the decoders: each reads what the other wrote, the lengths, and the command numbers (rules R90
to R112). -/

namespace Sys2Proof
namespace Machine

/-! ## Decoding what was encoded (rules R91 to R104, R112) -/

/-- Every instruction is read back from its own encoding. -/
theorem codecRoundTrip (i : Instr) : Laws.CodecRoundTrip.Statement i := by
  cases i with
  | gorLit v => exact Laws.CodecRoundTrip.gorLit v
  | gorSame => exact Laws.CodecRoundTrip.gorSame
  | gorReuse p => exact Laws.CodecRoundTrip.gorReuse p
  | gorNew l n p => exact Laws.CodecRoundTrip.gorNew l n p
  | chp64Lit v => exact Laws.CodecRoundTrip.chp64Lit v
  | chp64Repeat k => exact Laws.CodecRoundTrip.chp64Repeat k
  | chp64Far k b n p => exact Laws.CodecRoundTrip.chp64Far k b n p
  | chp64Reuse p => exact Laws.CodecRoundTrip.chp64Reuse p
  | chp64New b p => exact Laws.CodecRoundTrip.chp64New b p
  | chp32Lit v => exact Laws.CodecRoundTrip.chp32Lit v
  | chp32Repeat k => exact Laws.CodecRoundTrip.chp32Repeat k
  | chp32Far k b n p => exact Laws.CodecRoundTrip.chp32Far k b n p
  | chp32Reuse p => exact Laws.CodecRoundTrip.chp32Reuse p
  | chp32New b p => exact Laws.CodecRoundTrip.chp32New b p
  | elf64EraseSame => exact Laws.CodecRoundTrip.elf64EraseSame
  | elf64Raw => exact Laws.CodecRoundTrip.elf64Raw
  | elf64EraseNew b => exact Laws.CodecRoundTrip.elf64EraseNew b
  | elf64XLit v => exact Laws.CodecRoundTrip.elf64XLit v
  | elf64XRepeat => exact Laws.CodecRoundTrip.elf64XRepeat
  | elf64XFar b n p => exact Laws.CodecRoundTrip.elf64XFar b n p
  | elf64XReuse p => exact Laws.CodecRoundTrip.elf64XReuse p
  | elf64XNew b p => exact Laws.CodecRoundTrip.elf64XNew b p
  | elf32EraseSame => exact Laws.CodecRoundTrip.elf32EraseSame
  | elf32Raw => exact Laws.CodecRoundTrip.elf32Raw
  | elf32EraseNew b => exact Laws.CodecRoundTrip.elf32EraseNew b
  | elf32XLit v => exact Laws.CodecRoundTrip.elf32XLit v
  | elf32XRepeat => exact Laws.CodecRoundTrip.elf32XRepeat
  | elf32XFar b n p => exact Laws.CodecRoundTrip.elf32XFar b n p
  | elf32XReuse p => exact Laws.CodecRoundTrip.elf32XReuse p
  | elf32XNew b p => exact Laws.CodecRoundTrip.elf32XNew b p
  | constructEnc g => exact Laws.CodecRoundTrip.constructEnc g
  | constructDec g => exact Laws.CodecRoundTrip.constructDec g
  | addValue v => exact Laws.CodecRoundTrip.addValue v
  | close => exact Laws.CodecRoundTrip.close
  | getBytes => exact Laws.CodecRoundTrip.getBytes
  | getSize => exact Laws.CodecRoundTrip.getSize
  | next => exact Laws.CodecRoundTrip.next
  | decompress => exact Laws.CodecRoundTrip.decompress
  | write v n => exact Laws.CodecRoundTrip.write v n
  | writeLong v n => exact Laws.CodecRoundTrip.writeLong v n
  | writeBit b => exact Laws.CodecRoundTrip.writeBit b
  | flush => exact Laws.CodecRoundTrip.flush
  | getBuffer n => exact Laws.CodecRoundTrip.getBuffer n
  | load bs => exact Laws.CodecRoundTrip.load bs
  | peek n => exact Laws.CodecRoundTrip.peek n
  | forward n => exact Laws.CodecRoundTrip.forward n
  | readInt n => exact Laws.CodecRoundTrip.readInt n
  | readLong n => exact Laws.CodecRoundTrip.readLong n
  | readBit => exact Laws.CodecRoundTrip.readBit

/-- Settles O1: each wire code's own round trip, whatever bits stand behind it. -/
theorem wireCodesRoundTrip : Obligations.WireCodesRoundTrip := by
  intro c i rest hwf hwire
  simpa [hwire] using codecRoundTrip i c [] rest hwf

/-- Settles O2: each command's own round trip, whatever bytes stand behind it. -/
theorem commandsRoundTrip : Obligations.CommandsRoundTrip := by
  intro c i rest hwf hcommand
  simpa [hcommand] using codecRoundTrip i c rest [] hwf

/-- Settles O4: a codec's decoder reads its own unit's code from any string as long as the longest record (rule R105). -/
theorem everyBitStringDecodes : Obligations.EveryBitStringDecodes := by
  intro c bits hcodec hlen
  suffices h : Begins (fun _ => True) (decodeWire c bits) from h.imp fun _ => And.left
  unfold decodeWire
  cases hc : c.codec with
  | bs => exact absurd hc hcodec
  | gor =>
    by_cases hfirst : c.first = true
    · simpa [hfirst] using begins_lit64 (by omega) fun _ => trivial
    · simpa [hfirst] using begins_gor (by omega) trivial (fun _ => trivial) fun _ _ _ => trivial
  | chp64 =>
    by_cases hfirst : c.first = true
    · simpa [hfirst] using begins_lit64 (by omega) fun _ => trivial
    · simpa [hfirst] using
        begins_chp64 (by omega) (fun _ => trivial) (fun _ _ _ _ => trivial) (fun _ => trivial) fun _ _ => trivial
  | chp32 =>
    by_cases hfirst : c.first = true
    · simpa [hfirst] using begins_lit32 (by omega) fun _ => trivial
    · simpa [hfirst] using
        begins_chp32 (by omega) (fun _ => trivial) (fun _ _ _ _ => trivial) (fun _ => trivial) fun _ _ => trivial
  | elf64 =>
    by_cases hmid : c.mid = true
    · by_cases hfirst : c.first = true
      · simpa [hmid, hfirst] using begins_lit64 (by omega) fun _ => trivial
      · simpa [hmid, hfirst] using
          begins_x64 (by omega) trivial (fun _ _ _ => trivial) (fun _ => trivial) fun _ _ => trivial
    · simpa [hmid] using begins_erase64 (by omega) trivial trivial fun _ => trivial
  | elf32 =>
    by_cases hmid : c.mid = true
    · by_cases hfirst : c.first = true
      · simpa [hmid, hfirst] using begins_lit32 (by omega) fun _ => trivial
      · simpa [hmid, hfirst] using
          begins_x32 (by omega) trivial (fun _ _ _ => trivial) (fun _ => trivial) fun _ _ => trivial
    · simpa [hmid] using begins_erase32 (by omega) trivial trivial fun _ => trivial

/-! ## Reading back what was decoded (rules R90 to R106) -/

/-- Whatever instruction and rest the outcome of a decoder gives have `Q`. -/
def ReadsOnly {β : Type} (Q : Instr → List β → Prop) (o : Option (Instr × List β)) : Prop := ∀ i r, o = some (i, r) → Q i r

theorem readsOnly_some {β : Type} {Q : Instr → List β → Prop} {i : Instr} {r : List β} (h : Q i r) :
    ReadsOnly Q (some (i, r)) := by
  intro j u hu
  cases hu
  exact h

theorem readsOnly_none {β : Type} {Q : Instr → List β → Prop} : ReadsOnly Q none := by
  intro i r h
  cases h

/-- What a decoder reads behind an operand, it reads for each value of the operand that could stand there. -/
theorem readsOnly_bind {β γ : Type} {Q : Instr → List β → Prop} {o : Option γ} {k : γ → Option (Instr × List β)}
    (h : ∀ q, o = some q → ReadsOnly Q (k q)) : ReadsOnly Q (o.bind k) := by
  cases ho : o with
  | none => exact readsOnly_none
  | some q => exact h q ho

theorem readsOnly_map {β γ : Type} {Q : Instr → List β → Prop} {o : Option (γ × List β)} {f : γ → Instr}
    (h : ∀ v r, o = some (v, r) → Q (f v) r) : ReadsOnly Q (o.map fun q => (f q.1, q.2)) := by
  cases ho : o with
  | none => exact readsOnly_none
  | some q => exact readsOnly_some (h q.1 q.2 ho)

theorem readsOnly_field {Q : Instr → List Bool → Prop} {n : Nat} {bs : List Bool}
    {k : Nat × List Bool → Option (Instr × List Bool)}
    (h : ∀ q, q.1 < 2 ^ n → bs = bitsOf n q.1 ++ q.2 → ReadsOnly Q (k q)) : ReadsOnly Q ((takeBits n bs).bind k) :=
  readsOnly_bind fun q hq => h q (takeBits_some hq).2 (takeBits_some hq).1

theorem readsOnly_lastField {Q : Instr → List Bool → Prop} {n : Nat} {bs : List Bool} {f : Nat → Instr}
    (h : ∀ v r, v < 2 ^ n → bs = bitsOf n v ++ r → Q (f v) r) :
    ReadsOnly Q ((takeBits n bs).map fun q => (f q.1, q.2)) :=
  readsOnly_map fun v r hq => h v r (takeBits_some hq).2 (takeBits_some hq).1

/-- A field's value stands unchanged in an operand wide enough for it. -/
theorem toNat_ofNat_field {w n v : Nat} (hv : v < 2 ^ n) (hn : n ≤ w) : (BitVec.ofNat w v).toNat = v :=
  (BitVec.toNat_ofNat v w).trans (Nat.mod_eq_of_lt (lt_of_lt_pow hv hn))

/-- The wire code `i` can stand at the place `c`, and its own bits and the rest are the string read. -/
def StandsAt (c : WireCtx) (bits : List Bool) (i : Instr) (rest : List Bool) : Prop :=
  wellFormed c i = true ∧ i.isCommand = false ∧ bits = encodeWire c i ++ rest

section
variable {c : WireCtx} {bs : List Bool}

theorem readsOnly_lit64 {mk : BitVec 64 → Instr} (hmk : ∀ v, wellFormed c (mk v) = true ∧ (mk v).isCommand = false ∧
    encodeWire c (mk v) = bitsOf 64 v.toNat) : ReadsOnly (StandsAt c bs) (decodeLit64 mk bs) := by
  unfold decodeLit64
  refine readsOnly_lastField (f := fun v => mk (BitVec.ofNat 64 v)) fun v r hv hbs => ?_
  obtain ⟨hwf, hwire, hbits⟩ := hmk (BitVec.ofNat 64 v)
  exact ⟨hwf, hwire, by rw [hbits, toNat_ofNat_field hv le_rfl, hbs]⟩

theorem readsOnly_lit32 {mk : BitVec 32 → Instr} (hmk : ∀ v, wellFormed c (mk v) = true ∧ (mk v).isCommand = false ∧
    encodeWire c (mk v) = bitsOf 32 v.toNat) : ReadsOnly (StandsAt c bs) (decodeLit32 mk bs) := by
  unfold decodeLit32
  refine readsOnly_lastField (f := fun v => mk (BitVec.ofNat 32 v)) fun v r hv hbs => ?_
  obtain ⟨hwf, hwire, hbits⟩ := hmk (BitVec.ofNat 32 v)
  exact ⟨hwf, hwire, by rw [hbits, toNat_ofNat_field hv le_rfl, hbs]⟩

theorem takeBits_short {n : Nat} {bs : List Bool} (h : bs.length < n) : takeBits n bs = none := if_neg (by omega)

theorem takeBits_one_cases (bs : List Bool) :
    takeBits 1 bs = none ∨ ∃ b r, bs = b :: r ∧ takeBits 1 bs = some (b.toNat, r) := by
  cases bs with
  | nil => exact .inl (takeBits_short (by simp))
  | cons b r => exact .inr ⟨b, r, rfl, by cases b <;> simp⟩

theorem takeBits_two_cases (bs : List Bool) :
    takeBits 2 bs = none ∨ ∃ a b r, bs = a :: b :: r ∧ takeBits 2 bs = some (2 * a.toNat + b.toNat, r) := by
  match bs with
  | [] | [_] => exact .inl (takeBits_short (by simp))
  | a :: b :: r => exact .inr ⟨a, b, r, rfl, takeBits_two a b r⟩

theorem readsOnly_gor (hcodec : c.codec = .gor) (hfirst : c.first = false) (hmid : c.mid = false) :
    ReadsOnly (StandsAt c bs) (decodeGor c bs) := by
  have hplace : wfPlace c .gor false false = true := Laws.wfPlace_iff.mpr ⟨hcodec, hfirst, hmid⟩
  unfold decodeGor
  obtain hnone | ⟨b, r, hbs, hbit⟩ := takeBits_one_cases bs
  · rw [hnone]
    exact readsOnly_none
  rw [hbit]
  cases b with
  | false => exact readsOnly_some ⟨hplace, rfl, hbs⟩
  | true =>
    obtain hnone | ⟨b, r', hr, hbit'⟩ := takeBits_one_cases r
    · simpa [hnone] using readsOnly_none
    cases b with
    | false =>
      simp only [Bool.toNat_true, hbit', Bool.toNat_false]
      refine readsOnly_lastField (f := fun p => .gorReuse (BitVec.ofNat 64 p)) fun p u hp hu => ?_
      have hnat := toNat_ofNat_field hp (gorReuseWidth_le c)
      exact ⟨by simp [wellFormed, hplace, hnat, wfPayload, hp], rfl, by simp [encodeWire, hnat, hbs, hr, hu]⟩
    | true =>
      simp only [Bool.toNat_true, hbit']
      refine readsOnly_field fun l hl hu => readsOnly_field fun n hn hw => readsOnly_lastField
        (f := fun p => .gorNew (BitVec.ofNat 5 l.1) (BitVec.ofNat 6 n.1) (BitVec.ofNat 64 p)) fun p x hp hx => ?_
      have hlnat : (BitVec.ofNat 5 l.1).toNat = l.1 := toNat_ofNat_field hl le_rfl
      have hnnat : (BitVec.ofNat 6 n.1).toNat = n.1 := toNat_ofNat_field hn le_rfl
      have hnat := toNat_ofNat_field hp (gorNewWidth_le l.1 n.1)
      exact ⟨by simp [wellFormed, hplace, hlnat, hnnat, hnat, wfPayload, hp], rfl,
        by simp [encodeWire, hlnat, hnnat, hnat, hbs, hr, hu, hw, hx]⟩

/-- FAR behind its slot, with a count of `m` bits (rules R102, R104). -/
theorem readsOnly_far {Q : Instr → List Bool → Prop} {n m slot : Nat} {f : Nat → Nat → Nat → Instr}
    (h : ∀ b k p r, b < 2 ^ 3 → k < 2 ^ m → p < 2 ^ farWidth c n slot b k →
      bs = bitsOf 3 b ++ bitsOf m k ++ bitsOf (farWidth c n slot b k) p ++ r → Q (f b k p) r) :
    ReadsOnly Q ((takeBits 3 bs).bind fun b => (takeBits m b.2).bind fun k =>
      (takeBits (farWidth c n slot b.1 k.1) k.2).map fun q => (f b.1 k.1 q.1, q.2)) := by
  refine readsOnly_field fun b hb hu => readsOnly_field fun k hk hw => readsOnly_lastField (f := f b.1 k.1) fun p x hp hx => ?_
  exact h _ _ _ _ hb hk hp (by simp [hu, hw, hx])

theorem readsOnly_chp64 (hlogw : c.logw ≤ 16) (hcodec : c.codec = .chp64) (hfirst : c.first = false) (hmid : c.mid = false) :
    ReadsOnly (StandsAt c bs) (decodeChp64 c bs) := by
  have hplace : wfPlace c .chp64 false false = true := Laws.wfPlace_iff.mpr ⟨hcodec, hfirst, hmid⟩
  unfold decodeChp64
  obtain hnone | ⟨a, b, r, hbs, htake⟩ := takeBits_two_cases bs
  · rw [hnone]
    exact readsOnly_none
  rw [htake]
  match a, b with
  | false, false =>
    refine readsOnly_lastField (f := fun k => .chp64Repeat (BitVec.ofNat 16 k)) fun k u hk hu => ?_
    have hknat := toNat_ofNat_field hk hlogw
    exact ⟨by simp [wellFormed, hplace, wfSlot, hknat, hk], rfl, by simp [encodeWire, hknat, hbs, hu]⟩
  | false, true =>
    refine readsOnly_field fun k hk hu => readsOnly_far
      (f := fun b n p => .chp64Far (BitVec.ofNat 16 k.1) (BitVec.ofNat 3 b) (BitVec.ofNat 6 n) (BitVec.ofNat 64 p))
      fun b n p x hb hn hp hx => ?_
    have hknat := toNat_ofNat_field hk hlogw
    have hbnat : (BitVec.ofNat 3 b).toNat = b := toNat_ofNat_field hb le_rfl
    have hnnat : (BitVec.ofNat 6 n).toNat = n := toNat_ofNat_field hn le_rfl
    have hnat := toNat_ofNat_field hp (farWidth_le c 64 k.1 b n)
    exact ⟨by simp [wellFormed, hplace, wfSlot, wfPayload, hknat, hbnat, hnnat, hnat, hk, hp], rfl,
      by simp [encodeWire, hknat, hbnat, hnnat, hnat, hbs, hu, hx]⟩
  | true, false =>
    refine readsOnly_lastField (f := fun p => .chp64Reuse (BitVec.ofNat 64 p)) fun p u hp hu => ?_
    have hnat := toNat_ofNat_field hp (reuseWidth_le c 64)
    exact ⟨by simp [wellFormed, hplace, wfPayload, hnat, hp], rfl, by simp [encodeWire, hnat, hbs, hu]⟩
  | true, true =>
    refine readsOnly_field fun b hb hu =>
      readsOnly_lastField (f := fun p => .chp64New (BitVec.ofNat 3 b.1) (BitVec.ofNat 64 p)) fun p x hp hx => ?_
    have hbnat : (BitVec.ofNat 3 b.1).toNat = b.1 := toNat_ofNat_field hb le_rfl
    have hnat := toNat_ofNat_field hp (newWidth_le c 64 b.1)
    exact ⟨by simp [wellFormed, hplace, wfPayload, hbnat, hnat, hp], rfl,
      by simp [encodeWire, hbnat, hnat, hbs, hu, hx]⟩

theorem readsOnly_chp32 (hlogw : c.logw ≤ 16) (hcodec : c.codec = .chp32) (hfirst : c.first = false) (hmid : c.mid = false) :
    ReadsOnly (StandsAt c bs) (decodeChp32 c bs) := by
  have hplace : wfPlace c .chp32 false false = true := Laws.wfPlace_iff.mpr ⟨hcodec, hfirst, hmid⟩
  unfold decodeChp32
  obtain hnone | ⟨a, b, r, hbs, htake⟩ := takeBits_two_cases bs
  · rw [hnone]
    exact readsOnly_none
  rw [htake]
  match a, b with
  | false, false =>
    refine readsOnly_lastField (f := fun k => .chp32Repeat (BitVec.ofNat 16 k)) fun k u hk hu => ?_
    have hknat := toNat_ofNat_field hk hlogw
    exact ⟨by simp [wellFormed, hplace, wfSlot, hknat, hk], rfl, by simp [encodeWire, hknat, hbs, hu]⟩
  | false, true =>
    refine readsOnly_field fun k hk hu => readsOnly_far
      (f := fun b n p => .chp32Far (BitVec.ofNat 16 k.1) (BitVec.ofNat 3 b) (BitVec.ofNat 5 n) (BitVec.ofNat 32 p))
      fun b n p x hb hn hp hx => ?_
    have hknat := toNat_ofNat_field hk hlogw
    have hbnat : (BitVec.ofNat 3 b).toNat = b := toNat_ofNat_field hb le_rfl
    have hnnat : (BitVec.ofNat 5 n).toNat = n := toNat_ofNat_field hn le_rfl
    have hnat := toNat_ofNat_field hp (farWidth_le c 32 k.1 b n)
    exact ⟨by simp [wellFormed, hplace, wfSlot, wfPayload, hknat, hbnat, hnnat, hnat, hk, hp], rfl,
      by simp [encodeWire, hknat, hbnat, hnnat, hnat, hbs, hu, hx]⟩
  | true, false =>
    refine readsOnly_lastField (f := fun p => .chp32Reuse (BitVec.ofNat 32 p)) fun p u hp hu => ?_
    have hnat := toNat_ofNat_field hp (reuseWidth_le c 32)
    exact ⟨by simp [wellFormed, hplace, wfPayload, hnat, hp], rfl, by simp [encodeWire, hnat, hbs, hu]⟩
  | true, true =>
    refine readsOnly_field fun b hb hu =>
      readsOnly_lastField (f := fun p => .chp32New (BitVec.ofNat 3 b.1) (BitVec.ofNat 32 p)) fun p x hp hx => ?_
    have hbnat : (BitVec.ofNat 3 b.1).toNat = b.1 := toNat_ofNat_field hb le_rfl
    have hnat := toNat_ofNat_field hp (newWidth_le c 32 b.1)
    exact ⟨by simp [wellFormed, hplace, wfPayload, hbnat, hnat, hp], rfl,
      by simp [encodeWire, hbnat, hnat, hbs, hu, hx]⟩

theorem readsOnly_erase64 (hcodec : c.codec = .elf64) (hmid : c.mid = false) :
    ReadsOnly (StandsAt c bs) (decodeErase64 bs) := by
  have hplace : wfErasure c .elf64 = true := Laws.wfErasure_iff.mpr ⟨hcodec, hmid⟩
  unfold decodeErase64
  obtain hnone | ⟨b, r, hbs, hbit⟩ := takeBits_one_cases bs
  · rw [hnone]
    exact readsOnly_none
  rw [hbit]
  cases b with
  | false => exact readsOnly_some ⟨hplace, rfl, hbs⟩
  | true =>
    obtain hnone | ⟨b, r', hr, hbit'⟩ := takeBits_one_cases r
    · simpa [hnone] using readsOnly_none
    cases b with
    | false =>
      simp only [Bool.toNat_true, hbit', Bool.toNat_false]
      exact readsOnly_some ⟨hplace, rfl, by rw [hbs, hr]; rfl⟩
    | true =>
      simp only [Bool.toNat_true, hbit']
      refine readsOnly_lastField (f := fun b => .elf64EraseNew (BitVec.ofNat 4 b)) fun b u hb hu => ?_
      have hbnat : (BitVec.ofNat 4 b).toNat = b := toNat_ofNat_field hb le_rfl
      exact ⟨hplace, rfl, by simp [encodeWire, hbnat, hbs, hr, hu]⟩

theorem readsOnly_erase32 (hcodec : c.codec = .elf32) (hmid : c.mid = false) :
    ReadsOnly (StandsAt c bs) (decodeErase32 bs) := by
  have hplace : wfErasure c .elf32 = true := Laws.wfErasure_iff.mpr ⟨hcodec, hmid⟩
  unfold decodeErase32
  obtain hnone | ⟨b, r, hbs, hbit⟩ := takeBits_one_cases bs
  · rw [hnone]
    exact readsOnly_none
  rw [hbit]
  cases b with
  | false => exact readsOnly_some ⟨hplace, rfl, hbs⟩
  | true =>
    obtain hnone | ⟨b, r', hr, hbit'⟩ := takeBits_one_cases r
    · simpa [hnone] using readsOnly_none
    cases b with
    | false =>
      simp only [Bool.toNat_true, hbit', Bool.toNat_false]
      exact readsOnly_some ⟨hplace, rfl, by rw [hbs, hr]; rfl⟩
    | true =>
      simp only [Bool.toNat_true, hbit']
      refine readsOnly_lastField (f := fun b => .elf32EraseNew (BitVec.ofNat 3 b)) fun b u hb hu => ?_
      have hbnat : (BitVec.ofNat 3 b).toNat = b := toNat_ofNat_field hb le_rfl
      exact ⟨hplace, rfl, by simp [encodeWire, hbnat, hbs, hr, hu]⟩

theorem readsOnly_x64 (hcodec : c.codec = .elf64) (hfirst : c.first = false) (hmid : c.mid = true) :
    ReadsOnly (StandsAt c bs) (decodeX64 c bs) := by
  have hplace : wfPlace c .elf64 false true = true := Laws.wfPlace_iff.mpr ⟨hcodec, hfirst, hmid⟩
  unfold decodeX64
  obtain hnone | ⟨a, b, r, hbs, htake⟩ := takeBits_two_cases bs
  · rw [hnone]
    exact readsOnly_none
  rw [htake]
  match a, b with
  | false, false => exact readsOnly_some ⟨hplace, rfl, hbs⟩
  | false, true =>
    refine readsOnly_far (f := fun b n p => .elf64XFar (BitVec.ofNat 3 b) (BitVec.ofNat 6 n) (BitVec.ofNat 64 p))
      fun b n p x hb hn hp hx => ?_
    have hbnat : (BitVec.ofNat 3 b).toNat = b := toNat_ofNat_field hb le_rfl
    have hnnat : (BitVec.ofNat 6 n).toNat = n := toNat_ofNat_field hn le_rfl
    have hnat := toNat_ofNat_field hp (farWidth_le c 64 0 b n)
    exact ⟨by simp [wellFormed, hplace, wfPayload, hbnat, hnnat, hnat, hp], rfl,
      by simp [encodeWire, hbnat, hnnat, hnat, hbs, hx]⟩
  | true, false =>
    refine readsOnly_lastField (f := fun p => .elf64XReuse (BitVec.ofNat 64 p)) fun p u hp hu => ?_
    have hnat := toNat_ofNat_field hp (reuseWidth_le c 64)
    exact ⟨by simp [wellFormed, hplace, wfPayload, hnat, hp], rfl, by simp [encodeWire, hnat, hbs, hu]⟩
  | true, true =>
    refine readsOnly_field fun b hb hu =>
      readsOnly_lastField (f := fun p => .elf64XNew (BitVec.ofNat 3 b.1) (BitVec.ofNat 64 p)) fun p x hp hx => ?_
    have hbnat : (BitVec.ofNat 3 b.1).toNat = b.1 := toNat_ofNat_field hb le_rfl
    have hnat := toNat_ofNat_field hp (newWidth_le c 64 b.1)
    exact ⟨by simp [wellFormed, hplace, wfPayload, hbnat, hnat, hp], rfl,
      by simp [encodeWire, hbnat, hnat, hbs, hu, hx]⟩

theorem readsOnly_x32 (hcodec : c.codec = .elf32) (hfirst : c.first = false) (hmid : c.mid = true) :
    ReadsOnly (StandsAt c bs) (decodeX32 c bs) := by
  have hplace : wfPlace c .elf32 false true = true := Laws.wfPlace_iff.mpr ⟨hcodec, hfirst, hmid⟩
  unfold decodeX32
  obtain hnone | ⟨a, b, r, hbs, htake⟩ := takeBits_two_cases bs
  · rw [hnone]
    exact readsOnly_none
  rw [htake]
  match a, b with
  | false, false => exact readsOnly_some ⟨hplace, rfl, hbs⟩
  | false, true =>
    refine readsOnly_far (f := fun b n p => .elf32XFar (BitVec.ofNat 3 b) (BitVec.ofNat 5 n) (BitVec.ofNat 32 p))
      fun b n p x hb hn hp hx => ?_
    have hbnat : (BitVec.ofNat 3 b).toNat = b := toNat_ofNat_field hb le_rfl
    have hnnat : (BitVec.ofNat 5 n).toNat = n := toNat_ofNat_field hn le_rfl
    have hnat := toNat_ofNat_field hp (farWidth_le c 32 0 b n)
    exact ⟨by simp [wellFormed, hplace, wfPayload, hbnat, hnnat, hnat, hp], rfl,
      by simp [encodeWire, hbnat, hnnat, hnat, hbs, hx]⟩
  | true, false =>
    refine readsOnly_lastField (f := fun p => .elf32XReuse (BitVec.ofNat 32 p)) fun p u hp hu => ?_
    have hnat := toNat_ofNat_field hp (reuseWidth_le c 32)
    exact ⟨by simp [wellFormed, hplace, wfPayload, hnat, hp], rfl, by simp [encodeWire, hnat, hbs, hu]⟩
  | true, true =>
    refine readsOnly_field fun b hb hu =>
      readsOnly_lastField (f := fun p => .elf32XNew (BitVec.ofNat 3 b.1) (BitVec.ofNat 32 p)) fun p x hp hx => ?_
    have hbnat : (BitVec.ofNat 3 b.1).toNat = b.1 := toNat_ofNat_field hb le_rfl
    have hnat := toNat_ofNat_field hp (newWidth_le c 32 b.1)
    exact ⟨by simp [wellFormed, hplace, wfPayload, hbnat, hnat, hp], rfl,
      by simp [encodeWire, hbnat, hnat, hbs, hu, hx]⟩

/-- The decoder reads only what can stand at its place, and reads no bit twice and leaves none out. -/
theorem readsOnly_decodeWire (hlogw : c.logw ≤ 16) (hmid : c.mid = true → isElf c.codec = true) :
    ReadsOnly (StandsAt c bs) (decodeWire c bs) := by
  have hplace {codec : Codec} {first mid : Bool} (h : c.codec = codec) (hf : c.first = first) (hm : c.mid = mid) :
      wfPlace c codec first mid = true := Laws.wfPlace_iff.mpr ⟨h, hf, hm⟩
  unfold decodeWire
  cases hc : c.codec with
  | bs => exact readsOnly_none
  | gor =>
    have hm : c.mid = false := by simpa [hc, isElf] using hmid
    cases hf : c.first with
    | true => exact readsOnly_lit64 fun v => ⟨hplace hc hf hm, rfl, rfl⟩
    | false => exact readsOnly_gor hc hf hm
  | chp64 =>
    have hm : c.mid = false := by simpa [hc, isElf] using hmid
    cases hf : c.first with
    | true => exact readsOnly_lit64 fun v => ⟨hplace hc hf hm, rfl, rfl⟩
    | false => exact readsOnly_chp64 hlogw hc hf hm
  | chp32 =>
    have hm : c.mid = false := by simpa [hc, isElf] using hmid
    cases hf : c.first with
    | true => exact readsOnly_lit32 fun v => ⟨hplace hc hf hm, rfl, rfl⟩
    | false => exact readsOnly_chp32 hlogw hc hf hm
  | elf64 =>
    cases hm : c.mid with
    | false => exact readsOnly_erase64 hc hm
    | true =>
      cases hf : c.first with
      | true => exact readsOnly_lit64 fun v => ⟨hplace hc hf hm, rfl, rfl⟩
      | false => exact readsOnly_x64 hc hf hm
  | elf32 =>
    cases hm : c.mid with
    | false => exact readsOnly_erase32 hc hm
    | true =>
      cases hf : c.first with
      | true => exact readsOnly_lit32 fun v => ⟨hplace hc hf hm, rfl, rfl⟩
      | false => exact readsOnly_x32 hc hf hm

end

/-! ## Reading back a command from its bytes (rule R112, log entry 2) -/

theorem takeBytes_some {n : Nat} {bs : List Byte} {q : List Byte × List Byte} (h : takeBytes n bs = some q) :
    bs = q.1 ++ q.2 ∧ q.1.length = n := by
  unfold takeBytes at h
  split at h
  case isTrue hle =>
    cases h
    exact ⟨(List.take_append_drop n bs).symm, List.length_take_of_le hle⟩
  case isFalse => cases h

theorem natOfBytes_lt (bs : List Byte) : natOfBytes bs < 256 ^ bs.length := by
  induction bs with
  | nil => decide
  | cons b r ih =>
    have hb := b.isLt
    rw [natOfBytes_cons, List.length_cons, pow_succ]
    nlinarith

theorem shiftRight_bytes (v n : Nat) : v >>> (8 * n) = v / 256 ^ n := by 
  rw [Nat.shiftRight_eq_div_pow, pow_mul]
  norm_num

/-- The `n` bytes of a number are those of its low part. -/
theorem bytesBE_mul_add (n k v : Nat) : bytesBE n (k * 256 ^ n + v) = bytesBE n v := by
  induction n generalizing k with
  | zero => rfl
  | succ n ih =>
    have hsplit : k * 256 ^ (n + 1) + v = 256 * k * 256 ^ n + v := by ring
    have hhead : BitVec.ofNat 8 ((256 * k * 256 ^ n + v) / 256 ^ n) = BitVec.ofNat 8 (v / 256 ^ n) := by
      rw [Nat.mul_comm (256 * k), Nat.mul_add_div (by positivity)]
      exact BitVec.eq_of_toNat_eq (by simp)
    rw [hsplit, bytesBE, bytesBE, ih, shiftRight_bytes, shiftRight_bytes, hhead]

theorem bytesBE_natOfBytes (bs : List Byte) : bytesBE bs.length (natOfBytes bs) = bs := by
  induction bs with
  | nil => rfl
  | cons b r ih =>
    have hhead : (b.toNat * 256 ^ r.length + natOfBytes r) / 256 ^ r.length = b.toNat := by
      rw [Nat.mul_comm, Nat.mul_add_div (by positivity), Nat.div_eq_of_lt (natOfBytes_lt r), Nat.add_zero]
    rw [natOfBytes_cons, List.length_cons, bytesBE, shiftRight_bytes, hhead, bytesBE_mul_add, ih, BitVec.ofNat_toNat,
      BitVec.setWidth_eq]

theorem takeNat_some {n : Nat} {bs : List Byte} {q : Nat × List Byte} (h : takeNat n bs = some q) :
    bs = bytesBE n q.1 ++ q.2 ∧ q.1 < 2 ^ (8 * n) := by
  unfold takeNat at h
  obtain ⟨u, hu, rfl⟩ := Option.map_eq_some_iff.mp h
  obtain ⟨hbs, rfl⟩ := takeBytes_some hu
  rw [bytesBE_natOfBytes, pow_mul]
  exact ⟨hbs, natOfBytes_lt u.1⟩

theorem takeSeq_some {bs : List Byte} {q : List Byte × List Byte} (h : takeSeq bs = some q) :
    bs = bytesBE 4 q.1.length ++ q.1 ++ q.2 ∧ q.1.length < 2 ^ 32 := by
  obtain ⟨n, hn, hq⟩ := Option.bind_eq_some_iff.mp h
  obtain ⟨hbs, hlt⟩ := takeNat_some hn
  obtain ⟨hrest, hlen⟩ := takeBytes_some hq
  exact ⟨by rw [hbs, hrest, hlen, List.append_assoc], hlen ▸ hlt⟩

/-- The command `i` can be issued, and its own bytes and the rest are the port's; of WRITEBIT only the lowest bit of the
operand byte counts. -/
def StandsInPort (bytes : List Byte) (i : Instr) (rest : List Byte) : Prop :=
  (∀ c, wellFormed c i = true) ∧ i.isCommand = true ∧ ((∀ b, i ≠ .writeBit b) → bytes = encode i ++ rest) ∧
    ∀ b, i = .writeBit b → ∃ x : Byte, b = x.getLsbD 0 ∧ bytes = 0x12 :: x :: rest

theorem standsInPort_of_encode {bytes rest : List Byte} {i : Instr} (hwf : ∀ c, wellFormed c i = true)
    (hcommand : i.isCommand = true) (hbit : ∀ b, i ≠ .writeBit b) (hbytes : bytes = encode i ++ rest) :
    StandsInPort bytes i rest := ⟨hwf, hcommand, fun _ => hbytes, fun b hb => absurd hb (hbit b)⟩

theorem bytesBE_one (b : Nat) : bytesBE 1 b = [BitVec.ofNat 8 b] := by simp [bytesBE]

theorem readsOnly_len {cmd : Byte} {ops : List Byte} {mk : Byte → Instr}
    (hmk : ∀ n r, StandsInPort (cmd :: n :: r) (mk n) r) : ReadsOnly (StandsInPort (cmd :: ops)) (decodeLen mk ops) :=
  readsOnly_map (f := fun n => mk (BitVec.ofNat 8 n)) fun n r hn => by
    rw [(takeNat_some hn).1, bytesBE_one]
    exact hmk _ r

theorem readsOnly_write {cmd : Byte} {ops : List Byte} {mk : BitVec 64 → Byte → Instr}
    (hmk : ∀ c n r, StandsInPort (cmd :: (bytesBE 8 c.toNat ++ n :: r)) (mk c n) r) :
    ReadsOnly (StandsInPort (cmd :: ops)) (decodeWrite mk ops) := by
  refine readsOnly_bind fun c hc => readsOnly_map (f := fun n => mk (BitVec.ofNat 64 c.1) (BitVec.ofNat 8 n)) fun n r hn => ?_
  obtain ⟨hops, hlt⟩ := takeNat_some hc
  have hnat : (BitVec.ofNat 64 c.1).toNat = c.1 := toNat_ofNat_field hlt le_rfl
  have hrest := (takeNat_some hn).1
  rw [bytesBE_one] at hrest
  simpa [hnat, hops, hrest] using hmk (BitVec.ofNat 64 c.1) (BitVec.ofNat 8 n) r

theorem readsOnly_construct {ops : List Byte} : ReadsOnly (StandsInPort (0x01 :: ops)) (decodeConstruct ops) := by
  refine readsOnly_bind fun g hg => readsOnly_bind fun w hw => ?_
  obtain ⟨hops, hglt⟩ := takeNat_some hg
  obtain ⟨hg2, -⟩ := takeNat_some hw
  by_cases hdir : g.1 < 128
  · rw [if_pos hdir]
    refine readsOnly_bind fun k hk => readsOnly_bind fun e he => readsOnly_bind fun t ht => readsOnly_map
      (f := fun u => .constructEnc
        { codec := BitVec.ofNat 7 g.1, logw := BitVec.ofNat 8 w.1, capw := BitVec.ofNat 32 k.1,
          eps := BitVec.ofNat 64 e.1, lead64 := t.1, lead32 := u }) fun u r hu => ?_
    obtain ⟨hw2, hklt⟩ := takeNat_some hk
    obtain ⟨hk2, helt⟩ := takeNat_some he
    obtain ⟨he2, htlen⟩ := takeBytes_some ht
    obtain ⟨ht2, hulen⟩ := takeBytes_some hu
    have hgnat : (BitVec.ofNat 7 g.1).toNat = g.1 := (BitVec.toNat_ofNat _ _).trans (Nat.mod_eq_of_lt hdir)
    have hknat : (BitVec.ofNat 32 k.1).toNat = k.1 := toNat_ofNat_field hklt le_rfl
    have henat : (BitVec.ofNat 64 e.1).toNat = e.1 := toNat_ofNat_field helt le_rfl
    refine standsInPort_of_encode (fun c => ?_) rfl (by simp) ?_
    · simp [wellFormed, wfTables, htlen, hulen]
    · simp only [encode, hgnat, hknat, henat, hops, hg2, hw2, hk2, he2, ht2, bytesBE_one]
      simp
  · rw [if_neg hdir]
    refine readsOnly_bind fun k hk => readsOnly_bind fun t ht => readsOnly_bind fun u hu => readsOnly_map
      (f := fun q => .constructDec
          { codec := BitVec.ofNat 7 g.1, logw := BitVec.ofNat 8 w.1, nval := BitVec.ofNat 32 k.1,
            lead64 := t.1, lead32 := u.1, bytes := q }) fun q r hq => ?_
    obtain ⟨hw2, hklt⟩ := takeNat_some hk
    obtain ⟨hk2, htlen⟩ := takeBytes_some ht
    obtain ⟨ht2, hulen⟩ := takeBytes_some hu
    obtain ⟨hu2, hlen⟩ := takeSeq_some hq
    have hgnat : 128 + (BitVec.ofNat 7 g.1).toNat = g.1 := by
      rw [BitVec.toNat_ofNat]
      omega
    have hknat : (BitVec.ofNat 32 k.1).toNat = k.1 := toNat_ofNat_field hklt le_rfl
    refine standsInPort_of_encode (fun c => ?_) rfl (by simp) ?_
    · simpa [wellFormed, wfTables, wfBytes, htlen, hulen] using hlen
    · simp only [encode, hgnat, hknat, hops, hg2, hw2, hk2, ht2, hu2, bytesBE_one]
      simp

theorem readsOnly_num {cmd : Byte} {ops : List Byte} {k w : Nat} {mk : BitVec w → Instr} (hk : 8 * k ≤ w)
    (hmk : ∀ v r, StandsInPort (cmd :: (bytesBE k v.toNat ++ r)) (mk v) r) :
    ReadsOnly (StandsInPort (cmd :: ops)) ((takeNat k ops).map fun q => (mk (BitVec.ofNat w q.1), q.2)) :=
  readsOnly_map (f := fun v => mk (BitVec.ofNat w v)) fun v r hv => by
    obtain ⟨hops, hlt⟩ := takeNat_some hv
    simpa [toNat_ofNat_field hlt hk, hops] using hmk (BitVec.ofNat w v) r

theorem readsOnly_writeBit {ops : List Byte} :
    ReadsOnly (StandsInPort (0x12 :: ops)) ((takeNat 1 ops).map fun b => (.writeBit (b.1.testBit 0), b.2)) :=
  readsOnly_map (f := fun b : Nat => .writeBit (b.testBit 0)) fun b r hb => by
    refine ⟨fun _ => rfl, rfl, fun h => absurd rfl (h _), fun c hc => ⟨BitVec.ofNat 8 b, ?_, ?_⟩⟩
    · cases hc
      rw [BitVec.getLsbD_ofNat]
      rfl
    · rw [(takeNat_some hb).1, bytesBE_one]
      rfl

theorem readsOnly_load {ops : List Byte} :
    ReadsOnly (StandsInPort (0x18 :: ops)) ((takeSeq ops).map fun q => (.load q.1, q.2)) :=
  readsOnly_map (f := .load) fun bs r hbs => by
    obtain ⟨hops, hlt⟩ := takeSeq_some hbs
    exact standsInPort_of_encode (fun _ => by simpa [wellFormed, wfBytes] using hlt) rfl (by simp) (by simp [encode, hops])

/-- Each command number is read with its own operands. -/
theorem readsOnly_decodeCmd {cmd : Byte} {ops : List Byte} {o : Option (Instr × List Byte)}
    (h : decodeCmd cmd.toNat ops = some o) : ReadsOnly (StandsInPort (cmd :: ops)) o := by
  have hbyte {k : Nat} (hk : cmd.toNat = k) : cmd = BitVec.ofNat 8 k := by rw [← hk, BitVec.ofNat_toNat, BitVec.setWidth_eq]
  have hplain {i : Instr} (hwf : ∀ c, wellFormed c i = true) (hcommand : i.isCommand = true)
      (hbit : ∀ b, i ≠ .writeBit b) (hi : encode i = [cmd]) : ReadsOnly (StandsInPort (cmd :: ops)) (some (i, ops)) :=
    readsOnly_some (standsInPort_of_encode hwf hcommand hbit (by rw [hi]; rfl))
  unfold decodeCmd at h
  split at h
  case h_19 => cases h
  all_goals
    rename_i hcmd
    obtain rfl := hbyte hcmd
    cases h
  case h_1 => exact readsOnly_construct
  case h_2 => exact readsOnly_num le_rfl fun v r => standsInPort_of_encode (fun _ => rfl) rfl (by simp) rfl
  case h_3 => exact hplain (fun _ => rfl) rfl (by simp) rfl
  case h_4 => exact hplain (fun _ => rfl) rfl (by simp) rfl
  case h_5 => exact hplain (fun _ => rfl) rfl (by simp) rfl
  case h_6 => exact hplain (fun _ => rfl) rfl (by simp) rfl
  case h_7 => exact hplain (fun _ => rfl) rfl (by simp) rfl
  case h_8 => exact readsOnly_write fun c n r => standsInPort_of_encode (fun _ => rfl) rfl (by simp) (by simp [encode])
  case h_9 => exact readsOnly_write fun c n r => standsInPort_of_encode (fun _ => rfl) rfl (by simp) (by simp [encode])
  case h_10 => exact readsOnly_writeBit
  case h_11 => exact hplain (fun _ => rfl) rfl (by simp) rfl
  case h_12 => exact readsOnly_num le_rfl fun v r => standsInPort_of_encode (fun _ => rfl) rfl (by simp) rfl
  case h_13 => exact readsOnly_load
  case h_14 => exact readsOnly_len fun n r => standsInPort_of_encode (fun _ => rfl) rfl (by simp) rfl
  case h_15 => exact readsOnly_len fun n r => standsInPort_of_encode (fun _ => rfl) rfl (by simp) rfl
  case h_16 => exact readsOnly_len fun n r => standsInPort_of_encode (fun _ => rfl) rfl (by simp) rfl
  case h_17 => exact readsOnly_len fun n r => standsInPort_of_encode (fun _ => rfl) rfl (by simp) rfl
  case h_18 => exact hplain (fun _ => rfl) rfl (by simp) rfl

/-- A command is read off the port where its number and then its operands stand. -/
theorem decode_command {bytes rest : List Byte} {i : Instr} (h : decode bytes = .command i rest) :
    StandsInPort bytes i rest := by
  cases bytes with
  | nil => cases h
  | cons cmd ops =>
    unfold decode at h
    dsimp only at h
    split at h
    case h_1 => cases h
    case h_2 => cases h
    case h_3 hcmd =>
      cases h
      exact readsOnly_decodeCmd hcmd _ _ rfl

/-- Settles O3: the wire decoders and the command decoder, each read only what stands there. -/
theorem decodedInstructionsAreWellFormed : Obligations.DecodedInstructionsAreWellFormed := by
  refine ⟨fun c bits rest i hlogw hmid h => readsOnly_decodeWire hlogw hmid i rest h, fun c bytes rest i h => ?_⟩
  obtain ⟨hwf, hcommand, hbytes, hbit⟩ := decode_command h
  exact ⟨hwf c, hcommand, hbytes, hbit⟩

/-! ## Lengths (rules R100, R105) -/

/-- The longest wire code at a place of the stream (rules R100, R105). -/
def longestCode (c : WireCtx) : Nat :=
  match c.codec with
  | .gor => 77
  | .chp64 => c.logw + 75
  | .chp32 => c.logw + 42
  | .elf64 => if c.mid then 75 else 6
  | .elf32 => if c.mid then 42 else 5
  | .bs => 0

/-- A wire code is not empty: its decoder takes bits off. -/
theorem encodeWire_pos {c : WireCtx} {i : Instr} (hwf : wellFormed c i = true) (hwire : i.isCommand = false) :
    1 ≤ (encodeWire c i).length := by
  have hshorter := decodeWire_shorter (wireCodesRoundTrip c i [] hwf hwire)
  rw [List.append_nil, List.length_nil] at hshorter
  exact hshorter

open Laws in
/-- Each wire code is the longest of its unit and place at most, as its payload is no wider than a value. -/
theorem encodeWire_length_le {c : WireCtx} {i : Instr} (hwf : wellFormed c i = true) (hwire : i.isCommand = false) :
    (encodeWire c i).length ≤ longestCode c := by
  have hreuse := reuseWidth_le c
  have hnew := newWidth_le c
  have hfar := farWidth_le c
  have hgor := gorReuseWidth_le c
  cases i
  case gorLit | gorSame | chp64Lit | chp32Lit | elf64XLit | elf64XRepeat | elf32XLit | elf32XRepeat =>
    obtain ⟨hc, -, hm⟩ := wfPlace_iff.mp hwf
    simp [encodeWire, longestCode, hc, hm]
  case elf64EraseSame | elf64Raw | elf64EraseNew | elf32EraseSame | elf32Raw | elf32EraseNew =>
    obtain ⟨hc, hm⟩ := wfErasure_iff.mp hwf
    simp [encodeWire, longestCode, hc, hm]
  case gorNew l n p =>
    simp only [wellFormed, Bool.and_eq_true, wfPlace_iff] at hwf
    obtain ⟨⟨hc, -, -⟩, -⟩ := hwf
    have := gorNewWidth_le l.toNat n.toNat
    simp [encodeWire, longestCode, hc]
    omega
  case chp64Repeat | chp32Repeat =>
    simp only [wellFormed, Bool.and_eq_true, wfPlace_iff] at hwf
    obtain ⟨⟨hc, -, -⟩, -⟩ := hwf
    simp [encodeWire, longestCode, hc]
  case gorReuse =>
    simp only [wellFormed, Bool.and_eq_true, wfPlace_iff] at hwf
    obtain ⟨⟨hc, -, -⟩, -⟩ := hwf
    simp [encodeWire, longestCode, hc]
    omega
  case chp64Far k b n p =>
    simp only [wellFormed, Bool.and_eq_true, wfPlace_iff] at hwf
    obtain ⟨⟨⟨hc, -, -⟩, -⟩, -⟩ := hwf
    have := hfar 64 k.toNat b.toNat n.toNat
    simp [encodeWire, longestCode, hc]
    omega
  case chp32Far k b n p =>
    simp only [wellFormed, Bool.and_eq_true, wfPlace_iff] at hwf
    obtain ⟨⟨⟨hc, -, -⟩, -⟩, -⟩ := hwf
    have := hfar 32 k.toNat b.toNat n.toNat
    simp [encodeWire, longestCode, hc]
    omega
  case elf64XFar b n p =>
    simp only [wellFormed, Bool.and_eq_true, wfPlace_iff] at hwf
    obtain ⟨⟨hc, -, hm⟩, -⟩ := hwf
    have := hfar 64 0 b.toNat n.toNat
    simp [encodeWire, longestCode, hc, hm]
    omega
  case elf32XFar b n p =>
    simp only [wellFormed, Bool.and_eq_true, wfPlace_iff] at hwf
    obtain ⟨⟨hc, -, hm⟩, -⟩ := hwf
    have := hfar 32 0 b.toNat n.toNat
    simp [encodeWire, longestCode, hc, hm]
    omega
  case chp64Reuse | elf64XReuse =>
    simp only [wellFormed, Bool.and_eq_true, wfPlace_iff] at hwf
    obtain ⟨⟨hc, -, hm⟩, -⟩ := hwf
    have := hreuse 64
    simp [encodeWire, longestCode, hc, hm]
    omega
  case chp32Reuse | elf32XReuse =>
    simp only [wellFormed, Bool.and_eq_true, wfPlace_iff] at hwf
    obtain ⟨⟨hc, -, hm⟩, -⟩ := hwf
    have := hreuse 32
    simp [encodeWire, longestCode, hc, hm]
    omega
  case chp64New b p | elf64XNew b p =>
    simp only [wellFormed, Bool.and_eq_true, wfPlace_iff] at hwf
    obtain ⟨⟨hc, -, hm⟩, -⟩ := hwf
    have := hnew 64 b.toNat
    simp [encodeWire, longestCode, hc, hm]
    omega
  case chp32New b p | elf32XNew b p =>
    simp only [wellFormed, Bool.and_eq_true, wfPlace_iff] at hwf
    obtain ⟨⟨hc, -, hm⟩, -⟩ := hwf
    have := hnew 32 b.toNat
    simp [encodeWire, longestCode, hc, hm]
    omega
  all_goals cases hwire

/-- Settles O5: no code is empty, and `longestCode` is each unit's bound. -/
theorem wireCodeLengths : Obligations.WireCodeLengths := by
  intro c i hwf hwire
  have hle := encodeWire_length_le hwf hwire
  refine ⟨encodeWire_pos hwf hwire, ?_, ?_, ?_, ?_, ?_⟩ <;> intro hc <;> simpa [longestCode, hc] using hle

/-! ## Command numbers and sample words (rule R112) -/

theorem decodeCmd_eq_none {cmd : Nat} {ops : List Byte}
    (h : cmd ∉ [0x01, 0x02, 0x03, 0x04, 0x05, 0x06, 0x07, 0x10, 0x11, 0x12, 0x13, 0x14, 0x18, 0x19, 0x1A, 0x1B, 0x1C, 0x1D]) :
    decodeCmd cmd ops = none := by
  unfold decodeCmd
  split
  case h_19 => rfl
  all_goals exact absurd h (by decide)

/-- A byte that is no command's number is taken off the port and answered (log entry 14). -/
theorem step_notCommand {s : State} {cmd : Byte} {rest : List Byte} (h : decodeCmd cmd.toNat rest = none) :
    step { s with port := cmd :: rest } = .next { s with port := rest, resp := some (.fail .usageError .badCommand) } := by
  simp [step, decode, h, State.usage]

/-- Settles O6: the numbers stand first in `encode`, and `decodeCmd` knows no other. -/
theorem commandNumbers : Obligations.CommandNumbers := by
  refine ⟨fun _ => rfl, fun _ => rfl, fun _ => rfl, rfl, rfl, rfl, rfl, rfl, fun _ _ => rfl, fun _ _ => rfl, fun _ => rfl, rfl,
    fun _ => rfl, fun _ => rfl, fun _ => rfl, fun _ => rfl, fun _ => rfl, fun _ => rfl, rfl, fun s cmd rest hcmd => ?_⟩
  refine step_notCommand (decodeCmd_eq_none fun hmem => hcmd ?_)
  simpa using List.mem_map_of_mem (f := BitVec.ofNat 8) hmem

/-- Settles O7: each word is the encoding of what it stands for, so the round trip reads it. -/
theorem sampleWordsDecode : Obligations.SampleWordsDecode :=
  ⟨wireCodesRoundTrip _ (.gorNew 1 11 0x7FF) [] (by decide) rfl, wireCodesRoundTrip _ (.gorReuse 0x401) [] (by decide) rfl,
    wireCodesRoundTrip _ (.chp64Far 10 7 24 0xFF) [] (by decide) rfl,
    wireCodesRoundTrip _ (.elf64EraseNew 1) [false, false] (by decide) rfl,
    wireCodesRoundTrip _ .elf64XRepeat [] (by decide) rfl,
    commandsRoundTrip (tableCtx .gor true) (.addValue 0x3FF0000000000000) [] rfl rfl,
    commandsRoundTrip (tableCtx .gor true) (.readInt 5) [0x03] rfl rfl⟩

end Machine
end Sys2Proof
end

section
/-! PROOFS. Every step and every instruction gives a next state with the invariant; a step takes the next command, and NEXT
and a step by wire codes run the code at RPOS. -/

namespace Sys2Proof
namespace Machine

/-! ## The invariant (rule R320; 70_reset_and_hazards.md) -/

/-- Settles O58: reset is one CONSTRUCT of a GOR encoder. -/
theorem resetSatisfiesTheInvariant : Obligations.ResetSatisfiesTheInvariant :=
  constructed_inv State.reset .gor .enc 0 Config.resetCapw 0 0 Config.defaultLeadRep Config.defaultLeadRep (by decide)
    (fun _ => by decide) (by decide) (by decide) (by decide) (by decide)

/-- A wire code as an instruction runs as NEXT would run it. -/
theorem exec_eq_runWire {i : Instr} (h : i.isCommand = false) (s : State) : exec i s = runWire i s := by
  cases i
  case constructEnc | constructDec | addValue | close | getBytes | getSize | next | decompress => cases h
  case write | writeLong | writeBit | flush | getBuffer | load | peek | forward | readInt | readLong | readBit => cases h
  all_goals rfl

theorem decompress_inv {s : State} (h : Inv s) : ∃ t, exec .decompress s = .next t ∧ Inv t :=
  decompressLoop_inv (s.lenBits + 2) [] h (by omega)

/-- Every instruction gives a next state, and keeps the invariant. -/
theorem exec_inv {s : State} (h : Inv s) (i : Instr) : ∃ t, exec i s = .next t ∧ Inv t := by
  obtain ⟨hpeek, hforward, hreadInt, hreadLong, hreadBit⟩ := readers_inv h
  obtain ⟨hwrite, hwriteLong, hwriteBit, hgetBuffer⟩ := write_inv h
  cases hcommand : i.isCommand with
  | false => exact exec_eq_runWire hcommand s ▸ runWire_inv h i
  | true =>
    cases i with
    | constructEnc g => exact constructEnc_inv h g
    | constructDec g => exact constructDec_inv h g
    | addValue v => exact addValue_inv h v
    | close => exact close_inv h
    | getBytes => exact getBytes_inv h
    | getSize => exact getSize_inv h
    | next => exact nextValue_inv h
    | decompress => exact decompress_inv h
    | write content len => exact hwrite content len
    | writeLong content len => exact hwriteLong content len
    | writeBit b => exact hwriteBit b
    | flush => exact flush_inv h
    | getBuffer byteLen => exact hgetBuffer byteLen
    | load bytes => exact load_inv h bytes
    | peek len => exact hpeek len
    | forward len => exact hforward len
    | readInt len => exact hreadInt len
    | readLong len => exact hreadLong len
    | readBit => exact hreadBit
    | _ => cases hcommand

/-- A fetch moves the cursor only. -/
theorem fetchWire_some {s t : State} {i : Instr} (h : fetchWire s = some (i, t)) :
    ∃ rest, decodeWire s.wireCtx (s.ahead (lookahead s)) = some (i, rest) ∧ t = s.advance (lookahead s - rest.length) := by
  obtain ⟨q, hq, hqt⟩ := Option.map_eq_some_iff.mp h
  cases hqt
  exact ⟨q.2, hq, rfl⟩

theorem stepWire_inv {s : State} (h : Inv s) : ∃ t, stepWire s = .next t ∧ Inv t := by
  unfold stepWire
  cases hadmit : admitDecoder s with
  | some sub => exact ⟨_, rfl, inv_usage sub h⟩
  | none =>
    obtain ⟨hfault, hcodec, hdir⟩ := admitDecoder_eq_none.mp hadmit
    rw [guarded_none]
    split
    case h_1 t hbefore =>
      split at hbefore
      case isTrue => cases hbefore
      case isFalse hpend =>
        have hplace : decCore s ∨ s.phase = .done := by
          by_cases hdone : s.phase = .done
          · exact .inr hdone
          · exact .inl (decCore_of_inv h hdir (h.ready hdir hfault hdone) hcodec)
        exact ⟨t, rfl, beforeRecord_inv (by simpa using hpend) hplace h hbefore⟩
    case h_2 =>
      cases hfetch : fetchWire s with
      | none => exact ⟨_, rfl, inv_usage _ h⟩
      | some q =>
        obtain ⟨rest, -, hq⟩ := fetchWire_some (i := q.1) (t := q.2) hfetch
        exact exec_inv (hq ▸ advance_inv h hdir _) q.1

theorem step_inv {s : State} (h : Inv s) : ∃ t, step s = .next t ∧ Inv t := by
  unfold step
  split
  case h_1 i rest _ => exact exec_inv (inv_port rest h) i
  case h_2 _ rest _ => exact ⟨_, rfl, inv_usage _ (inv_port rest h)⟩
  case h_3 =>
    split
    · exact stepWire_inv h
    · exact ⟨s, rfl, h⟩

/-- Settles O59: a step is a command, a byte dropped, or one wire code, and each keeps the invariant. -/
theorem stepKeepsTheInvariant : Obligations.StepKeepsTheInvariant := by
  intro s t h ht
  obtain ⟨u, hu, hinv⟩ := step_inv h
  cases hu.symm.trans ht
  exact hinv

/-- Settles O60: the invariant keeps both faults out of reach. -/
theorem stepNeverStops : Obligations.StepNeverStops := fun _ h =>
  ⟨(step_inv h).imp fun _ => And.left, fun i => (exec_inv h i).imp fun _ => And.left⟩

/-! ## Steps (log entries 2, 3) -/

/-- Settles O8: the port alone decides what a step does. -/
theorem stepTakesTheNextCommand : Obligations.StepTakesTheNextCommand := by
  refine ⟨fun s i rest hport => by rw [step, hport], fun s hport hwait => ?_⟩
  have hidle : ¬(s.wire = true ∧ s.port = []) := by
    rintro ⟨hwire, hempty⟩
    exact hwait.elim (fun h => by simp [h] at hwire) fun h => h hempty
  rw [step, hport]
  exact if_neg hidle

/-! ## The wire code at RPOS (rules R29, R90, R100, R271) -/

/-- A decoder fetches the wire code whose bits stand ahead, and moves past it. -/
theorem fetchWire_of_ahead {s : State} {i : Instr} {rest : List Bool} (hwf : wellFormed s.wireCtx i = true)
    (hwire : i.isCommand = false) (hahead : s.ahead (lookahead s) = encodeWire s.wireCtx i ++ rest) :
    fetchWire s = some (i, s.advance (encodeWire s.wireCtx i).length) := by
  have hlen := congrArg List.length hahead
  rw [State.ahead_length, List.length_append] at hlen
  rw [fetchWire, hahead, wireCodesRoundTrip _ i rest hwf hwire, Option.map_some, hlen, Nat.add_sub_cancel]

theorem runNextCode_of_ahead {s : State} {i : Instr} {rest : List Bool} (hwf : wellFormed s.wireCtx i = true)
    (hwire : i.isCommand = false) (hahead : s.ahead (lookahead s) = encodeWire s.wireCtx i ++ rest) :
    runNextCode s = exec i (s.advance (encodeWire s.wireCtx i).length) := by
  rw [runNextCode, fetchWire_of_ahead hwf hwire hahead, exec_eq_runWire hwire]

/-- A record is to be decoded where the block has not ended and the cursor is within the stream (rule R271). -/
theorem beforeRecord_eq_none {s : State} (hphase : s.phase = .ready) (hcount : isElf s.codec = true → s.count ≠ s.nval)
    (hpast : s.pastEnd = false) : beforeRecord s = none := by
  have hmore : ¬(isElf s.codec = true ∧ s.count = s.nval) := fun h => hcount h.1 h.2
  simp [beforeRecord, hphase, hpast, hmore]

theorem admitDecoder_of_ready {s : State} (hdir : s.dir = .dec) (hphase : s.phase = .ready) (hcodec : s.codec ≠ .bs) :
    admitDecoder s = none := admitDecoder_eq_none.mpr ⟨by simp [hphase], hcodec, hdir⟩

/-- Settles O9: a step by wire codes fetches the code and executes it. -/
theorem stepRunsTheWireCode : Obligations.StepRunsTheWireCode := by
  intro s i rest hport hwireMode hdir hphase hcodec hstart hwf hwire hahead
  have hbefore : (if s.pend.isSome then none else beforeRecord s) = none := by
    cases hpend : s.pend with
    | some e => rfl
    | none =>
      obtain ⟨hpast, hcount⟩ := hstart hpend
      exact beforeRecord_eq_none hphase hcount hpast
  have hdecode : decode s.port = .incomplete := by rw [hport]; rfl
  have hmode : s.wire = true ∧ s.port = [] := ⟨hwireMode, hport⟩
  rw [step, hdecode]
  simp only [if_pos hmode, stepWire, admitDecoder_of_ready hdir hphase hcodec, guarded_none, hbefore,
    fetchWire_of_ahead hwf hwire hahead]

/-- Off a record NEXT decodes one. -/
theorem execNext_eq_runRecord {s : State} (hdir : s.dir = .dec) (hphase : s.phase = .ready) (hcodec : s.codec ≠ .bs)
    (hpend : s.pend = none) (hpast : s.pastEnd = false) (hcount : isElf s.codec = true → s.count ≠ s.nval) :
    exec .next s = runRecord s := by
  change nextValue s = _
  simp [nextValue, admitDecoder_of_ready hdir hphase hcodec, hpend, beforeRecord_eq_none hphase hcount hpast]

/-- A record is its one wire code where that leaves none pending. -/
theorem runRecord_of_pend_none {s : State} (h : ∀ t, runNextCode s = .next t → t.pend = none) :
    runRecord s = runNextCode s := by
  unfold runRecord
  cases ht : runNextCode s with
  | next t => simp [h t ht]
  | fault f => rfl
  | refused r => rfl

/-- Settles O10: the first code is the one at RPOS; behind it a GOR or CHP record is over, and an ELF record goes on with
the code then at RPOS if the erasure code left it pending. -/
theorem nextRunsOneRecord : Obligations.NextRunsOneRecord := by
  intro s i rest hdir hphase hcodec hpend hpast hcount hwf hwire hahead
  have hrun := runNextCode_of_ahead hwf hwire hahead
  rw [execNext_eq_runRecord hdir hphase hcodec hpend hpast hcount, ← hrun]
  refine ⟨fun helf => ?_, fun _ t ht htpend => ?_, fun _ t x rest' ht htpend hwf' hwire' hahead' => ?_⟩
  · refine runRecord_of_pend_none fun t ht => ?_
    rcases runNextCode_leavesCode ⟨⟨rfl, hdir, hphase⟩, hpend⟩ hcodec t ht with ⟨hnone, -⟩ | ⟨-, helf', -⟩
    · exact hnone
    · rw [helf] at helf'
      cases helf'
  · rw [runRecord_of_pend_none fun u hu => by cases ht.symm.trans hu; exact htpend, ht]
  · rw [runRecord, ht]
    simp only [Option.isSome_iff_ne_none.mpr htpend, if_true]
    exact runNextCode_of_ahead hwf' hwire' hahead'

end Machine
end Sys2Proof
end

section
/-! PROOFS. CONSTRUCT: what makes its operands legal, and the machine it leaves (rules R10, R36, R261, R270, R321). -/

namespace Sys2Proof
namespace Machine

/-! ## Legal operands (rules R10, R36, R261, R270) -/

theorem legalLogw_iff (codec : Codec) (k : Nat) : legalLogw codec k = true ↔ (codec = .chp64 ∨ codec = .chp32 → k ≤ 16) := by
  cases codec <;> simp [legalLogw]

theorem legalEps_iff (eps : Raw) : legalEps eps = true ↔
    isNaN 64 eps = false ∧ isInf 64 eps = false ∧ (signBit 64 eps = true → isZero 64 eps = true) := by
  simp [legalEps, and_assoc, imp_iff_not_or]

theorem legalTables_iff (codec : Codec) (lead64 lead32 : List Byte) : legalTables codec lead64 lead32 = true ↔
    (hasRing codec = true → legalLeadRep ((if width codec = 64 then lead64 else lead32).map BitVec.toNat) = true) := by
  cases h : hasRing codec <;> simp [legalTables, tableOf, h]

/-- Rule R261's tests, and the test of the unit's table (log entry 8). -/
theorem legalEnc_iff (codec : Codec) (g : EncConfig) : legalEnc codec g = true ↔
    (codec = .chp64 ∨ codec = .chp32 → g.logw.toNat ≤ 16) ∧ g.capw.toNat ≤ 2 ^ 27 - 1 ∧
      (isElf codec = true → isNaN 64 g.eps = false ∧ isInf 64 g.eps = false ∧
        (signBit 64 g.eps = true → isZero 64 g.eps = true)) ∧
      (hasRing codec = true →
        legalLeadRep ((if width codec = 64 then g.lead64 else g.lead32).map BitVec.toNat) = true) := by
  have heps : (!isElf codec || legalEps g.eps) = true ↔ (isElf codec = true → legalEps g.eps = true) := by
    cases isElf codec <;> simp
  simp only [legalEnc, Bool.and_eq_true, legalLogw_iff, legalTables_iff, heps, legalEps_iff, legalCapw, decide_eq_true_eq,
    and_assoc]
  norm_num

/-- Rule R270's tests, and the test of the unit's table (log entry 8). -/
theorem legalDec_iff (codec : Codec) (g : DecConfig) : legalDec codec g = true ↔
    (codec = .chp64 ∨ codec = .chp32 → g.logw.toNat ≤ 16) ∧ g.bytes.length < 2 ^ 29 ∧
      (hasRing codec = true →
        legalLeadRep ((if width codec = 64 then g.lead64 else g.lead32).map BitVec.toNat) = true) := by
  have hlen : decide (g.bytes.length < maxLoad) = true ↔ g.bytes.length < 2 ^ 29 := decide_eq_true_iff
  simp only [legalDec, Bool.and_eq_true, legalLogw_iff, legalTables_iff, hlen, and_assoc]

theorem codecOf_eq_none {c : Nat} (h : 5 < c) : codecOf c = none := by
  unfold codecOf
  split
  case h_7 => rfl
  all_goals omega

theorem exec_constructEnc_illegal {g : EncConfig} (s : State)
    (h : ∀ codec, codecOf g.codec.toNat = some codec → legalEnc codec g = false) :
    exec (.constructEnc g) s = .next { s with resp := some (.fail .usageError .badConfig) } := by
  change execConstructEnc g s = _
  unfold execConstructEnc
  cases hcodec : codecOf g.codec.toNat with
  | none => rfl
  | some codec => exact if_neg (by simp [h codec hcodec])

theorem exec_constructDec_illegal {g : DecConfig} (s : State)
    (h : ∀ codec, codecOf g.codec.toNat = some codec → legalDec codec g = false) :
    exec (.constructDec g) s = .next { s with resp := some (.fail .usageError .badConfig) } := by
  change execConstructDec g s = _
  unfold execConstructDec
  cases hcodec : codecOf g.codec.toNat with
  | none => rfl
  | some codec => exact if_neg (by simp [h codec hcodec])

/-! ## The statements -/

/-- Settles O11: the tests pass, and `State.construct` writes every register. -/
theorem constructEncoderResets : Obligations.ConstructEncoderResets := by
  intro g codec s hcodec hlogw hcapw heps htable
  rw [exec_constructEnc_of_legal s hcodec ((legalEnc_iff codec g).mpr ⟨hlogw, hcapw, heps, htable⟩)]
  simp [State.freshEnc, State.construct, State.answer, tableOf]

/-- Settles O12: a codec decoder's buffer is its bytes, a bare reader's is empty. -/
theorem constructDecoderResets : Obligations.ConstructDecoderResets := by
  intro g codec s hcodec hlogw hbytes htable
  by_cases hbs : codec = .bs
  · subst hbs
    refine ⟨[], ?_, fun a => rfl⟩
    rw [exec_constructDec_bare g s hcodec hbytes]
    rfl
  · refine ⟨memOfBytes 0 g.bytes, ?_, fun a => ?_⟩
    · rw [exec_constructDec_of_legal s hcodec ((legalDec_iff codec g).mpr ⟨hlogw, hbytes, htable⟩) hbs]
      simp [State.freshDec, State.construct, State.loadBytes, State.answer, tableOf, hbs]
    · rw [memRead_memOfBytes, if_pos (Nat.zero_le a), if_neg hbs, Nat.sub_zero]

/-- Settles O13: each cause falsifies one of the tests that make the operands legal. -/
theorem constructRefusesBadConfig : Obligations.ConstructRefusesBadConfig := by
  refine ⟨fun g s h => exec_constructEnc_illegal s fun codec hcodec => ?_,
    fun g s h => exec_constructDec_illegal s fun codec hcodec => ?_⟩
  · obtain hlarge | ⟨c, hc, hcause⟩ := h
    · rw [codecOf_eq_none hlarge] at hcodec
      cases hcodec
    · rw [hc, codecOf_codecCode] at hcodec
      cases hcodec
      by_contra hlegal
      obtain ⟨hlogw, hcapw, heps, htable⟩ := (legalEnc_iff _ g).mp (by simpa using hlegal)
      obtain ⟨hchp, hw⟩ | hk | ⟨helf, hnan | hinf | ⟨hsign, hzero⟩⟩ | ⟨hring, hrep⟩ := hcause
      · exact absurd (hlogw hchp) (by omega)
      · omega
      · simp [(heps helf).1] at hnan
      · simp [(heps helf).2.1] at hinf
      · simp [(heps helf).2.2 hsign] at hzero
      · simp [htable hring] at hrep
  · obtain hlarge | ⟨c, hc, hcause⟩ := h
    · rw [codecOf_eq_none hlarge] at hcodec
      cases hcodec
    · rw [hc, codecOf_codecCode] at hcodec
      cases hcodec
      by_contra hlegal
      obtain ⟨hlogw, hbytes, htable⟩ := (legalDec_iff _ g).mp (by simpa using hlegal)
      obtain ⟨hchp, hw⟩ | hlen | ⟨hring, hrep⟩ := hcause
      · exact absurd (hlogw hchp) (by omega)
      · omega
      · simp [htable hring] at hrep

end Machine
end Sys2Proof
end

section
/-! PROOFS. WRITELONG on a bare writer, the words of WBUF, and LOAD on a bare reader (rules R43, R60, R132, R140). -/

namespace Sys2Proof
namespace Machine

/-- Settles O15: `bswWriteLong` is one append of the field behind three tests. -/
theorem writeLongAppendsItsField : Obligations.WriteLongAppendsItsField := by
  intro s content len hwf hbare
  refine ⟨rfl, fun hf => ?_, fun hf hlen => ?_, fun hlen hf hroom => ?_, fun hlen hf hroom => ?_⟩
  · rw [exec_writeLong_of_bare hbare, bswWriteLong_eq, if_pos hf]
    rfl
  · rw [exec_writeLong_of_bare hbare, bswWriteLong_eq, if_neg (by simp [hf]), if_pos hlen]
    rfl
  · rw [exec_writeLong_of_bare hbare, bswWriteLong_eq, if_neg (by simp [hf]), if_neg (by omega), if_pos hroom]
    rfl
  · have happend := s.append_eq (bitsOf len.toNat content.toNat) (p := s.wpos + len.toNat) (by simp)
    refine ⟨_, (exec_writeLong_append hbare hf content len hlen hroom).trans (by rw [happend]; rfl), ?_⟩
    rw [← happend, s.stream_append _ hwf, bitsOf_toNat]

/-- Settles O19: a first LOAD writes the reader's registers, and the buffer holds the bytes' bits in order. -/
theorem loadFillsTheReader : Obligations.LoadFillsTheReader := by
  intro s bytes hbare
  refine ⟨fun hl => ?_, fun hl hlen => ?_⟩
  · rw [exec_load_of_bare hbare, bsrLoad, if_pos hl]
    rfl
  · exact ⟨memOfBytes 0 bytes, exec_load_bytes hbare hl bytes hlen, s.readerBit_loadBytes bytes⟩

/-- Bytes as one number, bit by bit: the bits of the bytes in order. -/
theorem natOfBytes_eq_natOfBits (bs : List Byte) : natOfBytes bs = natOfBits (bs.flatMap bitsOfByte) := by
  induction bs with
  | nil => rfl
  | cons b r ih =>
    have hb : natOfBits (bitsOfByte b) = b.toNat := by
      rw [bitsOfByte, natOfBits_bitsOf, Nat.mod_eq_of_lt b.isLt]
    rw [natOfBytes_cons, List.flatMap_cons, natOfBits_append, flatMap_bitsOfByte_length, hb, ih, pow_mul]
    norm_num

theorem memBytes_flatMap (m : Memory) (a n : Nat) :
    (memBytes m a n).flatMap bitsOfByte = (List.range (8 * n)).map fun i => memBit m (8 * a + i) := by
  apply List.ext_getElem
  · rw [flatMap_bitsOfByte_length, memBytes_length, List.length_map, List.length_range]
  · intro p hp _
    rw [flatMap_bitsOfByte_length, memBytes_length] at hp
    rw [← List.getD_eq_getElem _ false, flatMap_bitsOfByte_getD, List.getElem_map, List.getElem_range, memBit,
      Nat.mul_add_div (by omega), Nat.mul_add_mod, memBytes, List.getD_eq_getElem _ _ (by simp; omega)]
    simp

/-- Settles O24: the word's four bytes are 32 bits of the stream in order. -/
theorem wordsHoldTheStream : Obligations.WordsHoldTheStream := by
  intro s k hk
  refine ⟨_, if_pos hk, fun i hi => ?_⟩
  have hbit : s.stream[32 * k + i]? = some (memBit s.wbuf (32 * k + i)) := by
    rw [State.stream, List.getElem?_map, List.getElem?_range (by omega), Option.map_some]
  have hbits : (memBytes s.wbuf (4 * k) 4).flatMap bitsOfByte = (List.range 32).map fun i => memBit s.wbuf (32 * k + i) := by
    rw [memBytes_flatMap]
    norm_num [← Nat.mul_assoc]
  have hget := congrArg (·[i]?) (bitsOf_natOfBits ((List.range 32).map fun i => memBit s.wbuf (32 * k + i)))
  rw [hbit, natOfBytes_eq_natOfBits, hbits]
  simp only [bitsOf, List.length_map, List.length_range, List.getElem?_map, List.getElem?_range hi, Option.map_some,
    Option.some.injEq] at hget
  rw [← hget, BitVec.getLsbD_ofNat]
  simp
  omega

end Machine
end Sys2Proof
end

section
/-! PROOFS. Zero runs and buckets (rules R14, R96). -/

namespace Sys2Proof
namespace Machine

/-! ## Zero runs (rule R14) -/

theorem clz_zero (n : Nat) : clz n 0 = n := by
  by_contra h
  simpa using clz_top n 0 (lt_of_le_of_ne (clz_le n 0) h)

theorem ctz_zero (n : Nat) : ctz n 0 = n := by
  by_contra h
  simpa using ctz_top n 0 (lt_of_le_of_ne (ctz_le n 0) h)

theorem two_pow_le_of_getLsbD {x : Raw} {i : Nat} (h : x.getLsbD i = true) : 2 ^ i ≤ x.toNat :=
  Nat.ge_two_pow_of_testBit h

theorem two_pow_dvd_iff (x : Raw) (k : Nat) : 2 ^ k ∣ x.toNat ↔ ∀ i, i < k → x.getLsbD i = false := by
  constructor
  · rintro ⟨m, hm⟩ i hi
    rw [BitVec.getLsbD, hm, Nat.testBit_two_pow_mul]
    simp [hi]
  · intro h
    refine Nat.dvd_of_mod_eq_zero (Nat.eq_of_testBit_eq fun i => ?_)
    rw [Nat.testBit_mod_two_pow, Nat.zero_testBit]
    by_cases hi : i < k
    · rw [show x.toNat.testBit i = false from h i hi, Bool.and_false]
    · simp [hi]

/-- The highest bit set of a value that is not 0 stands right below its leading zeros. -/
theorem le_two_mul_of_clz {n : Nat} {x : Raw} (h : clz n x < n) : 2 ^ (n - clz n x) ≤ 2 * x.toNat := by
  have htop := two_pow_le_of_getLsbD (clz_top n x h)
  have hpow : 2 ^ (n - clz n x) = 2 * 2 ^ (n - 1 - clz n x) := by
    rw [← pow_succ', show n - 1 - clz n x + 1 = n - clz n x by omega]
  omega

theorem not_two_pow_dvd_of_ctz {n : Nat} {x : Raw} (h : ctz n x < n) : ¬2 ^ (ctz n x + 1) ∣ x.toNat := fun hdvd => by
  have hzero := (two_pow_dvd_iff x (ctz n x + 1)).mp hdvd (ctz n x) (by omega)
  simp [ctz_top n x h] at hzero

/-! ## Buckets (rule R96) -/

/-- The first of falling numbers that satisfies a test is the largest that does. -/
theorem le_of_find?_falling {l : List Nat} (hl : l.Pairwise (· > ·)) {p : Nat → Bool} {i b : Nat} (hi : i ∈ l)
    (hp : p i = true) (h : l.find? p = some b) : i ≤ b := by
  induction l with
  | nil => cases hi
  | cons a r ih =>
    obtain ⟨ha, hr⟩ := List.pairwise_cons.mp hl
    rw [List.find?_cons] at h
    cases hpa : p a with
    | true =>
      simp only [hpa, Option.some.injEq] at h
      obtain rfl | hi := List.mem_cons.mp hi
      · exact h.le
      · exact h ▸ (ha i hi).le
    | false =>
      simp only [hpa] at h
      obtain rfl | hi := List.mem_cons.mp hi
      · simp [hp] at hpa
      · exact ih hr hi h

theorem le_bucket {rep : List Nat} {c i : Nat} (hi : i ≤ 7) (h : leadOf rep i ≤ c) : i ≤ bucket rep c := by
  have hmem : i ∈ [7, 6, 5, 4, 3, 2, 1, 0] := by simp; omega
  obtain ⟨b, hb⟩ : ∃ b, [7, 6, 5, 4, 3, 2, 1, 0].find? (fun i => decide (leadOf rep i ≤ c)) = some b :=
    Option.isSome_iff_exists.mp (List.find?_isSome.mpr ⟨i, hmem, by simpa using h⟩)
  have hle := le_of_find?_falling (by decide) hmem (by simpa using h) hb
  rwa [bucket, hb, Option.getD_some]

theorem leadOf_mono {rep : List Nat} (h : legalLeadRep rep = true) {i j : Nat} (hij : i ≤ j) (hj : j ≤ 7) :
    leadOf rep i ≤ leadOf rep j := by
  simp only [legalLeadRep, Bool.and_eq_true, decide_eq_true_eq] at h
  obtain ⟨⟨⟨hlen, -⟩, hrising⟩, -⟩ := h
  obtain rfl | hlt := Nat.eq_or_lt_of_le hij
  · exact le_rfl
  · rw [leadOf, leadOf, List.getD_eq_getElem _ _ (by omega), List.getD_eq_getElem _ _ (by omega)]
    exact (List.pairwise_iff_getElem.mp hrising i j _ _ hlt).le

/-- A representative stands for itself. -/
theorem repOf_repOf {rep : List Nat} (h : legalLeadRep rep = true) (c : Nat) : repOf rep (repOf rep c) = repOf rep c := by
  have hlt := bucket_lt rep c
  have hlt' := bucket_lt rep (repOf rep c)
  have hbucket : bucket rep c ≤ bucket rep (repOf rep c) := le_bucket (by omega) le_rfl
  exact le_antisymm (repOf_le h _) (leadOf_mono h hbucket (by omega))

/-- Settles O46: the zero runs by the bits they count, the bucket as the largest index that qualifies. -/
theorem bitCountsAndBuckets : Obligations.BitCountsAndBuckets := by
  refine ⟨fun n x _ hx => ⟨?_, fun h0 => ?_⟩, fun rep c hrep => ?_⟩
  · rintro rfl
    exact ⟨clz_zero n, ctz_zero n⟩
  · have hsum := clz_add_ctz_lt n x hx h0
    exact ⟨by omega, toNat_lt_clz n x hx, le_two_mul_of_clz (by omega), (two_pow_dvd_iff x _).mpr (ctz_zeros n x),
      not_two_pow_dvd_of_ctz (by omega)⟩
  · exact ⟨Nat.le_of_lt_succ (bucket_lt rep c), repOf_le hrep c, fun i hi h => le_bucket hi h, repOf_le hrep c,
      repOf_repOf hrep c⟩

end Machine
end Sys2Proof
end

section
/-! PROOFS. The GOR encoder with room, and the illegal GOR records (rules R106, R160 to R167, R172, R173). -/

namespace Sys2Proof
namespace Machine

/-! ## The illegal records (rule R106) -/

/-- Settles O26: both records fail before anything is read or written. -/
theorem gorRefusesCorruptRecords : Obligations.GorRefusesCorruptRecords := by
  intro s hdec hfirst
  have hplace := atLater_of_not_first hfirst
  refine ⟨fun hclead p => ?_, fun l cnt p hlong => ?_⟩
  · change execGorReuse p s = _
    rw [execGorReuse, hdec.runs (by decide) hplace, hclead]
    rfl
  · change execGorNew l cnt p s = _
    rw [execGorNew, hdec.runs (by decide) hplace, if_pos (by rwa [sigOf_toNat])]
    rfl

/-! ## The encoder's records (rules R162 to R166) -/

theorem emitLong_put {s : State} (hf : s.flushed = false) (c : Raw) {k : Nat} (hk : k ≤ 64)
    (hroom : s.wpos + k ≤ 32 * s.capw) : emitLong c k s = .ok () (s.put (bitsOf k c.toNat)) := by
  rw [emitLong_eq, if_neg (by simp [hf]), if_neg (by omega), if_neg (by omega)]
  simp [State.put]

theorem toNat_ushiftRight_div (x : Raw) (k : Nat) : (x >>> k).toNat = x.toNat / 2 ^ k := by
  rw [BitVec.toNat_ushiftRight, Nat.shiftRight_eq_div_pow]

theorem gorEncodeReuse_put {s : State} (hf : s.flushed = false) (x : Raw) (cl ct : Nat)
    (hroom : s.wpos + 2 + (64 - cl - ct) ≤ 32 * s.capw) :
    gorEncodeReuse x cl ct s = .ok () (s.put ([true, false] ++ bitsOf (64 - cl - ct) (x.toNat / 2 ^ ct))) := by
  rw [gorEncodeReuse, emit_put hf 1 (k := 1) (by omega) (by omega), Eff.bind_ok,
    emit_put (s := s.put _) hf 0 (k := 1) (by omega) (by simp; omega), Eff.bind_ok, State.put_put,
    emitLong_put (s := s.put _) hf _ (by omega) (by simp; omega), State.put_put, toNat_ushiftRight_div]
  rfl

theorem gorEncodeNew_put {s : State} (hf : s.flushed = false) (x : Raw) (lead trail : Nat) (hlead : lead < 32)
    (hroom : s.wpos + 13 + (64 - lead - trail) ≤ 32 * s.capw) :
    gorEncodeNew x lead trail s = .ok () { s.put ([true, true] ++ bitsOf 5 lead ++ bitsOf 6 ((64 - lead - trail) % 64)
      ++ bitsOf (64 - lead - trail) (x.toNat / 2 ^ trail)) with clead := some lead, ctrail := trail } := by
  have hnat {v : Nat} (hv : v < 64) : (BitVec.ofNat 64 v).toNat = v := by
    rw [BitVec.toNat_ofNat, Nat.mod_eq_of_lt (by omega)]
  rw [gorEncodeNew, emit_put hf 1 (k := 1) (by omega) (by omega), Eff.bind_ok,
    emit_put (s := s.put _) hf 1 (k := 1) (by omega) (by simp; omega), Eff.bind_ok, State.put_put,
    emit_put (s := s.put _) hf _ (k := 5) (by omega) (by simp; omega), Eff.bind_ok, State.put_put, hnat (by omega),
    emit_put (s := s.put _) hf _ (k := 6) (by omega) (by simp; omega), Eff.bind_ok, State.put_put,
    hnat (Nat.mod_lt _ (by decide)),
    emitLong_put (s := s.put _) hf _ (by omega) (by simp; omega), Eff.bind_ok, State.put_put, toNat_ushiftRight_div]
  rfl

theorem admitEncoder_of_opened {s : State} (hdir : s.dir = .enc) (hphase : s.phase = .opened) (hcodec : s.codec ≠ .bs)
    (closed : SubCause) : admitEncoder closed s = none :=
  admitEncoder_eq_none.mpr ⟨by simp [hphase], hcodec, hdir, by simp [hphase]⟩

/-- ADDVALUE on an encoder that accepts values is its engine's step. -/
theorem exec_addValue_of_opened {s : State} (hdir : s.dir = .enc) (hphase : s.phase = .opened) (hcodec : s.codec ≠ .bs)
    (v : Raw) (hv : v.toNat < 2 ^ s.n) :
    exec (.addValue v) s = (encodeValue v s).outcome fun _ t => t.answer .unit := by
  change execAddValue v s = _
  rw [execAddValue, admitEncoder_of_opened hdir hphase hcodec, guarded_none, lowBits_of_lt hv]

theorem exec_addValue_gor {s : State} (h : s.encoding .gor) (v : Raw) :
    exec (.addValue v) s = (gorEncode v s).outcome fun _ t => t.answer .unit := by
  obtain ⟨hcodec, hdir, hphase⟩ := h
  have hn : s.n = 64 := by rw [State.n, hcodec]; rfl
  have hfits : v.toNat < 2 ^ s.n := by
    rw [hn]
    exact v.isLt
  rw [exec_addValue_of_opened hdir hphase (by simp [hcodec]) v hfits, encodeValue, hcodec]

theorem gorEncode_later {s t : State} {q v : Raw} (hfirst : s.first = false) (hprev : s.prev = some q)
    (h : gorEncodeXor (q ^^^ v) s = .ok () t) : gorEncode v s = .ok () { t with prev := some v } := by
  simp [gorEncode, hfirst, hprev, h]

/-- Settles O27: the record the XOR asks for is one append, and PREV is the value. -/
theorem gorEncodes : Obligations.GorEncodes := by
  intro s v henc hf
  rw [exec_addValue_gor henc]
  refine ⟨fun hfirst hroom => ?_, fun hfirst q x hprev hx => ⟨fun h0 hroom => ?_, fun h0 lead trail hlead htrail =>
    ⟨fun l hclead hl ht hroom => ?_, fun hnofit hroom => ?_⟩⟩⟩
  · rw [gorEncode, if_pos hfirst, gorEncodeLit, emitLong_put hf v (by omega) hroom]
    rfl
  · have hsame : gorEncodeXor (q ^^^ v) s = .ok () (s.put [false]) := by
      rw [gorEncodeXor, if_pos (hx ▸ h0)]
      exact emit_put hf 0 (by omega) hroom
    rw [gorEncode_later hfirst hprev hsame]
    rfl
  · have hfits : gorFits x s = true := by
      simp [gorFits, hclead, gorLead, ← hlead, ← htrail, hl, ht]
    have hreuse := gorEncodeReuse_put hf x l s.ctrail hroom
    rw [gorEncode_later hfirst hprev (by rw [← hx, gorEncodeXor, if_neg h0, if_pos hfits, hclead]; exact hreuse)]
    rfl
  · have hfits : gorFits x s = false := by
      cases hclead : s.clead with
      | none => simp [gorFits, hclead]
      | some l =>
        have := hnofit l hclead
        simp only [gorFits, hclead, gorLead, ← hlead, ← htrail, Bool.and_eq_false_iff, decide_eq_false_iff_not]
        omega
    have hnew := gorEncodeNew_put hf x lead trail (by omega) hroom
    rw [gorEncode_later hfirst hprev (by
      rw [← hx, gorEncodeXor, if_neg h0, hfits, if_neg (by decide), gorLead, ← hlead, ← htrail]; exact hnew)]
    rfl

end Machine
end Sys2Proof
end

section
/-! PROOFS. The CHP decoders: their records and the illegal ones (rules R102, R106, R181, R192 to R197). -/

namespace Sys2Proof
namespace Machine

/-! ## The end of a CHP record (rules R192, R197, R271) -/

theorem State.n_of_chp64 {s : State} (h : s.codec = .chp64) : s.n = 64 := by rw [State.n, h]; rfl
theorem State.n_of_chp32 {s : State} (h : s.codec = .chp32) : s.n = 32 := by rw [State.n, h]; rfl
theorem State.leadRep_of_64 {s : State} (h : s.n = 64) : s.leadRep = s.leadRep64 := by rw [State.leadRep, if_pos h]
theorem State.leadRep_of_32 {s : State} (h : s.n = 32) : s.leadRep = s.leadRep32 := by
  rw [State.leadRep, if_neg (by omega)]

theorem chpLit_eq {s : State} (h : s.pastEnd = false) (v : Raw) : chpLit v s = s.commitsFirst v := by
  rw [chpLit, finishRecord_none (s := { s with first := false }) h,
    finishRecord_some (s := commitFirst v { s with first := false }) h]
  rfl

theorem chpLater_eq {s : State} (h : s.pastEnd = false) (v : Raw) : chpLater v s = s.commitsLater v := by
  rw [chpLater, finishRecord_none h, finishRecord_some (s := commitLater v s) h]
  rfl

/-! ## The steps of a record (rules R193 to R196) -/

/-- A count of either width stands for a number of bits, 0 for all (rule R93). -/
theorem sigOf_bitVec {w : Nat} (n : Nat) (cnt : BitVec w) : sigOf n cnt.toNat = if cnt = 0 then n else cnt.toNat := by
  simp only [sigOf, BitVec.toNat_eq, BitVec.ofNat_eq_ofNat, BitVec.toNat_ofNat, Nat.zero_mod]

theorem stepRepeat_of_written {s : State} {slot : Nat} {r : Raw} (h : s.ringAt slot = some r) :
    stepRepeat slot s = .ok r { s with clead := none } := by rw [stepRepeat, h]

theorem stepFar_of_written {s : State} {n slot b cnt trail : Nat} {r : Raw} (h : s.ringAt slot = some r)
    (hfits : leadOf s.leadRep b + sigOf n cnt + trail = n) (p : Raw) :
    stepFar n slot b cnt p s = .ok (r ^^^ lowBits n (p <<< trail)) { s with clead := none } := by
  rw [stepFar, if_neg (by omega), h, show n - leadOf s.leadRep b - sigOf n cnt = trail by omega]

theorem stepReuse_of_window {s : State} {l : Nat} {q : Raw} (hclead : s.clead = some l) (hprev : s.prev = some q) (p : Raw) :
    stepReuse p s = .ok (q ^^^ p) s := by rw [stepReuse, hclead, stepXor, hprev]

theorem stepNew_of_prev {s : State} {q : Raw} (hprev : s.prev = some q) (b : Nat) (p : Raw) :
    stepNew b p s = .ok (q ^^^ p) { s with clead := some (leadOf s.leadRep b) } := by
  rw [stepNew, stepXor, hprev]

/-- A payload of 64 bits is shifted to its place without a bit to cut off. -/
theorem lowBits_64 (x : Raw) : lowBits 64 x = x := lowBits_of_lt x.isLt

/-- A payload of 32 bits is shifted to its place within its width. -/
theorem lowBits_32_shiftLeft (p : BitVec 32) (k : Nat) :
    lowBits 32 (p.setWidth 64 <<< k) = ((p <<< k).setWidth 64 : Raw) := by
  apply BitVec.eq_of_toNat_eq
  rw [lowBits_toNat, BitVec.toNat_shiftLeft, BitVec.toNat_setWidth, BitVec.toNat_setWidth, BitVec.toNat_shiftLeft,
    Nat.mod_eq_of_lt (a := p.toNat) (b := 2 ^ 64) (by have := p.isLt; omega), Nat.mod_mod_of_dvd _ (by decide : 2 ^ 32 ∣ 2 ^ 64),
    Nat.mod_eq_of_lt (b := 2 ^ 64) ((Nat.mod_lt _ (by decide)).trans (by decide))]

theorem stepRepeat_unwritten {s : State} {slot : Nat} (h : s.ringAt slot = none) :
    stepRepeat slot s = .raise .corruptStream .slotUnwritten s := by rw [stepRepeat, h]

theorem stepFar_badWindow {s : State} {n slot b cnt : Nat} (h : n < leadOf s.leadRep b + sigOf n cnt) (p : Raw) :
    stepFar n slot b cnt p s = .raise .corruptStream .badWindow s := by rw [stepFar, if_pos h]

theorem stepFar_unwritten {s : State} {n slot b cnt : Nat} (hfits : leadOf s.leadRep b + sigOf n cnt ≤ n)
    (h : s.ringAt slot = none) (p : Raw) : stepFar n slot b cnt p s = .raise .corruptStream .slotUnwritten s := by
  rw [stepFar, if_neg (by omega), h]

theorem stepReuse_noWindow {s : State} (h : s.clead = none) (p : Raw) :
    stepReuse p s = .raise .corruptStream .reuseNoWindow s := by rw [stepReuse, h]

/-! ## The records on a CHP decoder -/

/-- A later record of a CHP unit that gives a value commits it, and one that fails ends the command. -/
theorem chpRecord_runs {s : State} {codec : Codec} (h : s.decoding codec) (hcodec : codec ≠ .bs) (hfirst : s.first = false)
    (e : State → Eff Raw) :
    (onDecoder codec atLater s fun s => (e s).outcome chpLater) = (e s).outcome chpLater :=
  h.runs hcodec (atLater_of_not_first hfirst) _

/-- Settles O29: each record is one commit behind its step, on the cursor and the window the step leaves. -/
theorem chp64Decodes : Obligations.Chp64Decodes := by
  intro s hdec hpast
  have hrep := State.leadRep_of_64 (State.n_of_chp64 hdec.1)
  refine ⟨fun hfirst v => ?_, fun hfirst => ⟨fun slot r hslot => ?_, fun slot b3 cnt p r sig trail hsig hfits hslot => ?_,
    fun p l q hclead hprev => ?_, fun b3 p q hprev => ?_⟩⟩
  · change execChp64Lit v s = _
    rw [execChp64Lit, hdec.runs (place := atFirst) (by decide) hfirst, chpLit_eq hpast]
  · change execChp64Repeat slot s = _
    rw [execChp64Repeat, chpRecord_runs hdec (by decide) hfirst, stepRepeat_of_written hslot, Eff.outcome_ok, chpLater_eq (by exact hpast)]
  · rw [← sigOf_bitVec] at hsig
    change execChp64Far slot b3 cnt p s = _
    rw [execChp64Far, chpRecord_runs hdec (by decide) hfirst, stepFar_of_written hslot (by rw [hrep, ← hsig]; exact hfits), lowBits_64,
      Eff.outcome_ok, chpLater_eq (by exact hpast)]
  · change execChp64Reuse p s = _
    rw [execChp64Reuse, chpRecord_runs hdec (by decide) hfirst, stepReuse_of_window hclead hprev, Eff.outcome_ok, chpLater_eq hpast]
  · change execChp64New b3 p s = _
    rw [execChp64New, chpRecord_runs hdec (by decide) hfirst, stepNew_of_prev hprev, Eff.outcome_ok, chpLater_eq (by exact hpast), hrep]

/-- Settles O30: as on CHP64, with payloads of 32 bits. -/
theorem chp32Decodes : Obligations.Chp32Decodes := by
  intro s hdec hpast
  have hrep := State.leadRep_of_32 (State.n_of_chp32 hdec.1)
  refine ⟨fun hfirst v => ?_, fun hfirst => ⟨fun slot r hslot => ?_, fun slot b3 cnt p r sig trail hsig hfits hslot => ?_,
    fun p l q hclead hprev => ?_, fun b3 p q hprev => ?_⟩⟩
  · change execChp32Lit v s = _
    rw [execChp32Lit, hdec.runs (place := atFirst) (by decide) hfirst, chpLit_eq hpast]
  · change execChp32Repeat slot s = _
    rw [execChp32Repeat, chpRecord_runs hdec (by decide) hfirst, stepRepeat_of_written hslot, Eff.outcome_ok, chpLater_eq (by exact hpast)]
  · rw [← sigOf_bitVec] at hsig
    change execChp32Far slot b3 cnt p s = _
    rw [execChp32Far, chpRecord_runs hdec (by decide) hfirst, stepFar_of_written hslot (by rw [hrep, ← hsig]; exact hfits),
      lowBits_32_shiftLeft, Eff.outcome_ok, chpLater_eq (by exact hpast)]
  · change execChp32Reuse p s = _
    rw [execChp32Reuse, chpRecord_runs hdec (by decide) hfirst, stepReuse_of_window hclead hprev, Eff.outcome_ok, chpLater_eq hpast]
  · change execChp32New b3 p s = _
    rw [execChp32New, chpRecord_runs hdec (by decide) hfirst, stepNew_of_prev hprev, Eff.outcome_ok, chpLater_eq (by exact hpast), hrep]

/-- Settles O31: each illegal record fails in its step, BadWindow before SlotUnwritten. -/
theorem chpRefusesCorruptRecords : Obligations.ChpRefusesCorruptRecords := by
  refine ⟨fun s hdec hfirst => ?_, fun s hdec hfirst => ?_⟩
  · have hrep := State.leadRep_of_64 (State.n_of_chp64 hdec.1)
    have hruns := chpRecord_runs hdec (by decide) hfirst
    refine ⟨fun slot hslot => ?_, fun slot b3 cnt p n hn => ⟨fun hlong => ?_, fun hfits hslot => ?_⟩, fun hclead p => ?_⟩
    · exact (hruns _).trans (by rw [stepRepeat_unwritten hslot]; rfl)
    · rw [← sigOf_bitVec, ← hrep] at hn
      exact (hruns _).trans (by rw [stepFar_badWindow (hn ▸ hlong)]; rfl)
    · rw [← sigOf_bitVec, ← hrep] at hn
      exact (hruns _).trans (by rw [stepFar_unwritten (hn ▸ hfits) hslot]; rfl)
    · exact (hruns _).trans (by rw [stepReuse_noWindow hclead]; rfl)
  · have hrep := State.leadRep_of_32 (State.n_of_chp32 hdec.1)
    have hruns := chpRecord_runs hdec (by decide) hfirst
    refine ⟨fun slot hslot => ?_, fun slot b3 cnt p n hn => ⟨fun hlong => ?_, fun hfits hslot => ?_⟩, fun hclead p => ?_⟩
    · exact (hruns _).trans (by rw [stepRepeat_unwritten hslot]; rfl)
    · rw [← sigOf_bitVec, ← hrep] at hn
      exact (hruns _).trans (by rw [stepFar_badWindow (hn ▸ hlong)]; rfl)
    · rw [← sigOf_bitVec, ← hrep] at hn
      exact (hruns _).trans (by rw [stepFar_unwritten (hn ▸ hfits) hslot]; rfl)
    · exact (hruns _).trans (by rw [stepReuse_noWindow hclead]; rfl)

end Machine
end Sys2Proof
end

section
/-! PROOFS. Candidate selection of the Chimp encoders, and the record of the candidate (rules R182 to R190, R199). -/

namespace Sys2Proof
namespace Machine

/-! ## Candidate selection (rule R185) -/

/-- Rule R185 leaves no choice: what it selects is what the encoder chooses. -/
theorem choose_of_selects {s : State} {v x : Raw} {far : Bool} {slot : Nat} (h : s.selects v far slot x) :
    ∃ c, choose v s = some c ∧ c.far = far ∧ c.slot = slot ∧ c.x = x := by
  have hw : s.w = 2 ^ s.logw := rfl
  rcases h with ⟨rfl, hnear, rfl, ⟨r, hr, rfl⟩, hfar⟩ | ⟨rfl, rfl, ⟨r, hr, rfl⟩, hclose⟩
  · refine ⟨{ far := true
              slot := idxRead s.idx (keyOf s.n s.logw v) % 2 ^ s.logw
              x := v ^^^ r
              trail := ctz s.n (v ^^^ r) }, ?_, rfl, rfl, rfl⟩
    rw [choose, hw, if_pos hnear, hr, Option.bind_some, if_pos hfar]
  · refine ⟨{ far := false, slot := s.index % 2 ^ s.logw, x := v ^^^ r, trail := 0 }, ?_, rfl, rfl, rfl⟩
    have hprevious : choosePrevious v s = some { far := false, slot := s.index % 2 ^ s.logw, x := v ^^^ r, trail := 0 } := by
      rw [choosePrevious, hw, hr, Option.map_some]
    by_cases hnear : s.index - idxRead s.idx (keyOf s.n s.logw v) < s.w
    · obtain ⟨u, hu, hctz⟩ := hclose hnear
      rw [choose, if_pos hnear, hw, hu, Option.bind_some, if_neg (by omega), hprevious]
    · rw [choose, if_neg hnear, hprevious]

theorem State.selects.unique {s : State} {v x y : Raw} {far far' : Bool} {slot slot' : Nat} (h : s.selects v far slot x)
    (h' : s.selects v far' slot' y) : far = far' ∧ slot = slot' ∧ x = y := by
  obtain ⟨c, hc, rfl, rfl, rfl⟩ := choose_of_selects h
  obtain ⟨d, hd, rfl, rfl, rfl⟩ := choose_of_selects h'
  cases hc.symm.trans hd
  exact ⟨rfl, rfl, rfl⟩

/-- Values with the same key are those whose XOR has more than `T` trailing zeros (rules R182, R185). -/
theorem keyOf_eq_iff {n logw : Nat} (hT : threshold n logw < n) (v r : Raw) :
    keyOf n logw v = keyOf n logw r ↔ threshold n logw < ctz n (v ^^^ r) := by
  have hbits : keyOf n logw v = keyOf n logw r ↔ ∀ i, i < keyBits n logw → (v ^^^ r).getLsbD i = false := by
    simp only [keyOf, BitVec.getLsbD_xor, bne_eq_false_iff_eq]
    simp only [BitVec.getLsbD]
    constructor
    · intro h i hi
      have := congrArg (Nat.testBit · i) h
      simpa [Nat.testBit_mod_two_pow, hi] using this
    · intro h
      refine Nat.eq_of_testBit_eq fun i => ?_
      rw [Nat.testBit_mod_two_pow, Nat.testBit_mod_two_pow]
      by_cases hi : i < keyBits n logw
      · rw [h i hi]
      · simp [hi]
  rw [hbits]
  unfold keyBits
  constructor
  · intro h
    by_contra hle
    have htop := ctz_top n (v ^^^ r) (by omega)
    simp [h (ctz n (v ^^^ r)) (by omega)] at htop
  · exact fun h i hi => ctz_zeros n _ i (by omega)

theorem threshold_lt_n {s : State} (h : s.logw ≤ 16) : threshold s.n s.logw < s.n := by
  obtain hn | hn : s.n = 64 ∨ s.n = 32 := width_eq s.codec
  · rw [hn, threshold, if_pos rfl]
    omega
  · rw [hn, threshold, if_neg (by omega)]
    omega

section
variable {s : State} {v : Raw} (h : Inv s) (hdir : s.dir = .enc) (hphase : s.phase = .opened) (hring : hasRing s.codec = true)
  (hfirst : s.first = false)
include h hdir hphase hring hfirst

theorem exists_selects (v : Raw) : ∃ c : Choice, s.selects v c.far c.slot c.x := by
  obtain ⟨c, hc⟩ := Option.ne_none_iff_exists'.mp (choose_isSome (chpPre_of_inv h hdir hphase hring) hfirst v)
  exact ⟨c, (choose_selects hc).1⟩

/-- The fall-back reference is the last value, whose own key leads to it: were the XOR's zeros many, it would be a far
match (rule R185(e)). -/
theorem State.selects.ctz_le {slot : Nat} {x : Raw} (hsel : s.selects v false slot x) :
    x ≠ 0 ∧ ctz s.n x ≤ threshold s.n s.logw := by
  have hlogw : s.logw ≤ 16 := h.2.1.1
  have hT := threshold_lt_n hlogw
  suffices hle : ctz s.n x ≤ threshold s.n s.logw from ⟨fun h0 => by rw [h0, ctz_zero] at hle; omega, hle⟩
  have hpre := chpPre_of_inv h hdir hphase hring
  obtain ⟨-, last, hlast, hkey⟩ := hpre.2.2.2.2 hfirst
  rcases hsel with ⟨hfar, -⟩ | ⟨-, rfl, ⟨r, hr, rfl⟩, hclose⟩
  · cases hfar
  · cases hr.symm.trans hlast
    by_contra hmany
    have hsame := (keyOf_eq_iff hT v last).mpr (by omega)
    rw [hsame, hkey] at hclose
    obtain ⟨u, hu, hctz⟩ := hclose (by rw [Nat.sub_self]; positivity)
    cases hr.symm.trans hu
    exact hmany hctz

end

/-- Settles O33: a candidate exists as every slot it may read is written, and rule R185 determines it. -/
theorem candidateSelectionIsSound : Obligations.CandidateSelectionIsSound := by
  intro s v h hdir hphase hring hfirst _
  obtain ⟨c, hc⟩ := exists_selects h hdir hphase hring hfirst v
  refine ⟨⟨(c.far, c.slot, c.x), hc, ?_⟩, fun far slot x hsel => ⟨hsel.slot_spec.1, ?_, ?_⟩⟩
  · rintro ⟨far, slot, x⟩ hsel
    obtain ⟨rfl, rfl, rfl⟩ := hc.unique hsel
    rfl
  · rintro rfl
    rcases hsel with ⟨-, hnear, -⟩ | ⟨hfar, -⟩
    · have : 0 < 2 ^ s.logw := by positivity
      omega
    · cases hfar
  · rintro rfl
    exact hsel.ctz_le h hdir hphase hring hfirst

/-- Settles O34: with one slot every candidate is the last value, far or not by its trailing zeros. -/
theorem singlePreviousValueChimp : Obligations.SinglePreviousValueChimp := by
  intro s v h hdir hphase hring hfirst _ hlogw
  have hn : s.n = 64 ∨ s.n = 32 := width_eq s.codec
  refine ⟨?_, by rcases hn with hn | hn <;> simp [hn, threshold], rfl, by rcases hn with hn | hn <;> simp [hn, flagOne]⟩
  obtain ⟨c, hc⟩ := exists_selects h hdir hphase hring hfirst v
  obtain ⟨hslot, q, hq, hx⟩ := hc.slot_spec
  rw [hlogw] at hslot
  obtain hzero : c.slot = 0 := by omega
  rw [hzero] at hc hq
  have hfar : c.far = decide (threshold s.n 0 < ctz s.n c.x) := by
    cases hcf : c.far with
    | true => simpa [hlogw] using hc.far_lt hcf
    | false =>
      rw [hcf] at hc
      have := (hc.ctz_le h hdir hphase hring hfirst).2
      rw [hlogw] at this
      simpa using this
  refine ⟨q, hq, fun far slot x => ⟨fun hsel => ?_, ?_⟩⟩
  · obtain ⟨rfl, rfl, rfl⟩ := hc.unique hsel
    exact ⟨rfl, hx, hfar⟩
  · rintro ⟨rfl, rfl, rfl⟩
    rwa [← hx, ← hfar]

/-! ## The record of the candidate (rules R183 to R190) -/

/-- The count of a far match always fits its field, as more than one low bit of the XOR is left out (rule R187). -/
theorem farSig_lt {s : State} {x : Raw} (hfar : threshold s.n s.logw < ctz s.n x) :
    farSig x (ctz s.n x) s < 2 ^ cntBits s.n := by
  have hpow : 2 ^ cntBits s.n = s.n := cntBits_pow s.codec
  have hn := @chpPre.n_ge s
  rw [hpow]
  unfold farSig
  omega

theorem chpEncodeFar_of_room {s : State} {slot : Nat} {x : Raw} (hf : s.flushed = false) (hlogw : s.logw ≤ 16)
    (hslot : slot < 2 ^ s.logw) (hfar : threshold s.n s.logw < ctz s.n x)
    (hroom : s.wpos + (2 + s.logw + 3 + cntBits s.n + farSig x (ctz s.n x) s) ≤ 32 * s.capw) :
    chpEncodeFar slot x (ctz s.n x) s =
      .ok () { s.put ([false, true] ++ bitsOf s.logw slot ++ bitsOf 3 (bucket s.leadRep (clz s.n x))
        ++ bitsOf (cntBits s.n) (farSig x (ctz s.n x) s)
        ++ bitsOf (farSig x (ctz s.n x) s) (x.toNat / 2 ^ ctz s.n x)) with clead := none } := by
  have hsig := farSig_lt hfar
  have hb := bucket_lt s.leadRep (clz s.n x)
  have hone := flagOne_eq (n := s.n) s.logw
  have hcnt := cntBits_le s.n
  have hhead := (BitVec.toNat_ofNat _ 64).trans (Nat.mod_eq_of_lt (farHeader_lt hlogw hslot hb hsig))
  have hput : ∀ bs, farSig x (ctz s.n x) (s.put bs) = farSig x (ctz s.n x) s := fun _ => rfl
  rw [chpEncodeFar, emit_put hf _ (by omega) (by omega), Eff.bind_ok, hhead, bitsOf_farHeader hslot hb hsig, hput,
    emitField_put (s := s.put _) hf _ (farSig_le x _ s) (by simp; omega), Eff.bind_ok, toNat_ushiftRight_div, State.put_put]

/-- The record of the candidate selected is one append, for every table and every ring entry. -/
theorem chpEncodeChoice_of_room {s : State} {c : Choice} (hf : s.flushed = false) (hlogw : s.logw ≤ 16)
    (hslot : c.slot < 2 ^ s.logw) (hfar : c.far = true → threshold s.n s.logw < ctz s.n c.x)
    (htrail : c.far = true → c.trail = ctz s.n c.x)
    (hroom : s.wpos + (s.chpRecord c.far c.slot c.x).1.length ≤ 32 * s.capw) :
    chpEncodeChoice c s =
      .ok () { s.put (s.chpRecord c.far c.slot c.x).1 with clead := (s.chpRecord c.far c.slot c.x).2 } := by
  unfold State.chpRecord at hroom ⊢
  unfold chpEncodeChoice
  split_ifs at hroom ⊢ with h0 hf' hreuse
  all_goals simp only [List.length_append, List.length_cons, List.length_nil, bitsOf_length] at hroom
  · exact chpEncodeRepeat_put hf hlogw hslot (by omega)
  · rw [htrail hf']
    exact chpEncodeFar_of_room hf hlogw hslot (hfar hf') (by unfold farSig; omega)
  · exact chpEncodeReuse_put hf (by omega)
  · exact chpEncodeNew_put hf (bucket_lt _ _) (by omega)

/-- The engine step behind a later value: the record of what rule R185 selects, then the insertion. -/
theorem chpEncode_of_selects {s : State} (hfirst : s.first = false) (hf : s.flushed = false) (hlogw : s.logw ≤ 16)
    {v x : Raw} {far : Bool} {slot : Nat} (hsel : s.selects v far slot x)
    (hroom : s.wpos + (s.chpRecord far slot x).1.length ≤ 32 * s.capw) :
    chpEncode v s =
      .ok () (chpInsert v { s.put (s.chpRecord far slot x).1 with clead := (s.chpRecord far slot x).2 }) := by
  obtain ⟨c, hc, rfl, rfl, rfl⟩ := choose_of_selects hsel
  have hput := chpEncodeChoice_of_room hf hlogw hsel.slot_spec.1 hsel.far_lt (choose_selects hc).2 hroom
  simp [chpEncode, hfirst, hc, hput]

theorem exec_addValue_chp {s : State} (h : s.encoding .chp64 ∨ s.encoding .chp32) (v : Raw) (hv : v.toNat < 2 ^ s.n) :
    exec (.addValue v) s = (chpEncode v s).outcome fun _ t => t.answer .unit := by
  obtain ⟨hcodec, hdir, hphase⟩ | ⟨hcodec, hdir, hphase⟩ := h
  · rw [exec_addValue_of_opened hdir hphase (by simp [hcodec]) v hv, encodeValue, hcodec]
  · rw [exec_addValue_of_opened hdir hphase (by simp [hcodec]) v hv, encodeValue, hcodec]

/-- Settles O32: the literal, or the record of the candidate and the insertion. -/
theorem chpEncodes : Obligations.ChpEncodes := by
  intro s v henc hf hlogw hv
  rw [exec_addValue_chp henc v hv]
  refine ⟨fun hfirst hroom => ?_, fun hfirst far slot x hsel hroom => ?_⟩
  · rw [chpEncode_first hfirst hf v hroom]
    rfl
  · rw [chpEncode_of_selects hfirst hf hlogw hsel hroom]
    rfl

end Machine
end Sys2Proof
end

section
/-! PROOFS. The ELF decoders, code by code, the illegal codes, and the ELF encoder (rules R103, R104, R106, R226 to R231). -/

namespace Sys2Proof
namespace Machine

/-! ## Erasure codes (rules R103, R231) -/

theorem atErasure_of_start {s : State} (h : s.pend = none) : atErasure s = true := by simp [atErasure, h]

theorem elfEraseSame_of_signalled {s : State} {b : Nat} (h : s.lastbs = some b) :
    elfEraseSame s = { s with pend := some true } := by rw [elfEraseSame, h]

theorem elfEraseSame_of_none {s : State} (h : s.lastbs = none) : elfEraseSame s = s.fails .corruptStream .eraseNoBetaStar := by
  rw [elfEraseSame, h]
  rfl

/-- Settles O36: at the start of a record each code is one effect on LASTBS and on what is pending. -/
theorem elfErasureCodes : Obligations.ElfErasureCodes := by
  intro s hpend
  have hplace := atErasure_of_start hpend
  refine ⟨fun hdec => ?_, fun hdec => ?_⟩
  · have hruns := hdec.runs (by decide) hplace
    refine ⟨fun b hb => ?_, fun hnone => ?_, ?_, fun b => ?_⟩
    · change execElf64EraseSame s = _
      rw [execElf64EraseSame, hruns, elfEraseSame_of_signalled hb]
    · change execElf64EraseSame s = _
      rw [execElf64EraseSame, hruns, elfEraseSame_of_none hnone]
    · change execElf64Raw s = _
      rw [execElf64Raw, hruns, elfRaw]
    · change execElf64EraseNew b s = _
      rw [execElf64EraseNew, hruns, elfEraseNew]
  · have hruns := hdec.runs (by decide) hplace
    refine ⟨fun b hb => ?_, fun hnone => ?_, ?_, fun b => ?_⟩
    · change execElf32EraseSame s = _
      rw [execElf32EraseSame, hruns, elfEraseSame_of_signalled hb]
    · change execElf32EraseSame s = _
      rw [execElf32EraseSame, hruns, elfEraseSame_of_none hnone]
    · change execElf32Raw s = _
      rw [execElf32Raw, hruns, elfRaw]
    · change execElf32EraseNew b s = _
      rw [execElf32EraseNew, hruns, elfEraseNew]

/-! ## XOR-stage records (rules R104, R231) -/

theorem atXFirst_of {s : State} (hpend : s.pend ≠ none) (hfirst : s.first = true) : atXFirst s = true := by
  simp [atXFirst, Option.isSome_iff_ne_none, hpend, hfirst]

theorem atXLater_of {s : State} (hpend : s.pend ≠ none) (hfirst : s.first = false) : atXLater s = true := by
  simp [atXLater, Option.isSome_iff_ne_none, hpend, hfirst]

/-- A later XOR-stage record on an ELF decoder behind an erasure code runs as its step. -/
theorem elfRecord_runs {s : State} {codec : Codec} (h : s.decoding codec) (hcodec : codec ≠ .bs) (hmid : s.pend ≠ none)
    (hfirst : s.first = false) (e : State → Eff Raw) :
    (onDecoder codec atXLater s fun s => (e s).outcome elfLater) = (e s).outcome elfLater :=
  h.runs hcodec (atXLater_of hmid hfirst) _

section
variable {s : State} {e : Bool} (hpast : s.pastEnd = false) (hpend : s.pend = some e)
include hpast hpend

/-- A step that gives the value `v` and leaves `clead` commits `v`, then delivers or restores it. -/
theorem outcome_elfLater {step : Eff Raw} {v : Raw} {clead : Option Nat} (h : step = .ok v { s with clead := clead }) :
    step.outcome elfLater = .next (({ s with pend := none, clead := clead }.holdsLater v).restores e v) := by
  rw [h, Eff.outcome_ok, elfLater_eq (s := { s with clead := clead }) hpend hpast]

theorem outcome_xRepeat {r : Raw} (hring : s.ringAt 0 = some r) : (stepRepeat 0 s).outcome elfLater =
    .next (({ s with pend := none, clead := none }.holdsLater r).restores e r) :=
  outcome_elfLater hpast hpend (stepRepeat_of_written hring)

theorem outcome_xFar {r : Raw} (hring : s.ringAt 0 = some r) {n b cnt trail : Nat}
    (hfits : leadOf s.leadRep b + sigOf n cnt + trail = n) (p : Raw) : (stepFar n 0 b cnt p s).outcome elfLater =
      .next (({ s with pend := none, clead := none }.holdsLater (r ^^^ lowBits n (p <<< trail))).restores e
        (r ^^^ lowBits n (p <<< trail))) :=
  outcome_elfLater hpast hpend (stepFar_of_written hring hfits p)

theorem outcome_xReuse {l : Nat} {q : Raw} (hclead : s.clead = some l) (hprev : s.prev = some q) (p : Raw) :
    (stepReuse p s).outcome elfLater = .next (({ s with pend := none }.holdsLater (q ^^^ p)).restores e (q ^^^ p)) :=
  outcome_elfLater hpast hpend (clead := s.clead) (stepReuse_of_window hclead hprev p)

theorem outcome_xNew {q : Raw} (hprev : s.prev = some q) (b : Nat) (p : Raw) : (stepNew b p s).outcome elfLater =
    .next (({ s with pend := none, clead := some (leadOf s.leadRep b) }.holdsLater (q ^^^ p)).restores e (q ^^^ p)) :=
  outcome_elfLater hpast hpend (stepNew_of_prev hprev b p)

end

/-- Settles O37: behind an erasure code each record is its step's value committed, then delivered or restored. -/
theorem elf64Decodes : Obligations.Elf64Decodes := by
  intro s e hdec hpast hpend
  have hrep := State.leadRep_of_64 (State.n_of_elf64 hdec.1)
  have hmid : s.pend ≠ none := by simp [hpend]
  refine ⟨fun hfirst v => ?_, fun hfirst => ?_⟩
  · change execElf64XLit v s = _
    rw [execElf64XLit, hdec.runs (by decide) (atXFirst_of hmid hfirst), elfLit_eq hpend hpast]
  have hruns := elfRecord_runs hdec (by decide) hmid hfirst
  refine ⟨fun r hring => ⟨?_, fun b3 cnt p sig trail hsig hfits => ?_⟩, fun q hprev => ⟨fun p l hclead => ?_, fun b3 p => ?_⟩⟩
  · exact (hruns _).trans (outcome_xRepeat hpast hpend hring)
  · rw [← sigOf_bitVec] at hsig
    have hfar := outcome_xFar hpast hpend hring (b := b3.toNat) (by rw [hrep, ← hsig]; exact hfits) p
    rw [lowBits_64] at hfar
    exact (hruns _).trans hfar
  · exact (hruns _).trans (outcome_xReuse hpast hpend hclead hprev p)
  · exact (hruns _).trans ((outcome_xNew hpast hpend hprev b3.toNat p).trans (by rw [hrep]))

/-- Settles O38: as on ELF64, with payloads of 32 bits. -/
theorem elf32Decodes : Obligations.Elf32Decodes := by
  intro s e hdec hpast hpend
  have hrep := State.leadRep_of_32 (State.n_of_elf32 hdec.1)
  have hmid : s.pend ≠ none := by simp [hpend]
  refine ⟨fun hfirst v => ?_, fun hfirst => ?_⟩
  · change execElf32XLit v s = _
    rw [execElf32XLit, hdec.runs (by decide) (atXFirst_of hmid hfirst), elfLit_eq hpend hpast]
  have hruns := elfRecord_runs hdec (by decide) hmid hfirst
  refine ⟨fun r hring => ⟨?_, fun b3 cnt p sig trail hsig hfits => ?_⟩, fun q hprev => ⟨fun p l hclead => ?_, fun b3 p => ?_⟩⟩
  · exact (hruns _).trans (outcome_xRepeat hpast hpend hring)
  · rw [← sigOf_bitVec] at hsig
    have hfar := outcome_xFar hpast hpend hring (b := b3.toNat) (by rw [hrep, ← hsig]; exact hfits) (p.setWidth 64)
    rw [lowBits_32_shiftLeft] at hfar
    exact (hruns _).trans hfar
  · exact (hruns _).trans (outcome_xReuse hpast hpend hclead hprev (p.setWidth 64))
  · exact (hruns _).trans ((outcome_xNew hpast hpend hprev b3.toNat (p.setWidth 64)).trans (by rw [hrep]))

/-- Settles O39: REUSE and FAR fail in their steps. -/
theorem elfRefusesCorruptRecords : Obligations.ElfRefusesCorruptRecords := by
  intro s hmid hfirst
  refine ⟨fun hdec => ?_, fun hdec => ?_⟩
  · have hrep := State.leadRep_of_64 (State.n_of_elf64 hdec.1)
    have hruns := elfRecord_runs hdec (by decide) hmid hfirst
    refine ⟨fun hclead p => ?_, fun b3 cnt p hlong => ?_⟩
    · exact (hruns _).trans (by rw [stepReuse_noWindow hclead]; rfl)
    · rw [← sigOf_bitVec, ← hrep] at hlong
      exact (hruns _).trans (by rw [stepFar_badWindow hlong]; rfl)
  · have hrep := State.leadRep_of_32 (State.n_of_elf32 hdec.1)
    have hruns := elfRecord_runs hdec (by decide) hmid hfirst
    refine ⟨fun hclead p => ?_, fun b3 cnt p hlong => ?_⟩
    · exact (hruns _).trans (by rw [stepReuse_noWindow hclead]; rfl)
    · rw [← sigOf_bitVec, ← hrep] at hlong
      exact (hruns _).trans (by rw [stepFar_badWindow hlong]; rfl)

/-! ## The encoder (rules R226 to R230) -/

theorem exec_addValue_elfEncode {s : State} (h : s.encoding .elf64 ∨ s.encoding .elf32) (v : Raw) (hv : v.toNat < 2 ^ s.n) :
    exec (.addValue v) s = (elfEncode v s).outcome fun _ t => t.answer .unit := by
  obtain ⟨hcodec, hdir, hphase⟩ | ⟨hcodec, hdir, hphase⟩ := h
  · rw [exec_addValue_of_opened hdir hphase (by simp [hcodec]) v hv, encodeValue, hcodec]
  · rw [exec_addValue_of_opened hdir hphase (by simp [hcodec]) v hv, encodeValue, hcodec]

/-- With one slot an insertion replaces the value in it (rule R190). -/
theorem chpInsert_of_one {s : State} (h : s.logw = 0) (v : Raw) : chpInsert v s = { s with
    ring := tableInsert s.ring 0 v, index := s.index + 1, idx := idxWrite s.idx (keyOf s.n 0 v) (s.index + 1) } := by
  rw [chpInsert, State.w, ringSize, h, pow_zero, Nat.mod_one]

/-- Settles O40: outside the domain nothing is written; inside, the XOR stage runs behind the erasure code. -/
theorem elfEncodes : Obligations.ElfEncodes := by
  intro s v henc hv
  rw [exec_addValue_elfEncode henc v hv]
  refine ⟨fun hspecial => ?_, fun hnan hinf hf hlogw bits bs v' hE => ⟨fun hfirst hroom => ?_,
    fun hfirst far slot x hsel hroom => ?_⟩⟩
  · rw [elfEncode, if_pos (by simpa using hspecial)]
    rfl
  · have hfinite := elfEncodeFinite_eq hf hv (by rw [hE]; change s.wpos + bits.length ≤ _; omega)
    rw [hE] at hfinite
    rw [elfEncode, if_neg (by simp [hnan, hinf]), hfinite,
      chpEncode_first (s := { s.put bits with lastbs := bs }) hfirst hf v' hroom, Eff.outcome_ok, ← State.put_put, ← hlogw]
    rfl
  · have hfinite := elfEncodeFinite_eq hf hv (by rw [hE]; change s.wpos + bits.length ≤ _; omega)
    rw [hE] at hfinite
    rw [elfEncode, if_neg (by simp [hnan, hinf]), hfinite,
      chpEncode_of_selects (s := { s.put bits with lastbs := bs }) hfirst hf (by change s.logw ≤ 16; omega) hsel hroom,
      Eff.outcome_ok, chpInsert_of_one (by exact hlogw), ← State.put_put]
    rfl

end Machine
end Sys2Proof
end

section
/-! PROOFS. The phase table of rule R262: what each command's row answers, and that a refused command only responds. -/

namespace Sys2Proof
namespace Machine

/-- The answer of the phase table to a command: none where the command is legal, else the sub-cause. CONSTRUCT is
legal in every phase, and a wire code has no row of its own. -/
def admission (i : Instr) (s : State) : Option SubCause :=
  match i with
  | .addValue _ => admitEncoder .addAfterClose s
  | .close => admitEncoder .secondClose s
  | .getBytes => admitGetBytes s
  | .getSize => admitGetSize s
  | .next | .decompress => admitDecoder s
  | i => (unitDir i).bind fun d => admitUnit d s

@[simp] theorem admission_addValue (v : BitVec 64) (s : State) :
    admission (.addValue v) s = admitEncoder .addAfterClose s := rfl
@[simp] theorem admission_close (s : State) : admission .close s = admitEncoder .secondClose s := rfl
@[simp] theorem admission_getBytes (s : State) : admission .getBytes s = admitGetBytes s := rfl
@[simp] theorem admission_getSize (s : State) : admission .getSize s = admitGetSize s := rfl
@[simp] theorem admission_next (s : State) : admission .next s = admitDecoder s := rfl
@[simp] theorem admission_decompress (s : State) : admission .decompress s = admitDecoder s := rfl

theorem admission_unit {i : Instr} {d : Dir} (h : unitDir i = some d) (s : State) :
    admission i s = admitUnit d s := by
  cases i <;> cases h <;> rfl

theorem guarded_refused {adm : Option SubCause} {s : State} {sub : SubCause}
    {k : State → Host.Outcome State Fault Refusal} (h : adm = some sub) :
    guarded adm s k = .next (s.refuses sub) := by
  rw [h]
  rfl

/-- DECOMPRESS has no guard of its own: its first NEXT is refused, and that ends it. -/
theorem exec_decompress_refused {s : State} {sub : SubCause} (h : admitDecoder s = some sub) :
    exec .decompress s = .next (s.refuses sub) := by
  have hnext : nextValue s = .next (s.refuses sub) := by rw [nextValue, h]; rfl
  change decompressLoop (s.lenBits + 1 + 1) [] s = _
  rw [decompressLoop, hnext]
  rfl

theorem exec_refused {i : Instr} {s : State} {sub : SubCause} (h : admission i s = some sub) :
    exec i s = .next (s.refuses sub) := by
  cases i with
  | addValue v => change execAddValue v s = _; rw [execAddValue, guarded_refused (by exact h)]
  | close => change execClose s = _; rw [execClose, guarded_refused (by exact h)]
  | getBytes => change execGetBytes s = _; rw [execGetBytes, guarded_refused (by exact h)]
  | getSize => change execGetSize s = _; rw [execGetSize, guarded_refused (by exact h)]
  | next => change execNext s = _; rw [execNext, nextValue, guarded_refused (by exact h)]
  | decompress => exact exec_decompress_refused h
  | write content len => change execWrite content len s = _; rw [execWrite, guarded_refused (by exact h)]
  | writeLong content len => change execWriteLong content len s = _; rw [execWriteLong, guarded_refused (by exact h)]
  | writeBit b => change execWriteBit b s = _; rw [execWriteBit, guarded_refused (by exact h)]
  | flush => change execFlush s = _; rw [execFlush, guarded_refused (by exact h)]
  | getBuffer n => change execGetBuffer n s = _; rw [execGetBuffer, guarded_refused (by exact h)]
  | load bs => change execLoad bs s = _; rw [execLoad, guarded_refused (by exact h)]
  | peek len => change execPeek len s = _; rw [execPeek, guarded_refused (by exact h)]
  | forward len => change execForward len s = _; rw [execForward, guarded_refused (by exact h)]
  | readInt len => change execReadInt len s = _; rw [execReadInt, guarded_refused (by exact h)]
  | readLong len => change execReadLong len s = _; rw [execReadLong, guarded_refused (by exact h)]
  | readBit => change execReadBit s = _; rw [execReadBit, guarded_refused (by exact h)]
  | _ => cases (show none = some sub from h)

/-- In FAULT every command but CONSTRUCT is refused; a unit operation on a codec machine as no command of its. -/
theorem admission_of_fault {i : Instr} {s : State} (hphase : s.phase = .fault) (hcmd : i.isCommand = true)
    (henc : ∀ g, i ≠ .constructEnc g) (hdec : ∀ g, i ≠ .constructDec g) :
    ∃ sub, admission i s = some sub ∧ (sub = .faulted ∨ sub = .badCommand) := by
  cases hu : unitDir i with
  | some d =>
    rw [admission_unit hu, admitUnit]
    by_cases hbs : s.codec = .bs <;> simp [hbs, hphase]
  | none =>
    cases i with
    | constructEnc g => exact absurd rfl (henc g)
    | constructDec g => exact absurd rfl (hdec g)
    | addValue v => exact ⟨_, if_pos hphase, .inl rfl⟩
    | close => exact ⟨_, if_pos hphase, .inl rfl⟩
    | getBytes => exact ⟨_, if_pos hphase, .inl rfl⟩
    | getSize => exact ⟨_, if_pos hphase, .inl rfl⟩
    | next => exact ⟨_, if_pos hphase, .inl rfl⟩
    | decompress => exact ⟨_, if_pos hphase, .inl rfl⟩
    | _ => simp [unitDir, Instr.isCommand] at hu hcmd

theorem admission_codec_of_fault {i : Instr} {s : State} (hphase : s.phase = .fault) (hi : i ∈ codecCommands) :
    admission i s = some .faulted := by
  simp only [codecCommands, List.mem_cons, List.not_mem_nil, or_false] at hi
  obtain rfl | rfl | rfl | rfl | rfl := hi <;> exact if_pos hphase

theorem admission_codec_of_bare {i : Instr} {s : State} (hbs : s.codec = .bs) (hphase : s.phase ≠ .fault)
    (hi : i ∈ codecCommands) : admission i s = some .badCommand := by
  simp only [codecCommands, List.mem_cons, List.not_mem_nil, or_false] at hi
  obtain rfl | rfl | rfl | rfl | rfl := hi <;> exact (if_neg hphase).trans (if_pos hbs)

/-- Settles O47: each cell of the table is the answer of `admission` there, and a refused command only responds. -/
theorem phaseTable : Obligations.PhaseTable := by
  intro s
  refine ⟨fun hbs hdir hphase => ⟨exec_refused ?_, ?_⟩, fun hbs hdir hphase => ⟨fun v => exec_refused ?_, exec_refused ?_, ?_⟩,
    fun hbs hdir hphase => ⟨fun v => exec_refused ?_, ?_⟩, fun hphase => ⟨?_, fun v => exec_refused ?_, ?_⟩, ?_,
    fun hbs hphase => ⟨?_, fun v => exec_refused ?_, ?_⟩⟩
  · simp [admitGetBytes, hbs, hdir, hphase]
  · rintro i (rfl | rfl) <;> exact exec_refused (by simp [admitDecoder, hbs, hdir, hphase])
  · simp [admitEncoder, hbs, hdir, hphase]
  · simp [admitEncoder, hbs, hdir, hphase]
  · rintro i (rfl | rfl) <;> exact exec_refused (by simp [admitDecoder, hbs, hdir, hphase])
  · obtain hphase | hphase := hphase <;> simp [admitEncoder, hbs, hdir, hphase]
  · have hnf : s.phase ≠ .fault := by obtain hphase | hphase := hphase <;> simp [hphase]
    rintro i (rfl | rfl | rfl) <;>
      exact exec_refused (by simp [admitEncoder, admitGetBytes, admitGetSize, hbs, hdir, hnf])
  · exact fun i hi => exec_refused (admission_codec_of_fault hphase hi)
  · exact if_pos hphase
  · exact fun hbs i d hu => exec_refused (by rw [admission_unit hu]; simp [admitUnit, hbs, hphase])
  · exact fun hbs i d hu => exec_refused (by rw [admission_unit hu]; exact if_pos hbs)
  · exact fun i hi => exec_refused (admission_codec_of_bare hbs hphase hi)
  · exact (if_neg hphase).trans (if_pos hbs)
  · exact fun i d hu hdir => exec_refused (by rw [admission_unit hu]; simp [admitUnit, hbs, hphase, hdir])

end Machine
end Sys2Proof
end

section
/-! PROOFS. The records of GOR as one function of the XOR with the previous value: what the encoder appends, and what
the decoder makes of those bits (rules R101, R160 to R174). NEXT on a fresh decoder. -/

namespace Sys2Proof
namespace Machine

/-! ## Fetching a wire code between two records -/

/-- A wire code whose bits stand ahead is the one fetched and executed (rule R100). -/
theorem runNextCode_of_bits {s : State} {i : Instr} {bits : List Bool} (hwf : wellFormed s.wireCtx i = true)
    (hwire : i.isCommand = false) (hbits : encodeWire s.wireCtx i = bits) (hahead : s.ahead bits.length = bits)
    (hlen : bits.length ≤ lookahead s) : runNextCode s = exec i (s.advance bits.length) := by
  have hsplit := s.ahead_add bits.length (lookahead s - bits.length)
  rw [hahead, Nat.add_sub_cancel' hlen, ← hbits] at hsplit
  rw [runNextCode_of_ahead hwf hwire hsplit, hbits]

/-- A GOR or CHP decoder of `codec` with values to come, about to read a LIT or a later record. -/
structure AtRecord (codec : Codec) (first : Bool) (s : State) : Prop where
  decoding : s.decoding codec
  pend : s.pend = none
  first_eq : s.first = first

theorem AtRecord.place {codec : Codec} {first : Bool} {s : State} (h : AtRecord codec first s) :
    wfPlace s.wireCtx codec first false = true :=
  Laws.wfPlace_iff.mpr ⟨h.decoding.1, h.first_eq, by simp [State.wireCtx, h.pend]⟩

/-! ## The later record of a value -/

/-- The bits of a later GOR record as rule R101 lays them out, and the window after it (rules R160 to R166). -/
def State.gorRecord (s : State) (x : Raw) : List Bool × Option Nat × Nat :=
  if x = 0 then ([false], s.clead, s.ctrail)
  else if gorFits x s then
    ([true, false] ++ bitsOf (64 - s.clead.getD 0 - s.ctrail) (x.toNat / 2 ^ s.ctrail), s.clead, s.ctrail)
  else
    ([true, true] ++ bitsOf 5 (gorLead x) ++ bitsOf 6 ((64 - gorLead x - ctz 64 x) % 64)
      ++ bitsOf (64 - gorLead x - ctz 64 x) (x.toNat / 2 ^ ctz 64 x), some (gorLead x), ctz 64 x)

/-- Rule R105: 77 bits are the longest record. -/
theorem gorRecord_length_le (s : State) (x : Raw) : (s.gorRecord x).1.length ≤ 77 := by
  unfold State.gorRecord
  split_ifs <;> simp <;> omega

theorem gorLead_lt (x : Raw) : gorLead x < 32 := by unfold gorLead; omega

theorem gorLead_le_clz (x : Raw) : gorLead x ≤ clz 64 x := Nat.min_le_left _ _

theorem gorFits_iff {x : Raw} {s : State} :
    gorFits x s = true ↔ ∃ l, s.clead = some l ∧ l ≤ gorLead x ∧ s.ctrail ≤ ctz 64 x := by
  unfold gorFits
  cases s.clead <;> simp

/-- With room for it the encoder appends the record and keeps its window. -/
theorem gorEncodeXor_of_room {s : State} (hf : s.flushed = false) (x : Raw)
    (hroom : s.wpos + (s.gorRecord x).1.length ≤ 32 * s.capw) :
    gorEncodeXor x s =
      .ok () { s.put (s.gorRecord x).1 with clead := (s.gorRecord x).2.1, ctrail := (s.gorRecord x).2.2 } := by
  unfold State.gorRecord at hroom ⊢
  unfold gorEncodeXor
  split_ifs at hroom ⊢ with h0 hfits
  all_goals simp only [List.length_append, List.length_cons, List.length_nil, bitsOf_length] at hroom
  · exact emit_put hf 0 (by omega) hroom
  · exact gorEncodeReuse_put hf x _ _ (by omega)
  · exact gorEncodeNew_put hf x _ _ (gorLead_lt x) (by omega)

/-- A value of a GOR block on the decoder: END for a NaN, else kept as PREV and delivered (rule R174). -/
def State.gorCommits (s : State) (v : Raw) : State :=
  if isNaN 64 v then s.ends else { s with prev := some v }.delivers v

theorem gorCommit_eq_gorCommits {s : State} (h : s.pastEnd = false) (v : Raw) : gorCommit v s = s.gorCommits v :=
  gorCommit_eq h v

theorem gorXor_eq_gorCommits {s : State} {q : Raw} (hprev : s.prev = some q) (h : s.pastEnd = false) (x : Raw) :
    gorXor x s = .next (s.gorCommits (q ^^^ x)) := by
  rw [gorXor_eq hprev, gorCommit_eq_gorCommits h]

/-- The literal gives the first value. -/
theorem runNextCode_gorLit {d : State} (h : AtRecord .gor true d) {v : Raw} (hahead : d.ahead 64 = bitsOf 64 v.toNat)
    (hpast : (d.advance 64).pastEnd = false) :
    runNextCode d = .next ({ d.advance 64 with first := false }.gorCommits v) := by
  have hlen : 64 ≤ lookahead d := by unfold lookahead; omega
  have hrun := runNextCode_of_bits (i := .gorLit v) (bits := bitsOf 64 v.toNat) h.place rfl rfl (by rwa [bitsOf_length])
    (by rwa [bitsOf_length])
  rw [bitsOf_length] at hrun
  rw [hrun, exec_gorLit_of_first (s := d.advance 64) h.decoding h.first_eq,
    gorCommit_eq_gorCommits (s := { d.advance 64 with first := false }) hpast]

/-- A later record gives the XOR back on the previous value, and the window as the encoder left it. -/
theorem runNextCode_gorRecord {d : State} (h : AtRecord .gor false d) {q x : Raw} (hprev : d.prev = some q)
    (hahead : d.ahead (d.gorRecord x).1.length = (d.gorRecord x).1)
    (hpast : (d.advance (d.gorRecord x).1.length).pastEnd = false) :
    runNextCode d = .next ({ d.advance (d.gorRecord x).1.length with
      clead := (d.gorRecord x).2.1, ctrail := (d.gorRecord x).2.2 }.gorCommits (q ^^^ x)) := by
  have hlen : (d.gorRecord x).1.length ≤ lookahead d := by
    have := gorRecord_length_le d x
    unfold lookahead
    omega
  have hx := toNat_lt_clz 64 x x.isLt
  have hlead := gorLead_le_clz x
  unfold State.gorRecord at hahead hpast hlen ⊢
  split_ifs at hahead hpast hlen ⊢ with h0 hfits
  · rw [runNextCode_of_bits (i := .gorSame) (bits := [false]) h.place rfl rfl hahead hlen,
      exec_gorSame_of_later (s := d.advance _) h.decoding h.first_eq, gorXor_eq_gorCommits (s := d.advance _) hprev hpast, h0]
    rfl
  · obtain ⟨l, hl, hle, htrail⟩ := gorFits_iff.mp hfits
    have hpay : (x >>> d.ctrail).toNat < 2 ^ (64 - l - d.ctrail) :=
      ushiftRight_lt _ _ _ (lt_of_lt_pow hx (by omega))
    have hwidth : gorReuseWidth d.wireCtx = 64 - l - d.ctrail := by simp [gorReuseWidth, State.wireCtx, hl]
    rw [hl, Option.getD_some] at hahead hlen hpast ⊢
    rw [runNextCode_of_bits (i := .gorReuse (x >>> d.ctrail))
        (by rw [wellFormed, h.place, hwidth, Bool.true_and, Laws.wfPayload_iff]; exact hpay) rfl
        (by rw [encodeWire, hwidth, toNat_ushiftRight_div]) hahead hlen,
      exec_gorReuse_of_window (s := d.advance _) h.decoding h.first_eq hl,
      gorXor_eq_gorCommits (s := d.advance _) hprev hpast, State.advance_ctrail,
      shiftRight_shiftLeft x _ fun i hi => ctz_zeros 64 x i (by omega), ← hl]
    rfl
  · have hsum := clz_add_ctz_lt 64 x x.isLt h0
    have hl : (BitVec.ofNat 5 (gorLead x)).toNat = gorLead x := by
      rw [BitVec.toNat_ofNat, Nat.mod_eq_of_lt (gorLead_lt x)]
    have hcnt : (BitVec.ofNat 6 (64 - gorLead x - ctz 64 x)).toNat = (64 - gorLead x - ctz 64 x) % 64 := BitVec.toNat_ofNat _ _
    have hsig : sigOf 64 ((64 - gorLead x - ctz 64 x) % 64) = 64 - gorLead x - ctz 64 x := by
      unfold sigOf
      split <;> omega
    have hwidth : gorNewWidth (gorLead x) ((64 - gorLead x - ctz 64 x) % 64) = 64 - gorLead x - ctz 64 x := by
      rw [gorNewWidth, hsig, if_neg (by omega)]
    have hpay : (x >>> ctz 64 x).toNat < 2 ^ (64 - gorLead x - ctz 64 x) :=
      ushiftRight_lt _ _ _ (lt_of_lt_pow hx (by omega))
    rw [runNextCode_of_bits
        (i := .gorNew (BitVec.ofNat 5 (gorLead x)) (BitVec.ofNat 6 (64 - gorLead x - ctz 64 x)) (x >>> ctz 64 x))
        (by rw [wellFormed, h.place, hl, hcnt, hwidth, Bool.true_and, Laws.wfPayload_iff]; exact hpay) rfl
        (by rw [encodeWire, hl, hcnt, hwidth, toNat_ushiftRight_div]) hahead hlen,
      exec_gorNew_of_fits (s := d.advance _) (trail := ctz 64 x) h.decoding h.first_eq (by rw [hl, hcnt, hsig]; omega), hl,
      gorXor_eq_gorCommits (s := { d.advance _ with clead := some (gorLead x), ctrail := ctz 64 x }) hprev hpast,
      shiftRight_shiftLeft x _ (ctz_zeros 64 x)]

end Machine
end Sys2Proof
end

section
/-! PROOFS. The records of CHP64 and CHP32 on a decoder: what it makes of the bits of `State.chpRecord` (rules R102, R192
to R197). -/

namespace Sys2Proof
namespace Machine

/-- A decoder of either CHP unit with values to come, about to read a LIT or a later record. -/
def AtChp (first : Bool) (s : State) : Prop := AtRecord .chp64 first s ∨ AtRecord .chp32 first s

theorem AtChp.first_eq {first : Bool} {s : State} (h : AtChp first s) : s.first = first :=
  h.elim AtRecord.first_eq AtRecord.first_eq

/-- A later record of a CHP unit runs as its step, behind its bits. -/
theorem AtRecord.runs_chp {codec : Codec} {d : State} (h : AtRecord codec false d) (hcodec : codec ≠ .bs) {i : Instr}
    {bits : List Bool} (hwf : wellFormed d.wireCtx i = true) (hwire : i.isCommand = false)
    (hbits : encodeWire d.wireCtx i = bits) (hahead : d.ahead bits.length = bits) (hlen : bits.length ≤ lookahead d)
    {e : State → Eff Raw} (hexec : ∀ t, exec i t = onDecoder codec atLater t fun s => (e s).outcome chpLater) :
    runNextCode d = (e (d.advance bits.length)).outcome chpLater := by
  rw [runNextCode_of_bits hwf hwire hbits hahead hlen, hexec]
  exact chpRecord_runs (s := d.advance bits.length) h.decoding hcodec h.first_eq e

theorem exists_toNat_eq {w x : Nat} (h : x < 2 ^ w) : ∃ b : BitVec w, b.toNat = x :=
  ⟨BitVec.ofNat w x, by rw [BitVec.toNat_ofNat, Nat.mod_eq_of_lt h]⟩

theorem exists_setWidth_eq {p : Raw} (h : p.toNat < 2 ^ 32) : ∃ b : BitVec 32, b.setWidth 64 = p :=
  ⟨_, setWidth_ofNat_toNat h⟩

theorem toNat_setWidth_raw (b : BitVec 32) : (b.setWidth 64 : Raw).toNat = b.toNat := by
  rw [BitVec.toNat_setWidth, Nat.mod_eq_of_lt (lt_of_lt_pow b.isLt (by decide))]

/-- The literal gives the first value. -/
theorem runNextCode_chpLit {d : State} (h : AtChp true d) {v : Raw} (hv : v.toNat < 2 ^ d.n)
    (hahead : d.ahead d.n = bitsOf d.n v.toNat) (hpast : (d.advance d.n).pastEnd = false) :
    runNextCode d = .next ((d.advance d.n).commitsFirst v) := by
  have hlen : d.n ≤ lookahead d := by have := @chpPre.n_le d; unfold lookahead; omega
  have hrun : ∀ {i : Instr}, wellFormed d.wireCtx i = true → i.isCommand = false →
      encodeWire d.wireCtx i = bitsOf d.n v.toNat → runNextCode d = exec i (d.advance d.n) := fun hwf hwire hbits => by
    have := runNextCode_of_bits hwf hwire hbits (by rwa [bitsOf_length]) (by rwa [bitsOf_length])
    rwa [bitsOf_length] at this
  rcases h with h | h
  · have hlit := ((chp64Decodes (d.advance d.n) h.decoding hpast).1 h.first_eq v)
    rw [State.n_of_chp64 h.decoding.1] at *
    exact (hrun (i := .chp64Lit v) h.place rfl rfl).trans hlit
  · rw [State.n_of_chp32 h.decoding.1] at *
    obtain ⟨v, rfl⟩ := exists_setWidth_eq hv
    rw [toNat_setWidth_raw] at hrun
    exact (hrun (i := .chp32Lit v) h.place rfl rfl).trans ((chp32Decodes (d.advance 32) h.decoding hpast).1 h.first_eq v)

section
variable {d : State} (h : AtChp false d)
include h

theorem runNextCode_chpRepeat {slot : Nat} (hlogw : d.logw ≤ 16) (hslot : slot < 2 ^ d.logw)
    {bits : List Bool} (hbits : [false, false] ++ bitsOf d.logw slot = bits) (hahead : d.ahead bits.length = bits)
    (hlen : bits.length ≤ lookahead d) :
    runNextCode d = (stepRepeat slot (d.advance bits.length)).outcome chpLater := by
  obtain ⟨slot, rfl⟩ := exists_toNat_eq (lt_of_lt_pow hslot hlogw)
  rcases h with h | h
  · refine h.runs_chp (i := .chp64Repeat slot) (by decide) ?_ rfl hbits hahead hlen fun _ => rfl
    rw [wellFormed, h.place, Bool.true_and, Laws.wfSlot_iff]
    exact hslot
  · refine h.runs_chp (i := .chp32Repeat slot) (by decide) ?_ rfl hbits hahead hlen fun _ => rfl
    rw [wellFormed, h.place, Bool.true_and, Laws.wfSlot_iff]
    exact hslot

theorem runNextCode_chpFar {slot b sig : Nat} {r p : Raw} (hlogw : d.logw ≤ 16) (hslot : slot < 2 ^ d.logw)
    (hring : d.ringAt slot = some r) (hb : b < 2 ^ 3) (hpos : 0 < sig) (hsig : sig < 2 ^ cntBits d.n)
    (hfits : leadOf d.leadRep b + sig ≤ d.n) (hpay : p.toNat < 2 ^ sig) {bits : List Bool}
    (hbits : [false, true] ++ bitsOf d.logw slot ++ bitsOf 3 b ++ bitsOf (cntBits d.n) sig ++ bitsOf sig p.toNat = bits)
    (hahead : d.ahead bits.length = bits) (hlen : bits.length ≤ lookahead d) :
    runNextCode d = (stepFar d.n slot b sig p (d.advance bits.length)).outcome chpLater := by
  have hsigOf : sigOf d.n sig = sig := if_neg (by omega)
  have hcontains : d.wireCtx.slots.contains slot = true := by
    simpa [State.wireCtx] using ⟨r, tableFind_mem hring⟩
  have hwidth : farWidth d.wireCtx d.n slot b sig = sig := by
    rw [farWidth, hsigOf, hcontains]
    simp [State.wireCtx, hfits]
  obtain ⟨slot, rfl⟩ := exists_toNat_eq (lt_of_lt_pow hslot hlogw)
  obtain ⟨b, rfl⟩ := exists_toNat_eq hb
  rcases h with h | h
  · rw [State.n_of_chp64 h.decoding.1] at *
    obtain ⟨cnt, rfl⟩ : ∃ cnt : BitVec 6, cnt.toNat = sig := exists_toNat_eq hsig
    refine h.runs_chp (i := .chp64Far slot b cnt p) (by decide) ?_ rfl (by rw [encodeWire, hwidth]; exact hbits)
      hahead hlen fun _ => rfl
    rw [wellFormed, h.place, hwidth, Bool.true_and, Bool.and_eq_true, Laws.wfPayload_iff, Laws.wfSlot_iff]
    exact ⟨hslot, hpay⟩
  · rw [State.n_of_chp32 h.decoding.1] at *
    obtain ⟨cnt, rfl⟩ : ∃ cnt : BitVec 5, cnt.toNat = sig := exists_toNat_eq hsig
    obtain ⟨p, rfl⟩ := exists_setWidth_eq (lt_of_lt_pow hpay (by omega))
    rw [toNat_setWidth_raw] at hpay hbits
    refine h.runs_chp (i := .chp32Far slot b cnt p) (by decide) ?_ rfl (by rw [encodeWire, hwidth]; exact hbits)
      hahead hlen fun _ => rfl
    rw [wellFormed, h.place, hwidth, Bool.true_and, Bool.and_eq_true, Laws.wfPayload_iff, Laws.wfSlot_iff]
    exact ⟨hslot, hpay⟩

theorem runNextCode_chpReuse {p : Raw} {l : Nat} (hclead : d.clead = some l) (hpay : p.toNat < 2 ^ (d.n - l))
    {bits : List Bool} (hbits : [true, false] ++ bitsOf (d.n - l) p.toNat = bits) (hahead : d.ahead bits.length = bits)
    (hlen : bits.length ≤ lookahead d) :
    runNextCode d = (stepReuse p (d.advance bits.length)).outcome chpLater := by
  have hwidth : reuseWidth d.wireCtx d.n = d.n - l := by simp [reuseWidth, State.wireCtx, hclead]
  rcases h with h | h
  · rw [State.n_of_chp64 h.decoding.1] at hwidth hpay hbits
    refine h.runs_chp (i := .chp64Reuse p) (by decide) ?_ rfl (by rw [encodeWire, hwidth]; exact hbits) hahead hlen
      fun _ => rfl
    rw [wellFormed, h.place, hwidth, Bool.true_and, Laws.wfPayload_iff]
    exact hpay
  · rw [State.n_of_chp32 h.decoding.1] at hwidth hpay hbits
    obtain ⟨p, rfl⟩ := exists_setWidth_eq (lt_of_lt_pow hpay (by omega))
    rw [toNat_setWidth_raw] at hpay hbits
    refine h.runs_chp (i := .chp32Reuse p) (by decide) ?_ rfl (by rw [encodeWire, hwidth]; exact hbits) hahead hlen
      fun _ => rfl
    rw [wellFormed, h.place, hwidth, Bool.true_and, Laws.wfPayload_iff]
    exact hpay

theorem runNextCode_chpNew {b : Nat} {p : Raw} (hb : b < 2 ^ 3) (hpay : p.toNat < 2 ^ (d.n - leadOf d.leadRep b))
    {bits : List Bool} (hbits : [true, true] ++ bitsOf 3 b ++ bitsOf (d.n - leadOf d.leadRep b) p.toNat = bits)
    (hahead : d.ahead bits.length = bits) (hlen : bits.length ≤ lookahead d) :
    runNextCode d = (stepNew b p (d.advance bits.length)).outcome chpLater := by
  have hwidth : newWidth d.wireCtx d.n b = d.n - leadOf d.leadRep b := rfl
  obtain ⟨b, rfl⟩ := exists_toNat_eq hb
  rcases h with h | h
  · rw [State.n_of_chp64 h.decoding.1] at hwidth hpay hbits
    refine h.runs_chp (i := .chp64New b p) (by decide) ?_ rfl (by rw [encodeWire, hwidth]; exact hbits) hahead hlen
      fun _ => rfl
    rw [wellFormed, h.place, hwidth, Bool.true_and, Laws.wfPayload_iff]
    exact hpay
  · rw [State.n_of_chp32 h.decoding.1] at hwidth hpay hbits
    obtain ⟨p, rfl⟩ := exists_setWidth_eq (lt_of_lt_pow hpay (by omega))
    rw [toNat_setWidth_raw] at hpay hbits
    refine h.runs_chp (i := .chp32New b p) (by decide) ?_ rfl (by rw [encodeWire, hwidth]; exact hbits) hahead hlen
      fun _ => rfl
    rw [wellFormed, h.place, hwidth, Bool.true_and, Laws.wfPayload_iff]
    exact hpay

end

/-- Rule R105: `N + 5` bits are the longest later record of a reachable machine, as a far match leaves out more low bits
than its slot takes. -/
theorem chpRecord_length_le_add_five {s : State} {far : Bool} {x : Raw} (slot : Nat) (hlogw : s.logw ≤ 16)
    (hfar : far = true → threshold s.n s.logw < ctz s.n x) : (s.chpRecord far slot x).1.length ≤ s.n + 5 := by
  have hn : s.n = 64 ∨ s.n = 32 := width_eq s.codec
  unfold State.chpRecord
  split_ifs with h0 hf
  · have := @chpPre.n_ge s
    simp
    omega
  · have hlt := hfar hf
    rcases hn with hn | hn <;> simp [hn, threshold, cntBits] at hlt ⊢ <;> omega
  · simp
    omega
  · simp
    omega

/-- A later record commits the value whose record it is, with CLEAD as the encoder left it. -/
theorem runNextCode_chpRecord_of_slot {d : State} (h : AtChp false d) (hlogw : d.logw ≤ 16)
    (hrep : legalLeadRep d.leadRep = true) {slot : Nat} (hslot : slot < 2 ^ d.logw) {r x : Raw} (hring : d.ringAt slot = some r)
    {far : Bool} (hfar : far = true → threshold d.n d.logw < ctz d.n x) (hprev : far = false → d.prev = some r)
    (hx : x.toNat < 2 ^ d.n) (hahead : d.ahead (d.chpRecord far slot x).1.length = (d.chpRecord far slot x).1)
    (hpast : (d.advance (d.chpRecord far slot x).1.length).pastEnd = false) :
    runNextCode d = .next ({ d.advance (d.chpRecord far slot x).1.length with
      clead := (d.chpRecord far slot x).2 }.commitsLater (r ^^^ x)) := by
  have hlen : (d.chpRecord far slot x).1.length ≤ lookahead d := by
    have := chpRecord_length_le_add_five slot hlogw hfar
    have := @chpPre.n_le d
    unfold lookahead
    omega
  have hxn := toNat_lt_repOf hrep hx
  have hb := bucket_lt d.leadRep (clz d.n x)
  unfold State.chpRecord at hahead hpast hlen ⊢
  split_ifs at hahead hpast hlen ⊢ with h0 hf hreuse
  · have hr : r ^^^ x = r := by rw [h0]; exact BitVec.xor_zero
    rw [runNextCode_chpRepeat h hlogw hslot rfl hahead hlen, stepRepeat_of_written (by exact hring), Eff.outcome_ok,
      chpLater_eq (by exact hpast), hr]
  · obtain ⟨hpos, hsum, -, hcnt⟩ := farSig_bounds hx h0 hrep (hfar hf)
    have hfits : leadOf d.leadRep (bucket d.leadRep (clz d.n x)) + farSig x (ctz d.n x) d + ctz d.n x = d.n := by
      rw [← repOf]; omega
    have hsigOf : sigOf d.n (farSig x (ctz d.n x) d) = farSig x (ctz d.n x) d := if_neg (by omega)
    rw [← farSig] at hahead hpast hlen ⊢
    rw [runNextCode_chpFar h hlogw hslot hring hb hpos hcnt (by omega)
        (p := x >>> ctz d.n x) (ushiftRight_lt _ _ _ (lt_of_lt_pow hxn (by rw [repOf]; omega)))
        (by rw [toNat_ushiftRight_div]) hahead hlen,
      stepFar_of_written (s := d.advance _) (trail := ctz d.n x) hring (by rw [hsigOf]; exact hfits),
      shiftRight_shiftLeft x _ (ctz_zeros d.n x), lowBits_of_lt hx, Eff.outcome_ok, chpLater_eq (by exact hpast)]
  · have hp := hprev (Bool.eq_false_iff.mpr hf)
    rw [runNextCode_chpReuse h hreuse hxn rfl hahead hlen, stepReuse_of_window (by exact hreuse) (by exact hp),
      Eff.outcome_ok, chpLater_eq (by exact hpast)]
    rfl
  · have hp := hprev (Bool.eq_false_iff.mpr hf)
    rw [runNextCode_chpNew h hb hxn rfl hahead hlen, stepNew_of_prev (by exact hp), Eff.outcome_ok,
      chpLater_eq (by exact hpast)]
    rfl

end Machine
end Sys2Proof
end

section
/-! PROOFS. NEXT on a GOR or CHP decoder: a record that leaves none pending is all that NEXT runs, and what it does to the
first value (rules R170, R192, R271). -/

namespace Sys2Proof
namespace Machine

theorem State.gorCommits_pend (s : State) (v : Raw) : (s.gorCommits v).pend = s.pend := by
  unfold State.gorCommits
  split <;> rfl

theorem State.commitsFirst_pend (s : State) (v : Raw) : (s.commitsFirst v).pend = s.pend := by
  unfold State.commitsFirst
  split <;> rfl

/-- On GOR and CHP a NEXT that reads a record is the record's one wire code. -/
theorem AtRecord.execNext {codec : Codec} {first : Bool} {d t : State} (h : AtRecord codec first d) (hcodec : codec ≠ .bs)
    (helf : isElf codec = false) (hpast : d.pastEnd = false) (hrun : runNextCode d = .next t) (hpend : t.pend = none) :
    exec .next d = .next t := by
  obtain ⟨⟨hc, hdir, hphase⟩, hp, -⟩ := h
  rw [execNext_eq_runRecord hdir hphase (hc ▸ hcodec) hp hpast (by simp [hc, helf]),
    runRecord_of_pend_none fun u hu => by cases hrun.symm.trans hu; exact hpend, hrun]

/-- The cursor moved within the stream: PAST_END stays as it is. -/
theorem State.advance_of_le {s : State} {n : Nat} (h : s.rpos + n ≤ s.lenBits) :
    s.advance n = { s with rpos := s.rpos + n } := by
  have hpast := s.advance_pastEnd_of_le n h
  rw [State.advance_pastEnd] at hpast
  rw [State.advance, hpast]

/-- Settles O54: the N bits ahead are the literal's, and NEXT runs it. -/
theorem nextReadsTheLiteral : Obligations.NextReadsTheLiteral := by
  intro s v hdir hphase hcodec helf hpend hfirst hpast hfits hv
  rw [← s.natOfBits_ahead] at hv
  have hlt := natOfBits_lt (s.ahead s.n)
  rw [State.ahead_length, ← hv] at hlt
  have hahead : s.ahead s.n = bitsOf s.n v.toNat := by
    have := bitsOf_natOfBits (s.ahead s.n)
    rw [State.ahead_length, ← hv] at this
    exact this.symm
  have hpast' : (s.advance s.n).pastEnd = false := (s.advance_pastEnd_of_le s.n hfits).trans hpast
  have hmove := State.advance_of_le hfits
  by_cases hgor : s.codec = .gor
  · have hn : s.n = 64 := by rw [State.n, hgor]; rfl
    have hat : AtRecord .gor true s := ⟨⟨hgor, hdir, hphase⟩, hpend, hfirst⟩
    rw [hn] at hahead hpast' hmove
    rw [if_pos hgor, hat.execNext (by decide) rfl hpast (runNextCode_gorLit hat hahead hpast')
      ((State.gorCommits_pend _ _).trans hpend), hmove]
    rfl
  · have hchp : s.codec = .chp64 ∨ s.codec = .chp32 := by
      cases hc : s.codec <;> simp [hc, isElf] at hgor hcodec helf ⊢
    have hat : AtChp true s := hchp.imp (fun hc => ⟨⟨hc, hdir, hphase⟩, hpend, hfirst⟩)
      fun hc => ⟨⟨hc, hdir, hphase⟩, hpend, hfirst⟩
    have hrun := runNextCode_chpLit hat hlt hahead hpast'
    rw [if_neg hgor, ← hmove]
    rcases hat with hat | hat <;>
      exact hat.execNext (by decide) rfl hpast hrun ((State.commitsFirst_pend _ _).trans hpend)

end Machine
end Sys2Proof
end

section
/-! PROOFS. A GOR or CHP encoder and decoder in step: what one ADDVALUE appends, and what NEXT makes of it (rules R160 to
R174, R183 to R197). -/

namespace Sys2Proof
namespace Machine

/-- A reachable GOR or CHP encoder that accepts values. -/
structure XorOpen (e : State) : Prop where
  inv : Inv e
  codec : e.codec = .gor ∨ e.codec = .chp64 ∨ e.codec = .chp32
  dir : e.dir = .enc
  phase : e.phase = .opened

theorem XorOpen.codec_ne {e : State} (h : XorOpen e) : e.codec ≠ .bs := by
  rcases h.codec with h | h | h <;> simp [h]

theorem XorOpen.isElf {e : State} (h : XorOpen e) : isElf e.codec = false := by
  rcases h.codec with h | h | h <;> rw [h] <;> rfl

theorem XorOpen.memWf {e : State} (h : XorOpen e) : memWf e.wbuf := h.inv.1.1

theorem XorOpen.writer {e : State} (h : XorOpen e) : e.flushed = false ∧ e.size = e.wpos := by
  obtain ⟨-, -, -, ⟨-, -, hopen, -⟩, -⟩ := h.inv
  exact hopen h.codec_ne h.phase

/-- A reachable decoder between two records, its predictor registers those of the encoder: CUR is where the last insertion
stands, and PREV is GOR's previous value. -/
structure InStep (e d : State) : Prop where
  inv : Inv d
  codec : d.codec = e.codec
  dir : d.dir = .dec
  phase : d.phase = .ready
  pend : d.pend = none
  logw : d.logw = e.logw
  leadRep : e.codec ≠ .gor → d.leadRep = e.leadRep
  first : d.first = e.first
  prev : e.codec = .gor → d.prev = e.prev
  clead : d.clead = e.clead
  ctrail : d.ctrail = e.ctrail
  cur : d.cur = e.index % 2 ^ e.logw
  ring : d.ring = e.ring

theorem InStep.n_eq {e d : State} (h : InStep e d) : d.n = e.n := by rw [State.n, h.codec]; rfl

theorem InStep.gorRecord_eq {e d : State} (h : InStep e d) (x : Raw) : d.gorRecord x = e.gorRecord x := by
  have hfits : gorFits x d = gorFits x e := by
    unfold gorFits
    rw [h.clead, h.ctrail]
  simp only [State.gorRecord, hfits, h.clead, h.ctrail]

theorem InStep.chpRecord_eq {e d : State} (h : InStep e d) (hne : e.codec ≠ .gor) (far : Bool) (slot : Nat) (x : Raw) :
    d.chpRecord far slot x = e.chpRecord far slot x := by
  simp only [State.chpRecord, h.n_eq, h.logw, h.leadRep hne, h.clead]

theorem InStep.atRecord {e d : State} (h : InStep e d) {codec : Codec} (hc : e.codec = codec) {first : Bool}
    (hfirst : e.first = first) : AtRecord codec first d :=
  ⟨⟨h.codec.trans hc, h.dir, h.phase⟩, h.pend, h.first.trans hfirst⟩

theorem InStep.atChp {e d : State} (h : InStep e d) (hc : e.codec = .chp64 ∨ e.codec = .chp32) {first : Bool}
    (hfirst : e.first = first) : AtChp first d := hc.imp (h.atRecord · hfirst) (h.atRecord · hfirst)

/-- The value a later CHP record is decoded with where the encoder took the last insertion (rules R185, R197). -/
theorem InStep.prev_of_chp {e d : State} (h : InStep e d) (hc : e.codec = .chp64 ∨ e.codec = .chp32)
    (hfirst : e.first = false) : d.prev = e.ringAt (e.index % 2 ^ e.logw) := by
  obtain ⟨-, -, -, -, -, -, hdec, -⟩ := h.inv
  obtain ⟨-, -, hring, -⟩ := hdec h.dir h.phase (by rw [h.codec]; rcases hc with hc | hc <;> simp [hc])
  rw [← hring (by rw [h.codec]; rcases hc with hc | hc <;> simp [hc, hasRing]) (h.first.trans hfirst), h.cur, State.ringAt,
    State.ringAt, h.ring]

/-- Room for the next record, whatever the value (rules R105, R261). -/
def recordRoom (e : State) : Nat := if e.first then e.n else if e.codec = .gor then 77 else e.n + 5

/-- What NEXT answers for the record of `v` on a decoder in step with `e`: END for a NaN, else `v`, and the decoder is then
in step with `t`. -/
def Conveys (e t : State) (bits : List Bool) (v : Raw) : Prop :=
  ∀ d, InStep e d → d.ahead bits.length = bits → d.rpos + bits.length ≤ d.lenBits →
    ∃ d', nextValue d = .next d' ∧ (isNaN e.n v = true → d'.resp = some (.ok .endOfBlock)) ∧
      (isNaN e.n v = false → d'.resp = some (.ok (.value v)) ∧ InStep t d' ∧ d.sameInput d' ∧
        d'.rpos = d.rpos + bits.length)

/-- ADDVALUE of `v` appends `bits`, which convey it. -/
structure Transmits (e : State) (v : Raw) (bits : List Bool) (t : State) : Prop where
  runs : exec (.addValue v) e = .next t
  resp : t.resp = some (.ok .unit)
  opened : XorOpen t
  codec : t.codec = e.codec
  capw : t.capw = e.capw
  first : t.first = false
  stream : t.stream = e.stream ++ bits
  length_le : bits.length ≤ recordRoom e
  conveys : Conveys e t bits v

/-- The decoder's record is NEXT, and its end is END or a state in step with the encoder's. -/
theorem InStep.conveyed {e t d D D' : State} {v : Raw} {k n : Nat} (h : InStep e d) (helf : isElf e.codec = false)
    (hcodec : e.codec ≠ .bs) (hpast : d.pastEnd = false) (hn : e.n = n)
    (hrun : runNextCode d = .next (if isNaN n v then D.ends else D'.delivers v)) (hpend : D.pend = none ∧ D'.pend = none)
    (hsame : d.sameInput D') (hrpos : D'.rpos = d.rpos + k)
    (hstep : Inv (D'.delivers v) → InStep t (D'.delivers v)) :
    ∃ d', nextValue d = .next d' ∧ (isNaN e.n v = true → d'.resp = some (.ok .endOfBlock)) ∧
      (isNaN e.n v = false → d'.resp = some (.ok (.value v)) ∧ InStep t d' ∧ d.sameInput d' ∧ d'.rpos = d.rpos + k) := by
  subst hn
  have hnext : nextValue d = .next (if isNaN e.n v then D.ends else D'.delivers v) :=
    (h.atRecord rfl rfl).execNext hcodec helf hpast hrun (by split; exact hpend.1; exact hpend.2)
  refine ⟨_, hnext, fun hnan => by rw [if_pos hnan]; rfl, fun hnan => ?_⟩
  obtain ⟨u, hu, hinv⟩ := nextValue_inv h.inv
  cases hnext.symm.trans hu
  rw [if_neg (by simp [hnan])] at hinv ⊢
  exact ⟨rfl, hstep hinv, hsame, hrpos⟩

theorem XorOpen.next {e t : State} (h : XorOpen e) {v : Raw} (hexec : exec (.addValue v) e = .next t)
    (hcodec : t.codec = e.codec) (hdir : t.dir = e.dir) (hphase : t.phase = e.phase) : XorOpen t := by
  obtain ⟨u, hu, hinv⟩ := addValue_inv h.inv v
  cases hexec.symm.trans (show exec (.addValue v) e = .next u from hu)
  exact ⟨hinv, hcodec ▸ h.codec, hdir.trans h.dir, hphase.trans h.phase⟩

theorem InStep.pastEnd {e d : State} (h : InStep e d) {k : Nat} (hfits : d.rpos + k ≤ d.lenBits) :
    d.pastEnd = false ∧ (d.advance k).pastEnd = false := by
  have hpast := h.inv.pastEnd_of_le (by omega)
  exact ⟨hpast, (d.advance_pastEnd_of_le k hfits).trans hpast⟩

/-! ## GOR (rules R160 to R174) -/

theorem gor_transmits_first {e : State} (h : XorOpen e) (hc : e.codec = .gor) (hfirst : e.first = true) (v : Raw)
    (hroom : e.wpos + recordRoom e ≤ 32 * e.capw) : ∃ bits t, Transmits e v bits t := by
  have hn : e.n = 64 := by rw [State.n, hc]; rfl
  have hrec : recordRoom e = 64 := by rw [recordRoom, if_pos hfirst, hn]
  have hexec := (gorEncodes e v ⟨hc, h.dir, h.phase⟩ h.writer.1).1 hfirst (by omega)
  refine ⟨bitsOf 64 v.toNat, _, hexec, rfl, h.next hexec rfl rfl rfl, rfl, rfl, rfl, e.put_stream _ h.memWf,
    by rw [hrec, bitsOf_length], fun d hd hahead hfits => ?_⟩
  obtain ⟨hpast, hpast'⟩ := hd.pastEnd hfits
  rw [bitsOf_length] at hahead hpast' ⊢
  have hrun := runNextCode_gorLit (hd.atRecord hc hfirst) hahead hpast'
  refine hd.conveyed h.isElf h.codec_ne hpast hn hrun ⟨hd.pend, hd.pend⟩ ⟨rfl, rfl, rfl⟩ rfl fun hinv => ?_
  exact ⟨hinv, hd.codec, hd.dir, hd.phase, hd.pend, hd.logw, hd.leadRep, rfl, fun _ => rfl, hd.clead, hd.ctrail, hd.cur,
    hd.ring⟩

theorem gor_transmits_later {e : State} (h : XorOpen e) (hc : e.codec = .gor) (hfirst : e.first = false) (v : Raw)
    (hroom : e.wpos + recordRoom e ≤ 32 * e.capw) : ∃ bits t, Transmits e v bits t := by
  have hn : e.n = 64 := by rw [State.n, hc]; rfl
  have hrec : recordRoom e = 77 := by rw [recordRoom, if_neg (by simp [hfirst]), if_pos hc]
  obtain ⟨-, -, -, -, -, -, -, henc, -⟩ := h.inv
  obtain ⟨-, -, hprev, -⟩ := henc h.dir h.phase h.codec_ne
  obtain ⟨q, hq⟩ := Option.ne_none_iff_exists'.mp (hprev hc hfirst)
  have hlen := gorRecord_length_le e (q ^^^ v)
  have hexec : exec (.addValue v) e = .next (({ e.put (e.gorRecord (q ^^^ v)).1 with
      clead := (e.gorRecord (q ^^^ v)).2.1, ctrail := (e.gorRecord (q ^^^ v)).2.2, prev := some v } : State).answer .unit) := by
    rw [exec_addValue_gor ⟨hc, h.dir, h.phase⟩, gorEncode_later hfirst hq (gorEncodeXor_of_room h.writer.1 _ (by omega))]
    rfl
  refine ⟨(e.gorRecord (q ^^^ v)).1, _, hexec, rfl, h.next hexec rfl rfl rfl, rfl, rfl, hfirst, e.put_stream _ h.memWf,
    by omega, fun d hd hahead hfits => ?_⟩
  obtain ⟨hpast, hpast'⟩ := hd.pastEnd hfits
  have hrun := runNextCode_gorRecord (x := q ^^^ v) (hd.atRecord hc hfirst) ((hd.prev hc).trans hq)
    (by rw [hd.gorRecord_eq]; exact hahead) (by rw [hd.gorRecord_eq]; exact hpast')
  rw [hd.gorRecord_eq, xor_xor_self] at hrun
  refine hd.conveyed h.isElf h.codec_ne hpast hn hrun ⟨hd.pend, hd.pend⟩ ⟨rfl, rfl, rfl⟩ rfl fun hinv => ?_
  exact ⟨hinv, hd.codec, hd.dir, hd.phase, hd.pend, hd.logw, hd.leadRep, hd.first, fun _ => rfl, rfl, rfl, hd.cur, hd.ring⟩

/-! ## CHP64 and CHP32 (rules R183 to R197) -/

theorem chp_transmits_first {e : State} (h : XorOpen e) (hc : e.codec = .chp64 ∨ e.codec = .chp32) (hfirst : e.first = true)
    {v : Raw} (hv : v.toNat < 2 ^ e.n) (hroom : e.wpos + recordRoom e ≤ 32 * e.capw) : ∃ bits t, Transmits e v bits t := by
  have hrec : recordRoom e = e.n := if_pos hfirst
  obtain ⟨-, ⟨hlogw, -⟩, -, -, -, -, -, henc, -⟩ := h.inv
  obtain ⟨-, hfresh, -⟩ := henc h.dir h.phase h.codec_ne
  obtain ⟨-, -, -, hindex, -⟩ := hfresh hfirst
  have hexec := (chpEncodes e v (hc.imp (⟨·, h.dir, h.phase⟩) (⟨·, h.dir, h.phase⟩)) h.writer.1 hlogw hv).1 hfirst (by omega)
  refine ⟨bitsOf e.n v.toNat, _, hexec, rfl, h.next hexec rfl rfl rfl, rfl, rfl, rfl, e.put_stream _ h.memWf,
    by rw [hrec, bitsOf_length], fun d hd hahead hfits => ?_⟩
  obtain ⟨hpast, hpast'⟩ := hd.pastEnd hfits
  rw [bitsOf_length, ← hd.n_eq] at hahead hpast'
  have hrun := runNextCode_chpLit (hd.atChp hc hfirst) (hd.n_eq ▸ hv) hahead hpast'
  refine hd.conveyed h.isElf h.codec_ne hpast hd.n_eq.symm hrun ⟨hd.pend, hd.pend⟩ ⟨rfl, rfl, rfl⟩ (by rw [bitsOf_length, ← hd.n_eq]; rfl) fun hinv => ?_
  have hne : e.codec ≠ .gor := by rcases hc with hc | hc <;> simp [hc]
  refine ⟨hinv, hd.codec, hd.dir, hd.phase, hd.pend, hd.logw, hd.leadRep, rfl, fun hgor => absurd hgor hne, hd.clead,
    hd.ctrail, (Nat.zero_mod _).symm, ?_⟩
  exact congrArg (tableInsert · 0 v) hd.ring

theorem chp_transmits_later {e : State} (h : XorOpen e) (hc : e.codec = .chp64 ∨ e.codec = .chp32) (hfirst : e.first = false)
    {v : Raw} (hv : v.toNat < 2 ^ e.n) (hroom : e.wpos + recordRoom e ≤ 32 * e.capw) : ∃ bits t, Transmits e v bits t := by
  have hne : e.codec ≠ .gor := by rcases hc with hc | hc <;> simp [hc]
  have hring : hasRing e.codec = true := by rcases hc with hc | hc <;> simp [hc, hasRing]
  have hrec : recordRoom e = e.n + 5 := by rw [recordRoom, if_neg (by simp [hfirst]), if_neg hne]
  obtain ⟨-, ⟨hlogw, -, -, -, -, hrep⟩, -, -, -, ⟨-, hslots, -⟩, -⟩ := h.inv
  obtain ⟨c, hsel⟩ := exists_selects h.inv h.dir h.phase hring hfirst v
  obtain ⟨hslot, r, hr, hx⟩ := hsel.slot_spec
  have hlen := chpRecord_length_le_add_five c.slot hlogw hsel.far_lt
  have hexec := (chpEncodes e v (hc.imp (⟨·, h.dir, h.phase⟩) (⟨·, h.dir, h.phase⟩)) h.writer.1 hlogw hv).2 hfirst _ _ _ hsel
    (by omega)
  refine ⟨(e.chpRecord c.far c.slot c.x).1, _, hexec, rfl, h.next hexec rfl rfl rfl, rfl, rfl, hfirst, e.put_stream _ h.memWf,
    by omega, fun d hd hahead hfits => ?_⟩
  obtain ⟨hpast, hpast'⟩ := hd.pastEnd hfits
  have hprev : c.far = false → d.prev = some r := fun hfar => by
    rcases hsel with ⟨htrue, -⟩ | ⟨-, hlast, -⟩
    · exact absurd (htrue.symm.trans hfar) (by decide)
    · rw [hd.prev_of_chp hc hfirst, ← hlast, hr]
  have hxlt : c.x.toNat < 2 ^ d.n := by
    rw [hd.n_eq, hx]
    exact xor_lt _ _ _ hv (hslots _ (tableFind_mem hr)).2
  have hrx : r ^^^ c.x = v := by rw [hx, BitVec.xor_comm v r, xor_xor_self]
  have hrun := runNextCode_chpRecord_of_slot (hd.atChp hc hfirst) (hd.logw ▸ hlogw) (hd.leadRep hne ▸ hrep hring)
    (hd.logw ▸ hslot) (r := r) (x := c.x) (by rw [State.ringAt, hd.ring]; exact hr)
    (by rw [hd.n_eq, hd.logw]; exact hsel.far_lt) hprev hxlt
    (by rw [hd.chpRecord_eq hne]; exact hahead) (by rw [hd.chpRecord_eq hne]; exact hpast')
  rw [hd.chpRecord_eq hne, hrx] at hrun
  refine hd.conveyed h.isElf h.codec_ne hpast hd.n_eq.symm hrun ⟨hd.pend, hd.pend⟩ ⟨rfl, rfl, rfl⟩ rfl fun hinv => ?_
  have hcur : (d.cur + 1) % 2 ^ d.logw = (e.index + 1) % 2 ^ e.logw := by rw [hd.cur, hd.logw, Nat.mod_add_mod]
  refine ⟨hinv, hd.codec, hd.dir, hd.phase, hd.pend, hd.logw, hd.leadRep, hd.first, fun hgor => absurd hgor hne, rfl,
    hd.ctrail, hcur, ?_⟩
  change tableInsert d.ring ((d.cur + 1) % 2 ^ d.logw) v = tableInsert e.ring ((e.index + 1) % 2 ^ e.logw) v
  rw [hcur, hd.ring]

/-- With room for the next record ADDVALUE appends bits that convey the value. -/
theorem transmits {e : State} (h : XorOpen e) {v : Raw} (hv : v.toNat < 2 ^ e.n)
    (hroom : e.wpos + recordRoom e ≤ 32 * e.capw) : ∃ bits t, Transmits e v bits t := by
  rcases h.codec with hc | hc <;> cases hfirst : e.first
  · exact gor_transmits_later h hc hfirst v hroom
  · exact gor_transmits_first h hc hfirst v hroom
  · exact chp_transmits_later h hc hfirst hv hroom
  · exact chp_transmits_first h hc hfirst hv hroom

end Machine
end Sys2Proof
end

section
/-! PROOFS. CLOSE of an encoder: the sentinel of GOR and CHP as an ADDVALUE, and the padding behind it (rules R64, R134,
R264). -/

namespace Sys2Proof
namespace Machine

theorem exec_close_of_opened {s : State} (hdir : s.dir = .enc) (hphase : s.phase = .opened) (hcodec : s.codec ≠ .bs) :
    exec .close s = ((encodeSentinel s).bind fun _ s => bswFlush s).outcome
      fun _ s => { s with phase := .closed }.answer .unit := by
  change execClose s = _
  rw [execClose, admitEncoder_of_opened hdir hphase hcodec, guarded_none]

/-- The encoder `t` at the end of its block: padded with zeros to a word, and closed. -/
def State.sealed (t : State) : State :=
  { t with
    wbuf := memSetBits t.wbuf t.wpos (padding t.wpos), wpos := 32 * ((t.wpos + 31) / 32), flushed := true, phase := .closed }

theorem State.sealed_stream {t : State} (h : memWf t.wbuf) :
    t.sealed.stream = t.stream ++ List.replicate (32 * ((t.wpos + 31) / 32) - t.wpos) false := by
  have hstream : t.sealed.stream = (t.append (padding t.wpos)).stream := by
    unfold State.stream State.sealed State.append
    rw [add_padding_length]
  rw [hstream, t.stream_append _ h, padding_eq]

/-- Where the sentinel's step leads to `t`, CLOSE pads and closes. -/
theorem close_of_sentinel {s t : State} (hdir : s.dir = .enc) (hphase : s.phase = .opened) (hcodec : s.codec ≠ .bs)
    (hsentinel : encodeSentinel s = .ok () t) (hf : t.flushed = false) :
    exec .close s = .next (t.sealed.answer .unit) := by
  rw [exec_close_of_opened hdir hphase hcodec, hsentinel, Eff.bind_ok, bswFlush_eq, if_neg (by simp [hf]), Eff.outcome_ok]
  unfold State.sealed State.append
  rw [add_padding_length]

theorem isNaN_qnan {n : Nat} (hn : n = 64 ∨ n = 32) : isNaN n (qnan n) = true := by
  rcases hn with rfl | rfl <;> decide

theorem qnan_lt {n : Nat} (hn : n = 64 ∨ n = 32) : (qnan n).toNat < 2 ^ n := by
  rcases hn with rfl | rfl <;> decide

/-- The sentinel of GOR and CHP is the engine's step for QNAN (rules R168, R191). -/
theorem XorOpen.encodeSentinel_eq {e : State} (h : XorOpen e) : encodeSentinel e = encodeValue (qnan e.n) e := by
  rcases h.codec with hc | hc | hc <;> simp only [encodeSentinel, encodeValue, hc, State.n] <;> rfl

theorem Eff.of_outcome_ok {α : Type} {e : Eff α} {f : α → State → State} {t : State} {r : Result}
    (h : e.outcome f = .next t) (hresp : t.resp = some (.ok r)) : ∃ a u, e = .ok a u ∧ t = f a u := by
  cases e with
  | ok a u =>
    cases h
    exact ⟨a, u, rfl, rfl⟩
  | raise c sub u =>
    cases h
    unfold State.failEntry at hresp
    split at hresp <;> cases hresp
  | stuck f => cases h

/-- CLOSE of a GOR or CHP encoder where ADDVALUE takes QNAN: pad and close behind it. -/
theorem XorOpen.close_eq {e t : State} (h : XorOpen e) (hexec : exec (.addValue (qnan e.n)) e = .next t)
    (hresp : t.resp = some (.ok .unit)) (hf : t.flushed = false) : exec .close e = .next t.sealed := by
  rw [exec_addValue_of_opened h.dir h.phase h.codec_ne _ (qnan_lt (width_eq e.codec))] at hexec
  obtain ⟨⟨⟩, u, hvalue, rfl⟩ := Eff.of_outcome_ok hexec hresp
  exact close_of_sentinel h.dir h.phase h.codec_ne (h.encodeSentinel_eq.trans hvalue) hf

/-- Settles O51: ELF has no sentinel; on GOR and CHP 77 bits hold QNAN's record whatever stood before. -/
theorem closeSealsTheBlock : Obligations.CloseSealsTheBlock := by
  intro s hinv hcodec hdir hphase
  obtain ⟨⟨hwf, -⟩, -, -, ⟨-, -, hopen, -⟩, -⟩ := id hinv
  refine ⟨fun helf => ?_, fun helf hroom => ?_⟩
  · have hsentinel : encodeSentinel s = .ok () s := by
      unfold encodeSentinel
      cases hc : s.codec <;> simp [hc, isElf] at helf ⊢
    exact ⟨_, close_of_sentinel hdir hphase hcodec hsentinel (hopen hcodec hphase).1, State.sealed_stream hwf⟩
  · have hxor : XorOpen s := ⟨hinv, by cases hc : s.codec <;> simp [hc, isElf] at helf hcodec ⊢, hdir, hphase⟩
    have hn : s.n = 64 ∨ s.n = 32 := width_eq s.codec
    have hrec : recordRoom s ≤ 77 := by
      unfold recordRoom
      split_ifs <;> omega
    obtain ⟨bits, t, htrans⟩ := transmits hxor (qnan_lt hn) (by omega)
    exact ⟨t, _, htrans.runs, htrans.resp, hxor.close_eq htrans.runs htrans.resp htrans.opened.writer.1,
      State.sealed_stream htrans.opened.memWf⟩

end Machine
end Sys2Proof
end

section
/-! PROOFS. GOR and CHP blocks: the encoder's run to its bytes, the decoder's run over them, and the round trips (rules
R168, R175, R191, R198, R261, R264, R265, R270, R272). -/

namespace Sys2Proof
namespace Machine

/-! ## A block in the stream -/

/-- A decoder in step with `e` that has `bits` ahead delivers the values `vs`, and is then in step with `e'`. -/
def ConveysAll (e e' : State) (bits : List Bool) (vs : List Raw) : Prop :=
  ∀ d, InStep e d → d.ahead bits.length = bits → d.rpos + bits.length ≤ d.lenBits →
    ∃ d', d.yields vs d' ∧ InStep e' d' ∧ d.sameInput d' ∧ d'.rpos = d.rpos + bits.length

theorem ConveysAll.nil (e : State) : ConveysAll e e [] [] := fun d h _ _ => ⟨d, rfl, h, ⟨rfl, rfl, rfl⟩, rfl⟩

/-- What stands behind the first bits of a stream stands ahead once they are read. -/
theorem State.sameInput.ahead {d d' : State} (h : d.sameInput d') {a b : List Bool} (hrpos : d'.rpos = d.rpos + a.length)
    (hahead : (d.advance a.length).ahead b.length = b) : d'.ahead b.length = b := by
  obtain ⟨hbuf, hlen, -⟩ := h
  exact (State.ahead_congr (s := d.advance a.length) hbuf hlen hrpos _).trans hahead

theorem State.sameInput.lenBits {d d' : State} (h : d.sameInput d') : d'.lenBits = d.lenBits := by
  rw [State.lenBits, h.2.1, State.lenBits]

theorem ConveysAll.cons {e e' e'' : State} {a b : List Bool} {v : Raw} {vs : List Raw} (hv : isNaN e.n v = false)
    (h : Conveys e e' a v) (h' : ConveysAll e' e'' b vs) : ConveysAll e e'' (a ++ b) (v :: vs) := by
  intro d hd hahead hfits
  obtain ⟨ha, hb⟩ := State.ahead_append hahead
  rw [List.length_append] at hfits
  obtain ⟨d', hnext, -, hvalue⟩ := h d hd ha (by omega)
  obtain ⟨hresp, hd', hsame, hrpos⟩ := hvalue hv
  have hlen := hsame.lenBits
  obtain ⟨d'', hyields, hd'', hsame', hrpos'⟩ := h' d' hd' (hsame.ahead hrpos hb) (by omega)
  obtain ⟨hbuf, hl, hn⟩ := hsame
  obtain ⟨hbuf', hl', hn'⟩ := hsame'
  refine ⟨d'', ⟨d', hnext, hresp, hyields⟩, hd'', ⟨hbuf'.trans hbuf, hl'.trans hl, hn'.trans hn⟩, ?_⟩
  rw [hrpos', hrpos, List.length_append, Nat.add_assoc]

/-! ## The encoder's run -/

theorem Transmits.wpos_eq {e t : State} {v : Raw} {bits : List Bool} (h : Transmits e v bits t) :
    t.wpos = e.wpos + bits.length := by
  rw [← t.stream_length, h.stream, List.length_append, e.stream_length]

theorem Transmits.n_eq {e t : State} {v : Raw} {bits : List Bool} (h : Transmits e v bits t) : t.n = e.n := by
  rw [State.n, h.codec]; rfl

/-- The longest record of a value behind the first (rule R105). -/
def laterRoom (e : State) : Nat := if e.codec = .gor then 77 else e.n + 5

theorem Transmits.laterRoom_eq {e t : State} {v : Raw} {bits : List Bool} (h : Transmits e v bits t) :
    laterRoom t = laterRoom e := by simp only [laterRoom, h.codec, h.n_eq]

theorem Transmits.recordRoom_eq {e t : State} {v : Raw} {bits : List Bool} (h : Transmits e v bits t) :
    recordRoom t = laterRoom e := by
  rw [← h.laterRoom_eq, recordRoom, if_neg (by simp [h.first])]
  rfl

/-- With room for the next record and for one more behind every value, the values of a block are appended, and room for
a record is left. -/
theorem addValues_convey (vs : List Raw) {e : State} (h : XorOpen e)
    (hvs : ∀ v ∈ vs, v.toNat < 2 ^ e.n ∧ isNaN e.n v = false)
    (hroom : e.wpos + recordRoom e + laterRoom e * vs.length ≤ 32 * e.capw) :
    ∃ e' bits, runCommands (vs.map .addValue) e = some (List.replicate vs.length (some (.ok .unit)), e') ∧
      XorOpen e' ∧ e'.codec = e.codec ∧ e'.capw = e.capw ∧ e'.stream = e.stream ++ bits ∧ ConveysAll e e' bits vs ∧
      e'.wpos + recordRoom e' ≤ 32 * e'.capw := by
  induction vs generalizing e with
  | nil =>
    rw [List.length_nil, Nat.mul_zero] at hroom
    exact ⟨e, [], rfl, h, rfl, rfl, (List.append_nil _).symm, ConveysAll.nil e, hroom⟩
  | cons v r ih =>
    obtain ⟨hv, hnan⟩ := hvs v (by simp)
    rw [List.length_cons, Nat.mul_succ] at hroom
    obtain ⟨a, e₁, ht⟩ := transmits h hv (by omega)
    have hwpos := ht.wpos_eq
    have hlen := ht.length_le
    obtain ⟨e₂, b, hrun, hopen, hcodec, hcapw, hstream, hconvey, hleft⟩ := ih ht.opened
      (fun w hw => ht.n_eq ▸ hvs w (by simp [hw])) (by rw [ht.laterRoom_eq, ht.recordRoom_eq, ht.capw]; omega)
    refine ⟨e₂, a ++ b, ?_, hopen, hcodec.trans ht.codec, hcapw.trans ht.capw, ?_, hconvey.cons hnan ht.conveys, hleft⟩
    · rw [List.map_cons, runCommands_cons ht.runs hrun, ht.resp]
      rfl
    · rw [hstream, ht.stream, List.append_assoc]

/-- CLOSE and GETBYTES behind the sentinel: the bytes begin with the stream, sentinel included (rules R65, R264, R265). -/
theorem Transmits.close_getBytes {e t : State} {bits : List Bool} (h : XorOpen e) (ht : Transmits e (qnan e.n) bits t) :
    ∃ u w bs, exec .close e = .next u ∧ u.resp = some (.ok .unit) ∧ exec .getBytes u = .next w ∧
      w.resp = some (.ok (.bytes bs)) ∧ t.stream <+: bs.flatMap bitsOfByte ∧ bs.length ≤ 4 * e.capw := by
  obtain ⟨hflushed, hsize⟩ := ht.opened.writer
  have hout : outputLength t.sealed = (t.wpos + 7) / 8 := by
    have helf : isElf t.sealed.codec = false := ht.opened.isElf
    rw [outputLength, helf, if_neg (by decide), ← hsize]
    rfl
  have hfits : 8 * outputLength t.sealed ≤ t.sealed.wpos := by
    rw [hout]
    change _ ≤ 32 * ((t.wpos + 31) / 32)
    omega
  have hget : exec .getBytes t.sealed = .next (t.sealed.answer (.bytes (memBytes t.sealed.wbuf 0 (outputLength t.sealed)))) := by
    have hadmit : admitGetBytes t.sealed = none := admitGetBytes_eq_none.mpr ⟨ht.opened.codec_ne, ht.opened.dir, rfl⟩
    change execGetBytes t.sealed = _
    rw [execGetBytes, hadmit, guarded_none, bswGetBuffer, if_neg (by simp [State.sealed]), if_neg (by omega), Eff.outcome_ok]
  refine ⟨_, _, _, h.close_eq ht.runs ht.resp hflushed, ht.resp, hget, rfl, ?_, ?_⟩
  · rw [State.flatMap_memBytes_wbuf _ _ hfits, State.sealed_stream ht.opened.memWf, hout, List.prefix_take_iff,
      State.stream_length]
    exact ⟨List.prefix_append _ _, by omega⟩
  · obtain ⟨-, -, -, ⟨hcap, -⟩, -⟩ := ht.opened.inv
    rw [memBytes_length, hout, ← ht.capw]
    omega

/-! ## The decoder's run -/

/-- DECOMPRESS over a block and the sentinel's record answers the block. -/
theorem exec_decompress_of_conveys {e e' t d : State} {a b : List Bool} {vs : List Raw} {v : Raw} (hd : InStep e d)
    (h : ConveysAll e e' a vs) (hend : Conveys e' t b v) (hv : isNaN e'.n v = true) (hrpos : d.rpos = 0)
    (hahead : d.ahead (a ++ b).length = a ++ b) (hlen : (a ++ b).length ≤ d.lenBits) :
    ∃ u, exec .decompress d = .next u ∧ u.resp = some (.ok (.values vs)) := by
  obtain ⟨ha, hb⟩ := State.ahead_append hahead
  rw [List.length_append] at hlen
  obtain ⟨d', hyields, hd', hsame, hrpos'⟩ := h d hd ha (by omega)
  have hlen' := hsame.lenBits
  obtain ⟨u, hu, hnan, -⟩ := hend d' hd' (hsame.ahead hrpos' hb) (by omega)
  have hvs := hyields.length_le hd.inv
  exact ⟨_, decompressLoop_of_yields hyields hu (hnan hv) (d.lenBits + 2) (by omega) [], rfl⟩

/-! ## Whole blocks -/

theorem freshEnc_open {codec : Codec} {g : EncConfig} (s : State) (hxor : codec = .gor ∨ codec = .chp64 ∨ codec = .chp32)
    (hlegal : legalEnc codec g = true) : XorOpen (s.freshEnc codec g) where
  inv := by
    obtain ⟨hlogw, hcapw, -, htable⟩ := (legalEnc_iff codec g).mp hlegal
    have helf : Machine.isElf codec = false := by rcases hxor with rfl | rfl | rfl <;> rfl
    refine inv_answer _ (constructed_inv _ _ _ _ _ _ _ _ _ hlogw (fun _ => by omega) (by simp [helf]) (by omega)
      (fun h => ?_) (by simp))
    rw [← htable h]
    split <;> rfl
  codec := hxor
  dir := rfl
  phase := rfl

/-- Decoders of GOR need not know the encoder's table; those of CHP have it, and its LOGW. -/
theorem fresh_inStep {codec : Codec} {g : EncConfig} {d : DecConfig} (s s' : State)
    (hxor : codec = .gor ∨ codec = .chp64 ∨ codec = .chp32) (hlegal : legalDec codec d = true)
    (hlogw : codec ≠ .gor → d.logw = g.logw) (htables : codec ≠ .gor → d.lead64 = g.lead64 ∧ d.lead32 = g.lead32) :
    InStep (s.freshEnc codec g) (s'.freshDec codec d) where
  inv := by
    obtain ⟨hlogw, hlen, htable⟩ := (legalDec_iff codec d).mp hlegal
    refine inv_answer _ (constructedLoad_inv _ _ _ _ _ _ _ (by rcases hxor with rfl | rfl | rfl <;> simp) hlogw
      (BitVec.isLt _) (fun h => ?_) hlen)
    rw [← htable h]
    split <;> rfl
  codec := rfl
  dir := rfl
  phase := rfl
  pend := rfl
  logw := by
    rcases hxor with rfl | hchp
    · rfl
    · have := hlogw (by rcases hchp with rfl | rfl <;> simp)
      simp [State.freshEnc, State.freshDec, State.construct, State.loadBytes, State.answer, this]
  leadRep := fun hne => by
    obtain ⟨h64, h32⟩ := htables hne
    rw [State.freshDec, h64, h32]
    rfl
  first := rfl
  prev := fun _ => rfl
  clead := rfl
  ctrail := rfl
  cur := (Nat.zero_mod _).symm
  ring := rfl

/-- The round trip of GOR and CHP: the bytes begin with a stream that conveys the block and the sentinel, and a fresh
decoder is in step with the fresh encoder. -/
theorem xorRoundTrip {codec : Codec} {vs : List Raw} {g : EncConfig} {d : DecConfig} (s s' : State)
    (hxor : codec = .gor ∨ codec = .chp64 ∨ codec = .chp32) (hcodec : g.codec.toNat = codecCode codec)
    (hdcodec : d.codec.toNat = codecCode codec) (hlegal : legalEnc codec g = true)
    (hdlegal : ∀ bs : List Byte, bs.length < 2 ^ 29 → legalDec codec { d with bytes := bs } = true)
    (hlogw : codec ≠ .gor → d.logw = g.logw) (htables : codec ≠ .gor → d.lead64 = g.lead64 ∧ d.lead32 = g.lead32)
    (hroom : width codec + (if codec = .gor then 77 else width codec + 5) * vs.length ≤ 32 * g.capw.toNat)
    (hvs : ∀ v ∈ vs, v.toNat < 2 ^ width codec ∧ isNaN (width codec) v = false) :
    ∃ bs, encodeBlock g vs s = some bs ∧ decodeBlock { d with bytes := bs } s' = some (.ok (.values vs)) := by
  have hopen := freshEnc_open s hxor hlegal
  obtain ⟨-, hcap, -⟩ := (legalEnc_iff codec g).mp hlegal
  obtain ⟨e, a, hvalues, he, hec, hecap, hstream, hconvey, hleft⟩ := addValues_convey vs hopen hvs (by
    change 0 + recordRoom (s.freshEnc codec g) + laterRoom (s.freshEnc codec g) * vs.length ≤ 32 * g.capw.toNat
    rw [show recordRoom (s.freshEnc codec g) = width codec from if_pos rfl, Nat.zero_add]
    exact hroom)
  have hqnan := width_eq e.codec
  obtain ⟨b, t, ht⟩ := transmits he (qnan_lt hqnan) hleft
  obtain ⟨u, w, bs, hclose, hclosed, hget, hbytes, hprefix, hlen⟩ := ht.close_getBytes he
  have hlen29 : bs.length < 2 ^ 29 := by
    have : e.capw = g.capw.toNat := hecap
    omega
  rw [ht.stream, hstream] at hprefix
  change [] ++ a ++ b <+: _ at hprefix
  rw [List.nil_append] at hprefix
  have hdec := exec_constructDec_of_legal (g := { d with bytes := bs }) s' hdcodec (hdlegal bs hlen29)
    (by rcases hxor with rfl | rfl | rfl <;> simp)
  have hbits : (a ++ b).length ≤ (s'.freshDec codec { d with bytes := bs }).lenBits :=
    hprefix.length_le.trans_eq (flatMap_bitsOfByte_length bs)
  have hahead : (s'.freshDec codec { d with bytes := bs }).ahead (a ++ b).length = a ++ b :=
    (s'.construct codec .dec d.logw.toNat 0 0 d.nval.toNat (tableOf d.lead64) (tableOf d.lead32)).ahead_loadBytes bs hprefix
  obtain ⟨x, hx, hxresp⟩ := exec_decompress_of_conveys
    (fresh_inStep s s' hxor (hdlegal bs hlen29) hlogw htables) hconvey ht.conveys (isNaN_qnan hqnan) rfl hahead hbits
  refine ⟨bs, encodeBlock_eq (exec_constructEnc_of_legal s hcodec hlegal) rfl hvalues hclose hclosed hget hbytes, ?_⟩
  rw [decodeBlock, runCommands_cons hdec (runCommands_cons hx (rfl : runCommands [] x = some ([], x)))]
  exact hxresp

/-- Settles O28: GOR has no ring and no table, and every value is of its width. -/
theorem gorRoundTrip : Obligations.GorRoundTrip := by
  intro vs g d s s' hcodec hdcodec hcapw hroom hvs
  refine xorRoundTrip (codec := .gor) s s' (.inl rfl) hcodec hdcodec ((legalEnc_iff _ _).mpr ⟨by simp, hcapw, ?_, ?_⟩)
    (fun bs hlen => (legalDec_iff _ _).mpr ⟨by simp, hlen, ?_⟩) (by simp) (by simp) hroom
    fun v hv => ⟨v.isLt, hvs v hv⟩
  all_goals simp [isElf, hasRing]

/-- Settles O35: decoder and encoder share LOGW and the table. -/
theorem chpRoundTrip : Obligations.ChpRoundTrip := by
  intro codec vs g d s s' hchp hcodec hdcodec hdlogw h64 h32 hlogw hrep hcapw hroom hvs
  have hne : codec ≠ .gor := by rcases hchp with rfl | rfl <;> simp
  have helf : isElf codec = false := by rcases hchp with rfl | rfl <;> rfl
  refine xorRoundTrip s s' (.inr hchp) hcodec (hdcodec ▸ hcodec)
    ((legalEnc_iff _ _).mpr ⟨fun _ => hlogw, hcapw, by simp [helf], fun _ => hrep⟩)
    (fun bs hlen => (legalDec_iff _ _).mpr ⟨fun _ => hdlogw ▸ hlogw, hlen, fun _ => by rw [h64, h32]; exact hrep⟩)
    (fun _ => hdlogw) (fun _ => ⟨h64, h32⟩) (by rw [if_neg hne]; exact hroom) hvs

end Machine
end Sys2Proof
end

section
/-! PROOFS. The capacity of WBUF in the encoder engines: with another capacity they do the same, or stop with
CapacityExceeded where the bits do not fit (rules R131, R132, R293). -/

namespace Sys2Proof
namespace Machine

/-- The machine with another capacity. -/
def State.resized (s : State) (k : Nat) : State := { s with capw := k }

/-- `small` is what `big`, a part of a command begun in `s`, is with the capacity `k`: where `big` goes on to a `t` whose
bits fit `k`, the same, and where they do not, CapacityExceeded with nothing beyond `k`. -/
def Resizes {α : Type} (k : Nat) (s : State) (big small : Eff α) : Prop :=
  ∀ a t, big = .ok a t → s.wpos ≤ t.wpos ∧ (s.wpos ≤ 32 * k →
    (t.wpos ≤ 32 * k → small = .ok a (t.resized k)) ∧
    (32 * k < t.wpos → ∃ u, small = .raise .capacityExceeded .wbuf u ∧ u.wpos ≤ 32 * k))

theorem Resizes.ok {α : Type} {k : Nat} {s t : State} {small : Eff α} {a : α} (hpos : t.wpos = s.wpos)
    (hsmall : small = .ok a (t.resized k)) : Resizes k s (.ok a t) small := by
  rintro b u ⟨⟩
  exact ⟨hpos.ge, fun hfits => ⟨fun _ => hsmall, fun hlong => absurd hlong (by omega)⟩⟩

theorem Resizes.raise {α : Type} {k : Nat} {s u : State} {small : Eff α} {c : FailCode} {sub : SubCause} :
    Resizes k s (.raise c sub u) small := by
  rintro a t ⟨⟩

theorem Resizes.stuck {α : Type} {k : Nat} {s : State} {small : Eff α} {f : Fault} : Resizes k s (.stuck f) small := by
  rintro a t ⟨⟩

theorem Resizes.bind {α β : Type} {k : Nat} {s : State} {big small : Eff α} {f g : α → State → Eff β}
    (h : Resizes k s big small) (hf : ∀ a t, Resizes k t (f a t) (g a (t.resized k))) :
    Resizes k s (big.bind f) (small.bind g) := by
  intro b u hu
  obtain ⟨a, t, rfl, ht⟩ := Eff.bind_eq_ok hu
  obtain ⟨hst, hsmall⟩ := h a t rfl
  obtain ⟨htu, hnext⟩ := hf a t b u ht
  refine ⟨hst.trans htu, fun hfits => ?_⟩
  obtain ⟨hok, hraise⟩ := hsmall hfits
  rcases Nat.lt_or_ge (32 * k) t.wpos with hlong | hshort
  · obtain ⟨w, hw, hle⟩ := hraise hlong
    exact ⟨fun _ => absurd hlong (by omega), fun _ => ⟨w, by rw [hw, Eff.bind_raise], hle⟩⟩
  · rw [hok hshort, Eff.bind_ok]
    exact hnext hshort

/-! ## The writes of an engine -/

/-- The tests of a write in their order, and the field of `n` bits that leads to `t`. -/
theorem resizes_write {k m n : Nat} {s t u : State} (hpos : t.wpos = s.wpos + n) (ht : u = t.resized k) :
    Resizes k s
      (if s.flushed then .raise .usageError .writeAfterFlush s
        else if m < n then .raise .usageError .badLength s
        else if 32 * s.capw < s.wpos + n then .raise .capacityExceeded .wbuf s else .ok () t)
      (if s.flushed then .raise .usageError .writeAfterFlush (s.resized k)
        else if m < n then .raise .usageError .badLength (s.resized k)
        else if 32 * k < s.wpos + n then .raise .capacityExceeded .wbuf (s.resized k) else .ok () u) := by
  intro a w hw
  by_cases hf : s.flushed
  · rw [if_pos hf] at hw; cases hw
  by_cases hn : m < n
  · rw [if_neg hf, if_pos hn] at hw; cases hw
  by_cases hbig : 32 * s.capw < s.wpos + n
  · rw [if_neg hf, if_neg hn, if_pos hbig] at hw; cases hw
  rw [if_neg hf, if_neg hn, if_neg hbig] at hw
  rw [if_neg hf, if_neg hn]
  cases hw
  refine ⟨by omega, fun hfits => ⟨fun hle => ?_, fun hlt => ?_⟩⟩
  · rw [if_neg (by omega), ht]
  · rw [if_pos (by omega)]
    exact ⟨_, rfl, hfits⟩

section
variable (k : Nat) (s : State)

theorem emit_resizes (c : Raw) (n : Nat) : Resizes k s (emit c n s) (emit c n (s.resized k)) := by
  rw [emit_eq, emit_eq]
  exact resizes_write (by simp [State.append]) rfl

theorem emitLong_resizes (c : Raw) (n : Nat) : Resizes k s (emitLong c n s) (emitLong c n (s.resized k)) := by
  rw [emitLong_eq, emitLong_eq]
  exact resizes_write (by simp [State.append]) rfl

theorem emitField_resizes (c : Raw) (n : Nat) : Resizes k s (emitField c n s) (emitField c n (s.resized k)) := by
  unfold emitField
  split_ifs
  · exact emitLong_resizes k s c n
  · exact emit_resizes k s c n

/-- The padding never passes a capacity that held the stream before it. -/
theorem bswFlush_resizes : Resizes k s (bswFlush s) (bswFlush (s.resized k)) := by
  have hlen := add_padding_length s.wpos
  rw [bswFlush_eq, bswFlush_eq]
  by_cases hf : s.flushed
  · rw [if_pos hf]
    exact .raise
  · rw [if_neg hf, if_neg (show ¬(s.resized k).flushed = true from hf)]
    rintro a t ⟨⟩
    refine ⟨Nat.le_add_right _ _, fun hfits => ⟨fun _ => rfl, fun hlt => ?_⟩⟩
    simp only [State.append] at hlt
    omega

/-! ## GOR (rules R160 to R167) -/

theorem gorEncodeReuse_resizes (x : Raw) (cl ct : Nat) :
    Resizes k s (gorEncodeReuse x cl ct s) (gorEncodeReuse x cl ct (s.resized k)) :=
  (emit_resizes k s 1 1).bind fun _ s => (emit_resizes k s 0 1).bind fun _ s => emitLong_resizes k s _ _

theorem gorEncodeNew_resizes (x : Raw) (lead trail : Nat) :
    Resizes k s (gorEncodeNew x lead trail s) (gorEncodeNew x lead trail (s.resized k)) :=
  (emit_resizes k s 1 1).bind fun _ s => (emit_resizes k s 1 1).bind fun _ s => (emit_resizes k s _ 5).bind fun _ s =>
    (emit_resizes k s _ 6).bind fun _ s => (emitLong_resizes k s _ _).bind fun _ _ => .ok rfl rfl

theorem gorEncodeXor_resizes (x : Raw) : Resizes k s (gorEncodeXor x s) (gorEncodeXor x (s.resized k)) := by
  unfold gorEncodeXor
  change Resizes k s _ (if x = 0 then _ else if gorFits x s then _ else _)
  split_ifs
  · exact emit_resizes k s 0 1
  · exact gorEncodeReuse_resizes k s x _ _
  · exact gorEncodeNew_resizes k s x _ _

theorem gorEncode_resizes (v : Raw) : Resizes k s (gorEncode v s) (gorEncode v (s.resized k)) := by
  refine Resizes.bind ?_ fun _ t => .ok rfl rfl
  change Resizes k s _ (if s.first then _ else match s.prev with | none => _ | some p => _)
  split_ifs
  · exact (emitLong_resizes k s v 64).bind fun _ t => .ok rfl rfl
  · cases s.prev with
    | none => exact .stuck
    | some p => exact gorEncodeXor_resizes k s _

/-! ## CHP64 and CHP32 (rules R183 to R190) -/

theorem chpEncodeRepeat_resizes (slot : Nat) :
    Resizes k s (chpEncodeRepeat slot s) (chpEncodeRepeat slot (s.resized k)) :=
  (emit_resizes k s _ _).bind fun _ _ => .ok rfl rfl

theorem chpEncodeFar_resizes (slot : Nat) (x : Raw) (trail : Nat) :
    Resizes k s (chpEncodeFar slot x trail s) (chpEncodeFar slot x trail (s.resized k)) :=
  (emit_resizes k s _ _).bind fun _ t => (emitField_resizes k t _ _).bind fun _ _ => .ok rfl rfl

theorem chpEncodeReuse_resizes (x : Raw) (lead : Nat) :
    Resizes k s (chpEncodeReuse x lead s) (chpEncodeReuse x lead (s.resized k)) :=
  (emit_resizes k s _ _).bind fun _ t => emitField_resizes k t _ _

theorem chpEncodeNew_resizes (x : Raw) (lead b : Nat) :
    Resizes k s (chpEncodeNew x lead b s) (chpEncodeNew x lead b (s.resized k)) :=
  (emit_resizes k { s with clead := some lead } _ _).bind fun _ t => emitField_resizes k t _ _

theorem chpEncodeChoice_resizes (c : Choice) :
    Resizes k s (chpEncodeChoice c s) (chpEncodeChoice c (s.resized k)) := by
  unfold chpEncodeChoice
  change Resizes k s _ (if c.x = 0 then _ else if c.far then _ else
    if s.clead = some (repOf s.leadRep (clz s.n c.x)) then _ else _)
  split_ifs
  · exact chpEncodeRepeat_resizes k s _
  · exact chpEncodeFar_resizes k s _ _ _
  · exact chpEncodeReuse_resizes k s _ _
  · exact chpEncodeNew_resizes k s _ _ _

theorem chpEncode_resizes (v : Raw) : Resizes k s (chpEncode v s) (chpEncode v (s.resized k)) := by
  unfold chpEncode
  change Resizes k s _ (if s.first then _ else match choose v s with | none => _ | some c => _)
  split_ifs
  · exact (emitField_resizes k s v _).bind fun _ t => .ok rfl rfl
  · cases choose v s with
    | none => exact .stuck
    | some c => exact (chpEncodeChoice_resizes k s c).bind fun _ t => .ok rfl rfl

/-! ## ELF64 and ELF32 (rules R226 to R230) -/

theorem elfEncodeErasure_resizes (found : Option Nat) :
    Resizes k s (elfEncodeErasure found s) (elfEncodeErasure found (s.resized k)) := by
  cases found with
  | none => exact emit_resizes k s 2 2
  | some b =>
    unfold elfEncodeErasure
    change Resizes k s (if s.lastbs = some b then _ else _) (if s.lastbs = some b then _ else _)
    split_ifs
    · exact emit_resizes k s 0 1
    · exact (emit_resizes k s _ _).bind fun _ t => .ok rfl rfl

theorem elfEncode_resizes (v : Raw) : Resizes k s (elfEncode v s) (elfEncode v (s.resized k)) := by
  unfold elfEncode
  change Resizes k s _ (if isNaN s.n v || isInf s.n v then _ else _)
  split_ifs
  · exact .raise
  · unfold elfEncodeFinite
    change Resizes k s _ (match search s.n s.eps v with | none => _ | some (b, v') => _)
    cases search s.n s.eps v with
    | none => exact (elfEncodeErasure_resizes k s none).bind fun _ t => chpEncode_resizes k t v
    | some q => exact (elfEncodeErasure_resizes k s (some q.1)).bind fun _ t => chpEncode_resizes k t q.2

/-! ## ADDVALUE and CLOSE (rules R263, R264) -/

theorem encodeValue_resizes (v : Raw) : Resizes k s (encodeValue v s) (encodeValue v (s.resized k)) := by
  unfold encodeValue
  change Resizes k s _ (match s.codec with
    | .gor => _ | .chp64 => _ | .chp32 => _ | .elf64 => _ | .elf32 => _ | .bs => _)
  cases s.codec with
  | gor => exact gorEncode_resizes k s v
  | chp64 => exact chpEncode_resizes k s v
  | chp32 => exact chpEncode_resizes k s v
  | elf64 => exact elfEncode_resizes k s v
  | elf32 => exact elfEncode_resizes k s v
  | bs => exact .raise

theorem encodeSentinel_resizes : Resizes k s (encodeSentinel s) (encodeSentinel (s.resized k)) := by
  unfold encodeSentinel
  change Resizes k s _ (match s.codec with
    | .gor => _ | .chp64 => _ | .chp32 => _ | .elf64 => _ | .elf32 => _ | .bs => _)
  cases s.codec with
  | gor => exact gorEncode_resizes k s _
  | chp64 => exact chpEncode_resizes k s _
  | chp32 => exact chpEncode_resizes k s _
  | elf64 => exact .ok rfl rfl
  | elf32 => exact .ok rfl rfl
  | bs => exact .ok rfl rfl

end

/-- A command that is an engine's part and an answer: what the capacity decides about it. -/
theorem Resizes.outcome {α : Type} {k : Nat} {s t : State} {big small : Eff α} {f : α → State → State} {r : Result}
    (h : Resizes k s big small) (hfits : s.wpos ≤ 32 * k) (hf : ∀ a u, (f a u).wpos = u.wpos)
    (hk : ∀ a u, f a (u.resized k) = (f a u).resized k) (hbig : big.outcome f = .next t)
    (hresp : t.resp = some (.ok r)) :
    (t.wpos ≤ 32 * k → small.outcome f = .next (t.resized k)) ∧
    (32 * k < t.wpos → ∃ u, small.outcome f = .next u ∧ u.failedWith .capacityExceeded .wbuf ∧ u.wpos ≤ 32 * k) := by
  obtain ⟨a, u, rfl, rfl⟩ := Eff.of_outcome_ok hbig hresp
  obtain ⟨hsame, hexceeds⟩ := (h a u rfl).2 hfits
  rw [hf]
  refine ⟨fun hle => by rw [hsame hle, Eff.outcome_ok, hk], fun hlt => ?_⟩
  obtain ⟨w, hw, hle⟩ := hexceeds hlt
  exact ⟨w.failEntry .capacityExceeded .wbuf, by rw [hw]; rfl, ⟨rfl, rfl, rfl, rfl⟩, hle⟩

theorem guarded_ok {adm : Option SubCause} {s t : State} {k : State → Host.Outcome State Fault Refusal} {r : Result}
    (h : guarded adm s k = .next t) (hresp : t.resp = some (.ok r)) : adm = none ∧ k s = .next t := by
  cases adm with
  | none => exact ⟨rfl, h⟩
  | some sub =>
    cases h
    cases hresp

/-- Settles O50: neither the phase table nor an engine's choices look at the capacity. -/
theorem capacityDecidesAlone : Obligations.CapacityDecidesAlone := by
  rintro i s t c hi hfits hexec hresp
  rcases hi with ⟨v, rfl⟩ | rfl
  · change execAddValue v (s.resized c) = _ at hexec
    rw [execAddValue] at hexec
    obtain ⟨hadmit, hrun⟩ := guarded_ok hexec hresp
    have hsmall : exec (.addValue v) s = (encodeValue (lowBits s.n v) s).outcome fun _ s => s.answer .unit := by
      change execAddValue v s = _
      rw [execAddValue, show admitEncoder .addAfterClose s = none from hadmit, guarded_none]
    rw [hsmall]
    exact (encodeValue_resizes s.capw (s.resized c) _).outcome hfits (fun _ _ => rfl) (fun _ _ => rfl) hrun hresp
  · change execClose (s.resized c) = _ at hexec
    rw [execClose] at hexec
    obtain ⟨hadmit, hrun⟩ := guarded_ok hexec hresp
    have hsmall : exec .close s = ((encodeSentinel s).bind fun _ s => bswFlush s).outcome
        fun _ s => { s with phase := .closed }.answer .unit := by
      change execClose s = _
      rw [execClose, show admitEncoder .secondClose s = none from hadmit, guarded_none]
    rw [hsmall]
    exact ((encodeSentinel_resizes s.capw (s.resized c)).bind fun _ t => bswFlush_resizes s.capw t).outcome hfits
      (fun _ _ => rfl) (fun _ _ => rfl) hrun hresp

end Machine
end Sys2Proof
end

section
/-! PROOFS. What a wire code may change on a decoder, and how it may end: said once for all wire codes, then for NEXT
(rules R29, R33, R72, R271, R300). -/

namespace Sys2Proof
namespace Machine

/-! ## Registers a decoder leaves alone -/

/-- The state with every register blanked that a decoder's wire codes write. -/
def State.decoderKept (s : State) : State :=
  { s with
    resp := none, pend := none, phase := .ready, err := none, errsub := none, count := 0, first := false, prev := none
    clead := none, ctrail := 0, cur := 0, lastbs := none, ring := [], rpos := 0, pastEnd := false }

/-- From `s` to `t` a decoder has written its own registers only, cursor and count forward, PAST_END sticky. -/
structure DecoderMoves (s t : State) : Prop where
  kept : t.decoderKept = s.decoderKept
  rpos : s.rpos ≤ t.rpos
  count : s.count ≤ t.count
  pastEnd : s.pastEnd = true → t.pastEnd = true

theorem DecoderMoves.refl (s : State) : DecoderMoves s s := ⟨rfl, le_rfl, le_rfl, id⟩

theorem DecoderMoves.trans {s t u : State} (h : DecoderMoves s t) (h' : DecoderMoves t u) : DecoderMoves s u :=
  ⟨h'.kept.trans h.kept, h.rpos.trans h'.rpos, h.count.trans h'.count, fun hp => h'.pastEnd (h.pastEnd hp)⟩

/-- A change of other registers of a decoder. -/
theorem DecoderMoves.of_kept {s t : State} (hkept : t.decoderKept = s.decoderKept) (hrpos : t.rpos = s.rpos)
    (hcount : t.count = s.count) (hpast : t.pastEnd = s.pastEnd) : DecoderMoves s t :=
  ⟨hkept, hrpos.ge, hcount.ge, fun h => hpast.trans h⟩

theorem decoderMoves_advance (s : State) (n : Nat) : DecoderMoves s (s.advance n) :=
  ⟨rfl, Nat.le_add_right _ _, le_rfl, fun h => by rw [State.advance_pastEnd, pastEndAt, h, Bool.true_or]⟩

theorem DecoderMoves.codec {s t : State} (h : DecoderMoves s t) : t.codec = s.codec :=
  show t.decoderKept.codec = s.decoderKept.codec by rw [h.kept]

theorem DecoderMoves.dir {s t : State} (h : DecoderMoves s t) : t.dir = s.dir :=
  show t.decoderKept.dir = s.decoderKept.dir by rw [h.kept]

/-! ## The end of a wire code -/

/-- How a wire code ends: with a value or the end of the block, delivered within the stream; with a failure; inside an ELF
record; refused; or answered END behind the end of the block. -/
inductive WireEnds (s t : State) : Prop where
  | value (v : Raw) (hphase : t.phase = s.phase) (hpast : t.pastEnd = false) (hresp : t.resp = some (.ok (.value v)))
  | ended (hphase : t.phase = .done) (hpast : t.pastEnd = false) (hresp : t.resp = some (.ok .endOfBlock))
  | failed (sub : SubCause) (h : t.failedWith .corruptStream sub)
  | pending (hphase : t.phase = s.phase) (hpend : t.pend.isSome = true)
  | refused (sub : SubCause) (hphase : t.phase = s.phase) (hresp : t.resp = some (.fail .usageError sub))
  | afterEnd (hs : s.phase = .done) (hphase : t.phase = .done) (hresp : t.resp = some (.ok .endOfBlock))

/-- A wire code run in `s` leads to `t`. -/
structure WireStep (s t : State) : Prop where
  moves : DecoderMoves s t
  ends : WireEnds s t

theorem WireStep.behind {s u t : State} (h : WireStep u t) (hmoves : DecoderMoves s u) (hphase : u.phase = s.phase) :
    WireStep s t := by
  refine ⟨hmoves.trans h.moves, ?_⟩
  cases h.ends with
  | value v hp hpast hresp => exact .value v (hp.trans hphase) hpast hresp
  | ended hp hpast hresp => exact .ended hp hpast hresp
  | failed sub hf => exact .failed sub hf
  | pending hp hpend => exact .pending (hp.trans hphase) hpend
  | refused sub hp hresp => exact .refused sub (hp.trans hphase) hresp
  | afterEnd hs hp hresp => exact .afterEnd (hphase.symm.trans hs) hp hresp

theorem wireStep_failEntry (s : State) (sub : SubCause) : WireStep s (s.failEntry .corruptStream sub) :=
  ⟨.of_kept rfl rfl rfl rfl, .failed sub ⟨rfl, rfl, rfl, rfl⟩⟩

theorem wireStep_usage (s : State) (sub : SubCause) : WireStep s (s.usage sub) :=
  ⟨.of_kept rfl rfl rfl rfl, .refused sub rfl rfl⟩

/-! ## The ends of records (rules R271, R277) -/

theorem finishRecord_wireStep (r : Option Raw) (s : State) : WireStep s (finishRecord r s) := by
  unfold finishRecord
  split
  case isTrue => exact wireStep_failEntry s _
  case isFalse hpast =>
    have hclear : s.pastEnd = false := Bool.eq_false_iff.mpr hpast
    cases r with
    | none => exact ⟨.of_kept rfl rfl rfl rfl, .ended rfl hclear rfl⟩
    | some v => exact ⟨⟨rfl, le_rfl, Nat.le_succ _, id⟩, .value v rfl hclear rfl⟩

theorem finishElf_wireStep (v : Raw) (s : State) : WireStep s (finishElf v s) := by
  have hcounted : DecoderMoves s { s with count := s.count + 1 } := ⟨rfl, le_rfl, Nat.le_succ _, id⟩
  unfold finishElf
  split
  case isTrue => exact (wireStep_failEntry { s with count := s.count + 1 } _).behind hcounted rfl
  case isFalse hpast => exact ⟨hcounted.trans (.of_kept rfl rfl rfl rfl), .value v rfl (Bool.eq_false_iff.mpr hpast) rfl⟩

theorem gorCommit_wireStep (v : Raw) (s : State) : WireStep s (gorCommit v s) := by
  unfold gorCommit
  split
  case isTrue => exact finishRecord_wireStep none s
  case isFalse => exact (finishRecord_wireStep (some v) { s with prev := some v }).behind (.of_kept rfl rfl rfl rfl) rfl

theorem gorXor_wireStep (x : Raw) (s : State) : Answers (WireStep s) (gorXor x s) := by
  unfold gorXor
  split
  case h_1 => rintro t ⟨⟩
  case h_2 p _ => exact answers_next (gorCommit_wireStep _ s)

theorem chpLit_wireStep (v : Raw) (s : State) : WireStep s (chpLit v s) := by
  unfold chpLit
  split
  case isTrue => exact (finishRecord_wireStep none { s with first := false }).behind (.of_kept rfl rfl rfl rfl) rfl
  case isFalse =>
    exact (finishRecord_wireStep (some v) (commitFirst v { s with first := false })).behind (.of_kept rfl rfl rfl rfl) rfl

theorem chpLater_wireStep (v : Raw) (s : State) : WireStep s (chpLater v s) := by
  unfold chpLater
  split
  case isTrue => exact finishRecord_wireStep none s
  case isFalse => exact (finishRecord_wireStep (some v) (commitLater v s)).behind (.of_kept rfl rfl rfl rfl) rfl

theorem elfEraseSame_wireStep (s : State) : WireStep s (elfEraseSame s) := by
  unfold elfEraseSame
  split
  case h_1 => exact wireStep_failEntry s _
  case h_2 => exact ⟨.of_kept rfl rfl rfl rfl, .pending rfl rfl⟩

theorem elfDeliver_wireStep (e : Option Bool) (v : Raw) (s : State) : WireStep s (elfDeliver e v s) := by
  unfold elfDeliver
  split
  case isTrue =>
    split
    case h_1 => exact wireStep_failEntry s _
    case h_2 r _ => exact finishElf_wireStep r s
  case isFalse => exact finishElf_wireStep v s

theorem elfLit_wireStep (v : Raw) (s : State) : WireStep s (elfLit v s) :=
  (elfDeliver_wireStep s.pend v (commitFirst v { s with first := false, pend := none })).behind (.of_kept rfl rfl rfl rfl) rfl

theorem elfLater_wireStep (v : Raw) (s : State) : WireStep s (elfLater v s) :=
  (elfDeliver_wireStep s.pend v (commitLater v { s with pend := none })).behind (.of_kept rfl rfl rfl rfl) rfl

/-! ## The steps of CHP records and of the ELF XOR stage (rules R193 to R196) -/

/-- A record step sets CLEAD alone, or raises a CorruptStream with nothing changed. -/
def cleadOnly (s : State) (e : Eff Raw) : Prop :=
  match e with
  | .ok _ t => ∃ l, t = { s with clead := l }
  | .raise c _ t => c = .corruptStream ∧ t = s
  | .stuck _ => True

theorem cleadOnly_stepRepeat (k : Nat) (s : State) : cleadOnly s (stepRepeat k s) := by
  unfold stepRepeat
  split
  case h_1 => exact ⟨rfl, rfl⟩
  case h_2 => exact ⟨none, rfl⟩

theorem cleadOnly_stepFar (n k b c : Nat) (p : Raw) (s : State) : cleadOnly s (stepFar n k b c p s) := by
  unfold stepFar
  split
  case isTrue => exact ⟨rfl, rfl⟩
  case isFalse =>
    split
    case h_1 => exact ⟨rfl, rfl⟩
    case h_2 => exact ⟨none, rfl⟩

theorem cleadOnly_stepReuse (p : Raw) (s : State) : cleadOnly s (stepReuse p s) := by
  unfold stepReuse stepXor
  split
  case h_1 => exact ⟨rfl, rfl⟩
  case h_2 =>
    split
    case h_1 => trivial
    case h_2 => exact ⟨s.clead, rfl⟩

theorem cleadOnly_stepNew (b : Nat) (p : Raw) (s : State) : cleadOnly s (stepNew b p s) := by
  unfold stepNew stepXor
  split
  case h_1 => trivial
  case h_2 => exact ⟨_, rfl⟩

theorem cleadOnly.wireStep {s : State} {e : Eff Raw} (h : cleadOnly s e) {r : Raw → State → State}
    (hr : ∀ v u, WireStep u (r v u)) : Answers (WireStep s) (e.outcome r) := by
  cases e with
  | ok v u =>
    obtain ⟨l, rfl⟩ := h
    exact answers_next ((hr v _).behind (.of_kept rfl rfl rfl rfl) rfl)
  | raise c sub u =>
    obtain ⟨rfl, rfl⟩ := h
    exact answers_next (wireStep_failEntry u sub)
  | stuck f => rintro t ⟨⟩

/-! ## All wire codes -/

/-- Every wire code is an effect of its unit's decoder at its place in the stream. -/
theorem exec_wire {i : Instr} (h : i.isCommand = false) : ∃ codec place k,
    (∀ s, exec i s = onDecoder codec place s k) ∧ ∀ s, Answers (WireStep s) (k s) := by
  have hchp : ∀ {e : State → Eff Raw}, (∀ s, cleadOnly s (e s)) →
      ∀ s, Answers (WireStep s) ((e s).outcome chpLater) := fun he s => (he s).wireStep chpLater_wireStep
  have helf : ∀ {e : State → Eff Raw}, (∀ s, cleadOnly s (e s)) →
      ∀ s, Answers (WireStep s) ((e s).outcome elfLater) := fun he s => (he s).wireStep elfLater_wireStep
  cases i with
  | gorLit v =>
    exact ⟨_, _, _, fun _ => rfl, fun s => answers_next ((gorCommit_wireStep v { s with first := false }).behind
      (.of_kept rfl rfl rfl rfl) rfl)⟩
  | gorSame => exact ⟨_, _, _, fun _ => rfl, gorXor_wireStep 0⟩
  | gorReuse p =>
    refine ⟨_, _, _, fun _ => rfl, fun s => ?_⟩
    split
    case h_1 => exact answers_next (wireStep_failEntry s _)
    case h_2 => exact gorXor_wireStep _ s
  | gorNew l cnt p =>
    refine ⟨_, _, _, fun _ => rfl, fun s => ?_⟩
    split
    case isTrue => exact answers_next (wireStep_failEntry s _)
    case isFalse => exact (gorXor_wireStep _ _).mono fun t ht => ht.behind (.of_kept rfl rfl rfl rfl) rfl
  | chp64Lit v => exact ⟨_, _, _, fun _ => rfl, fun s => answers_next (chpLit_wireStep _ s)⟩
  | chp64Repeat slot => exact ⟨_, _, _, fun _ => rfl, hchp (cleadOnly_stepRepeat _)⟩
  | chp64Far slot b cnt p => exact ⟨_, _, _, fun _ => rfl, hchp (cleadOnly_stepFar _ _ _ _ _)⟩
  | chp64Reuse p => exact ⟨_, _, _, fun _ => rfl, hchp (cleadOnly_stepReuse _)⟩
  | chp64New b p => exact ⟨_, _, _, fun _ => rfl, hchp (cleadOnly_stepNew _ _)⟩
  | chp32Lit v => exact ⟨_, _, _, fun _ => rfl, fun s => answers_next (chpLit_wireStep _ s)⟩
  | chp32Repeat slot => exact ⟨_, _, _, fun _ => rfl, hchp (cleadOnly_stepRepeat _)⟩
  | chp32Far slot b cnt p => exact ⟨_, _, _, fun _ => rfl, hchp (cleadOnly_stepFar _ _ _ _ _)⟩
  | chp32Reuse p => exact ⟨_, _, _, fun _ => rfl, hchp (cleadOnly_stepReuse _)⟩
  | chp32New b p => exact ⟨_, _, _, fun _ => rfl, hchp (cleadOnly_stepNew _ _)⟩
  | elf64EraseSame => exact ⟨_, _, _, fun _ => rfl, fun s => answers_next (elfEraseSame_wireStep s)⟩
  | elf64Raw => exact ⟨_, _, _, fun _ => rfl, fun s => answers_next ⟨.of_kept rfl rfl rfl rfl, .pending rfl rfl⟩⟩
  | elf64EraseNew b => exact ⟨_, _, _, fun _ => rfl, fun s => answers_next ⟨.of_kept rfl rfl rfl rfl, .pending rfl rfl⟩⟩
  | elf64XLit v => exact ⟨_, _, _, fun _ => rfl, fun s => answers_next (elfLit_wireStep _ s)⟩
  | elf64XRepeat => exact ⟨_, _, _, fun _ => rfl, helf (cleadOnly_stepRepeat _)⟩
  | elf64XFar b cnt p => exact ⟨_, _, _, fun _ => rfl, helf (cleadOnly_stepFar _ _ _ _ _)⟩
  | elf64XReuse p => exact ⟨_, _, _, fun _ => rfl, helf (cleadOnly_stepReuse _)⟩
  | elf64XNew b p => exact ⟨_, _, _, fun _ => rfl, helf (cleadOnly_stepNew _ _)⟩
  | elf32EraseSame => exact ⟨_, _, _, fun _ => rfl, fun s => answers_next (elfEraseSame_wireStep s)⟩
  | elf32Raw => exact ⟨_, _, _, fun _ => rfl, fun s => answers_next ⟨.of_kept rfl rfl rfl rfl, .pending rfl rfl⟩⟩
  | elf32EraseNew b => exact ⟨_, _, _, fun _ => rfl, fun s => answers_next ⟨.of_kept rfl rfl rfl rfl, .pending rfl rfl⟩⟩
  | elf32XLit v => exact ⟨_, _, _, fun _ => rfl, fun s => answers_next (elfLit_wireStep _ s)⟩
  | elf32XRepeat => exact ⟨_, _, _, fun _ => rfl, helf (cleadOnly_stepRepeat _)⟩
  | elf32XFar b cnt p => exact ⟨_, _, _, fun _ => rfl, helf (cleadOnly_stepFar _ _ _ _ _)⟩
  | elf32XReuse p => exact ⟨_, _, _, fun _ => rfl, helf (cleadOnly_stepReuse _)⟩
  | elf32XNew b p => exact ⟨_, _, _, fun _ => rfl, helf (cleadOnly_stepNew _ _)⟩
  | _ => cases h

/-- A wire code on any machine. -/
theorem exec_wire_step {i : Instr} (h : i.isCommand = false) (s : State) : Answers (WireStep s) (exec i s) := by
  obtain ⟨codec, place, k, hexec, hk⟩ := exec_wire h
  rw [hexec, onDecoder]
  cases admitDecoder s with
  | some sub => exact answers_next (wireStep_usage s sub)
  | none =>
    rw [guarded_none]
    split_ifs with hdone
    · exact answers_next ⟨.of_kept rfl rfl rfl rfl, .afterEnd hdone hdone rfl⟩
    · exact hk s
    · exact answers_next (wireStep_usage s _)

/-- On an encoder a wire code is refused (log entry 4). -/
theorem exec_wire_of_enc {i : Instr} (h : i.isCommand = false) {s : State} (hdir : s.dir = .enc) :
    ∃ sub, exec i s = .next (s.refuses sub) := by
  obtain ⟨codec, place, k, hexec, -⟩ := exec_wire h
  obtain ⟨sub, hsub⟩ : ∃ sub, admitDecoder s = some sub := by
    unfold admitDecoder
    split_ifs <;> exact ⟨_, rfl⟩
  exact ⟨sub, by rw [hexec, onDecoder, guarded_refused hsub]⟩

end Machine
end Sys2Proof
end

section
/-! PROOFS. NEXT and DECOMPRESS as a whole: what they leave alone, and how they end (rules R271, R272, R277, R300). -/

namespace Sys2Proof
namespace Machine

/-! ## NEXT -/

theorem runWire_of_command {i : Instr} (h : i.isCommand = true) (s : State) : runWire i s = .next (s.usage .badCommand) := by
  cases i <;> cases h <;> rfl

theorem runWire_step (i : Instr) (s : State) : Answers (WireStep s) (runWire i s) := by
  cases h : i.isCommand with
  | true => rw [runWire_of_command h]; exact answers_next (wireStep_usage s _)
  | false => rw [← exec_eq_runWire h]; exact exec_wire_step h s

theorem runNextCode_step (s : State) : Answers (WireStep s) (runNextCode s) := by
  unfold runNextCode
  cases hfetch : fetchWire s with
  | none => exact answers_next (wireStep_usage s _)
  | some q =>
    obtain ⟨i, u⟩ := q
    obtain ⟨rest, -, rfl⟩ := fetchWire_some hfetch
    exact (runWire_step i _).mono fun t ht => ht.behind (decoderMoves_advance s _) rfl

/-- How NEXT ends on a decoder it is legal on. -/
inductive NextEnds (s t : State) : Prop where
  | value (v : Raw) (hphase : t.phase = .ready) (hpast : t.pastEnd = false) (hresp : t.resp = some (.ok (.value v)))
  | ended (hphase : t.phase = .done) (hpast : t.pastEnd = false ∨ t.pastEnd = s.pastEnd)
      (hresp : t.resp = some (.ok .endOfBlock))
  | failed (sub : SubCause) (h : t.failedWith .corruptStream sub)

/-- A whole record ends neither inside itself nor with a refusal. -/
theorem WireStep.nextEnds {s t : State} (h : WireStep s t) {codec : Codec} (hready : s.phase = .ready)
    (hends : t.endsRecord codec) : NextEnds s t := by
  obtain ⟨hpend, hresp⟩ := hends
  cases h.ends with
  | value v hp hpast hr => exact .value v (hp.trans hready) hpast hr
  | ended hp hpast hr => exact .ended hp (.inl hpast) hr
  | failed sub hf => exact .failed sub hf
  | pending hp hsome => rw [hpend] at hsome; cases hsome
  | refused sub hp hr => rcases hresp with ⟨-, v, hv⟩ | hv | ⟨sub', hv⟩ <;> cases hr.symm.trans hv
  | afterEnd hs => cases hready.symm.trans hs

theorem beforeRecord_ends {s t : State} (h : beforeRecord s = some t) : DecoderMoves s t ∧ NextEnds s t := by
  unfold beforeRecord at h
  split_ifs at h with hdone
  all_goals cases h
  · exact ⟨.of_kept rfl rfl rfl rfl, .ended hdone (.inr rfl) rfl⟩
  · exact ⟨.of_kept rfl rfl rfl rfl, .ended rfl (.inr rfl) rfl⟩
  · exact ⟨.of_kept rfl rfl rfl rfl, .failed _ ⟨rfl, rfl, rfl, rfl⟩⟩

/-- A record moves what its one or two wire codes move. -/
theorem runRecord_step {s : State} {codec : Codec} (h : s.between codec) (hcodec : codec ≠ .bs) :
    Answers (WireStep s) (runRecord s) := by
  unfold runRecord
  cases hrun : runNextCode s with
  | next t =>
    have hstep := runNextCode_step s t hrun
    simp only
    split
    case isTrue hpend =>
      rcases runNextCode_leavesCode h hcodec t hrun with ⟨hnone, -⟩ | ⟨⟨-, -, hready⟩, -, -⟩
      · rw [hnone] at hpend; cases hpend
      · exact (runNextCode_step t).mono fun u hu => hu.behind hstep.moves (hready.trans h.1.2.2.symm)
    case isFalse => exact answers_next hstep
  | fault f => rintro t ⟨⟩
  | refused r => rintro t ⟨⟩

theorem nextValue_step {s : State} (hinv : Inv s) (hadmit : admitDecoder s = none) :
    Answers (fun t => DecoderMoves s t ∧ NextEnds s t) (nextValue s) := by
  intro t ht
  have hends := nextValue_endsRecord hinv hadmit t ht
  obtain ⟨hfault, hcodec, hdir⟩ := admitDecoder_eq_none.mp hadmit
  obtain ⟨-, -, ⟨-, hphases, -⟩, -, -, -, -, -, hpending⟩ := hinv
  rw [nextValue, hadmit, guarded_none] at ht
  split at ht
  case isTrue hpend =>
    obtain ⟨-, hready⟩ := hpending (Option.isSome_iff_ne_none.mp hpend)
    have hstep := runNextCode_step s t ht
    exact ⟨hstep.moves, hstep.nextEnds hready hends⟩
  case isFalse hpend =>
    split at ht
    case h_1 u hbefore =>
      cases ht
      exact beforeRecord_ends hbefore
    case h_2 hbefore =>
      have hready : s.phase = .ready := by
        have hopened := hphases hdir
        cases hp : s.phase <;> simp [hp] at hfault hopened ⊢
        simp [beforeRecord, hp] at hbefore
      have hstep := runRecord_step ⟨⟨rfl, hdir, hready⟩, Option.not_isSome_iff_eq_none.mp hpend⟩ hcodec t ht
      exact ⟨hstep.moves, hstep.nextEnds hready hends⟩

theorem admitDecoder_of {s : State} (hcodec : s.codec ≠ .bs) (hdir : s.dir = .dec) (hphase : s.phase ≠ .fault) :
    admitDecoder s = none := admitDecoder_eq_none.mpr ⟨hphase, hcodec, hdir⟩

theorem DecoderMoves.admits {s t : State} (h : DecoderMoves s t) (hadmit : admitDecoder s = none)
    (hphase : t.phase ≠ .fault) : admitDecoder t = none := by
  obtain ⟨-, hcodec, hdir⟩ := admitDecoder_eq_none.mp hadmit
  exact admitDecoder_of (h.codec ▸ hcodec) (h.dir.trans hdir) hphase

theorem execNext_of_beforeRecord {s t : State} (hadmit : admitDecoder s = none) (hpend : s.pend = none)
    (h : beforeRecord s = some t) : exec .next s = .next t := by
  change nextValue s = _
  simp [nextValue, hadmit, hpend, h]

/-- Settles O53: the tests before a record in their order, and a record that delivers leaves PAST_END clear. -/
theorem nextAroundARecord : Obligations.NextAroundARecord := by
  intro s hcodec hdir hpend
  refine ⟨fun hdone => ?_, fun hready helf hcount => ?_, fun hready hmore hpast => ?_, fun hinv hready hpast t ht htpast => ?_⟩
  · exact execNext_of_beforeRecord (admitDecoder_of hcodec hdir (by simp [hdone])) hpend (if_pos hdone)
  · exact execNext_of_beforeRecord (admitDecoder_of hcodec hdir (by simp [hready])) hpend
      (by rw [beforeRecord, if_neg (by simp [hready]), if_pos ⟨helf, hcount⟩]; rfl)
  · exact execNext_of_beforeRecord (admitDecoder_of hcodec hdir (by simp [hready])) hpend
      (by rw [beforeRecord, if_neg (by simp [hready]), if_neg fun h => hmore h.1 h.2, if_pos hpast]; rfl)
  · obtain ⟨-, hends⟩ := nextValue_step hinv (admitDecoder_of hcodec hdir (by simp [hready])) t ht
    cases hends with
    | value v hp hclear => rw [htpast] at hclear; cases hclear
    | ended hp hclear => rw [htpast, hpast] at hclear; simp at hclear
    | failed sub hf => exact ⟨sub, hf⟩

/-! ## DECOMPRESS (rule R272) -/

/-- DECOMPRESS answers the failure that ends the repetition of NEXT, and no values. -/
theorem decompressLoop_of_failure {s t u : State} {ws : List Raw} (h : s.yields ws t) (hend : nextValue t = .next u)
    {code : FailCode} {sub : SubCause} (hresp : u.resp = some (.fail code sub)) (fuel : Nat) (hfuel : ws.length < fuel)
    (acc : List Raw) : decompressLoop fuel acc s = .next u := by
  induction ws generalizing s fuel acc with
  | nil =>
    cases h
    obtain ⟨f, rfl⟩ : ∃ f, fuel = f + 1 := ⟨fuel - 1, by simp at hfuel; omega⟩
    simp [decompressLoop, hend, hresp]
  | cons w r ih =>
    obtain ⟨q, hq, hval, hrest⟩ := h
    simp only [List.length_cons] at hfuel
    obtain ⟨f, rfl⟩ : ∃ f, fuel = f + 1 := ⟨fuel - 1, by omega⟩
    simp [decompressLoop, hq, hval, ih hrest f (by omega)]

/-- The end of a repetition of NEXT. -/
inductive RunEnds (u : State) : Prop where
  | ended (hphase : u.phase = .done) (hresp : u.resp = some (.ok .endOfBlock))
  | failed (sub : SubCause) (h : u.failedWith .corruptStream sub)

/-- NEXT repeated comes to an end, as every value delivered moves the cursor and none leaves it past the stream. -/
theorem yields_until_end {s : State} (hinv : Inv s) (hadmit : admitDecoder s = none) :
    ∃ ws t u, s.yields ws t ∧ nextValue t = .next u ∧ RunEnds u ∧ ws.length ≤ s.lenBits - s.rpos ∧ DecoderMoves s u := by
  induction hn : s.lenBits - s.rpos using Nat.strong_induction_on generalizing s with
  | _ n ih =>
    obtain ⟨u, hu, huinv⟩ := nextValue_inv hinv
    obtain ⟨hmoves, hends⟩ := nextValue_step hinv hadmit u hu
    cases hends with
    | ended hp hpast hresp => exact ⟨[], s, u, rfl, hu, .ended hp hresp, Nat.zero_le _, hmoves⟩
    | failed sub hf => exact ⟨[], s, u, rfl, hu, .failed sub hf, Nat.zero_le _, hmoves⟩
    | value v hp hpast hresp =>
      obtain ⟨hlen, hlt, hle⟩ := nextValue_value hinv hu hresp
      have hbits : u.lenBits = s.lenBits := by rw [State.lenBits, hlen]; rfl
      have hadmit' := hmoves.admits hadmit (by simp [hp])
      obtain ⟨ws, t, w, hyields, hw, hwends, hcount, hmoves'⟩ := ih _ (by omega) huinv hadmit' rfl
      exact ⟨v :: ws, t, w, ⟨u, hu, hresp, hyields⟩, hw, hwends, by rw [List.length_cons]; omega, hmoves.trans hmoves'⟩

/-- What DECOMPRESS leaves: the values up to the end of the block, or the failure. -/
theorem exec_decompress_of_yields {s t u : State} {ws : List Raw} (h : s.yields ws t) (hu : nextValue t = .next u)
    (hlen : ws.length ≤ s.lenBits) :
    (u.resp = some (.ok .endOfBlock) → exec .decompress s = .next (u.answer (.values ws))) ∧
    (∀ sub, u.failedWith .corruptStream sub → exec .decompress s = .next u) :=
  ⟨fun hresp => decompressLoop_of_yields h hu hresp _ (by omega) [],
    fun _ ⟨_, _, _, hresp⟩ => decompressLoop_of_failure h hu hresp _ (by omega) []⟩

/-- Settles O55: the repetition ends, and its first NEXT is that of the statement. -/
theorem decompressRepeatsNext : Obligations.DecompressRepeatsNext := by
  intro s hinv hcodec hdir hphase
  have hadmit := admitDecoder_of hcodec hdir hphase
  refine ⟨fun hdone => ?_, ?_, ?_⟩
  · have hpend : s.pend = none := by
      obtain ⟨-, -, -, -, -, -, -, -, hpending⟩ := hinv
      by_contra hsome
      cases hdone.symm.trans (hpending hsome).2
    have hnext : nextValue s = .next (s.answer .endOfBlock) :=
      execNext_of_beforeRecord hadmit hpend (if_pos hdone)
    exact (exec_decompress_of_yields (ws := []) rfl hnext (Nat.zero_le _)).1 rfl
  · obtain ⟨ws, t, u, hyields, hu, hends, hlen, -⟩ := yields_until_end hinv hadmit
    obtain ⟨hvalues, hfails⟩ := exec_decompress_of_yields hyields hu (hlen.trans (Nat.sub_le _ _))
    cases hends with
    | ended hp hresp => exact ⟨_, hvalues hresp, .inl ⟨ws, rfl, hp⟩⟩
    | failed sub hf => exact ⟨_, hfails sub hf, .inr ⟨sub, hf⟩⟩
  · obtain ⟨t, ht, htinv⟩ := nextValue_inv hinv
    obtain ⟨hmoves, hends⟩ := nextValue_step hinv hadmit t ht
    obtain ⟨hvalues, hfails⟩ := exec_decompress_of_yields (s := s) (ws := []) rfl ht (Nat.zero_le _)
    refine ⟨t, ht, ?_⟩
    cases hends with
    | ended hp hpast hresp => exact .inl ⟨hresp, hvalues hresp⟩
    | failed sub hf => exact .inr (.inl ⟨by rw [hf.2.2.2]; simp, hf.1, hfails sub hf⟩)
    | value v hp hpast hresp =>
      obtain ⟨hlen, hlt, hle⟩ := nextValue_value hinv ht hresp
      obtain ⟨ws, x, u, hyields, hu, huends, hcount, -⟩ :=
        yields_until_end htinv (hmoves.admits hadmit (by simp [hp]))
      have hbits : t.lenBits = s.lenBits := by rw [State.lenBits, hlen]; rfl
      have hall : s.yields (v :: ws) x := ⟨t, ht, hresp, hyields⟩
      obtain ⟨hvalues', hfails'⟩ := exec_decompress_of_yields hyields hu (hcount.trans (Nat.sub_le _ _))
      obtain ⟨hvalues'', hfails''⟩ := exec_decompress_of_yields hall hu (by rw [List.length_cons]; omega)
      refine .inr (.inr ⟨v, ?_⟩)
      cases huends with
      | ended hup huresp =>
        refine ⟨_, hresp, hvalues' huresp, ?_, fun hfault => ?_⟩
        · rintro vs ⟨⟩
          exact hvalues'' huresp
        · cases hup.symm.trans hfault
      | failed sub hf =>
        refine ⟨_, hresp, hfails' sub hf, fun vs hvs => ?_, fun _ => hfails'' sub hf⟩
        cases hf.2.2.2.symm.trans hvs

end Machine
end Sys2Proof
end

section
/-! PROOFS. What an encoder's engines and the bit-stream writer may change: their own registers, cursor and counts forward,
and nothing of the stream written before (rules R28, R30, R32, R43, R72). -/

namespace Sys2Proof
namespace Machine

/-! ## Registers an encoder leaves alone -/

/-- Every state a part of a command may end in. -/
def Eff.All {α : Type} (P : State → Prop) (e : Eff α) : Prop :=
  match e with
  | .ok _ t => P t
  | .raise _ _ t => P t
  | .stuck _ => True

theorem Eff.All.mono {α : Type} {P Q : State → Prop} {e : Eff α} (h : e.All P) (hPQ : ∀ t, P t → Q t) : e.All Q := by
  cases e with
  | ok a t => exact hPQ t h
  | raise c sub t => exact hPQ t h
  | stuck f => trivial

theorem Eff.All.bind {α β : Type} {P : State → Prop} {e : Eff α} {k : α → State → Eff β} (h : e.All P)
    (hk : ∀ a t, P t → (k a t).All P) : (e.bind k).All P := by
  cases e with
  | ok a t => exact hk a t h
  | raise c sub t => exact h
  | stuck f => trivial

/-- The state with every register blanked that an encoder's commands write. -/
def State.encoderKept (s : State) : State :=
  { s with
    resp := none, pend := none, phase := .opened, err := none, errsub := none, size := 0, first := false, prev := none
    clead := none, ctrail := 0, index := 0, lastbs := none, ring := [], idx := [], wbuf := [], wpos := 0, flushed := false }

/-- From `s` to `t` an encoder has written its own registers only, cursors and counts forward, FLUSHED sticky, and the
stream of `s` stands. INDEX is 0 before the first value. -/
structure EncoderMoves (s t : State) : Prop where
  kept : t.encoderKept = s.encoderKept
  wpos : s.wpos ≤ t.wpos
  size : s.size ≤ t.size
  flushed : s.flushed = true → t.flushed = true
  first : s.first = false → t.first = false
  index : (s.first = true → s.index = 0) → s.index ≤ t.index ∧ (t.first = true → t.index = 0)
  stream : memWf s.wbuf → memWf t.wbuf ∧ s.stream <+: t.stream

theorem EncoderMoves.trans {s t u : State} (h : EncoderMoves s t) (h' : EncoderMoves t u) : EncoderMoves s u where
  kept := h'.kept.trans h.kept
  wpos := h.wpos.trans h'.wpos
  size := h.size.trans h'.size
  flushed hf := h'.flushed (h.flushed hf)
  first hf := h'.first (h.first hf)
  index hi := ⟨(h.index hi).1.trans (h'.index (h.index hi).2).1, (h'.index (h.index hi).2).2⟩
  stream hwf := ⟨(h'.stream (h.stream hwf).1).1, (h.stream hwf).2.trans (h'.stream (h.stream hwf).1).2⟩

/-- A change of registers outside the writer that leaves FIRST and INDEX. -/
theorem EncoderMoves.of_kept {s t : State} (hkept : t.encoderKept = s.encoderKept) (hpos : t.wpos = s.wpos)
    (hsize : t.size = s.size) (hflushed : t.flushed = s.flushed) (hfirst : t.first = s.first) (hindex : t.index = s.index)
    (hbuf : t.wbuf = s.wbuf) : EncoderMoves s t where
  kept := hkept
  wpos := hpos.ge
  size := hsize.ge
  flushed h := hflushed.trans h
  first h := hfirst.trans h
  index h := ⟨hindex.ge, fun hf => hindex.trans (h (hfirst.symm.trans hf))⟩
  stream hwf := ⟨hbuf ▸ hwf, by rw [State.stream, State.stream, hpos, hbuf]⟩

theorem EncoderMoves.refl (s : State) : EncoderMoves s s := .of_kept rfl rfl rfl rfl rfl rfl rfl

theorem State.append_moves (s : State) (bs : List Bool) : EncoderMoves s (s.append bs) where
  kept := rfl
  wpos := Nat.le_add_right _ _
  size := le_rfl
  flushed := id
  first := id
  index h := ⟨le_rfl, h⟩
  stream hwf := ⟨memSetBits_wf _ _ _ hwf, s.stream_append bs hwf ▸ List.prefix_append _ _⟩

theorem State.put_moves (s : State) (bs : List Bool) : EncoderMoves s (s.put bs) where
  kept := rfl
  wpos := Nat.le_add_right _ _
  size := Nat.le_add_right _ _
  flushed := id
  first := id
  index h := ⟨le_rfl, h⟩
  stream hwf := ⟨memSetBits_wf _ _ _ hwf, s.put_stream bs hwf ▸ List.prefix_append _ _⟩

/-- A part of a command of an encoder: its registers move, and the phase stays. -/
def Writes {α : Type} (s : State) (e : Eff α) : Prop := e.All fun t => EncoderMoves s t ∧ t.phase = s.phase

/-- A part begun behind moves of the encoder's registers. -/
theorem Writes.behind {α : Type} {s u : State} {e : Eff α} (h : Writes u e) (hmoves : EncoderMoves s u)
    (hphase : u.phase = s.phase) : Writes s e :=
  h.mono fun _ ⟨ht, hp⟩ => ⟨hmoves.trans ht, hp.trans hphase⟩

theorem Writes.bind {α β : Type} {s : State} {e : Eff α} {k : α → State → Eff β} (h : Writes s e)
    (hk : ∀ a t, EncoderMoves s t → Writes t (k a t)) : Writes s (e.bind k) :=
  Eff.All.bind h fun a t ⟨hmoves, hphase⟩ => (hk a t hmoves).behind hmoves hphase

theorem Writes.raise {α : Type} {s : State} (c : FailCode) (sub : SubCause) : Writes s (.raise c sub s : Eff α) :=
  ⟨.refl s, rfl⟩

theorem Writes.ok {α : Type} {s t : State} {a : α} (h : EncoderMoves s t) (hphase : t.phase = s.phase) :
    Writes s (.ok a t) := ⟨h, hphase⟩

/-! ## The bit-stream writer (rules R131 to R135) -/

section
variable (s : State)

theorem bswWrite_writes (c : Raw) (n : Nat) : Writes s (bswWrite c n s) := by
  unfold bswWrite
  split_ifs
  · exact .raise _ _
  · exact .raise _ _
  · exact .raise _ _
  · exact .ok (s.append_moves _) rfl

theorem bswWriteLong_writes (c : Raw) (n : Nat) : Writes s (bswWriteLong c n s) := by
  rw [bswWriteLong_eq]
  split_ifs
  · exact .raise _ _
  · exact .raise _ _
  · exact .raise _ _
  · exact .ok (s.append_moves _) rfl

theorem bswFlush_writes : Writes s (bswFlush s) := by
  rw [bswFlush_eq]
  split_ifs
  · exact .raise _ _
  · refine .ok ((s.append_moves (padding s.wpos)).trans ⟨rfl, le_rfl, le_rfl, fun _ => rfl, id, fun h => ⟨le_rfl, h⟩,
      fun hwf => ⟨hwf, List.prefix_rfl⟩⟩) rfl

/-- An engine's write appends its field and counts it, or changes nothing. -/
theorem emit_cases (c : Raw) (n : Nat) : (∃ bs, emit c n s = .ok () (s.put bs)) ∨ ∃ code sub, emit c n s = .raise code sub s := by
  rw [emit_eq]
  split_ifs
  · exact .inr ⟨_, _, rfl⟩
  · exact .inr ⟨_, _, rfl⟩
  · exact .inr ⟨_, _, rfl⟩
  · exact .inl ⟨bitsOf n c.toNat, by simp [State.put, State.append]⟩

theorem emitLong_cases (c : Raw) (n : Nat) :
    (∃ bs, emitLong c n s = .ok () (s.put bs)) ∨ ∃ code sub, emitLong c n s = .raise code sub s := by
  rw [emitLong_eq]
  split_ifs
  · exact .inr ⟨_, _, rfl⟩
  · exact .inr ⟨_, _, rfl⟩
  · exact .inr ⟨_, _, rfl⟩
  · exact .inl ⟨bitsOf n c.toNat, by simp [State.put, State.append]⟩

theorem emitField_cases (c : Raw) (n : Nat) :
    (∃ bs, emitField c n s = .ok () (s.put bs)) ∨ ∃ code sub, emitField c n s = .raise code sub s := by
  unfold emitField
  split_ifs
  · exact emitLong_cases s c n
  · exact emit_cases s c n

theorem Writes.of_cases {s : State} {e : Eff Unit} (h : (∃ bs, e = .ok () (s.put bs)) ∨ ∃ code sub, e = .raise code sub s) :
    Writes s e := by
  obtain ⟨bs, rfl⟩ | ⟨code, sub, rfl⟩ := h
  · exact .ok (s.put_moves bs) rfl
  · exact .raise code sub

theorem emit_writes (c : Raw) (n : Nat) : Writes s (emit c n s) := .of_cases (emit_cases s c n)
theorem emitLong_writes (c : Raw) (n : Nat) : Writes s (emitLong c n s) := .of_cases (emitLong_cases s c n)
theorem emitField_writes (c : Raw) (n : Nat) : Writes s (emitField c n s) := .of_cases (emitField_cases s c n)

/-! ## GOR (rules R160 to R167) -/

theorem gorEncodeXor_writes (x : Raw) : Writes s (gorEncodeXor x s) := by
  unfold gorEncodeXor
  split_ifs
  · exact emit_writes s 0 1
  · exact (emit_writes s 1 1).bind fun _ s _ => (emit_writes s 0 1).bind fun _ s _ => emitLong_writes s _ _
  · exact (emit_writes s 1 1).bind fun _ s _ => (emit_writes s 1 1).bind fun _ s _ => (emit_writes s _ 5).bind fun _ s _ =>
      (emit_writes s _ 6).bind fun _ s _ => (emitLong_writes s _ _).bind fun _ s _ =>
        .ok (.of_kept rfl rfl rfl rfl rfl rfl rfl) rfl

theorem gorEncode_writes (v : Raw) : Writes s (gorEncode v s) := by
  refine Writes.bind ?_ fun _ t _ => .ok (.of_kept rfl rfl rfl rfl rfl rfl rfl) rfl
  split_ifs
  · exact (emitLong_writes s v 64).bind fun _ t _ => .ok ⟨rfl, le_rfl, le_rfl, id, fun _ => rfl,
      fun _ => ⟨le_rfl, fun h => by cases h⟩, fun hwf => ⟨hwf, List.prefix_rfl⟩⟩ rfl
  · cases s.prev with
    | none => trivial
    | some p => exact gorEncodeXor_writes s _

/-! ## CHP64 and CHP32 (rules R183 to R190) -/

theorem chpEncodeNew_writes (x : Raw) (lead b : Nat) : Writes s (chpEncodeNew x lead b s) :=
  Writes.behind (u := { s with clead := some lead }) ((emit_writes _ _ _).bind fun _ t _ => emitField_writes t _ _)
    (.of_kept rfl rfl rfl rfl rfl rfl rfl) rfl

theorem chpEncodeChoice_writes (c : Choice) : Writes s (chpEncodeChoice c s) := by
  unfold chpEncodeChoice
  split_ifs
  · exact (emit_writes s _ _).bind fun _ t _ => .ok (.of_kept rfl rfl rfl rfl rfl rfl rfl) rfl
  · exact (emit_writes s _ _).bind fun _ t _ => (emitField_writes t _ _).bind fun _ t _ =>
      .ok (.of_kept rfl rfl rfl rfl rfl rfl rfl) rfl
  · exact (emit_writes s _ _).bind fun _ t _ => emitField_writes t _ _
  · exact chpEncodeNew_writes s _ _ _

/-- An insertion behind the first value moves INDEX on. -/
theorem chpInsert_moves (hfirst : s.first = false) (v : Raw) : EncoderMoves s (chpInsert v s) :=
  ⟨rfl, le_rfl, le_rfl, id, fun _ => hfirst, fun _ => ⟨Nat.le_succ _, fun h => by cases hfirst.symm.trans h⟩,
    fun hwf => ⟨hwf, List.prefix_rfl⟩⟩

/-- The first value resets INDEX, which is still 0. -/
theorem chpEncodeLit_writes (hfirst : s.first = true) (v : Raw) : Writes s (chpEncodeLit v s) := by
  unfold chpEncodeLit
  obtain ⟨bs, h⟩ | ⟨code, sub, h⟩ := emitField_cases s v s.n
  · rw [h, Eff.bind_ok]
    exact .ok ((s.put_moves bs).trans ⟨rfl, le_rfl, le_rfl, id, fun _ => rfl,
      fun hi => ⟨(hi hfirst).le, fun hf => by cases hf⟩, fun hwf => ⟨hwf, List.prefix_rfl⟩⟩) rfl
  · rw [h, Eff.bind_raise]
    exact .raise code sub

theorem chpEncode_writes (v : Raw) : Writes s (chpEncode v s) := by
  unfold chpEncode
  split_ifs with hfirst
  · exact chpEncodeLit_writes s hfirst v
  · cases choose v s with
    | none => trivial
    | some c =>
      exact (chpEncodeChoice_writes s c).bind fun _ t ht =>
        .ok (chpInsert_moves t (ht.first (Bool.eq_false_iff.mpr hfirst)) v) rfl

/-! ## ELF64 and ELF32 (rules R226 to R230) -/

theorem elfEncodeErasure_writes (found : Option Nat) : Writes s (elfEncodeErasure found s) := by
  unfold elfEncodeErasure
  cases found with
  | none => exact emit_writes s 2 2
  | some b =>
    simp only
    split_ifs
    · exact emit_writes s 0 1
    · exact (emit_writes s _ _).bind fun _ t _ => .ok (.of_kept rfl rfl rfl rfl rfl rfl rfl) rfl

theorem elfEncode_writes (v : Raw) : Writes s (elfEncode v s) := by
  unfold elfEncode
  split_ifs
  · exact .raise _ _
  · unfold elfEncodeFinite
    cases search s.n s.eps v with
    | none => exact (elfEncodeErasure_writes s none).bind fun _ t _ => chpEncode_writes t v
    | some q => exact (elfEncodeErasure_writes s (some q.1)).bind fun _ t _ => chpEncode_writes t q.2

/-! ## ADDVALUE and CLOSE (rules R263, R264) -/

theorem encodeValue_writes (v : Raw) : Writes s (encodeValue v s) := by
  unfold encodeValue
  cases s.codec with
  | gor => exact gorEncode_writes s v
  | chp64 => exact chpEncode_writes s v
  | chp32 => exact chpEncode_writes s v
  | elf64 => exact elfEncode_writes s v
  | elf32 => exact elfEncode_writes s v
  | bs => exact .raise _ _

theorem encodeSentinel_writes : Writes s (encodeSentinel s) := by
  unfold encodeSentinel
  cases s.codec with
  | gor => exact gorEncode_writes s _
  | chp64 => exact chpEncode_writes s _
  | chp32 => exact chpEncode_writes s _
  | elf64 => exact .ok (.refl s) rfl
  | elf32 => exact .ok (.refl s) rfl
  | bs => exact .ok (.refl s) rfl

end

end Machine
end Sys2Proof
end

section
/-! PROOFS. All commands and wire codes: which registers one may change, and how a failure is entered (rules R20, R28, R29,
R72, R260, R295, R300). -/

namespace Sys2Proof
namespace Machine

/-! ## The reader (rules R140 to R145) -/

/-- A part of a command of a reader: its registers move, and the phase stays. -/
def Reads {α : Type} (s : State) (e : Eff α) : Prop := e.All fun t => DecoderMoves s t ∧ t.phase = s.phase

theorem Reads.bind {α β : Type} {s : State} {e : Eff α} {k : α → State → Eff β} (h : Reads s e)
    (hk : ∀ a t, Reads t (k a t)) : Reads s (e.bind k) :=
  Eff.All.bind h fun a t ⟨hmoves, hphase⟩ => (hk a t).mono fun _ ⟨hu, hp⟩ => ⟨hmoves.trans hu, hp.trans hphase⟩

theorem Reads.raise {α : Type} {s : State} (c : FailCode) (sub : SubCause) : Reads s (.raise c sub s : Eff α) :=
  ⟨.refl s, rfl⟩

theorem Reads.same {α : Type} {s : State} (a : α) : Reads s (.ok a s) := ⟨.refl s, rfl⟩

theorem bsrPeek_reads (len : Nat) (s : State) : Reads s (bsrPeek len s) := by
  unfold bsrPeek
  split_ifs
  · exact .raise _ _
  · exact .same _

theorem bsrForward_reads (len : Nat) (s : State) : Reads s (bsrForward len s) := by
  unfold bsrForward
  split_ifs
  · exact .raise _ _
  · exact ⟨decoderMoves_advance s len, rfl⟩

theorem bsrReadInt_reads (len : Nat) (s : State) : Reads s (bsrReadInt len s) :=
  (bsrPeek_reads len s).bind fun _ t => (bsrForward_reads len t).bind fun _ _ => .same _

theorem bsrReadLong_reads (len : Nat) (s : State) : Reads s (bsrReadLong len s) := by
  unfold bsrReadLong
  split_ifs
  · exact .raise _ _
  · exact bsrReadInt_reads len s
  · exact (bsrReadInt_reads _ s).bind fun _ t => (bsrReadInt_reads 32 t).bind fun _ _ => .same _

theorem bswGetBuffer_writes (n : Nat) (s : State) : Writes s (bswGetBuffer n s) := by
  unfold bswGetBuffer
  split_ifs
  · exact .raise _ _
  · exact .raise _ _
  · exact .ok (.refl s) rfl

/-! The writer's commands leave the ring's INDEX alone. -/

section
variable (s : State)

theorem bswWrite_index (c : Raw) (n : Nat) : (bswWrite c n s).All fun t => t.index = s.index := by
  unfold bswWrite
  split_ifs <;> exact rfl

theorem bswWriteLong_index (c : Raw) (n : Nat) : (bswWriteLong c n s).All fun t => t.index = s.index := by
  rw [bswWriteLong_eq]
  split_ifs <;> exact rfl

theorem bswFlush_index : (bswFlush s).All fun t => t.index = s.index := by
  unfold bswFlush
  split_ifs <;> exact rfl

theorem bswGetBuffer_index (n : Nat) : (bswGetBuffer n s).All fun t => t.index = s.index := by
  unfold bswGetBuffer
  split_ifs <;> exact rfl

end

/-! ## NEXT and DECOMPRESS (rules R271, R272) -/

theorem nextValue_moves (s : State) : Answers (DecoderMoves s) (nextValue s) := by
  unfold nextValue
  cases admitDecoder s with
  | some sub => exact answers_next (wireStep_usage s sub).moves
  | none =>
    rw [guarded_none]
    split
    case isTrue => exact (runNextCode_step s).mono fun t ht => ht.moves
    case isFalse =>
      split
      case h_1 t hbefore => exact answers_next (beforeRecord_ends hbefore).1
      case h_2 =>
        unfold runRecord
        cases hrun : runNextCode s with
        | next t =>
          have hmoves := (runNextCode_step s t hrun).moves
          simp only
          split
          · exact (runNextCode_step t).mono fun u hu => hmoves.trans hu.moves
          · exact answers_next hmoves
        | fault f => rintro t ⟨⟩
        | refused r => rintro t ⟨⟩

theorem decompressLoop_moves (fuel : Nat) (acc : List Raw) (s : State) :
    Answers (DecoderMoves s) (decompressLoop fuel acc s) := by
  induction fuel generalizing acc s with
  | zero => rintro t ⟨⟩
  | succ n ih =>
    unfold decompressLoop
    cases hnext : nextValue s with
    | next t =>
      have hmoves := nextValue_moves s t hnext
      simp only
      split
      case h_1 v _ => exact (ih (acc ++ [v]) t).mono fun u hu => hmoves.trans hu
      case h_2 => exact answers_next (hmoves.trans (.of_kept rfl rfl rfl rfl))
      all_goals exact answers_next hmoves
    | fault f => rintro t ⟨⟩
    | refused r => rintro t ⟨⟩

/-! ## What an instruction may change -/

/-- The engine of a codec encoder that has not failed and has not been closed: the one that inserts into the ring. -/
def AcceptsValues (s : State) : Prop := s.phase ≠ .fault ∧ s.phase ≠ .closed ∧ s.codec ≠ .bs

/-- What an instruction does to the registers: only the response changes; or those of the machine's own side do; or LOAD
fills the reader. -/
inductive Moves (i : Instr) (s t : State) : Prop where
  | responds (r : Response) (h : t = { s with resp := some r })
  | encoder (hdir : s.dir = .enc) (h : EncoderMoves s t) (hindex : AcceptsValues s ∨ t.index = s.index)
  | decoder (hdir : s.dir = .dec) (h : DecoderMoves s t)
  | loads (bs : List Byte) (hi : i = .load bs) (hdir : s.dir = .dec) (h : t = (s.loadBytes bs).answer .unit)

/-- A command is over as rule R300 says: in FAULT with its failure, or out of FAULT with no failure but a UsageError. -/
def Settled (t : State) : Prop :=
  (t.phase ≠ .fault ∧ ∀ code sub, t.resp = some (.fail code sub) → code = .usageError) ∨
    ∃ code sub, code ≠ .usageError ∧ t.failedWith code sub

theorem settled_usage {s : State} (h : s.phase ≠ .fault) (sub : SubCause) : Settled (s.usage sub) :=
  .inl ⟨h, by rintro code sub ⟨⟩; rfl⟩

theorem settled_answer {t : State} (h : t.phase ≠ .fault) {r : Result} (hresp : t.resp = some (.ok r)) : Settled t :=
  .inl ⟨h, fun code sub hf => by cases hresp.symm.trans hf⟩

theorem settled_failEntry {s : State} (h : s.phase ≠ .fault) (code : FailCode) (sub : SubCause) :
    Settled (s.failEntry code sub) := by
  cases code with
  | usageError => exact settled_usage h sub
  | capacityExceeded => exact .inr ⟨_, sub, by decide, rfl, rfl, rfl, rfl⟩
  | corruptStream => exact .inr ⟨_, sub, by decide, rfl, rfl, rfl, rfl⟩
  | domainError => exact .inr ⟨_, sub, by decide, rfl, rfl, rfl, rfl⟩

theorem encoderMoves_failEntry (s : State) (code : FailCode) (sub : SubCause) : EncoderMoves s (s.failEntry code sub) := by
  unfold State.failEntry
  split
  · exact .of_kept rfl rfl rfl rfl rfl rfl rfl
  · exact .of_kept rfl rfl rfl rfl rfl rfl rfl

theorem failEntry_index (s : State) (code : FailCode) (sub : SubCause) : (s.failEntry code sub).index = s.index := by
  unfold State.failEntry
  split <;> rfl

theorem decoderMoves_failEntry (s : State) (code : FailCode) (sub : SubCause) : DecoderMoves s (s.failEntry code sub) := by
  unfold State.failEntry
  split
  · exact .of_kept rfl rfl rfl rfl
  · exact .of_kept rfl rfl rfl rfl

section
variable {α : Type} {i : Instr} {s : State} {adm : Option SubCause} {e : State → Eff α} {result : α → State → Result}

/-- An encoder's command: its part, and an answer that may close the block. -/
theorem encoder_command {phase : State → Phase} (hadm : adm = none → s.dir = .enc) (h : Writes s (e s))
    (hindex : (adm = none → AcceptsValues s) ∨ (e s).All fun t => t.index = s.index)
    (hphase : ∀ u, u.phase ≠ .fault → phase u ≠ .fault) :
    Answers (fun t => Moves i s t ∧ (Inv s → s.phase ≠ .fault → Settled t))
      (guarded adm s fun s => (e s).outcome fun a u => { u with phase := phase u }.answer (result a u)) := by
  cases hadmit : adm with
  | some sub => exact answers_next ⟨.responds _ rfl, fun _ hp => settled_usage hp sub⟩
  | none =>
    rw [guarded_none]
    cases he : e s with
    | ok a u =>
      rw [he] at h hindex
      exact answers_next ⟨.encoder (hadm hadmit) (h.1.trans (.of_kept rfl rfl rfl rfl rfl rfl rfl)) (hindex.imp (· hadmit) id),
        fun _ hp => settled_answer (hphase u (h.2 ▸ hp)) rfl⟩
    | raise c sub u =>
      rw [he] at h hindex
      exact answers_next ⟨.encoder (hadm hadmit) (h.1.trans (encoderMoves_failEntry u c sub))
          (hindex.imp (· hadmit) (failEntry_index u c sub).trans),
        fun _ hp => settled_failEntry (h.2 ▸ hp) c sub⟩
    | stuck f => rintro t ⟨⟩

/-- A bare reader's command but LOAD: its part and an answer. -/
theorem decoder_command (hadm : adm = none → s.dir = .dec) (h : Reads s (e s)) :
    Answers (fun t => Moves i s t ∧ (Inv s → s.phase ≠ .fault → Settled t))
      (guarded adm s fun s => (e s).outcome fun a u => u.answer (result a u)) := by
  cases hadmit : adm with
  | some sub => exact answers_next ⟨.responds _ rfl, fun _ hp => settled_usage hp sub⟩
  | none =>
    rw [guarded_none]
    cases he : e s with
    | ok a u =>
      rw [he] at h
      exact answers_next ⟨.decoder (hadm hadmit) (h.1.trans (.of_kept rfl rfl rfl rfl)),
        fun _ hp => settled_answer (h.2 ▸ hp) rfl⟩
    | raise c sub u =>
      rw [he] at h
      exact answers_next ⟨.decoder (hadm hadmit) (h.1.trans (decoderMoves_failEntry u c sub)),
        fun _ hp => settled_failEntry (h.2 ▸ hp) c sub⟩
    | stuck f => rintro t ⟨⟩

end

theorem answers_next_settled {i : Instr} {s : State} {o : Host.Outcome State Fault Refusal}
    (hmoves : Answers (Moves i s) o) (hsettled : Inv s → s.phase ≠ .fault → Answers Settled o) :
    Answers (fun t => Moves i s t ∧ (Inv s → s.phase ≠ .fault → Settled t)) o :=
  fun t ht => ⟨hmoves t ht, fun hinv hp => hsettled hinv hp t ht⟩

/-- NEXT and DECOMPRESS: refused off a decoder, and else a decoder's moves. -/
theorem decoder_moves {i : Instr} {s : State} {o : Host.Outcome State Fault Refusal}
    (hrefused : ∀ sub, admitDecoder s = some sub → o = .next (s.refuses sub)) (h : Answers (DecoderMoves s) o) :
    Answers (Moves i s) o := by
  cases hadmit : admitDecoder s with
  | some sub => rw [hrefused sub hadmit]; exact answers_next (.responds _ rfl)
  | none => exact h.mono fun t ht => .decoder (admitDecoder_eq_none.mp hadmit).2.2 ht

theorem execNext_settled {s : State} (hinv : Inv s) (hphase : s.phase ≠ .fault) : Answers Settled (exec .next s) := by
  intro t ht
  cases hadmit : admitDecoder s with
  | some sub =>
    cases (exec_refused (i := .next) hadmit).symm.trans ht
    exact settled_usage hphase sub
  | none =>
    cases (nextValue_step hinv hadmit t ht).2 with
    | value v hp _ hresp => exact settled_answer (by simp [hp]) hresp
    | ended hp _ hresp => exact settled_answer (by simp [hp]) hresp
    | failed sub hf => exact .inr ⟨_, sub, by decide, hf⟩

theorem execDecompress_settled {s : State} (hinv : Inv s) (hphase : s.phase ≠ .fault) :
    Answers Settled (exec .decompress s) := by
  intro t ht
  cases hadmit : admitDecoder s with
  | some sub =>
    cases (exec_refused (i := .decompress) hadmit).symm.trans ht
    exact settled_usage hphase sub
  | none =>
    obtain ⟨ws, x, u, hyields, hu, hends, hlen, -⟩ := yields_until_end hinv hadmit
    obtain ⟨hvalues, hfails⟩ := exec_decompress_of_yields hyields hu (hlen.trans (Nat.sub_le _ _))
    cases hends with
    | ended hp hresp =>
      cases (hvalues hresp).symm.trans ht
      exact settled_answer (by simp [hp]) rfl
    | failed sub hf =>
      cases (hfails sub hf).symm.trans ht
      exact .inr ⟨_, sub, by decide, hf⟩

/-- LOAD: refused, or the reader is filled. -/
theorem exec_load_moves (bs : List Byte) (s : State) :
    Answers (fun t => Moves (.load bs) s t ∧ (Inv s → s.phase ≠ .fault → Settled t)) (exec (.load bs) s) := by
  change Answers _ (execLoad bs s)
  unfold execLoad
  cases hadmit : admitUnit .dec s with
  | some sub => exact answers_next ⟨.responds _ rfl, fun _ hp => settled_usage hp sub⟩
  | none =>
    rw [guarded_none]
    unfold bsrLoad
    split_ifs
    · exact answers_next ⟨.responds _ rfl, fun _ hp => settled_usage hp _⟩
    · exact answers_next ⟨.responds _ rfl, fun _ hp => settled_usage hp _⟩
    · exact answers_next ⟨.loads bs rfl (admitUnit_eq_none.mp hadmit).2.2 rfl, fun _ hp => settled_answer hp rfl⟩

/-- Every command but CONSTRUCT. -/
theorem exec_command {i : Instr} (hcmd : i.isCommand = true) (henc : ∀ g, i ≠ .constructEnc g)
    (hdec : ∀ g, i ≠ .constructDec g) (s : State) :
    Answers (fun t => Moves i s t ∧ (Inv s → s.phase ≠ .fault → Settled t)) (exec i s) := by
  have hunit : ∀ {d}, admitUnit d s = none → s.dir = d := fun h => (admitUnit_eq_none.mp h).2.2
  have hcodec : ∀ {closed}, admitEncoder closed s = none → s.dir = .enc := fun h => (admitEncoder_eq_none.mp h).2.2.1
  have haccepts : ∀ {closed}, admitEncoder closed s = none → AcceptsValues s := fun h => by
    obtain ⟨hfault, hbs, -, hclosed⟩ := admitEncoder_eq_none.mp h
    exact ⟨hfault, hclosed, hbs⟩
  cases i with
  | constructEnc g => exact absurd rfl (henc g)
  | constructDec g => exact absurd rfl (hdec g)
  | addValue v => exact encoder_command (phase := State.phase) hcodec (encodeValue_writes s _) (.inl haccepts) fun _ h => h
  | close =>
    exact encoder_command (e := fun s => (encodeSentinel s).bind fun _ s => bswFlush s) (phase := fun _ => .closed) hcodec
      ((encodeSentinel_writes s).bind fun _ t _ => bswFlush_writes t) (.inl haccepts) fun _ _ => by decide
  | getBytes =>
    exact encoder_command (phase := State.phase) (fun h => (admitGetBytes_eq_none.mp h).2.1) (bswGetBuffer_writes _ s)
      (.inr (bswGetBuffer_index s _)) fun _ h => h
  | getSize =>
    change Answers _ (guarded (admitGetSize s) s fun s => .next (s.answer (.num s.size)))
    cases admitGetSize s with
    | some sub => exact answers_next ⟨.responds _ rfl, fun _ hp => settled_usage hp sub⟩
    | none => exact answers_next ⟨.responds _ rfl, fun _ hp => settled_answer hp rfl⟩
  | next =>
    exact answers_next_settled (decoder_moves (fun sub h => exec_refused (i := .next) h) (nextValue_moves s)) execNext_settled
  | decompress =>
    exact answers_next_settled (decoder_moves (fun sub h => exec_refused (i := .decompress) h) (decompressLoop_moves _ _ s))
      execDecompress_settled
  | write c n => exact encoder_command (phase := State.phase) hunit (bswWrite_writes s _ _) (.inr (bswWrite_index s _ _)) fun _ h => h
  | writeLong c n => exact encoder_command (phase := State.phase) hunit (bswWriteLong_writes s _ _) (.inr (bswWriteLong_index s _ _)) fun _ h => h
  | writeBit b => exact encoder_command (phase := State.phase) hunit (bswWrite_writes s _ _) (.inr (bswWrite_index s _ _)) fun _ h => h
  | flush => exact encoder_command (phase := State.phase) hunit (bswFlush_writes s) (.inr (bswFlush_index s)) fun _ h => h
  | getBuffer n => exact encoder_command (phase := State.phase) hunit (bswGetBuffer_writes _ s) (.inr (bswGetBuffer_index s _)) fun _ h => h
  | load bs => exact exec_load_moves bs s
  | peek n => exact decoder_command hunit (bsrPeek_reads _ s)
  | forward n => exact decoder_command hunit (bsrForward_reads _ s)
  | readInt n => exact decoder_command hunit (bsrReadInt_reads _ s)
  | readLong n => exact decoder_command hunit (bsrReadLong_reads _ s)
  | readBit => exact decoder_command hunit (bsrReadInt_reads _ s)
  | _ => cases hcmd

/-- Every instruction but CONSTRUCT; a wire code moves what a decoder's registers hold, or is refused. -/
theorem exec_moves {i : Instr} (henc : ∀ g, i ≠ .constructEnc g) (hdec : ∀ g, i ≠ .constructDec g) (s : State) :
    Answers (Moves i s) (exec i s) := by
  cases hcmd : i.isCommand with
  | true => exact (exec_command hcmd henc hdec s).mono fun t ht => ht.1
  | false =>
    cases hdir : s.dir with
    | enc =>
      obtain ⟨sub, hsub⟩ := exec_wire_of_enc hcmd hdir
      rw [hsub]
      exact answers_next (.responds _ rfl)
    | dec => exact (exec_wire_step hcmd s).mono fun t ht => .decoder hdir ht.moves

/-! ## The statements -/

/-- CONSTRUCT makes a machine that has not failed, or refuses (rules R261, R270). -/
theorem exec_construct {i : Instr} {s : State} (h : (∃ g, i = .constructEnc g) ∨ ∃ g, i = .constructDec g) :
    Answers (fun t => (t.phase ≠ .fault ∧ t.resp = some (.ok .unit)) ∨ ∃ sub, t = s.usage sub) (exec i s) := by
  obtain ⟨g, rfl⟩ | ⟨g, rfl⟩ := h
  · change Answers _ (execConstructEnc g s)
    unfold execConstructEnc
    cases codecOf g.codec.toNat with
    | none => exact answers_next (.inr ⟨_, rfl⟩)
    | some codec =>
      simp only
      split_ifs
      · exact answers_next (.inl ⟨by simp [State.construct, State.answer], rfl⟩)
      · exact answers_next (.inr ⟨_, rfl⟩)
  · change Answers _ (execConstructDec g s)
    unfold execConstructDec
    cases codecOf g.codec.toNat with
    | none => exact answers_next (.inr ⟨_, rfl⟩)
    | some codec =>
      simp only
      split_ifs
      · exact answers_next (.inl ⟨by simp [State.construct, State.answer], rfl⟩)
      · exact answers_next (.inl ⟨by simp [State.construct, State.loadBytes, State.answer], rfl⟩)
      · exact answers_next (.inr ⟨_, rfl⟩)

/-- Out of FAULT every command ends settled. -/
theorem exec_settled {i : Instr} (hcmd : i.isCommand = true) {s : State} (hinv : Inv s) (hphase : s.phase ≠ .fault) :
    Answers Settled (exec i s) := by
  by_cases hcon : (∃ g, i = .constructEnc g) ∨ ∃ g, i = .constructDec g
  · refine (exec_construct hcon).mono fun t ht => ?_
    obtain ⟨hp, hresp⟩ | ⟨sub, rfl⟩ := ht
    · exact settled_answer hp hresp
    · exact settled_usage hphase sub
  · exact (exec_command hcmd (fun g h => hcon (.inl ⟨g, h⟩)) (fun g h => hcon (.inr ⟨g, h⟩)) s).mono
      fun t ht => ht.2 hinv hphase

/-- Settles O49: a failure is entered out of FAULT only, and FAULT refuses every command but CONSTRUCT. -/
theorem failureEntry : Obligations.FailureEntry := by
  intro i s t hinv hcmd hexec
  have hfault : s.phase = .fault → (∀ g, i ≠ .constructEnc g) → (∀ g, i ≠ .constructDec g) →
      ∃ sub, t = s.refuses sub ∧ (sub = .faulted ∨ sub = .badCommand) := fun hphase henc hdec => by
    obtain ⟨sub, hadmit, hsub⟩ := admission_of_fault hphase hcmd henc hdec
    cases (exec_refused hadmit).symm.trans hexec
    exact ⟨sub, rfl, hsub⟩
  refine ⟨fun hphase htfault => ?_, fun code sub hresp hcode => ?_, hfault⟩
  · rcases exec_settled hcmd hinv hphase t hexec with ⟨hp, -⟩ | hfailed
    · exact absurd htfault hp
    · exact hfailed
  · by_cases hphase : s.phase = .fault
    · by_cases hcon : (∃ g, i = .constructEnc g) ∨ ∃ g, i = .constructDec g
      · obtain ⟨-, hok⟩ | ⟨sub', rfl⟩ := exec_construct hcon t hexec
        · cases hok.symm.trans hresp
        · cases hresp
          exact absurd rfl hcode
      · obtain ⟨sub', rfl, -⟩ := hfault hphase (fun g h => hcon (.inl ⟨g, h⟩)) (fun g h => hcon (.inr ⟨g, h⟩))
        cases hresp
        exact absurd rfl hcode
    · rcases exec_settled hcmd hinv hphase t hexec with ⟨-, husage⟩ | ⟨code', sub', hne, hf⟩
      · exact absurd (husage code sub hresp) hcode
      · cases hf.2.2.2.symm.trans hresp
        exact ⟨hphase, hf⟩

/-- Settles O56: each side's moves leave the parameters and the other side's registers alone. -/
theorem personalitiesStayApart : Obligations.PersonalitiesStayApart := by
  intro i s t henc hdec hexec
  cases exec_moves henc hdec s t hexec with
  | responds r h => subst h; simp
  | encoder hdir h _ =>
    have hkept := h.kept
    simp only [State.encoderKept, State.mk.injEq] at hkept
    simp [hkept, hdir]
  | decoder hdir h =>
    have hkept := h.kept
    simp only [State.decoderKept, State.mk.injEq] at hkept
    simp [hkept, hdir]
  | loads bs hi hdir h =>
    subst h
    simp [State.loadBytes, State.answer, hdir, hi]

/-- Settles O57: on either side cursors, counts and flags move forward, and INDEX is reset only while it is 0. -/
theorem cursorsOnlyMoveForward : Obligations.CursorsOnlyMoveForward := by
  intro i s t hinv henc hdec hload hexec
  have hprefix {u : State} (h : s.stream <+: u.stream) : u.stream.take s.wpos = s.stream := by
    have := List.prefix_iff_eq_take.mp h
    rw [s.stream_length] at this
    exact this.symm
  cases exec_moves henc hdec s t hexec with
  | responds r h => subst h; exact ⟨le_rfl, le_rfl, le_rfl, le_rfl, le_rfl, id, id, id, hprefix List.prefix_rfl⟩
  | encoder hdir h hindex =>
    obtain ⟨⟨hwf, -⟩, -, ⟨hphases, -⟩, -, -, -, -, hopen, -⟩ := hinv
    have hkept := h.kept
    simp only [State.encoderKept, State.mk.injEq] at hkept
    have hsame : t.rpos = s.rpos ∧ t.count = s.count ∧ t.loaded = s.loaded ∧ t.pastEnd = s.pastEnd := by simp [hkept]
    obtain ⟨hrpos, hcount, hloaded, hpast⟩ := hsame
    have hindex' : s.index ≤ t.index := by
      rcases hindex with ⟨hfault, hclosed, hbs⟩ | hsame
      · have hphase : s.phase = .opened := by
          have := hphases hdir
          cases hp : s.phase <;> simp [hp] at hfault hclosed this ⊢
        obtain ⟨-, hfresh, -⟩ := hopen hdir hphase hbs
        refine (h.index fun hfirst => ?_).1
        obtain ⟨-, -, -, hzero, -⟩ := hfresh hfirst
        exact hzero
      · exact hsame.ge
    exact ⟨h.wpos, hrpos.ge, h.size, hcount.ge, hindex', h.flushed, hloaded.trans, hpast.trans, hprefix (h.stream hwf).2⟩
  | decoder hdir h =>
    have hkept := h.kept
    simp only [State.decoderKept, State.mk.injEq] at hkept
    have hsame : t.wpos = s.wpos ∧ t.size = s.size ∧ t.index = s.index ∧ t.flushed = s.flushed ∧ t.loaded = s.loaded ∧
        t.wbuf = s.wbuf := by simp [hkept]
    obtain ⟨hwpos, hsize, hindex, hflushed, hloaded, hwbuf⟩ := hsame
    exact ⟨hwpos.ge, h.rpos, hsize.ge, h.count, hindex.ge, hflushed.trans, hloaded.trans, h.pastEnd,
      hprefix (by rw [State.stream, State.stream, hwpos, hwbuf])⟩
  | loads bs hi => exact absurd hi (hload bs)

end Machine
end Sys2Proof
end

section
/-! PROOFS. `RN_N` rounds to nearest, ties to even (rule R17). A magnitude is read off its bits as a number of units of
the least subnormal; that reading is strictly increasing in the bits, and `RN_N` picks one of two bit patterns side by
side. -/

namespace Sys2Proof
namespace Machine

/-! ## Magnitudes in units of the least subnormal (rule R16) -/

/-- The magnitude with the bits `c`, in units of the least subnormal of a format with `M` mantissa bits. -/
def codeUnits (M c : Nat) : Nat := if c / 2 ^ M = 0 then c % 2 ^ M else (2 ^ M + c % 2 ^ M) * 2 ^ (c / 2 ^ M - 1)

/-- A significand `s` at the exponent `k` above the subnormals', the carry to the next exponent included. -/
theorem codeUnits_significand {M k s : Nat} (hs : s ≤ 2 ^ (M + 1)) (hk : k = 0 ∨ 2 ^ M ≤ s) :
    codeUnits M (k * 2 ^ M + s) = s * 2 ^ k := by
  have hpos : 0 < 2 ^ M := by positivity
  have htwo : 2 ^ (M + 1) = 2 * 2 ^ M := by ring
  have hfields : ∀ e m, m < 2 ^ M → (e * 2 ^ M + m) / 2 ^ M = e ∧ (e * 2 ^ M + m) % 2 ^ M = m := fun e m hm => by
    rw [Nat.mul_comm, Nat.mul_add_div hpos, Nat.mul_add_mod, Nat.div_eq_of_lt hm, Nat.mod_eq_of_lt hm]
    exact ⟨rfl, rfl⟩
  unfold codeUnits
  rcases Nat.lt_or_ge s (2 ^ M) with hlow | hlow
  · obtain rfl : k = 0 := hk.resolve_right (by omega)
    obtain ⟨hdiv, hmod⟩ := hfields 0 s hlow
    rw [hdiv, hmod, if_pos rfl, pow_zero, mul_one]
  rcases Nat.lt_or_ge s (2 ^ (M + 1)) with hhigh | hhigh
  · obtain ⟨m, rfl⟩ := Nat.exists_eq_add_of_le hlow
    obtain ⟨hdiv, hmod⟩ := hfields (k + 1) m (by omega)
    rw [← Nat.add_assoc, ← Nat.succ_mul, hdiv, hmod, if_neg (by omega), Nat.add_sub_cancel]
  · obtain rfl : s = 2 ^ (M + 1) := Nat.le_antisymm hs hhigh
    obtain ⟨hdiv, hmod⟩ := hfields (k + 2) 0 hpos
    rw [show k * 2 ^ M + 2 ^ (M + 1) = (k + 2) * 2 ^ M + 0 by ring, hdiv, hmod, if_neg (by omega)]
    rw [show k + 2 - 1 = k + 1 by omega, htwo]
    ring

theorem exists_significand (M c : Nat) : ∃ k s, c = k * 2 ^ M + s ∧ s < 2 ^ (M + 1) ∧ (k = 0 ∨ 2 ^ M ≤ s) := by
  have hdiv := Nat.div_add_mod c (2 ^ M)
  have hmod : c % 2 ^ M < 2 ^ M := Nat.mod_lt _ (by positivity)
  have htwo : 2 ^ (M + 1) = 2 * 2 ^ M := by ring
  cases he : c / 2 ^ M with
  | zero =>
    rw [he] at hdiv
    exact ⟨0, c, by omega, by omega, .inl rfl⟩
  | succ e =>
    rw [he, Nat.mul_succ, Nat.mul_comm] at hdiv
    exact ⟨e, 2 ^ M + c % 2 ^ M, by omega, by omega, .inr (by omega)⟩

theorem codeUnits_strictMono (M : Nat) : StrictMono (codeUnits M) := by
  refine strictMono_nat_of_lt_succ fun c => ?_
  obtain ⟨k, s, rfl, hs, hk⟩ := exists_significand M c
  rw [codeUnits_significand hs.le hk, Nat.add_assoc, codeUnits_significand hs (hk.imp_right fun h => by omega)]
  exact Nat.mul_lt_mul_of_pos_right (Nat.lt_succ_self s) (by positivity)

theorem codeUnits_cast_strictMono (M : Nat) : StrictMono fun c => (codeUnits M c : ℚ) :=
  fun _ _ h => Nat.cast_lt.mpr (codeUnits_strictMono M h)

/-! ## The nearest of a strictly increasing sequence -/

/-- `r` is nearest to `x` among the places of an increasing sequence, and even where another place is as near. -/
def NearestEven (f : Nat → ℚ) (x : ℚ) (r : Nat) : Prop :=
  ∀ w, |f r - x| ≤ |f w - x| ∧ (|f r - x| = |f w - x| → w ≠ r → r % 2 = 0)

/-- `r` is the nearer of two neighbours around `x`, the even one on a tie. -/
def NearerEven (lo hi x : ℚ) (a r : Nat) : Prop :=
  (r = a ∧ (x - lo < hi - x ∨ (x - lo = hi - x ∧ a % 2 = 0))) ∨
    (r = a + 1 ∧ (hi - x < x - lo ∨ (x - lo = hi - x ∧ (a + 1) % 2 = 0)))

theorem nearestEven_of_neighbours {f : Nat → ℚ} (hf : StrictMono f) {x : ℚ} {a r : Nat} (hlo : f a ≤ x) (hhi : x < f (a + 1))
    (h : NearerEven (f a) (f (a + 1)) x a r) : NearestEven f x r := by
  intro w
  have hlow : |f a - x| = x - f a := by rw [abs_sub_comm, abs_of_nonneg (by linarith)]
  have hhigh : |f (a + 1) - x| = f (a + 1) - x := abs_of_nonneg (by linarith)
  have hw : (w = a ∧ |f w - x| = x - f a) ∨ (w = a + 1 ∧ |f w - x| = f (a + 1) - x) ∨
      (x - f a < |f w - x| ∧ w < a) ∨ (f (a + 1) - x < |f w - x| ∧ a + 1 < w) := by
    rcases lt_trichotomy w a with hlt | rfl | hgt
    · have := hf hlt
      exact .inr (.inr (.inl ⟨by rw [abs_sub_comm, abs_of_nonneg (by linarith)]; linarith, hlt⟩))
    · exact .inl ⟨rfl, hlow⟩
    · rcases Nat.lt_or_ge (a + 1) w with hlt | hle
      · have := hf hlt
        exact .inr (.inr (.inr ⟨by rw [abs_of_nonneg (by linarith)]; linarith, hlt⟩))
      · obtain rfl : w = a + 1 := by omega
        exact .inr (.inl ⟨rfl, hhigh⟩)
  rcases h with ⟨rfl, hnear⟩ | ⟨rfl, hnear⟩
  · rw [hlow]
    rcases hw with ⟨rfl, hw⟩ | ⟨-, hw⟩ | ⟨hw, -⟩ | ⟨hw, -⟩
    · exact ⟨hw.ge, fun _ h => absurd rfl h⟩
    · rw [hw]
      rcases hnear with hlt | ⟨heq, heven⟩
      · exact ⟨hlt.le, fun h => by linarith⟩
      · exact ⟨heq.le, fun _ _ => heven⟩
    · exact ⟨hw.le, fun h => by linarith⟩
    · have : x - f r ≤ f (r + 1) - x := by rcases hnear with hlt | ⟨heq, -⟩ <;> linarith
      exact ⟨by linarith, fun h => by linarith⟩
  · rw [hhigh]
    rcases hw with ⟨-, hw⟩ | ⟨rfl, hw⟩ | ⟨hw, -⟩ | ⟨hw, -⟩
    · rw [hw]
      rcases hnear with hlt | ⟨heq, heven⟩
      · exact ⟨hlt.le, fun h => by linarith⟩
      · exact ⟨heq.ge, fun _ _ => heven⟩
    · exact ⟨hw.ge, fun _ h => absurd rfl h⟩
    · have : f (a + 1) - x ≤ x - f a := by rcases hnear with hlt | ⟨heq, -⟩ <;> linarith
      exact ⟨by linarith, fun h => by linarith⟩
    · exact ⟨hw.le, fun h => by linarith⟩

/-! ## `roundEven` and the binary exponent -/

theorem roundEven_nearer (num : Nat) {den : Nat} (hden : 0 < den) :
    ((num / den : Nat) : ℚ) ≤ (num : ℚ) / den ∧ (num : ℚ) / den < (num / den : Nat) + 1 ∧
      NearerEven (num / den : Nat) ((num / den : Nat) + 1) ((num : ℚ) / den) (num / den) (roundEven num den) := by
  have hd : (0 : ℚ) < den := by exact_mod_cast hden
  have hnum : (num : ℚ) = den * (num / den : Nat) + (num % den : Nat) := by exact_mod_cast (Nat.div_add_mod num den).symm
  have hsplit : (num : ℚ) / den = (num / den : Nat) + ((num % den : Nat) : ℚ) / den := by
    rw [div_eq_iff hd.ne', add_mul, div_mul_cancel₀ _ hd.ne', hnum]
    ring
  have hrest : (0 : ℚ) ≤ ((num % den : Nat) : ℚ) / den := by positivity
  have hbelow : ((num % den : Nat) : ℚ) / den < 1 := by
    rw [div_lt_one hd]
    exact_mod_cast Nat.mod_lt num hden
  have hlt : ((num % den : Nat) : ℚ) / den < 1 / 2 ↔ 2 * (num % den) < den := by
    rw [div_lt_div_iff₀ hd (by norm_num), one_mul, mul_comm]
    exact_mod_cast Iff.rfl
  have hgt : 1 / 2 < ((num % den : Nat) : ℚ) / den ↔ den < 2 * (num % den) := by
    rw [div_lt_div_iff₀ (by norm_num) hd, one_mul, mul_comm]
    exact_mod_cast Iff.rfl
  rw [hsplit]
  refine ⟨by linarith, by linarith, ?_⟩
  unfold roundEven
  split_ifs with h1 h2
  · exact .inl ⟨rfl, .inl (by linarith [hlt.mpr h1])⟩
  · exact .inr ⟨rfl, .inl (by linarith [hgt.mpr h2])⟩
  · have htie : ((num % den : Nat) : ℚ) / den = 1 / 2 :=
      le_antisymm (not_lt.mp fun h => h2 (hgt.mp h)) (not_lt.mp fun h => h1 (hlt.mp h))
    rcases Nat.mod_two_eq_zero_or_one (num / den) with heven | hodd
    · exact .inl ⟨by omega, .inr ⟨by linarith, heven⟩⟩
    · exact .inr ⟨by omega, .inr ⟨by linarith, by omega⟩⟩

theorem floorLog2_spec (a : Frac) (hnum : 0 < a.num) (hden : 0 < a.den) :
    (2 : ℚ) ^ floorLog2 a ≤ a.val ∧ a.val < (2 : ℚ) ^ (floorLog2 a + 1) := by
  have hd : (0 : ℚ) < a.den := by exact_mod_cast hden
  unfold floorLog2 Frac.val
  split
  case isTrue h =>
    have hpos : a.num / a.den ≠ 0 := (Nat.div_pos h hden).ne'
    have hlow : a.den * 2 ^ log2Above a ≤ a.num := by
      rw [Nat.mul_comm]
      exact (Nat.le_div_iff_mul_le hden).mp (Nat.log2_self_le hpos)
    have hhigh : a.num < a.den * 2 ^ (log2Above a + 1) := by
      rw [Nat.mul_comm]
      exact (Nat.div_lt_iff_lt_mul hden).mp Nat.lt_log2_self
    rw [le_div_iff₀ hd, div_lt_iff₀ hd, ← Nat.cast_succ, zpow_natCast, zpow_natCast, mul_comm, mul_comm _ (a.den : ℚ)]
    exact ⟨by exact_mod_cast hlow, by exact_mod_cast hhigh⟩
  case isFalse h =>
    have hceil : ∀ k, ceilDiv a.den a.num ≤ k ↔ a.den ≤ a.num * k := fun k => by
      rw [ceilDiv, ← Nat.ceilDiv_eq_add_pred_div, ceilDiv_le_iff_le_mul hnum]
    have htwo : ceilDiv a.den a.num - 1 ≠ 0 := by
      have := (hceil 1).mp.mt (by omega)
      omega
    have hlow : a.den ≤ a.num * 2 ^ log2Below a := by
      rw [← hceil, log2Below]
      have := @Nat.lt_log2_self (ceilDiv a.den a.num - 1)
      omega
    have hhigh : a.num * 2 ^ log2Below a < a.den * 2 := by
      have hle := Nat.log2_self_le htwo
      have := (hceil (2 ^ (ceilDiv a.den a.num - 1).log2)).mpr.mt (by omega)
      rw [log2Below, pow_succ, ← Nat.mul_assoc]
      omega
    rw [zpow_add₀ (by norm_num), zpow_neg, zpow_natCast, zpow_one, inv_mul_eq_div, div_lt_div_iff₀ hd (by positivity),
      le_div_iff₀ hd, inv_mul_le_iff₀ (by positivity)]
    exact ⟨by rw [mul_comm]; exact_mod_cast hlow, by rw [mul_comm (2 : ℚ)]; exact_mod_cast hhigh⟩

/-! ## The bits of `RN_N` -/

/-- The bits `RN_N` would give in a format without an infinity (rule R17). -/
def roundCode (n : Nat) (q : Frac) : Nat :=
  (roundExp n q + (bias n : Int) - 1).toNat * 2 ^ mantBits n + roundSig n q (roundExp n q)

/-- A fraction in units of the least subnormal. -/
def Frac.units (n : Nat) (q : Frac) : ℚ := q.val / 2 ^ (1 - (bias n : Int) - (mantBits n : Int))

/-- The significand of `q` before it is rounded lies in the binade of its exponent, or among the subnormals. -/
theorem significand_bounds (n : Nat) {q : Frac} (hnum : 0 < q.num) (hden : 0 < q.den) :
    q.val * (2 : ℚ) ^ ((mantBits n : Int) - roundExp n q) < 2 ^ (mantBits n + 1) ∧
      (roundExp n q = 1 - (bias n : Int) ∨ 2 ^ mantBits n ≤ q.val * (2 : ℚ) ^ ((mantBits n : Int) - roundExp n q)) := by
  obtain ⟨hlow, hhigh⟩ := floorLog2_spec q hnum hden
  have hle : floorLog2 q ≤ roundExp n q := le_max_left _ _
  have hunit : (0 : ℚ) < 2 ^ ((mantBits n : Int) - roundExp n q) := by positivity
  refine ⟨?_, ?_⟩
  · calc q.val * (2 : ℚ) ^ ((mantBits n : Int) - roundExp n q)
        < 2 ^ (floorLog2 q + 1) * 2 ^ ((mantBits n : Int) - roundExp n q) := mul_lt_mul_of_pos_right hhigh hunit
      _ = 2 ^ (floorLog2 q + 1 + ((mantBits n : Int) - roundExp n q)) := (zpow_add₀ (by norm_num) _ _).symm
      _ ≤ 2 ^ ((mantBits n + 1 : Nat) : Int) := zpow_le_zpow_right₀ (by norm_num) (by push_cast; omega)
      _ = 2 ^ (mantBits n + 1) := zpow_natCast _ _
  · rcases max_choice (floorLog2 q) (1 - (bias n : Int)) with hmax | hmax
    · right
      have hexp : roundExp n q = floorLog2 q := hmax
      calc (2 : ℚ) ^ mantBits n = 2 ^ (floorLog2 q) * 2 ^ ((mantBits n : Int) - roundExp n q) := by
            rw [← zpow_add₀ (by norm_num), hexp, add_sub_cancel, zpow_natCast]
        _ ≤ q.val * 2 ^ ((mantBits n : Int) - roundExp n q) := mul_le_mul_of_nonneg_right hlow hunit.le
    · exact .inl hmax

/-- Two neighbours, and what lies between them, at another exponent. -/
theorem NearerEven.scale {lo hi x : ℚ} {a r : Nat} (h : NearerEven lo hi x a r) {u : ℚ} (hu : 0 < u) {c : Nat} (hc : c % 2 = 0) :
    NearerEven (lo * u) (hi * u) (x * u) (c + a) (c + r) := by
  have hlt : ∀ {p q : ℚ}, p < q → p * u < q * u := fun h => mul_lt_mul_of_pos_right h hu
  unfold NearerEven
  simp only [← sub_mul]
  rcases h with ⟨rfl, hnear⟩ | ⟨rfl, hnear⟩
  · exact .inl ⟨rfl, hnear.imp hlt fun ⟨heq, heven⟩ => ⟨by rw [heq], by omega⟩⟩
  · exact .inr ⟨by omega, hnear.imp hlt fun ⟨heq, heven⟩ => ⟨by rw [heq], by omega⟩⟩

theorem roundCode_nearest (n : Nat) {q : Frac} (hnum : 0 < q.num) (hden : 0 < q.den) :
    NearestEven (fun c => (codeUnits (mantBits n) c : ℚ)) (q.units n) (roundCode n q) := by
  obtain ⟨hhigh, hlow⟩ := significand_bounds n hnum hden
  obtain ⟨k, hk⟩ : ∃ k : Nat, (k : Int) = roundExp n q + bias n - 1 := ⟨(roundExp n q + bias n - 1).toNat, by
    have : 1 - (bias n : Int) ≤ roundExp n q := le_max_right _ _
    omega⟩
  set E := roundExp n q with hE
  set num := q.num * 2 ^ ((mantBits n : Int) - E).toNat with hnum'
  set den := q.den * 2 ^ (E - (mantBits n : Int)).toNat with hden'
  have hdpos : 0 < den := by positivity
  have hy : (num : ℚ) / den = q.val * (2 : ℚ) ^ ((mantBits n : Int) - E) := by
    rw [hnum', hden', Frac.val]
    push_cast
    rw [mul_div_mul_comm, ← zpow_natCast, ← zpow_natCast, ← zpow_sub₀ (by norm_num)]
    congr 2
    omega
  have hunits : q.units n = (num : ℚ) / den * 2 ^ k := by
    rw [hy, Frac.units, mul_assoc, ← zpow_natCast, ← zpow_add₀ (by norm_num), div_eq_mul_inv, ← zpow_neg]
    congr 2
    omega
  rw [← hy] at hhigh hlow
  obtain ⟨hfloor, hnext, hnear⟩ := roundEven_nearer num hdpos
  have hsmall : num / den < 2 ^ (mantBits n + 1) := by exact_mod_cast hfloor.trans_lt hhigh
  have hnormal : k = 0 ∨ 2 ^ mantBits n ≤ num / den := by
    refine hlow.imp (fun h => by omega) fun h => Nat.lt_succ_iff.mp ?_
    exact_mod_cast h.trans_lt hnext
  have hpos : (0 : ℚ) < 2 ^ k := by positivity
  have hc0 : (codeUnits (mantBits n) (k * 2 ^ mantBits n + num / den) : ℚ) = (num / den : Nat) * 2 ^ k := by
    rw [codeUnits_significand hsmall.le hnormal]
    push_cast
    rfl
  have hc1 : (codeUnits (mantBits n) (k * 2 ^ mantBits n + num / den + 1) : ℚ) = ((num / den : Nat) + 1) * 2 ^ k := by
    rw [Nat.add_assoc, codeUnits_significand hsmall (hnormal.imp_right fun h => by omega)]
    push_cast
    rfl
  have heven : k * 2 ^ mantBits n % 2 = 0 := by
    have : 2 ∣ 2 ^ mantBits n := dvd_pow_self 2 (by unfold mantBits; split <;> decide)
    exact Nat.mod_eq_zero_of_dvd (this.mul_left k)
  have hcode : roundCode n q = k * 2 ^ mantBits n + roundEven num den := by
    rw [roundCode, ← hE, ← hk, Int.toNat_natCast, roundSig]
  rw [hunits, hcode]
  refine nearestEven_of_neighbours (a := k * 2 ^ mantBits n + num / den)
    (codeUnits_cast_strictMono _) ?_ ?_ ?_
  · rw [hc0]
    exact mul_le_mul_of_nonneg_right hfloor hpos.le
  · rw [hc1]
    exact mul_lt_mul_of_pos_right hnext hpos
  · rw [hc0, hc1]
    exact hnear.scale hpos heven

/-! ## The largest finite number and the infinity -/

/-- The sequence is rounded past an odd place `m` exactly from the middle between it and the next. -/
theorem NearestEven.past_iff {f : Nat → ℚ} (hf : StrictMono f) {x : ℚ} {c : Nat} (h : NearestEven f x c) {m : Nat}
    (hm : m % 2 = 1) : m + 1 ≤ c ↔ (f m + f (m + 1)) / 2 ≤ x := by
  have hstep : f m < f (m + 1) := hf (Nat.lt_succ_self m)
  constructor
  · intro hc
    by_contra hx
    have hfc : f (m + 1) ≤ f c := hf.monotone hc
    have hnear := (h m).1
    rw [abs_of_nonneg (by linarith)] at hnear
    rcases le_total (f m) x with hle | hle
    · rw [abs_sub_comm, abs_of_nonneg (by linarith)] at hnear
      linarith
    · rw [abs_of_nonneg (by linarith)] at hnear
      linarith
  · intro hx
    by_contra hc
    have hfc : f c ≤ f m := hf.monotone (by omega)
    obtain ⟨hnear, htie⟩ := h (m + 1)
    have habs : |f c - x| = x - f c := by rw [abs_sub_comm, abs_of_nonneg (by linarith)]
    have hupper : |f (m + 1) - x| ≤ x - f m := abs_le.mpr ⟨by linarith, by linarith⟩
    rw [habs] at hnear htie
    have hcm : c = m := hf.injective (by linarith)
    subst hcm
    have := htie (by linarith) (by omega)
    omega

/-- The bits of the infinity. -/
def infCode (n : Nat) : Nat := (2 ^ expBits n - 1) * 2 ^ mantBits n

section
variable {n : Nat} (hn : n = 64 ∨ n = 32)
include hn

theorem mantBits_add_expBits : mantBits n + expBits n = n - 1 := by rcases hn with rfl | rfl <;> rfl

theorem infCode_lt : infCode n < 2 ^ 64 := by rcases hn with rfl | rfl <;> decide

theorem expField_of_positive {w : Raw} (hw : w.toNat < 2 ^ (n - 1)) : expField n w = w.toNat / 2 ^ mantBits n := by
  rw [expField, Nat.mod_eq_of_lt]
  rw [Nat.div_lt_iff_lt_mul (by positivity), ← pow_add, Nat.add_comm, mantBits_add_expBits hn]
  exact hw

/-- A number without a sign is its bits' number of units. -/
theorem rawVal_of_positive {w : Raw} (hw : w.toNat < 2 ^ (n - 1)) :
    rawVal n w = codeUnits (mantBits n) w.toNat * 2 ^ (1 - (bias n : Int) - (mantBits n : Int)) := by
  have hsign : signBit n w = false := getLsbD_of_lt w (n - 1) (n - 1) hw le_rfl
  rw [rawVal, hsign, expField_of_positive hn hw, mantField, codeUnits]
  simp only [Bool.false_eq_true, if_false, one_mul]
  split_ifs with he
  · rw [mul_comm]
  · obtain ⟨e, he'⟩ := Nat.exists_eq_succ_of_ne_zero he
    rw [he', Nat.succ_sub_one]
    push_cast
    rw [mul_assoc, ← zpow_natCast (2 : ℚ) e, ← zpow_add₀ (by norm_num), mul_comm]
    congr 2
    omega

theorem isInf_iff_of_positive {w : Raw} (hw : w.toNat < 2 ^ (n - 1)) : isInf n w = true ↔ w.toNat = infCode n := by
  have hpos : 0 < 2 ^ mantBits n := by positivity
  have hdiv := Nat.div_add_mod w.toNat (2 ^ mantBits n)
  rw [isInf, expField_of_positive hn hw, mantField, infCode]
  simp only [Bool.and_eq_true, beq_iff_eq]
  constructor
  · rintro ⟨he, hm⟩
    rw [he, hm, Nat.mul_comm] at hdiv
    exact hdiv.symm
  · intro h
    rw [h, Nat.mul_div_cancel _ hpos, Nat.mul_mod_left]
    exact ⟨rfl, rfl⟩

theorem not_isNaN_of_le {w : Raw} (hw : w.toNat < 2 ^ (n - 1)) (hle : w.toNat ≤ infCode n) : isNaN n w = false := by
  have hdiv := Nat.div_add_mod w.toNat (2 ^ mantBits n)
  rw [isNaN, expField_of_positive hn hw, mantField]
  rw [infCode] at hle
  by_contra h
  simp only [Bool.not_eq_false, Bool.and_eq_true, beq_iff_eq, bne_iff_ne] at h
  obtain ⟨he, hm⟩ := h
  rw [he, Nat.mul_comm] at hdiv
  omega

theorem roundNearest_toNat {q : Frac} (hnum : q.num ≠ 0) :
    (roundNearest n q).toNat = min (roundCode n q) (infCode n) := by
  have hinf := infCode_lt hn
  rw [roundNearest, if_neg hnum, BitVec.toNat_ofNat]
  exact Nat.mod_eq_of_lt (Nat.lt_of_le_of_lt (Nat.min_le_right _ _) hinf)

/-- Rule R17's bound is the middle between the largest finite number and the infinity's place. -/
theorem infinity_bound_iff (q : Frac) :
    (2 - (2 : ℚ) ^ (-(mantBits n : Int) - 1)) * 2 ^ (2 ^ expBits n - 2 - bias n) ≤ q.val ↔
      ((codeUnits (mantBits n) (infCode n - 1) : ℚ) + codeUnits (mantBits n) (infCode n - 1 + 1)) / 2 ≤ q.units n := by
  obtain ⟨b, hb, hK⟩ : ∃ b, bias n = b + 1 ∧ 2 ^ expBits n = 2 * b + 4 := by
    rcases hn with rfl | rfl
    · exact ⟨1022, rfl, rfl⟩
    · exact ⟨126, rfl, rfl⟩
  have hM : 1 ≤ 2 ^ mantBits n := Nat.one_le_two_pow
  have hprev : infCode n - 1 = (2 * b + 1) * 2 ^ mantBits n + (2 ^ (mantBits n + 1) - 1) := by
    rw [infCode, hK, show 2 * b + 4 - 1 = 2 * b + 1 + 2 by omega, Nat.add_mul, pow_succ]
    omega
  have hnext : infCode n - 1 + 1 = (2 * b + 1) * 2 ^ mantBits n + 2 ^ (mantBits n + 1) := by
    rw [hprev]
    have : 1 ≤ 2 ^ (mantBits n + 1) := Nat.one_le_two_pow
    omega
  have htwo : 2 ^ mantBits n ≤ 2 ^ (mantBits n + 1) - 1 := by rw [pow_succ]; omega
  rw [hnext, hprev, codeUnits_significand (Nat.sub_le _ _) (.inr htwo), codeUnits_significand le_rfl (.inr (by omega)),
    Frac.units, le_div_iff₀ (by positivity), hb, hK]
  have hmid : (((2 ^ (mantBits n + 1) - 1) * 2 ^ (2 * b + 1) : Nat) : ℚ) + ((2 ^ (mantBits n + 1) * 2 ^ (2 * b + 1) : Nat) : ℚ) =
      (2 ^ (mantBits n + 2) - 1) * 2 ^ (2 * b + 1) := by
    rw [← Nat.cast_add, ← Nat.add_mul, Nat.cast_mul, Nat.cast_add, Nat.cast_sub Nat.one_le_two_pow]
    push_cast
    ring
  have hexp : (2 : ℚ) ^ (1 - ((b + 1 : Nat) : Int) - (mantBits n : Int)) = (2 ^ b * 2 ^ mantBits n)⁻¹ := by
    rw [show 1 - ((b + 1 : Nat) : Int) - (mantBits n : Int) = -((b + mantBits n : Nat) : Int) by push_cast; ring, zpow_neg,
      zpow_natCast, pow_add]
  have hneg : (2 : ℚ) ^ (-(mantBits n : Int) - 1) = (2 ^ (mantBits n + 1))⁻¹ := by
    rw [show -(mantBits n : Int) - 1 = -((mantBits n + 1 : Nat) : Int) by push_cast; ring, zpow_neg, zpow_natCast]
  have hbound : (2 - (2 : ℚ) ^ (-(mantBits n : Int) - 1)) * 2 ^ (2 * b + 4 - 2 - (b + 1)) =
      (2 ^ (mantBits n + 2) - 1) * 2 ^ (2 * b + 1) / 2 * 2 ^ (1 - ((b + 1 : Nat) : Int) - (mantBits n : Int)) := by
    rw [hneg, hexp, show 2 * b + 4 - 2 - (b + 1) = b + 1 by omega]
    field_simp
    ring
  rw [hmid, hbound]

theorem infCode_parity : infCode n - 1 + 1 = infCode n ∧ (infCode n - 1) % 2 = 1 := by
  rcases hn with rfl | rfl <;> decide

/-- Zero is rounded to itself. -/
theorem roundNearest_zero {q : Frac} (hnum : q.num = 0) :
    (roundNearest n q).toNat = 0 ∧ q.val = 0 ∧ rawVal n (roundNearest n q) = 0 := by
  have hr : roundNearest n q = 0 := if_pos hnum
  have hval : rawVal n 0 = 0 := by
    rw [rawVal_of_positive hn (show (0 : Raw).toNat < 2 ^ (n - 1) by simp)]
    simp [codeUnits]
  exact ⟨by rw [hr]; rfl, by simp [Frac.val, hnum], by rw [hr]; exact hval⟩

theorem isInf_roundNearest_iff (q : Frac) (hden : 0 < q.den) : isInf n (roundNearest n q) = true ↔
    (2 - (2 : ℚ) ^ (-(mantBits n : Int) - 1)) * 2 ^ (2 ^ expBits n - 2 - bias n) ≤ q.val := by
  obtain ⟨hnext, hodd⟩ := infCode_parity hn
  have hmono := codeUnits_cast_strictMono (mantBits n)
  rw [isInf_iff_of_positive hn (roundNearest_lt hn q), infinity_bound_iff hn]
  by_cases hnum : q.num = 0
  · obtain ⟨hzero, hval, -⟩ := roundNearest_zero hn hnum
    have hunits : q.units n = 0 := by rw [Frac.units, hval, zero_div]
    have hlt : (codeUnits (mantBits n) (infCode n - 1) : ℚ) < codeUnits (mantBits n) (infCode n - 1 + 1) :=
      hmono (Nat.lt_succ_self _)
    have hnonneg : (0 : ℚ) ≤ codeUnits (mantBits n) (infCode n - 1) := by positivity
    rw [hzero, hunits]
    exact iff_of_false (by omega) (by linarith)
  · have hnear := roundCode_nearest n (Nat.pos_of_ne_zero hnum) hden
    rw [← hnear.past_iff hmono hodd, roundNearest_toNat hn hnum]
    omega

/-- Where it is no infinity, what RN_N gives is nearest among the magnitudes of the format, and even on a tie. -/
theorem roundNearest_nearest (q : Frac) (hden : 0 < q.den) (hinf : isInf n (roundNearest n q) = false) (w : Raw)
    (hw : w.toNat < 2 ^ (n - 1)) :
    |rawVal n (roundNearest n q) - q.val| ≤ |rawVal n w - q.val| ∧
      (|rawVal n (roundNearest n q) - q.val| = |rawVal n w - q.val| → w ≠ roundNearest n q →
        (roundNearest n q).toNat % 2 = 0) := by
  by_cases hnum : q.num = 0
  · obtain ⟨hzero, hval, hraw⟩ := roundNearest_zero hn hnum
    refine ⟨?_, fun _ _ => by rw [hzero]⟩
    rw [hval, hraw, sub_zero, abs_zero]
    exact abs_nonneg _
  · have hcode : (roundNearest n q).toNat = roundCode n q := by
      have hne : (roundNearest n q).toNat ≠ infCode n := fun h => by
        rw [(isInf_iff_of_positive hn (roundNearest_lt hn q)).mpr h] at hinf
        cases hinf
      rw [roundNearest_toNat hn hnum] at hne ⊢
      omega
    have hunit : (0 : ℚ) < 2 ^ (1 - (bias n : Int) - (mantBits n : Int)) := by positivity
    have hscaled : ∀ v : Raw, v.toNat < 2 ^ (n - 1) → |rawVal n v - q.val| =
        |(codeUnits (mantBits n) v.toNat : ℚ) - q.units n| * 2 ^ (1 - (bias n : Int) - (mantBits n : Int)) := fun v hv => by
      have hval : q.val = q.units n * 2 ^ (1 - (bias n : Int) - (mantBits n : Int)) := by
        rw [Frac.units, div_mul_cancel₀ _ hunit.ne']
      rw [rawVal_of_positive hn hv, hval, ← sub_mul, abs_mul, abs_of_pos hunit]
    obtain ⟨hle, htie⟩ := roundCode_nearest n (Nat.pos_of_ne_zero hnum) hden w.toNat
    rw [hscaled _ (roundNearest_lt hn q), hscaled w hw, hcode]
    refine ⟨mul_le_mul_of_nonneg_right hle hunit.le, fun heq hne => htie (mul_right_cancel₀ hunit.ne' heq) fun h => ?_⟩
    exact hne (BitVec.eq_of_toNat_eq (h.trans hcode.symm))

end

/-- Settles O42: the bits of magnitudes rise with the value, RN_N picks the nearest of them, and its cap is the
infinity. -/
theorem roundNearestIsNearest : Obligations.RoundNearestIsNearest := by
  intro n q hn hden
  exact ⟨roundNearest_lt hn q, not_isNaN_of_le hn (roundNearest_lt hn q) (roundNearest_le n q),
    isInf_roundNearest_iff hn q hden, fun hinf w hw _ _ => roundNearest_nearest hn q hden hinf w hw⟩

end Machine
end Sys2Proof
end
